-- ==== Sys2Proof/Word.lean ====
section
/-! DEFINITION. The widths the spec uses (R16): u8, u24 and u32 values as bit vectors. -/

namespace Sys2Proof

/-- A u8: one byte of a frame, of WBUF or of DBUF (R16). -/
abbrev Byte := BitVec 8

/-- A u24: a flash address (R11). -/
abbrev Addr := BitVec 24

/-- A u32: a host register or a command word (R16, R120). -/
abbrev Word := BitVec 32

end Sys2Proof
end

