-- ==== Sys2Proof/Syntax.lean ====
section
/-! DEFINITION. The instructions: one constructor per row of spec/opcode_table.json (R2, R122, R124), and the
fields of a command word (R121). -/

namespace Sys2Proof

/-- A host command. The first eight are the FRAME class (R124), the rest the other classes (R122). -/
inductive Instr where
  /-- RDID, identify 0x9F (R182). -/
  | rdid
  /-- RDSR1, read-status-register-1 0x05 (R183). -/
  | rdsr1
  /-- RDSR2, read-status-register-2 0x35 (R184). -/
  | rdsr2
  /-- READ, read-data 0x03; address and length come from ADDR and LEN (R191). -/
  | read
  /-- WREN, write-enable 0x06 (R185). -/
  | wren
  /-- WRDI, write-disable 0x04 (R186). -/
  | wrdi
  /-- CE, chip-erase 0xC7 (R187). -/
  | ce
  /-- PP, page-program 0x02; address, length and payload come from ADDR, LEN and DBUF (R195). -/
  | pp
  /-- SELECT (R160). -/
  | select
  /-- EXCHANGE #b: one byte in a frame the host opened (R162). -/
  | exchange (b : Byte)
  /-- DESELECT (R163). -/
  | deselect
  /-- WAIT_READY (R221). -/
  | waitReady
  /-- READ_ID (R240). -/
  | readId
  /-- DUMP (R252). -/
  | dump
  /-- UPLOAD (R260). -/
  | upload
  /-- VERIFY (R270). -/
  | verify
  deriving DecidableEq, Repr

/-- The fields of a command word (R121). -/
structure CmdWord where
  /-- RSV, bits 31:12. -/
  rsv : BitVec 20
  /-- OP, bits 11:8. -/
  op : BitVec 4
  /-- BYTE, bits 7:0. -/
  byte : Byte
  deriving DecidableEq, Repr

/-- Why a command word is illegal: the four items of R125, in its order. -/
inductive Illegal where
  /-- Item 1: RSV is not 0. -/
  | reservedBits
  /-- Item 2: OP is reserved. -/
  | reservedOp
  /-- Item 3: BYTE is not 0 where it must be. -/
  | byteNotZero
  /-- Item 4: BYTE is not one of the eight flash opcodes. -/
  | flashOpcode
  deriving DecidableEq, Repr

end Sys2Proof
end

