-- ==== Sys2Proof/WellFormed.lean ====
section
/-! DEFINITION. When the fields of a command word are those of a command: the four items of R125, each a check
of its own. An `Instr` needs no further check: its one operand, EXCHANGE's byte, may be any value (R162). -/

namespace Sys2Proof

/-- R125 item 1: RSV is 0. -/
def CmdWord.rsvOk (w : CmdWord) : Bool := w.rsv == 0

/-- R125 item 2: OP is not 0x6, 0x7 or 0xB..0xF. -/
def CmdWord.opOk (w : CmdWord) : Bool :=
  !(w.op == 0x6 || w.op == 0x7 || 0xB ≤ w.op.toNat)

/-- R125 item 3: BYTE is 0 unless OP is FRAME or EXCHANGE. -/
def CmdWord.byteOk (w : CmdWord) : Bool :=
  w.op == 0x0 || w.op == 0x2 || w.byte == 0

/-- R125 item 4: with OP = FRAME, BYTE is one of the eight opcodes of R124. -/
def CmdWord.flashOk (w : CmdWord) : Bool :=
  w.op != 0x0 || [0x9F, 0x05, 0x35, 0x03, 0x06, 0x04, 0xC7, 0x02].contains w.byte

/-- A command word none of R125's items holds of. -/
def CmdWord.wellFormed (w : CmdWord) : Bool :=
  w.rsvOk && w.opOk && w.byteOk && w.flashOk

end Sys2Proof
end

