-- ==== Sys2Proof/Decode.lean ====
section
/-! DEFINITION. The decoder of R130, total on every 32-bit word and rejecting by name, and the encoder of R121
to R124 and R133. A command word is one 32-bit register value, so no byte order enters (R120). -/

namespace Sys2Proof

/-- The fields of a word (R121). -/
def wordFields (w : Word) : CmdWord :=
  { rsv := w.extractLsb' 12 20, op := w.extractLsb' 8 4, byte := w.extractLsb' 0 8 }

/-- The word with given fields (R121). -/
def fieldsWord (f : CmdWord) : Word := f.rsv ++ f.op ++ f.byte

/-- OP = FRAME: BYTE is the flash opcode (R124, R130). -/
def decodeFrame (b : Byte) : Except Illegal Instr :=
  match b.toNat with
  | 0x9F => .ok .rdid
  | 0x05 => .ok .rdsr1
  | 0x35 => .ok .rdsr2
  | 0x03 => .ok .read
  | 0x06 => .ok .wren
  | 0x04 => .ok .wrdi
  | 0xC7 => .ok .ce
  | 0x02 => .ok .pp
  | _ => .error .flashOpcode

/-- A command whose BYTE must be 0 (R125 item 3, R130). -/
def decodePlain (i : Instr) (b : Byte) : Except Illegal Instr :=
  if b = 0 then .ok i else .error .byteNotZero

/-- The decode procedure of R130 on the fields. -/
def decodeFields (f : CmdWord) : Except Illegal Instr :=
  if f.rsv ≠ 0 then .error .reservedBits
  else
    match f.op.toNat with
    | 0x0 => decodeFrame f.byte
    | 0x1 => decodePlain .select f.byte
    | 0x2 => .ok (.exchange f.byte)
    | 0x3 => decodePlain .deselect f.byte
    | 0x4 => decodePlain .waitReady f.byte
    | 0x5 => decodePlain .readId f.byte
    | 0x8 => decodePlain .dump f.byte
    | 0x9 => decodePlain .upload f.byte
    | 0xA => decodePlain .verify f.byte
    | _ => .error .reservedOp

/-- The command a word stands for, or the item of R125 it is illegal by. -/
def decode (w : Word) : Except Illegal Instr := decodeFields (wordFields w)

/-- The OP and BYTE of a command (R122, R124, R133). -/
def encodeFields : Instr → CmdWord
  | .rdid => ⟨0, 0x0, 0x9F⟩
  | .rdsr1 => ⟨0, 0x0, 0x05⟩
  | .rdsr2 => ⟨0, 0x0, 0x35⟩
  | .read => ⟨0, 0x0, 0x03⟩
  | .wren => ⟨0, 0x0, 0x06⟩
  | .wrdi => ⟨0, 0x0, 0x04⟩
  | .ce => ⟨0, 0x0, 0xC7⟩
  | .pp => ⟨0, 0x0, 0x02⟩
  | .select => ⟨0, 0x1, 0⟩
  | .exchange b => ⟨0, 0x2, b⟩
  | .deselect => ⟨0, 0x3, 0⟩
  | .waitReady => ⟨0, 0x4, 0⟩
  | .readId => ⟨0, 0x5, 0⟩
  | .dump => ⟨0, 0x8, 0⟩
  | .upload => ⟨0, 0x9, 0⟩
  | .verify => ⟨0, 0xA, 0⟩

/-- The command word of a command (R133). -/
def encode (i : Instr) : Word := fieldsWord (encodeFields i)

/-- The decoder on a row of spec/opcode_table.json: its bits, all 32 of the word; bits above `nbits` are 0. -/
def decodeTableWord (nbits w : Nat) : Option Instr :=
  match decode (BitVec.ofNat 32 (w % 2 ^ min nbits 32)) with
  | .ok i => some i
  | .error _ => none

end Sys2Proof
end

