-- ==== Sys2Proof/Env.lean ====
section
/-! DEFINITION. What crosses SFC's ports: the events its history records (R85, R86, R32), the moves of the
agents around it (R22, R26, R340) and the answers of the byte source (R19, R86). -/

namespace Sys2Proof

/-- One entry of the event history, in the order the steps take them (R85, R86). -/
inductive BusEvent where
  /-- Chip select driven active (R18). -/
  | select
  /-- One full-duplex byte: `tx` out, `rx` in (R18). -/
  | exchange (tx rx : Byte)
  /-- Chip select released; `idleWait` says whether the bus-idle wait of R344 came first. Only reset
  releases without it (R341). -/
  | deselect (idleWait : Bool)
  /-- A source request for `n` bytes and its answer (R19, R86). -/
  | sourceRead (n : Nat) (ok : Bool) (data : List Byte)
  /-- Bytes handed to the sink and whether it took them (R19, R86). -/
  | sinkWrite (data : List Byte) (ok : Bool)
  /-- One progress tuple (R19, R32). -/
  | progress (transferred total : Nat)
  deriving DecidableEq, Repr

/-- The width of a host access; SFC's interface admits `word` only (R90). -/
inductive AccessWidth where
  | byte | half | word
  deriving DecidableEq, Repr

/-- One move of an agent: SEQ's next primitive, a host register access at a byte offset of the 4 KiB
window, or the reset input (R22, R26, R95, R340). -/
inductive Move where
  | seq
  | hostRead (width : AccessWidth) (off : BitVec 12)
  | hostWrite (width : AccessWidth) (off : BitVec 12) (value : Word)
  | rst
  deriving DecidableEq, Repr, Inhabited

/-- What the byte source has ready: bytes it can still deliver, or an error (R19, R86, R87). -/
inductive SourceAnswer where
  | bytes (data : List Byte)
  | error
  deriving DecidableEq, Repr

end Sys2Proof
end

