-- ==== Sys2Proof/Config.lean ====
section
/-! DEFINITION. What is fixed for the block (the geometry, R8 to R13), the OPEN parameters of
92_eei_decisions.md, and the free values: what an agent outside SFC decides or the spec leaves unspecified.
A free value has no body, so nothing in Lean can tell what it is. -/

namespace Sys2Proof.Config

/-! Geometry (R8, R10). -/

/-- TOTAL_SIZE, 8 MiB (R8). -/
def totalSize : Nat := 0x800000
/-- CHUNK_SIZE, 16 KiB (R8, 90_conflicts C5). -/
def chunkSize : Nat := 0x4000
/-- PAGE_SIZE (R8); also the size of DBUF (R53). -/
def pageSize : Nat := 0x100
/-- HALF = CHUNK_SIZE / 2 (R10). -/
def halfSize : Nat := chunkSize / 2
/-- NUM_CHUNKS (R10). -/
def numChunks : Nat := totalSize / chunkSize
/-- PAGES_PER_CHUNK (R10). -/
def pagesPerChunk : Nat := chunkSize / pageSize
/-- NUM_STRIDES (R10). -/
def numStrides : Nat := totalSize / halfSize
/-- NUM_PAGES (R10). -/
def numPages : Nat := totalSize / pageSize

/-- The dummy byte sent whenever only receiving matters (R12). -/
def dummy : Byte := 0x00
/-- BUSY_BIT (R13). -/
def busyBit : Nat := 0
/-- WEL_BIT (R13); no rule of SFC reads it (R58). -/
def welBit : Nat := 1

/-! OPEN parameters (92_eei_decisions.md). No rule of SFC reads them (R14); FLASH_HIGH_ADDR and the chip's
busy durations show only in the bytes FLASH answers, which are `flashByte` below. -/

/-- SFC_BASE: where the host bus places the 4 KiB window (D2, R315). -/
opaque sfcBase : Nat
/-- SPI_MODE: clock polarity and phase (D27). -/
opaque spiMode : Bool × Bool
/-- SPI_BIT_ORDER: whether the most significant bit is shifted first (D27, R82). -/
opaque spiMsbFirst : Bool
/-- SCLK_HZ (D27, R353). -/
opaque sclkHz : Nat
/-- FLASH_ID: the chip's three identity bytes (D31, R3). -/
opaque flashId : Byte × Byte × Byte
/-- FLASH_HIGH_ADDR: what the chip holds for an address at or above TOTAL_SIZE (D25, R92). -/
opaque flashHighAddr : Addr → Byte
/-- ERASE_TIME and PROG_TIME, in the chip's own unit (D30). -/
opaque eraseTime : Nat
/-- See `eraseTime`. -/
opaque progTime : Nat

/-! Free values. The argument is the counter `State.draws`, so each draw is a fresh one. -/

/-- The byte FLASH returns in draw `n` while `tx` is clocked out, after it has seen the port events `seen` (R84, X1):
any value, whatever the chip makes of all it has seen. Log 4. -/
opaque flashByte (seen : List BusEvent) (tx : Byte) (n : Nat) : Byte
/-- The agent that moves next when State names none (R95, U12): any move. Log 1. -/
opaque nextMove (n : Nat) : Move
/-- Whether the source answers a request for `m` bytes in draw `n`, after the history `past`, and if so whether with
the bytes asked for (R86): none is not yet. Log 5. -/
opaque sourceReady (past : List BusEvent) (m n : Nat) : Option Bool
/-- Byte `k` of that answer (R86). Log 5. -/
opaque sourceByte (past : List BusEvent) (m n k : Nat) : Byte
/-- Whether the sink answers the bytes `d` in draw `n`, after the history `past`, and what (R86): none is not yet.
Log 5. -/
opaque sinkReady (past : List BusEvent) (d : List Byte) (n : Nat) : Option Bool
/-- Byte `k` of WBUF after the reset that made draw `n` (R52, U1). Log 7. -/
opaque wbufByte (n k : Nat) : Byte
/-- Byte `k` of DBUF after the reset that made draw `n` (R53, U2). Log 7. -/
opaque dbufByte (n k : Nat) : Byte

end Sys2Proof.Config
end

