-- ==== Sys2Proof/Machine/State.lean ====
section
/-! DEFINITION. The state of SFC (10_state.md), of the agents around it as far as a step needs them, and the
machine right after reset (R60, R340). Plain data throughout. -/

namespace Sys2Proof.Machine

/-- A byte memory: cells (address, byte), addresses strictly rising. What an unlisted address reads as is
`Memory.read`'s argument: no byte for WBUF and DBUF (a free value stands in, log 7), 0xFF for FREF's array. -/
abbrev Memory := List Host.Cell

/-- STATUS.STATE (R41). -/
inductive Phase where
  | idle | start | transfer | finish
  deriving DecidableEq, Repr

/-- STATUS.CAUSE (R300). -/
inductive Cause where
  | none | srcShort | snkRej | mismatch | unresponsive | len | illegal | state
  deriving DecidableEq, Repr

/-- Which frame of a command a position is in (R180, R220, R240, R260). -/
inductive FrameTag where
  /-- The one frame of a single-frame, transport, polling, DUMP or VERIFY command. -/
  | own
  /-- READ_ID: identify, status-1, status-2 (R240). -/
  | ident | status1 | status2
  /-- UPLOAD: the erase phase (R261). -/
  | eraseWren | eraseCe | erasePoll
  /-- UPLOAD: one page (R263, R264). -/
  | pageWren | pageProg | pagePoll
  deriving DecidableEq, Repr

/-- The sequencer position: the primitive the next SEQ step executes (R40). -/
inductive Pos where
  /-- No command executing. -/
  | idle
  /-- `Select()`. -/
  | select (f : FrameTag)
  /-- `Exchange` of byte `k` of the frame, counted from 0 (R127). -/
  | byte (f : FrameTag) (k : Nat)
  /-- `Exchange` of one status sample (R220). -/
  | sample (f : FrameTag)
  /-- `Deselect()`. -/
  | deselect (f : FrameTag)
  /-- DUMP, VERIFY: `WBUF[i] <- Exchange(0x00)`. -/
  | data
  /-- DUMP: `SnkWrite`. -/
  | sinkWrite
  /-- UPLOAD, VERIFY: `SrcRead`. -/
  | sourceRead
  /-- VERIFY: `Compare()`. -/
  | compare
  /-- Bulk: `EmitProgress`. -/
  | progress
  /-- VERIFY: the mismatch registers and `Fail(MISMATCH)` in one step (R274). -/
  | mismatch
  /-- `Finish()`. -/
  | finish
  /-- `Fail(cause)`. -/
  | fail (c : Cause)
  deriving DecidableEq, Repr

/-- FREF, the reference flash chip (R100), with the bytes of the frame now open (R102). -/
structure Fref where
  /-- `M`; an unlisted address holds 0xFF (R112). -/
  mem : Memory
  /-- `WEL`. -/
  wel : Bool
  /-- `b`, the busy countdown. -/
  busy : Nat
  /-- `SR2V`. -/
  sr2v : Byte
  /-- `IDB[0]`, `IDB[1]`, `IDB[2]`. -/
  idb0 : Byte
  idb1 : Byte
  idb2 : Byte
  /-- `ERASE_POLLS`. -/
  erasePolls : Nat
  /-- `PROG_POLLS`. -/
  progPolls : Nat
  /-- The bytes received since chip select fell, oldest first. -/
  frame : List Byte
  deriving DecidableEq, Repr

/-- The FLASH agent (R61, R84): any chip, with the bytes it has already settled on (oldest first; past them
every byte is a free value of all the chip has seen, log 4), or FREF. -/
inductive Flash where
  | oracle (settled : List Byte)
  | fref (chip : Fref)
  deriving DecidableEq, Repr

/-- The machine. -/
@[ext]
structure State where
  /-- CMD (R33). -/
  cmd : Word
  /-- ADDR.A (R34). -/
  addr : Addr
  /-- LEN.N (R35). -/
  len : BitVec 16
  /-- STATUS.BUSY (R37). -/
  busy : Bool
  /-- STATUS.DONE (R38). -/
  done : Bool
  /-- STATUS.ERR (R38). -/
  err : Bool
  /-- STATUS.CS (R42). -/
  cs : Bool
  /-- STATUS.CMD_REJ (R43). -/
  cmdRej : Bool
  /-- STATUS.CAUSE (R39). -/
  cause : Cause
  /-- STATUS.STATE (R41). -/
  phase : Phase
  /-- IRQ_EN.DONE_IE (R44). -/
  doneIe : Bool
  /-- IRQ_EN.ERR_IE (R44). -/
  errIe : Bool
  /-- IRQ_EN.REJ_IE (R44). -/
  rejIe : Bool
  /-- ID.MFR (R45). -/
  idMfr : Byte
  /-- ID.TYPE (R45). -/
  idType : Byte
  /-- ID.CAP (R45). -/
  idCap : Byte
  /-- SR.SR1 (R46). -/
  sr1 : Byte
  /-- SR.SR2 (R46). -/
  sr2 : Byte
  /-- RXDATA.B (R47). -/
  rxdata : Byte
  /-- CURSOR.A and the loop variable `cursor` (R48, R56). -/
  cursor : Addr
  /-- MM_ADDR.A (R49). -/
  mmAddr : Addr
  /-- MM_DATA.DEV (R49). -/
  mmDev : Byte
  /-- MM_DATA.EXP (R49). -/
  mmExp : Byte
  /-- PROGRESS.PCT (R50). -/
  pct : Byte
  /-- POLL_LIMIT (R51). -/
  pollLimit : Word
  /-- POLLCNT (R51). -/
  pollCnt : Word
  /-- WBUF, addresses 0..0x3FFF (R52). -/
  wbuf : Memory
  /-- DBUF, addresses 0..255 (R53). -/
  dbuf : Memory
  /-- L_OP (R55). -/
  lOp : BitVec 4
  /-- L_BYTE (R55). -/
  lByte : Byte
  /-- L_ADDR (R55). -/
  lAddr : Addr
  /-- L_LEN (R55). -/
  lLen : BitVec 16
  /-- L_LIMIT (R55). -/
  lLimit : Word
  /-- The sequencer position (R40). -/
  pos : Pos
  /-- Chunk index `c` (R56). -/
  chunkIx : Nat
  /-- Page index `p` (R56). -/
  pageIx : Nat
  /-- Stride index `s` (R56). -/
  strideIx : Nat
  /-- Byte index `i` (R56). -/
  byteIx : Nat
  /-- Poll count `n` (R56). -/
  pollN : Nat
  /-- `s` of PollReady (R220): a status sample received, not yet assigned (R21). Log 26. -/
  sample : Option Byte
  /-- `d` of UPLOAD and VERIFY (R260, R270): source bytes received, not yet in WBUF (R21). Log 26. -/
  sourced : Option (List Byte)
  /-- The event history, oldest first (R85, R86). -/
  events : List BusEvent
  /-- Model's own: what the last HostRead returned (R22). Log 10. -/
  rdata : Word
  /-- The FLASH agent (R84). Logs 4 and 6. -/
  flash : Flash
  /-- Model's own: the agents' next moves, oldest first; past them the next mover is a free value (R95). Log 1. -/
  moves : List Move
  /-- The source's next answers, oldest first; past them a free value (R86). Log 5. -/
  source : List SourceAnswer
  /-- The sink's next answers, oldest first; past them a free value (R86). Log 5. -/
  sink : List Bool
  /-- Model's own: how many free values have been drawn. Log 21. -/
  draws : Nat
  /-- Model's own: the draw that WBUF's and DBUF's unwritten bytes come from (R342). Log 7. -/
  ramDraw : Nat
  deriving DecidableEq, Repr

/-- Why the machine stops. Neither reason is a fault of the spec's: no run from reset meets one (log 16). -/
inductive Fault where
  /-- SEQ stands at a position the running command does not have. Raised by every command's meaning. Safe. -/
  | positionNotOfCommand
  /-- BUSY = 1 and the latches hold no command. Raised by fetching SEQ's command. Safe. -/
  | latchesHoldNoCommand
  deriving DecidableEq, Repr

/-- What the model refuses. -/
inductive Refusal where
  /-- An instruction without a meaning yet, by its mnemonic. Raised by no arm of `exec`. Safe. -/
  | notModelled (mnemonic : String)
  /-- A host access narrower than 32 bits (R90, U6). Raised by the host's move. Safe. -/
  | hostAccessNarrow
  /-- A host access at an offset that is not a multiple of 4 (R90, U6). Raised by the host's move. Safe. -/
  | hostAccessMisaligned
  deriving DecidableEq, Repr

/-- The machine right after reset (R60, R340). The latches and loop indices are 0, with no sample
and no source byte held (DESIGN CHOICE, log 8);
nothing is listed in WBUF and DBUF, whose bytes are then free values of draw 0 (log 7), so that the next draw is 1
(log 21); the agents have settled nothing yet (logs 1, 4, 5, 6). -/
def State.reset : State where
  cmd := 0
  addr := 0
  len := 0
  busy := false
  done := false
  err := false
  cs := false
  cmdRej := false
  cause := .none
  phase := .idle
  doneIe := false
  errIe := false
  rejIe := false
  idMfr := 0
  idType := 0
  idCap := 0
  sr1 := 0
  sr2 := 0
  rxdata := 0
  cursor := 0
  mmAddr := 0
  mmDev := 0
  mmExp := 0
  pct := 0
  pollLimit := 0
  pollCnt := 0
  wbuf := []
  dbuf := []
  lOp := 0
  lByte := 0
  lAddr := 0
  lLen := 0
  lLimit := 0
  pos := .idle
  chunkIx := 0
  pageIx := 0
  strideIx := 0
  byteIx := 0
  pollN := 0
  sample := none
  sourced := none
  events := []
  rdata := 0
  flash := .oracle []
  moves := []
  source := []
  sink := []
  draws := 1
  ramDraw := 0

end Sys2Proof.Machine
end

