-- ==== Sys2Proof/Machine/Memory.lean ====
section
/-! DEFINITION. Bit fields of the spec's values (R16, R81, R83) and the byte memories behind WBUF, DBUF and
FREF's array. -/

namespace Sys2Proof.Machine

/-- Frame byte 1, 2 or 3 of an address: A[23:16], A[15:8], A[7:0] (R81, R128). -/
def addrByte (a : Addr) (k : Nat) : Byte :=
  match k with
  | 1 => a.extractLsb' 16 8
  | 2 => a.extractLsb' 8 8
  | _ => a.extractLsb' 0 8

/-- The 24-bit value of three bytes, the first most significant (R81). -/
def packAddr (b2 b1 b0 : Byte) : Addr := b2 ++ b1 ++ b0

/-- The word whose byte 0 is its low byte (R83). -/
def packWord (b3 b2 b1 b0 : Byte) : Word := b3 ++ b2 ++ b1 ++ b0

/-- Byte `k` of a word, counted from its low byte: w[8k+7:8k] (R89). -/
def wordByte (w : Word) (k : Nat) : Byte := w.extractLsb' (8 * k) 8

/-- The byte listed at an address. -/
def Memory.find : Memory → Nat → Option Byte
  | [], _ => none
  | (a, b) :: m, x => if x = a then some b else Memory.find m x

/-- The byte read at an address: the listed one, else what an unlisted address reads as. -/
def Memory.read (unlisted : Option Byte) (m : Memory) (x : Nat) : Option Byte :=
  match Memory.find m x with
  | some b => some b
  | none => unlisted

/-- The memory with a byte listed at an address. -/
def Memory.insert : Memory → Nat → Byte → Memory
  | [], x, v => [(x, v)]
  | (a, b) :: m, x, v =>
    if x < a then (x, v) :: (a, b) :: m
    else if x = a then (x, v) :: m
    else (a, b) :: Memory.insert m x v

/-- The memory with nothing listed at an address. -/
def Memory.erase : Memory → Nat → Memory
  | [], _ => []
  | (a, b) :: m, x => if x = a then m else (a, b) :: Memory.erase m x

/-- One byte written; a byte equal to what an unlisted address reads as leaves the list. -/
def Memory.write (unlisted : Option Byte) (m : Memory) (x : Nat) (v : Byte) : Memory :=
  if unlisted = some v then Memory.erase m x else Memory.insert m x v

/-- Bytes written one after another from an address upward. -/
def Memory.writeList (unlisted : Option Byte) : Memory → Nat → List Byte → Memory
  | m, _, [] => m
  | m, x, v :: vs => Memory.writeList unlisted (Memory.write unlisted m x v) (x + 1) vs

/-- The canonical form: addresses strictly rising and below `size`, no listed byte equal to what an unlisted
address reads as. -/
def Memory.wf (unlisted : Option Byte) (size : Nat) : Memory → Bool
  | [] => true
  | (a, b) :: m =>
    decide (a < size) && decide (unlisted ≠ some b) && m.all (fun c => decide (a < c.1)) &&
      Memory.wf unlisted size m

end Sys2Proof.Machine
end

