-- ==== Sys2Proof/Machine/Fref.lean ====
section
/-! DEFINITION. The FLASH agent at SFC's SPI port (R84), and FREF, the reference chip of R100 to R112. FREF is
no part of SFC: it is one agent a state may hold, and `State.reset` holds the other (log 6). -/

namespace Sys2Proof.Machine

/-- What an unlisted address of FREF's array holds (R112). -/
def frefErased : Byte := 0xFF

/-- `M[x mod TOTAL_SIZE]` (R106). -/
def Fref.byteAt (c : Fref) (x : Nat) : Byte :=
  (Memory.read (some frefErased) c.mem (x % Config.totalSize)).getD frefErased

/-- Status register 1: zext_8({WEL, b > 0}) (R101). -/
def Fref.sr1v (c : Fref) : Byte :=
  (0 : BitVec 6) ++ BitVec.ofBool c.wel ++ BitVec.ofBool (decide (0 < c.busy))

/-- The start address of a read or program frame, from its bytes 1 to 3. -/
def frameAddr (frame : List Byte) : Addr :=
  packAddr (frame.getD 1 0) (frame.getD 2 0) (frame.getD 3 0)

/-- What FREF returns while the next byte of the frame is clocked (R102 to R106). -/
def Fref.answer (c : Fref) : Byte :=
  match c.frame with
  | [] => 0xFF
  | op :: _ =>
    let k := c.frame.length
    if op = 0x9F then
      if k = 1 then c.idb0 else if k = 2 then c.idb1 else if k = 3 then c.idb2 else 0xFF
    else if op = 0x05 then c.sr1v
    else if op = 0x35 then c.sr2v
    else if op = 0x03 then
      if 4 ≤ k ∧ c.busy = 0 then c.byteAt ((frameAddr c.frame).toNat + (k - 4)) else 0xFF
    else 0xFF

/-- One status-1 sample taken: the busy countdown, and WEL falling when it ends (R105). -/
def Fref.sampled (c : Fref) : Fref :=
  if c.busy = 0 then c
  else { c with busy := c.busy - 1, wel := if c.busy = 1 then false else c.wel }

/-- FREF after a byte was clocked into the open frame. -/
def Fref.clocked (c : Fref) (tx : Byte) : Fref :=
  let c' := if c.frame.head? = some 0x05 then c.sampled else c
  { c' with frame := c.frame ++ [tx] }

/-- A busy period begun; one of no samples completes at once and WEL falls (R108, R109). -/
def Fref.startBusy (c : Fref) (polls : Nat) : Fref :=
  { c with busy := polls, wel := if polls = 0 then false else c.wel }

/-- `M[{A[23:8], (A[7:0] + j) mod 256}] <- M[...] AND d[j]` for each payload byte (R109). -/
def programBytes (m : Memory) (a j : Nat) : List Byte → Memory
  | [] => m
  | d :: ds =>
    let x := a / 256 * 256 + (a % 256 + j) % 256
    let old := (Memory.read (some frefErased) m x).getD frefErased
    programBytes (Memory.write (some frefErased) m x (old &&& d)) a (j + 1) ds

/-- Write-enabled and not busy: chip-erase and page-program act (R108, R109). -/
def Fref.writable (c : Fref) : Bool := c.wel && c.busy == 0

/-- FREF at the release of chip select: it acts on the whole frame (R107 to R111). -/
def Fref.released (c : Fref) : Fref :=
  let c' := { c with frame := [] }
  if c.busy ≠ 0 then c'
  else
    match c.frame with
    | [] => c'
    | [op] =>
      if op = 0x06 then { c' with wel := true }
      else if op = 0x04 then { c' with wel := false }
      else if op = 0xC7 ∧ c.writable then Fref.startBusy { c' with mem := [] } c.erasePolls
      else c'
    | op :: _ :: _ :: _ :: payload =>
      if op = 0x02 ∧ c.writable then
        Fref.startBusy
          { c' with mem := programBytes c.mem ((frameAddr c.frame).toNat % Config.totalSize) 0 payload }
          c.progPolls
      else c'
    | _ => c'

/-- FREF's initial state for the test vectors (R112). -/
def frefInitial : Fref :=
  { mem := [], wel := false, busy := 0, sr2v := 0x00, idb0 := 0xA1, idb1 := 0xB2, idb2 := 0xC3
    erasePolls := 2, progPolls := 1, frame := [] }

/-- Whether an event is on the SPI port (R85). -/
def onWire : BusEvent → Bool
  | .select => true
  | .exchange _ _ => true
  | .deselect _ => true
  | _ => false

/-- Everything the chip has seen in a history: its SPI port events (R84, R85). -/
def chipSaw (l : List BusEvent) : List BusEvent := l.filter onWire

/-- The byte FLASH returns while `tx` is clocked out, having seen `seen`: FREF's answer, or the oracle's next settled
byte, or a free value that may depend on all of it (R84, log 4). -/
def Flash.answer (f : Flash) (seen : List BusEvent) (tx : Byte) (draw : Nat) : Byte :=
  match f with
  | .oracle (b :: _) => b
  | .oracle [] => Config.flashByte seen tx draw
  | .fref c => c.answer

/-- FLASH after chip select fell: FREF starts a new frame (R102). -/
def Flash.selected : Flash → Flash
  | .oracle bs => .oracle bs
  | .fref c => .fref { c with frame := [] }

/-- FLASH after one byte was clocked: an oracle has one settled byte less; that it has seen `tx` stands in the
history (R85, log 4). -/
def Flash.clocked (f : Flash) (tx : Byte) : Flash :=
  match f with
  | .oracle bs => .oracle bs.tail
  | .fref c => .fref (c.clocked tx)

/-- FLASH after chip select rose (R111). -/
def Flash.released : Flash → Flash
  | .oracle bs => .oracle bs
  | .fref c => .fref c.released

end Sys2Proof.Machine
end

