-- ==== Sys2Proof/Machine/Ops.lean ====
section
/-! DEFINITION. The primitives a step is made of: the SPI primitives (R18), the buffers (R52, R53), the
control primitives Reject, Finish and Fail (R20), the acceptance of a command (R302), the stream and progress
primitives (R19) and reset (R340). -/

namespace Sys2Proof.Machine

/-- What one step answers. -/
abbrev Result := Host.Outcome State Fault Refusal

/-! ### SPI port (R18) -/

/-- The byte FLASH returns to an `Exchange(tx)`: a draw that may depend on everything the chip has seen (R84). -/
def rx (tx : Byte) (s : State) : Byte := s.flash.answer (chipSaw s.events) tx s.draws

/-- `Select()`. With chip select already active nothing happens on the wire (R160). -/
def select (s : State) : State :=
  { s with
    cs := true
    events := if s.cs then s.events else s.events ++ [.select]
    flash := if s.cs then s.flash else s.flash.selected }

/-- `Exchange(tx)`; the byte received is `rx tx s`. -/
def exchange (tx : Byte) (s : State) : State :=
  { s with
    events := s.events ++ [.exchange tx (rx tx s)]
    flash := s.flash.clocked tx
    draws := s.draws + 1 }

/-- Chip select released, after the bus-idle wait or (reset only) without it; with chip select inactive
nothing happens on the wire (R163, R341, R344). -/
def deselect (idleWait : Bool) (s : State) : State :=
  { s with
    cs := false
    events := if s.cs then s.events ++ [.deselect idleWait] else s.events
    flash := if s.cs then s.flash.released else s.flash }

/-! ### Sequencer position and phase (R40, R41) -/

/-- The position of the next primitive. -/
def setPos (p : Pos) (s : State) : State := { s with pos := p }

/-- A STATE marker. -/
def setPhase (p : Phase) (s : State) : State := { s with phase := p }

/-! ### The buffers (R52, R53) -/

/-- DBUF[k]; a byte nothing has written since reset is a free value (R53, U2). -/
def dbufAt (s : State) (k : Nat) : Byte :=
  (Memory.read none s.dbuf k).getD (Config.dbufByte s.ramDraw k)

/-- WBUF[k]; a byte nothing has written since reset is a free value (R52, U1). -/
def wbufAt (s : State) (k : Nat) : Byte :=
  (Memory.read none s.wbuf k).getD (Config.wbufByte s.ramDraw k)

/-- `DBUF[k] <- v`. -/
def setDbuf (k : Nat) (v : Byte) (s : State) : State :=
  { s with dbuf := Memory.write none s.dbuf k v }

/-- `WBUF[k] <- v`. -/
def setWbuf (k : Nat) (v : Byte) (s : State) : State :=
  { s with wbuf := Memory.write none s.wbuf k v }

/-- `WBUF[k .. k+|d|-1] <- d`. -/
def fillWbuf (k : Nat) (d : List Byte) (s : State) : State :=
  { s with wbuf := Memory.writeList none s.wbuf k d }

/-- `WBUF[k .. k+n-1]`. -/
def wbufSlice (s : State) (k n : Nat) : List Byte := (List.range n).map fun j => wbufAt s (k + j)

/-! ### Completion and failure (R304 to R306) -/

/-- `Finish()` (R305). -/
def finish (s : State) : State :=
  { s with done := true, busy := false, phase := .idle, pos := .idle }

/-- The flags of a failure, without the release of chip select (R306). -/
def setFailed (c : Cause) (s : State) : State :=
  { s with err := true, cause := c, busy := false, phase := .idle, pos := .idle }

/-- `Fail(cause)`: the one run-time failure, chip select released after the bus-idle wait (R306). -/
def fail (c : Cause) (s : State) : State := setFailed c (deselect true s)

/-- `Reject(cause)`: the one issue-time refusal (R304). -/
def reject (c : Cause) (s : State) : State := { s with err := true, cause := c }

/-! ### Issue (R302) -/

/-- An issued word recorded in CMD, the outcome flags cleared (R302). -/
def recordCommand (w : Word) (s : State) : State :=
  { s with cmd := w, done := false, err := false, cause := .none }

/-- Acceptance: the operands latched (R55) and SEQ started at the command's first primitive. -/
def accept (i : Instr) (start : Pos) (s : State) : State :=
  { s with
    lOp := (encodeFields i).op
    lByte := (encodeFields i).byte
    lAddr := s.addr
    lLen := s.len
    lLimit := s.pollLimit
    busy := true
    phase := .start
    pos := start }

/-- The issue sequence of a legal command word while BUSY = 0 (R302): `refuse` gives the cause of the highest
issue check that fails (R303), `init` is the command's own part of acceptance (R250). -/
def issue (i : Instr) (refuse : State → Option Cause) (init : State → State) (start : Pos) (s : State) : State :=
  let s₁ := recordCommand (encode i) s
  match refuse s₁ with
  | some c => reject c s₁
  | none => accept i start (init s₁)

/-- The issue of an illegal word while BUSY = 0 (R125, R302). -/
def issueIllegal (w : Word) (s : State) : State := reject .illegal (recordCommand w s)

/-- A CMD write while BUSY = 1: dropped, only CMD_REJ records it (R43). -/
def dropCommand (s : State) : State := { s with cmdRej := true }

/-- Acceptance of a bulk command: cursor, progress and loop indices cleared (R250, log 12). -/
def bulkInit (s : State) : State :=
  { s with cursor := 0, pct := 0, chunkIx := 0, pageIx := 0, strideIx := 0, byteIx := 0 }

/-- Acceptance of VERIFY: the mismatch registers cleared too (R49, R250). -/
def verifyInit (s : State) : State := { bulkInit s with mmAddr := 0, mmDev := 0, mmExp := 0 }

/-- One step of a command: its issue while SEQ is idle, its next primitive while it runs (R26, R37). Log 18. -/
def runCommand (i : Instr) (refuse : State → Option Cause) (init : State → State) (start : Pos)
    (seq : State → Result) (s : State) : Result :=
  if s.busy then seq s else .next (issue i refuse init start s)

/-! ### Loop indices and the mismatch registers (R49, R56) -/

/-- `i <- k`. -/
def setByteIx (k : Nat) (s : State) : State := { s with byteIx := k }

/-- The next chunk: `c <- c + 1`, its inner loops from 0. -/
def nextChunk (s : State) : State := { s with chunkIx := s.chunkIx + 1, pageIx := 0, byteIx := 0 }

/-- The next page: `p <- p + 1`. -/
def nextPage (s : State) : State := { s with pageIx := s.pageIx + 1 }

/-- The next stride: `s <- s + 1`, its inner loop from 0. -/
def nextStride (s : State) : State := { s with strideIx := s.strideIx + 1, byteIx := 0 }

/-- The mismatch at absolute address `a`: the device byte and the source byte (R274). -/
def recordMismatch (a : Nat) (dev exp : Byte) (s : State) : State :=
  { s with mmAddr := BitVec.ofNat 24 a, mmDev := dev, mmExp := exp }

/-! ### Assignments that wait for the next primitive (R21)

The pseudocode assigns a status sample (R220) and the source's bytes (R260, R270) on lines of their own between two
primitive calls, so these assignments belong to the step of the following primitive (R21, D1; log 25). Until then
State holds what is to be assigned. -/

/-- A poll starts: `n <- 0; POLLCNT <- 0`, with no sample yet (R220). -/
def startPoll (s : State) : State := { s with pollN := 0, pollCnt := 0, sample := none }

/-- `s <- Exchange(0x00)`: the sample received (R220). -/
def keepSample (b : Byte) (s : State) : State := { s with sample := some b }

/-- `n`, the sample held counted (R220). -/
def sampleCount (s : State) : Nat := if s.sample.isSome then s.pollN + 1 else s.pollN

/-- min(n, 0xFFFFFFFF) (R51, R220). -/
def saturate (n : Nat) : Word := BitVec.ofNat 32 (min n 0xFFFFFFFF)

/-- `n <- n + 1; POLLCNT <- min(n, 0xFFFFFFFF); SR.SR1 <- s` for the sample held, if one is (R220). -/
def assignSample (s : State) : State :=
  { s with
    pollN := sampleCount s
    pollCnt := if s.sample.isSome then saturate (sampleCount s) else s.pollCnt
    sr1 := s.sample.getD s.sr1
    sample := none }

/-- `(ok, d) <- SrcRead(n)` with ok: the bytes received (R260, R270). -/
def keepSourced (d : List Byte) (s : State) : State := { s with sourced := some d }

/-- `WBUF[k .. k+|d|-1] <- d` for the source bytes held, if any are (R262, R272). -/
def assignSourced (k : Nat) (s : State) : State :=
  { s with
    wbuf := s.sourced.elim s.wbuf fun d => (fillWbuf k d s).wbuf
    sourced := none }

/-! ### Streams and progress (R19, R86, R87) -/

/-- What the source answers to a request. -/
inductive SourceReply where
  /-- No answer yet: SEQ has no step (R86). -/
  | pending
  /-- Not ok: an error or too few bytes; none is delivered (R87). -/
  | short
  /-- Exactly the bytes asked for. -/
  | data (d : List Byte)
  deriving DecidableEq, Repr

/-- The source's answer to `SrcRead(n)`. -/
def sourceReply (s : State) (n : Nat) : SourceReply :=
  match s.source with
  | .bytes d :: _ => if n ≤ d.length then .data (d.take n) else .short
  | .error :: _ => .short
  | [] =>
    match Config.sourceReady s.events n s.draws with
    | none => .pending
    | some false => .short
    | some true => .data ((List.range n).map (Config.sourceByte s.events n s.draws))

/-- What the source still has after `n` bytes were taken or a request failed. -/
def sourceRest (l : List SourceAnswer) (n : Nat) : List SourceAnswer :=
  match l with
  | [] => []
  | .error :: r => r
  | .bytes d :: r => if n < d.length then .bytes (d.drop n) :: r else r

/-- An answered `SrcRead(n)` recorded (R86). -/
def sourceRead (n : Nat) (ok : Bool) (d : List Byte) (s : State) : State :=
  { s with
    events := s.events ++ [.sourceRead n ok d]
    source := sourceRest s.source n
    draws := s.draws + 1 }

/-- The sink's answer to `SnkWrite(d)`; none is not yet (R86). -/
def sinkReply (d : List Byte) (s : State) : Option Bool :=
  match s.sink with
  | b :: _ => some b
  | [] => Config.sinkReady s.events d s.draws

/-- An answered `SnkWrite(d)` recorded (R86). -/
def sinkWrite (d : List Byte) (ok : Bool) (s : State) : State :=
  { s with
    events := s.events ++ [.sinkWrite d ok]
    sink := s.sink.tail
    draws := s.draws + 1 }

/-- STREAM has not answered: SEQ has no step and waits (R86, U11, log 3). -/
def streamWait (s : State) : State := { s with draws := s.draws + 1 }

/-- (c * 100) / TOTAL_SIZE (R19, R50). -/
def percent (c : Nat) : Byte := BitVec.ofNat 8 (c * 100 / Config.totalSize)

/-- `cursor <- c; CURSOR <- c` (R48). -/
def setCursor (c : Nat) (s : State) : State := { s with cursor := BitVec.ofNat 24 c }

/-- `EmitProgress(cursor)` (R19). -/
def emitProgress (s : State) : State :=
  { s with
    events := s.events ++ [.progress s.cursor.toNat Config.totalSize]
    pct := percent s.cursor.toNat }

/-! ### Reset (R340, R341) -/

/-- The reset step: every piece of SFC state to its reset value, chip select released without the idle wait,
a new draw of the buffers (log 21); the history and the agents outside SFC go on (logs 7, 8, 9). -/
def resetStep (s : State) : State :=
  { State.reset with
    events := (deselect false s).events
    flash := (deselect false s).flash
    rdata := s.rdata
    moves := s.moves
    source := s.source
    sink := s.sink
    draws := s.draws + 1
    ramDraw := s.draws }

end Sys2Proof.Machine
end

