-- ==== Sys2Proof/Machine/Flags.lean ====
section
/-! DEFINITION. The register words with their fields (R33 to R51), the flags a STATUS write clears (R36) and the
interrupt line (R310). -/

namespace Sys2Proof.Machine

/-- The code of a phase in STATUS.STATE (R41). -/
def phaseCode : Phase → BitVec 3
  | .idle => 0
  | .start => 1
  | .transfer => 2
  | .finish => 3

/-- The code of a cause in STATUS.CAUSE (R300). -/
def causeCode : Cause → BitVec 4
  | .none => 0
  | .srcShort => 1
  | .snkRej => 2
  | .mismatch => 3
  | .unresponsive => 4
  | .len => 5
  | .illegal => 6
  | .state => 7

/-- The STATUS word (R36): STATE 18:16, CAUSE 11:8, CMD_REJ 4, CS 3, ERR 2, DONE 1, BUSY 0. -/
def statusWord (s : State) : Word :=
  (0 : BitVec 13) ++ phaseCode s.phase ++ (0 : BitVec 4) ++ causeCode s.cause ++ (0 : BitVec 3) ++
    BitVec.ofBool s.cmdRej ++ BitVec.ofBool s.cs ++ BitVec.ofBool s.err ++ BitVec.ofBool s.done ++
    BitVec.ofBool s.busy

/-- A host write of STATUS: write-1-to-clear of DONE, ERR (with CAUSE) and CMD_REJ (R36). -/
def clearStatus (w : Word) (s : State) : State :=
  { s with
    done := s.done && !w.getLsbD 1
    err := s.err && !w.getLsbD 2
    cause := if w.getLsbD 2 then .none else s.cause
    cmdRej := s.cmdRej && !w.getLsbD 4 }

/-- The IRQ_EN word (R44). -/
def irqEnWord (s : State) : Word :=
  (0 : BitVec 27) ++ BitVec.ofBool s.rejIe ++ (0 : BitVec 1) ++ BitVec.ofBool s.errIe ++
    BitVec.ofBool s.doneIe ++ (0 : BitVec 1)

/-- A host write of IRQ_EN (R44). -/
def setIrqEn (w : Word) (s : State) : State :=
  { s with doneIe := w.getLsbD 1, errIe := w.getLsbD 2, rejIe := w.getLsbD 4 }

/-- The `irq` line, a level (R310). -/
def irq (s : State) : Bool := s.done && s.doneIe || s.err && s.errIe || s.cmdRej && s.rejIe

/-- The level of `CS_n`: low exactly when STATUS.CS = 1 (R30). -/
def csN (s : State) : Bool := !s.cs

/-- The ID word: 0, MFR, TYPE, CAP (R45). -/
def idWord (s : State) : Word := packWord 0 s.idMfr s.idType s.idCap

/-- The SR word: SR2 15:8, SR1 7:0 (R46). -/
def srWord (s : State) : Word := packWord 0 0 s.sr2 s.sr1

/-- The MM_DATA word: EXP 15:8, DEV 7:0 (R49). -/
def mmDataWord (s : State) : Word := packWord 0 0 s.mmExp s.mmDev

end Sys2Proof.Machine
end

