-- ==== Sys2Proof/Machine/Operands.lean ====
section
/-! DEFINITION. The operand forms: the SPI frames of R127 with the shared steps of SendFrame (R180) and
PollReady (R220), the issue checks (R181, R190, R194, R302), and the host register map (R88, R89). -/

namespace Sys2Proof.Machine

/-! ### Frames (R127) -/

/-- A frame: opcode, optional address, payload and response length. -/
structure Frame where
  opcode : Byte
  addr : Option Addr
  payLen : Nat
  payload : Nat → Byte
  respLen : Nat

/-- F0: the opcode alone (R127). -/
def frameF0 (op : Byte) : Frame := ⟨op, none, 0, fun _ => Config.dummy, 0⟩

/-- F1(k): the opcode and `k` response bytes (R127). -/
def frameF1 (op : Byte) (k : Nat) : Frame := ⟨op, none, 0, fun _ => Config.dummy, k⟩

/-- F2: opcode, address, `n` response bytes (R127). -/
def frameF2 (op : Byte) (a : Addr) (n : Nat) : Frame := ⟨op, some a, 0, fun _ => Config.dummy, n⟩

/-- F3: opcode, address, `n` payload bytes (R127). -/
def frameF3 (op : Byte) (a : Addr) (n : Nat) (pl : Nat → Byte) : Frame := ⟨op, some a, n, pl, 0⟩

/-- Bytes before payload and response: the opcode, and the three address bytes where there is one. -/
def Frame.header (f : Frame) : Nat := if f.addr.isSome then 4 else 1

/-- Bytes SFC sends before it listens. -/
def Frame.sent (f : Frame) : Nat := f.header + f.payLen

/-- Frame bytes in all. -/
def Frame.size (f : Frame) : Nat := f.sent + f.respLen

/-- Byte `k` on MOSI (R127, R128). -/
def Frame.tx (f : Frame) (k : Nat) : Byte :=
  if k = 0 then f.opcode
  else if k < f.header then addrByte (f.addr.getD 0) k
  else if k < f.sent then f.payload (k - f.header)
  else Config.dummy

/-- The bytes on MOSI, in order (R127). -/
def Frame.bytes (f : Frame) : List Byte := (List.range f.size).map f.tx

/-! ### The shared steps of SendFrame (R180) -/

/-- The `Select()` of a frame. -/
def selectStep (t : FrameTag) (s : State) : State := setPos (.byte t 0) (select s)

/-- The phase after a STATE marker; inside bulk commands the markers do not apply (R250). -/
def marked (marks : Bool) (p old : Phase) : Phase := if marks then p else old

/-- Where a frame goes after byte `k`. -/
def nextByte (f : Frame) (t : FrameTag) (k : Nat) : Pos :=
  if k + 1 < f.size then .byte t (k + 1) else .deselect t

/-- The `Exchange` of frame byte `k`; response byte `j` goes to `keep j` in the same step (R180). -/
def byteStep (t : FrameTag) (marks : Bool) (f : Frame) (keep : Nat → Byte → State → State) (k : Nat)
    (s : State) : State :=
  let s₁ := exchange (f.tx k) (setPhase (if k = 0 then marked marks .transfer s.phase else s.phase) s)
  setPos (nextByte f t k) (if k < f.sent then s₁ else keep (k - f.sent) (rx (f.tx k) s) s₁)

/-- The `Deselect()` of a frame, with its FINISH marker (R180). -/
def deselectStep (marks : Bool) (after : Pos) (s : State) : State :=
  setPos after (setPhase (marked marks .finish s.phase) (deselect true s))

/-- A received byte that SFC discards (R127). -/
def keepNone (_ : Nat) (_ : Byte) (s : State) : State := s

/-- Response byte `j` of identify: MFR, TYPE, CAP (R182). -/
def keepId (j : Nat) (b : Byte) (s : State) : State :=
  match j with
  | 0 => { s with idMfr := b }
  | 1 => { s with idType := b }
  | _ => { s with idCap := b }

/-- The response of read-status-register-1 (R183). -/
def keepSr1 (_ : Nat) (b : Byte) (s : State) : State := { s with sr1 := b }

/-- The response of read-status-register-2 (R184). -/
def keepSr2 (_ : Nat) (b : Byte) (s : State) : State := { s with sr2 := b }

/-- Response byte `j` of read-data goes to DBUF[j] (R191). -/
def keepDbuf (j : Nat) (b : Byte) (s : State) : State := setDbuf j b s

/-- The byte an EXCHANGE received (R162). -/
def keepRxdata (b : Byte) (s : State) : State := { s with rxdata := b }

/-! ### The shared steps of PollReady (R220) -/

/-- The opcode byte: it starts the count; the byte received is no sample. -/
def pollOpcodeStep (t : FrameTag) (marks : Bool) (s : State) : State :=
  setPos (.sample t) (startPoll (exchange 0x05 (setPhase (marked marks .transfer s.phase) s)))

/-- A sample's busy bit (R13). -/
def sampleBusy (b : Byte) : Bool := b.getLsbD Config.busyBit

/-- Where the loop goes after sample `b`, the `n`-th: a clear busy bit wins (R220, R222). -/
def afterSample (t : FrameTag) (limit : Word) (n : Nat) (b : Byte) : Pos :=
  if sampleBusy b = false then .deselect t
  else if limit ≠ 0 ∧ limit.toNat ≤ n then .fail .unresponsive
  else .sample t

/-- One status sample: the one before it is assigned in this step, this one in the next primitive's (R21, log 25). -/
def sampleStep (t : FrameTag) (s : State) : State :=
  setPos (afterSample t s.lLimit (sampleCount s + 1) (rx Config.dummy s))
    (keepSample (rx Config.dummy s) (exchange Config.dummy (assignSample s)))

/-- The `Deselect()` of a poll, with its FINISH marker; the last sample is assigned in this step (R21, R220). -/
def pollEndStep (marks : Bool) (after : Pos) (s : State) : State := deselectStep marks after (assignSample s)

/-- `Fail(c)` of a command that polls; a sample still held is assigned in this step (R21, R220). -/
def pollFailStep (c : Cause) (s : State) : State := fail c (assignSample s)

/-! ### Issue checks (R302, R303) -/

/-- SELECT and DESELECT: none beyond the encoding (R160, R163). -/
def refuseNever (_ : State) : Option Cause := none

/-- EXCHANGE: STATE with no device selected (R162). -/
def refuseExchange (s : State) : Option Cause := if s.cs then none else some .state

/-- Every composite command: STATE while a raw frame is open (R161). -/
def refuseComposite (s : State) : Option Cause := if s.cs then some .state else none

/-- READ: then LEN above 256 (R190). -/
def refuseRead (s : State) : Option Cause :=
  if s.cs then some .state
  else if Config.pageSize < s.len.toNat then some .len
  else none

/-- PP: then LEN above 256 or across a page (R194). -/
def refuseProgram (s : State) : Option Cause :=
  if s.cs then some .state
  else if Config.pageSize < s.len.toNat ∨
      Config.pageSize < (s.addr.extractLsb' 0 8).toNat + s.len.toNat then some .len
  else none

/-! ### The host register map (R88) -/

/-- What stands at an offset. -/
inductive HostReg where
  | cmd | addr | len | status | irqEn | id | sr | rxdata | cursor | mmAddr | mmData | progress
  | pollLimit | pollCnt
  /-- Word `j` of DBUF (R89). -/
  | dbuf (j : Nat)
  | reserved
  deriving DecidableEq, Repr

/-- The register at an aligned offset (R88). -/
def hostReg (off : BitVec 12) : HostReg :=
  match off.toNat with
  | 0x000 => .cmd
  | 0x004 => .addr
  | 0x008 => .len
  | 0x00C => .status
  | 0x010 => .irqEn
  | 0x014 => .id
  | 0x018 => .sr
  | 0x01C => .rxdata
  | 0x020 => .cursor
  | 0x024 => .mmAddr
  | 0x028 => .mmData
  | 0x02C => .progress
  | 0x030 => .pollLimit
  | 0x034 => .pollCnt
  | n => if 0x100 ≤ n ∧ n < 0x200 then .dbuf ((n - 0x100) / 4) else .reserved

/-- The word a HostRead returns (R33 to R51, R59, R89). -/
def regWord (s : State) : HostReg → Word
  | .cmd => s.cmd
  | .addr => s.addr.setWidth 32
  | .len => s.len.setWidth 32
  | .status => statusWord s
  | .irqEn => irqEnWord s
  | .id => idWord s
  | .sr => srWord s
  | .rxdata => s.rxdata.setWidth 32
  | .cursor => s.cursor.setWidth 32
  | .mmAddr => s.mmAddr.setWidth 32
  | .mmData => mmDataWord s
  | .progress => s.pct.setWidth 32
  | .pollLimit => s.pollLimit
  | .pollCnt => s.pollCnt
  | .dbuf j =>
    packWord (dbufAt s (4 * j + 3)) (dbufAt s (4 * j + 2)) (dbufAt s (4 * j + 1)) (dbufAt s (4 * j))
  | .reserved => 0

/-- Word `j` of DBUF written, byte 0 lowest (R83, R89). -/
def setDbufWord (j : Nat) (w : Word) (s : State) : State :=
  setDbuf (4 * j + 3) (wordByte w 3) (setDbuf (4 * j + 2) (wordByte w 2)
    (setDbuf (4 * j + 1) (wordByte w 1) (setDbuf (4 * j) (wordByte w 0) s)))

/-- A host write of any register but CMD: DBUF only while BUSY = 0, read-only and reserved places ignored
(R36, R55, R59, R88, R89). -/
def writeReg (r : HostReg) (w : Word) (s : State) : State :=
  match r with
  | .addr => { s with addr := w.setWidth 24 }
  | .len => { s with len := w.setWidth 16 }
  | .status => clearStatus w s
  | .irqEn => setIrqEn w s
  | .pollLimit => { s with pollLimit := w }
  | .dbuf j => if s.busy then s else setDbufWord j w s
  | _ => s

/-- `HostRead(off)`: the word goes to the host; nothing else changes (R22, R91). -/
def hostRead (off : BitVec 12) (s : State) : State := { s with rdata := regWord s (hostReg off) }

end Sys2Proof.Machine
end

