-- ==== Sys2Proof/Machine/Bulk.lean ====
section
/-! DEFINITION. The bulk commands of 44_bulk_transfer.md: DUMP, UPLOAD, VERIFY. Inside them the STATE markers of
SendFrame and PollReady do not apply (R250). -/

namespace Sys2Proof.Machine

/-! ### The sweep DUMP and VERIFY share (R252, R270) -/

/-- The header of the sweep's one read-data frame: `03 00 00 00` (R129). -/
def sweepFrame : Frame := frameF2 0x03 0 0

/-- Where the header goes after byte `k`: after the fourth, the data loop. -/
def afterHeader (k : Nat) : Pos := if k + 1 < sweepFrame.size then .byte .own (k + 1) else .data

/-- One header byte; STATE stays START (R250). -/
def headerStep (k : Nat) (s : State) : State :=
  setPos (afterHeader k) (exchange (sweepFrame.tx k) s)

/-- `WBUF[i] <- Exchange(0x00)`, for `i` below `n`, then on to `after`; the first sets TRANSFER (R252, R270). -/
def dataStep (n : Nat) (after : Pos) (s : State) : State :=
  setPos (if s.byteIx + 1 < n then .data else after)
    (setByteIx (s.byteIx + 1)
      (setWbuf s.byteIx (rx Config.dummy s) (exchange Config.dummy (setPhase .transfer s))))

/-- The final `Deselect()` of a sweep (R252, R270). -/
def sweepEndStep (s : State) : State := setPos .finish (setPhase .finish (deselect true s))

/-! ### DUMP -/

/-- `SnkWrite(WBUF[0 .. CHUNK_SIZE-1])` and its answer (R252, R253). -/
def dumpSinkStep (s : State) : State :=
  match sinkReply (wbufSlice s 0 Config.chunkSize) s with
  | none => streamWait s
  | some ok =>
    setPos (if ok then .progress else .fail .snkRej) (sinkWrite (wbufSlice s 0 Config.chunkSize) ok s)

/-- The next chunk, or the end of the sweep (R252). -/
def dumpNextChunk (s : State) : State :=
  if s.chunkIx + 1 < Config.numChunks then setPos .data (nextChunk s)
  else setPos (.deselect .own) s

/-- The cursor moved on and the progress event (R252, R254). -/
def dumpProgressStep (s : State) : State :=
  dumpNextChunk (emitProgress (setCursor (s.cursor.toNat + Config.chunkSize) s))

/-- SEQ of DUMP (R252). -/
def seqDump (s : State) : Result :=
  match s.pos with
  | .select .own => .next (selectStep .own s)
  | .byte .own k => .next (headerStep k s)
  | .data => .next (dataStep Config.chunkSize .sinkWrite s)
  | .sinkWrite => .next (dumpSinkStep s)
  | .progress => .next (dumpProgressStep s)
  | .deselect .own => .next (sweepEndStep s)
  | .finish => .next (finish s)
  | .fail c => .next (fail c s)
  | _ => .fault .positionNotOfCommand

/-- DUMP (R252). -/
def execDump (s : State) : Result :=
  runCommand .dump refuseComposite bulkInit (.select .own) seqDump s

/-! ### UPLOAD -/

/-- `SrcRead(CHUNK_SIZE)` and its answer; the STATE marker TRANSFER is part of this step (R260, R262, log 23). The
bytes go to WBUF in the next step (R21, log 25). -/
def uploadSourceStep (s : State) : State :=
  match sourceReply s Config.chunkSize with
  | .pending => streamWait s
  | .short =>
    setPos (.fail .srcShort) (sourceRead Config.chunkSize false [] (setPhase .transfer s))
  | .data d =>
    setPos (.select .pageWren)
      (keepSourced d (sourceRead Config.chunkSize true d (setPhase .transfer s)))

/-- The `Select()` of a page's write-enable; a chunk's source bytes, if they wait, go to WBUF in this step (R21). -/
def pageSelectStep (s : State) : State := selectStep .pageWren (assignSourced 0 s)

/-- The absolute address of page `p` of chunk `c` (R263). -/
def pageAddr (s : State) : Addr :=
  BitVec.ofNat 24 (s.chunkIx * Config.chunkSize + s.pageIx * Config.pageSize)

/-- The page-program frame of the page being written (R263). -/
def pageFrame (s : State) : Frame :=
  frameF3 0x02 (pageAddr s) Config.pageSize fun j => wbufAt s (s.pageIx * Config.pageSize + j)

/-- Where a page's poll leads: to the next page, or to the chunk's progress (R260, R264). -/
def pageEndStep (s : State) : State :=
  if s.pageIx + 1 < Config.pagesPerChunk then
    nextPage (pollEndStep false (.select .pageWren) s)
  else pollEndStep false .progress s

/-- The next chunk, or the end (R260). -/
def uploadNextChunk (s : State) : State :=
  if s.chunkIx + 1 < Config.numChunks then setPos .sourceRead (nextChunk s)
  else setPos .finish s

/-- The cursor at the end of the chunk and the progress event (R260, R265). -/
def uploadProgressStep (s : State) : State :=
  uploadNextChunk
    (emitProgress (setCursor (s.chunkIx * Config.chunkSize + Config.chunkSize) s))

/-- SEQ of UPLOAD (R260). -/
def seqUpload (s : State) : Result :=
  match s.pos with
  | .select .eraseWren => .next (selectStep .eraseWren s)
  | .byte .eraseWren k => .next (byteStep .eraseWren false (frameF0 0x06) keepNone k s)
  | .deselect .eraseWren => .next (deselectStep false (.select .eraseCe) s)
  | .select .eraseCe => .next (selectStep .eraseCe s)
  | .byte .eraseCe k => .next (byteStep .eraseCe false (frameF0 0xC7) keepNone k s)
  | .deselect .eraseCe => .next (deselectStep false (.select .erasePoll) s)
  | .select .erasePoll => .next (selectStep .erasePoll s)
  | .byte .erasePoll _ => .next (pollOpcodeStep .erasePoll false s)
  | .sample .erasePoll => .next (sampleStep .erasePoll s)
  | .deselect .erasePoll => .next (pollEndStep false .sourceRead s)
  | .sourceRead => .next (uploadSourceStep s)
  | .select .pageWren => .next (pageSelectStep s)
  | .byte .pageWren k => .next (byteStep .pageWren false (frameF0 0x06) keepNone k s)
  | .deselect .pageWren => .next (deselectStep false (.select .pageProg) s)
  | .select .pageProg => .next (selectStep .pageProg s)
  | .byte .pageProg k => .next (byteStep .pageProg false (pageFrame s) keepNone k s)
  | .deselect .pageProg => .next (deselectStep false (.select .pagePoll) s)
  | .select .pagePoll => .next (selectStep .pagePoll s)
  | .byte .pagePoll _ => .next (pollOpcodeStep .pagePoll false s)
  | .sample .pagePoll => .next (sampleStep .pagePoll s)
  | .deselect .pagePoll => .next (pageEndStep s)
  | .progress => .next (uploadProgressStep s)
  | .finish => .next (finish s)
  | .fail c => .next (pollFailStep c s)
  | _ => .fault .positionNotOfCommand

/-- UPLOAD (R260). -/
def execUpload (s : State) : Result :=
  runCommand .upload refuseComposite bulkInit (.select .eraseWren) seqUpload s

/-! ### VERIFY -/

/-- `SrcRead(HALF)` and its answer (R272); the bytes go to WBUF in the next step (R21, log 25). -/
def verifySourceStep (s : State) : State :=
  match sourceReply s Config.halfSize with
  | .pending => streamWait s
  | .short => setPos (.fail .srcShort) (sourceRead Config.halfSize false [] s)
  | .data d =>
    setPos .compare (keepSourced d (sourceRead Config.halfSize true d s))

/-- The least index at which the halves of WBUF differ (R273). -/
def firstMismatch (s : State) : Option Nat :=
  (List.range Config.halfSize).find? fun i => wbufAt s i != wbufAt s (Config.halfSize + i)

/-- The next stride, or the end of the sweep (R270). -/
def verifyNextStride (s : State) : State :=
  if s.strideIx + 1 < Config.numStrides then setPos .data (nextStride s)
  else setPos (.deselect .own) s

/-- What `Compare()` does: a mismatch is left to the next step; without one the cursor moves on, and every second
stride emits progress next (R273, R275). -/
def verifyCompare (s : State) : State :=
  match firstMismatch s with
  | some i => setPos .mismatch (setByteIx i s)
  | none =>
    let s₁ := setCursor (s.strideIx * Config.halfSize + Config.halfSize) s
    if s₁.cursor.toNat % Config.chunkSize = 0 then setPos .progress s₁ else verifyNextStride s₁

/-- The step of `Compare()`: the source half goes to the second half of WBUF first (R21, R272). -/
def verifyCompareStep (s : State) : State := verifyCompare (assignSourced Config.halfSize s)

/-- The mismatch registers written and `Fail(MISMATCH)`, in one step (R274). -/
def verifyMismatchStep (s : State) : State :=
  fail .mismatch
    (recordMismatch (s.strideIx * Config.halfSize + s.byteIx) (wbufAt s s.byteIx)
      (wbufAt s (Config.halfSize + s.byteIx)) s)

/-- SEQ of VERIFY (R270). -/
def seqVerify (s : State) : Result :=
  match s.pos with
  | .select .own => .next (selectStep .own s)
  | .byte .own k => .next (headerStep k s)
  | .data => .next (dataStep Config.halfSize .sourceRead s)
  | .sourceRead => .next (verifySourceStep s)
  | .compare => .next (verifyCompareStep s)
  | .mismatch => .next (verifyMismatchStep s)
  | .progress => .next (verifyNextStride (emitProgress s))
  | .deselect .own => .next (sweepEndStep s)
  | .finish => .next (finish s)
  | .fail c => .next (fail c s)
  | _ => .fault .positionNotOfCommand

/-- VERIFY (R270). -/
def execVerify (s : State) : Result :=
  runCommand .verify refuseComposite verifyInit (.select .own) seqVerify s

end Sys2Proof.Machine
end

