-- ==== Sys2Proof/Machine/Codec.lean ====
section
/-! DEFINITION. The FRAME class of 41_command_codec.md: one SendFrame (R180) and `Finish()` each. -/

namespace Sys2Proof.Machine

/-- SEQ of a single-frame command: the frame of R180, response bytes to `keep`, then `Finish()`. -/
def seqFrame (f : Frame) (keep : Nat → Byte → State → State) (s : State) : Result :=
  match s.pos with
  | .select .own => .next (selectStep .own s)
  | .byte .own k => .next (byteStep .own true f keep k s)
  | .deselect .own => .next (deselectStep true .finish s)
  | .finish => .next (finish s)
  | _ => .fault .positionNotOfCommand

/-- RDID, identify (R182). -/
def execRdid (s : State) : Result :=
  runCommand .rdid refuseComposite id (.select .own) (seqFrame (frameF1 0x9F 3) keepId) s

/-- RDSR1, read-status-register-1 (R183). -/
def execRdsr1 (s : State) : Result :=
  runCommand .rdsr1 refuseComposite id (.select .own) (seqFrame (frameF1 0x05 1) keepSr1) s

/-- RDSR2, read-status-register-2 (R184). -/
def execRdsr2 (s : State) : Result :=
  runCommand .rdsr2 refuseComposite id (.select .own) (seqFrame (frameF1 0x35 1) keepSr2) s

/-- WREN, write-enable (R185). -/
def execWren (s : State) : Result :=
  runCommand .wren refuseComposite id (.select .own) (seqFrame (frameF0 0x06) keepNone) s

/-- WRDI, write-disable (R186). -/
def execWrdi (s : State) : Result :=
  runCommand .wrdi refuseComposite id (.select .own) (seqFrame (frameF0 0x04) keepNone) s

/-- CE, chip-erase (R187). -/
def execCe (s : State) : Result :=
  runCommand .ce refuseComposite id (.select .own) (seqFrame (frameF0 0xC7) keepNone) s

/-- The frame of a READ: its operands are the latches (R191). -/
def readFrame (s : State) : Frame := frameF2 0x03 s.lAddr s.lLen.toNat

/-- READ, read-data into DBUF (R191). -/
def execRead (s : State) : Result :=
  runCommand .read refuseRead id (.select .own) (seqFrame (readFrame s) keepDbuf) s

/-- The frame of a PP: its operands are the latches, its payload DBUF (R195). -/
def programFrame (s : State) : Frame := frameF3 0x02 s.lAddr s.lLen.toNat (dbufAt s)

/-- PP, page-program from DBUF (R195). -/
def execPp (s : State) : Result :=
  runCommand .pp refuseProgram id (.select .own) (seqFrame (programFrame s) keepNone) s

end Sys2Proof.Machine
end

