-- ==== Sys2Proof/Machine/Ident.lean ====
section
/-! DEFINITION. READ_ID, the identification of 43_identification.md: three SendFrames, then `Finish()`. -/

namespace Sys2Proof.Machine

/-- SEQ of READ_ID (R240). Each SendFrame keeps its own STATE markers (log 11). -/
def seqReadId (s : State) : Result :=
  match s.pos with
  | .select .ident => .next (selectStep .ident s)
  | .byte .ident k => .next (byteStep .ident true (frameF1 0x9F 3) keepId k s)
  | .deselect .ident => .next (deselectStep true (.select .status1) s)
  | .select .status1 => .next (selectStep .status1 s)
  | .byte .status1 k => .next (byteStep .status1 true (frameF1 0x05 1) keepSr1 k s)
  | .deselect .status1 => .next (deselectStep true (.select .status2) s)
  | .select .status2 => .next (selectStep .status2 s)
  | .byte .status2 k => .next (byteStep .status2 true (frameF1 0x35 1) keepSr2 k s)
  | .deselect .status2 => .next (deselectStep true .finish s)
  | .finish => .next (finish s)
  | _ => .fault .positionNotOfCommand

/-- READ_ID (R240). -/
def execReadId (s : State) : Result :=
  runCommand .readId refuseComposite id (.select .ident) seqReadId s

end Sys2Proof.Machine
end

