-- ==== Sys2Proof/Machine/Poll.lean ====
section
/-! DEFINITION. WAIT_READY, the status-register polling of 42_status_poll.md. -/

namespace Sys2Proof.Machine

/-- SEQ of WAIT_READY: PollReady, then `Finish()` or `Fail(UNRESPONSIVE)` (R221). -/
def seqWaitReady (s : State) : Result :=
  match s.pos with
  | .select .own => .next (selectStep .own s)
  | .byte .own _ => .next (pollOpcodeStep .own true s)
  | .sample .own => .next (sampleStep .own s)
  | .deselect .own => .next (pollEndStep true .finish s)
  | .finish => .next (finish s)
  | .fail c => .next (pollFailStep c s)
  | _ => .fault .positionNotOfCommand

/-- WAIT_READY (R221). -/
def execWaitReady (s : State) : Result :=
  runCommand .waitReady refuseComposite id (.select .own) seqWaitReady s

end Sys2Proof.Machine
end

