-- ==== Sys2Proof/Machine/Transport.lean ====
section
/-! DEFINITION. The transport commands of 40_transport.md: SELECT, EXCHANGE, DESELECT. Their rules carry no STATE
marker, so STATE is START from acceptance to the last step (R41). -/

namespace Sys2Proof.Machine

/-- SEQ of SELECT (R160). -/
def seqSelect (s : State) : Result :=
  match s.pos with
  | .select .own => .next (setPos .finish (select s))
  | .finish => .next (finish s)
  | _ => .fault .positionNotOfCommand

/-- SELECT (R160). -/
def execSelect (s : State) : Result := runCommand .select refuseNever id (.select .own) seqSelect s

/-- SEQ of EXCHANGE #b: the byte sent is L_BYTE, which is b (R55, R162). -/
def seqExchange (b : Byte) (s : State) : Result :=
  match s.pos with
  | .byte .own _ => .next (setPos .finish (keepRxdata (rx b s) (exchange b s)))
  | .finish => .next (finish s)
  | _ => .fault .positionNotOfCommand

/-- EXCHANGE #b (R162). -/
def execExchange (b : Byte) (s : State) : Result :=
  runCommand (.exchange b) refuseExchange id (.byte .own 0) (seqExchange b) s

/-- SEQ of DESELECT (R163). -/
def seqDeselect (s : State) : Result :=
  match s.pos with
  | .deselect .own => .next (setPos .finish (deselect true s))
  | .finish => .next (finish s)
  | _ => .fault .positionNotOfCommand

/-- DESELECT (R163). -/
def execDeselect (s : State) : Result :=
  runCommand .deselect refuseNever id (.deselect .own) seqDeselect s

end Sys2Proof.Machine
end

