-- ==== Sys2Proof/Machine/Dispatch.lean ====
section
/-! DEFINITION. One step of a command: its issue while SEQ is idle, its next primitive while it runs. -/

namespace Sys2Proof.Machine

def exec (i : Instr) (s : State) : Host.Outcome State Fault Refusal :=
  match i with
  | .rdid => Sys2Proof.Machine.execRdid s
  | .rdsr1 => Sys2Proof.Machine.execRdsr1 s
  | .rdsr2 => Sys2Proof.Machine.execRdsr2 s
  | .read => Sys2Proof.Machine.execRead s
  | .wren => Sys2Proof.Machine.execWren s
  | .wrdi => Sys2Proof.Machine.execWrdi s
  | .ce => Sys2Proof.Machine.execCe s
  | .pp => Sys2Proof.Machine.execPp s
  | .select => Sys2Proof.Machine.execSelect s
  | .exchange b => Sys2Proof.Machine.execExchange b s
  | .deselect => Sys2Proof.Machine.execDeselect s
  | .waitReady => Sys2Proof.Machine.execWaitReady s
  | .readId => Sys2Proof.Machine.execReadId s
  | .dump => Sys2Proof.Machine.execDump s
  | .upload => Sys2Proof.Machine.execUpload s
  | .verify => Sys2Proof.Machine.execVerify s

end Sys2Proof.Machine
end

