-- ==== Sys2Proof/Machine/Fetch.lean ====
section
/-! DEFINITION. Who moves next (R95), and what that move asks for: a command to be run, or an outcome of its
own. The command "fetched" is the word the host writes to CMD, or the one in SEQ's latches (R2, R40, R55). -/

namespace Sys2Proof.Machine

/-- A drawn host access is one SFC's interface admits: 32 bits wide and aligned (R90). -/
def admitted : Move → Move
  | .hostRead _ off => .hostRead .word (off &&& 0xFFC)
  | .hostWrite _ off w => .hostWrite .word (off &&& 0xFFC) w
  | m => m

/-- The next move: the first State names, else a free value (R95, U12, log 1). -/
def nextMove (s : State) : Move :=
  match s.moves with
  | m :: _ => m
  | [] => admitted (Config.nextMove s.draws)

/-- The moves State names replaced. -/
def setMoves (ms : List Move) (s : State) : State := { s with moves := ms }

/-- The state once the next move is taken from it. -/
def moveTaken (s : State) : State :=
  match s.moves with
  | _ :: ms => setMoves ms s
  | [] => { s with draws := s.draws + 1 }

/-- What a move asks for. -/
inductive Fetched where
  /-- The command to run, in a state. -/
  | run (i : Instr) (s : State)
  /-- Nothing to run: the step's outcome. -/
  | stop (o : Result)

/-- A host access refused unless it is 32 bits wide and aligned (R90). -/
def gate (width : AccessWidth) (off : BitVec 12) (f : Fetched) : Fetched :=
  if width ≠ .word then .stop (.refused .hostAccessNarrow)
  else if off.toNat % 4 ≠ 0 then .stop (.refused .hostAccessMisaligned)
  else f

/-- A host write of CMD (R302): dropped while BUSY = 1; an illegal word is refused by the block itself; a legal
one is the command to run. -/
def fetchCommand (w : Word) (s : State) : Fetched :=
  if s.busy then .stop (.next (dropCommand s))
  else
    match decode w with
    | .ok i => .run i s
    | .error _ => .stop (.next (issueIllegal w s))

/-- The latched command (R55). -/
def latched (s : State) : Except Illegal Instr := decodeFields ⟨0, s.lOp, s.lByte⟩

/-- SEQ's move: the latched command runs on; with BUSY = 0 SEQ has no step and the move passes (R37, log 3). -/
def fetchSeq (s : State) : Fetched :=
  if s.busy then
    match latched s with
    | .ok i => .run i s
    | .error _ => .stop (.fault .latchesHoldNoCommand)
  else .stop (.next s)

/-- What a move asks for in a state. -/
def fetchMove (m : Move) (s : State) : Fetched :=
  match m with
  | .seq => fetchSeq s
  | .hostRead width off => gate width off (.stop (.next (hostRead off s)))
  | .hostWrite width off w =>
    gate width off
      (if hostReg off = .cmd then fetchCommand w s else .stop (.next (writeReg (hostReg off) w s)))
  | .rst => .stop (.next (resetStep s))

/-- What the machine does next. -/
def fetch (s : State) : Fetched := fetchMove (nextMove s) (moveTaken s)

/-- The host about to write a command word, with SEQ idle to take it (log 2). -/
def commandNext (w : Word) (s : State) : State :=
  { s with
    busy := false
    phase := .idle
    pos := .idle
    moves := .hostWrite .word 0x000 w :: s.moves }

end Sys2Proof.Machine
end

