-- ==== Sys2Proof/Machine/Step.lean ====
section
/-! DEFINITION. One step of the machine: the next agent's move (R15, R95). -/

namespace Sys2Proof.Machine

/-- A command fetched is run; anything else has its own outcome. -/
def runFetched : Fetched → Host.Outcome State Fault Refusal
  | .run i t => exec i t
  | .stop o => o

/-- One step: the next agent's move. -/
def step (s : State) : Host.Outcome State Fault Refusal := runFetched (fetch s)

/-- The state with a command word written to CMD as its next move (log 2). -/
def State.withFetchWord (s : State) (nbits w : Nat) : State :=
  commandNext (BitVec.ofNat 32 (w % 2 ^ min nbits 32)) s

end Sys2Proof.Machine
end

