-- ==== Sys2Proof/Asm.lean ====
section
/-! DEFINITION. The assembler lines of R131 as host accesses, and the pseudo-instructions of R132. -/

namespace Sys2Proof

/-- One host line (R131). -/
inductive AsmLine where
  /-- A command with no register operands. -/
  | cmd (i : Instr)
  /-- `READ a, n`. -/
  | readAt (a : Addr) (n : BitVec 16)
  /-- `PP a, n`. -/
  | programAt (a : Addr) (n : BitVec 16)
  /-- `WR reg, value`. -/
  | wr (off : BitVec 12) (value : Word)
  /-- `RD reg`. -/
  | rd (off : BitVec 12)
  /-- `WAITIDLE`: RD STATUS until BUSY = 0. -/
  | waitIdle
  deriving DecidableEq, Repr

/-- `WR reg, value`: one aligned 32-bit write (R22). -/
def writeMove (off : BitVec 12) (value : Word) : Move := .hostWrite .word off value

/-- The host accesses a line stands for; for `WAITIDLE`, one round of its loop (R131). -/
def AsmLine.moves : AsmLine → List Move
  | .cmd i => [writeMove 0x000 (encode i)]
  | .readAt a n =>
    [writeMove 0x004 (a.setWidth 32), writeMove 0x008 (n.setWidth 32), writeMove 0x000 (encode .read)]
  | .programAt a n =>
    [writeMove 0x004 (a.setWidth 32), writeMove 0x008 (n.setWidth 32), writeMove 0x000 (encode .pp)]
  | .wr off v => [writeMove off v]
  | .rd off => [.hostRead .word off]
  | .waitIdle => [.hostRead .word 0x00C]

/-- A pseudo-instruction (R132). -/
inductive Pseudo where
  | eraseAll
  | program (a : Addr) (n : BitVec 16)
  | send (bytes : List Byte)
  | identify3
  deriving DecidableEq, Repr

/-- The commands of a pseudo-instruction, before the waits (R132). -/
def Pseudo.commands : Pseudo → List AsmLine
  | .eraseAll => [.cmd .wren, .cmd .ce, .cmd .waitReady]
  | .program a n => [.cmd .wren, .programAt a n, .cmd .waitReady]
  | .send bytes => .cmd .select :: bytes.map (fun b => .cmd (.exchange b)) ++ [.cmd .deselect]
  | .identify3 => [.cmd .rdid, .cmd .rdsr1, .cmd .rdsr2]

/-- The lines of a pseudo-instruction: each command after `WAITIDLE` for the one before (R132). -/
def Pseudo.expand (p : Pseudo) : List AsmLine := p.commands.intersperse .waitIdle

end Sys2Proof
end

