-- ==== Sys2Proof/Safety.lean ====
section
/-! DEFINITION. What claims are stated in: several steps of one command, the wire history as frames (R85), the
invariant of the machine, and the host's duties (R346, R347). -/

namespace Sys2Proof.Machine

/-! ### Steps of one command -/

/-- `n` steps of a command, no other agent moving between them; the first fault or refusal ends them. -/
def execN (i : Instr) : Nat → State → Result
  | 0, s => .next s
  | n + 1, s =>
    match exec i s with
    | .next t => execN i n t
    | .fault r => .fault r
    | .refused r => .refused r

/-! ### The wire history (R85) -/

/-- Chip select after an event, if the event may happen: Select while released, Exchange and Deselect while
selected; stream and progress events at any time. -/
def wireStep : Option Bool → BusEvent → Option Bool
  | some false, .select => some true
  | some true, .exchange _ _ => some true
  | some true, .deselect _ => some false
  | some o, .sourceRead _ _ _ => some o
  | some o, .sinkWrite _ _ => some o
  | some o, .progress _ _ => some o
  | _, _ => none

/-- Chip select after a history, if the history is a run of frames (R85). -/
def wireState (l : List BusEvent) : Option Bool := l.foldl wireStep (some false)

/-- The bytes on MOSI in a history, in order. -/
def mosi (l : List BusEvent) : List Byte :=
  l.filterMap fun e => match e with
    | .exchange tx _ => some tx
    | _ => none

/-- The progress tuples of a history, in order (R32). -/
def progressEvents (l : List BusEvent) : List (Nat × Nat) :=
  l.filterMap fun e => match e with
    | .progress c t => some (c, t)
    | _ => none

/-- The chunks a history handed to the sink, with its answers (R86). -/
def sinkWrites (l : List BusEvent) : List (List Byte × Bool) :=
  l.filterMap fun e => match e with
    | .sinkWrite d ok => some (d, ok)
    | _ => none

/-! ### The invariant -/

/-- A position of a single-frame command (R180). -/
def framePos (f : Frame) : Pos → Bool
  | .select .own => true
  | .byte .own k => decide (k < f.size)
  | .deselect .own => true
  | .finish => true
  | _ => false

/-- The positions a running command can be at (R40). -/
def posOk (i : Instr) (s : State) : Bool :=
  match i with
  | .rdid => framePos (frameF1 0x9F 3) s.pos
  | .rdsr1 => framePos (frameF1 0x05 1) s.pos
  | .rdsr2 => framePos (frameF1 0x35 1) s.pos
  | .read => framePos (readFrame s) s.pos
  | .wren => framePos (frameF0 0x06) s.pos
  | .wrdi => framePos (frameF0 0x04) s.pos
  | .ce => framePos (frameF0 0xC7) s.pos
  | .pp => framePos (programFrame s) s.pos
  | .select => s.pos == .select .own || s.pos == .finish
  | .exchange _ => s.pos == .byte .own 0 || s.pos == .finish
  | .deselect => s.pos == .deselect .own || s.pos == .finish
  | .waitReady =>
    match s.pos with
    | .select .own | .byte .own 0 | .sample .own | .deselect .own | .finish | .fail .unresponsive => true
    | _ => false
  | .readId =>
    match s.pos with
    | .select .ident | .deselect .ident | .select .status1 | .deselect .status1 | .select .status2
    | .deselect .status2 | .finish => true
    | .byte .ident k => decide (k < 4)
    | .byte .status1 k => decide (k < 2)
    | .byte .status2 k => decide (k < 2)
    | _ => false
  | .dump =>
    match s.pos with
    | .select .own | .data | .sinkWrite | .progress | .deselect .own | .finish | .fail .snkRej => true
    | .byte .own k => decide (k < 4)
    | _ => false
  | .upload =>
    match s.pos with
    | .select .eraseWren | .byte .eraseWren 0 | .deselect .eraseWren | .select .eraseCe | .byte .eraseCe 0
    | .deselect .eraseCe | .select .erasePoll | .byte .erasePoll 0 | .sample .erasePoll
    | .deselect .erasePoll | .sourceRead | .select .pageWren | .byte .pageWren 0 | .deselect .pageWren
    | .select .pageProg | .deselect .pageProg | .select .pagePoll | .byte .pagePoll 0 | .sample .pagePoll
    | .deselect .pagePoll | .progress | .finish | .fail .unresponsive | .fail .srcShort => true
    | .byte .pageProg k => decide (k < 260)
    | _ => false
  | .verify =>
    match s.pos with
    | .select .own | .data | .sourceRead | .compare | .mismatch | .progress | .deselect .own | .finish
    | .fail .srcShort => true
    | .byte .own k => decide (k < 4)
    | _ => false

/-- STATUS.CS at a position of a running command, where the position settles it (R42): a raw SELECT or DESELECT
may come with either value, and UPLOAD holds no frame open over a source read or progress. -/
def csAt (i : Instr) (p : Pos) : Option Bool :=
  match p with
  | .select _ => if i = .select then none else some false
  | .deselect _ => if i = .deselect then none else some true
  | .finish =>
    match i with
    | .select | .exchange _ => some true
    | _ => some false
  | .sourceRead | .progress => some (i != .upload)
  | .fail c => some (!(i == .upload && c == .srcShort))
  | _ => some true

/-- The loop indices and the cursor of a running command (R251, R56), and the operand bounds its acceptance
checked (R190, R194). -/
def loopOk (i : Instr) (s : State) : Prop :=
  match i with
  | .read => s.lLen.toNat ≤ Config.pageSize
  | .pp => (s.lAddr.extractLsb' 0 8).toNat + s.lLen.toNat ≤ Config.pageSize
  | .dump =>
    s.chunkIx < Config.numChunks ∧
    match s.pos with
    | .select _ | .byte _ _ => s.byteIx = 0 ∧ s.cursor.toNat = s.chunkIx * Config.chunkSize
    | .deselect _ | .finish => s.cursor.toNat = Config.totalSize
    | .data => s.byteIx < Config.chunkSize ∧ s.cursor.toNat = s.chunkIx * Config.chunkSize
    | _ => s.cursor.toNat = s.chunkIx * Config.chunkSize
  | .upload =>
    s.chunkIx < Config.numChunks ∧ s.pageIx < Config.pagesPerChunk ∧
    match s.pos with
    | .finish => s.cursor.toNat = Config.totalSize
    | _ => s.cursor.toNat = s.chunkIx * Config.chunkSize
  | .verify =>
    s.strideIx < Config.numStrides ∧
    match s.pos with
    | .select _ | .byte _ _ => s.byteIx = 0 ∧ s.cursor.toNat = s.strideIx * Config.halfSize
    | .deselect _ | .finish => s.cursor.toNat = Config.totalSize
    | .progress => s.cursor.toNat = (s.strideIx + 1) * Config.halfSize
    | .data => s.byteIx < Config.halfSize ∧ s.cursor.toNat = s.strideIx * Config.halfSize
    | .mismatch => s.byteIx < Config.halfSize ∧ s.cursor.toNat = s.strideIx * Config.halfSize
    | _ => s.cursor.toNat = s.strideIx * Config.halfSize
  | _ => True

/-- FREF's array is in canonical form; an oracle has none. -/
def Flash.wf : Flash → Bool
  | .oracle _ => true
  | .fref c => Memory.wf (some frefErased) Config.totalSize c.mem

/-- Where a status sample may wait to be assigned: between samples, and at the end of the poll (R21, R220). -/
def sampleWaits (i : Instr) : Pos → Bool
  | .sample _ => true
  | .deselect f => i == .waitReady || f == .erasePoll || f == .pagePoll
  | .fail c => c == .unresponsive
  | _ => false

/-- A sample waits in a poll only, and source bytes only between the read and the step that puts them in WBUF, exactly
as many as were asked for (R21, R86). -/
def heldOk (i : Instr) (s : State) : Prop :=
  (s.sample ≠ none → sampleWaits i s.pos = true) ∧
    ∀ d, s.sourced = some d →
      i = .upload ∧ s.pos = .select .pageWren ∧ d.length = Config.chunkSize ∨
        i = .verify ∧ s.pos = .compare ∧ d.length = Config.halfSize

/-- A running command and where it stands. -/
structure Running (i : Instr) (s : State) : Prop where
  /-- The latches hold the command (R55). -/
  latch : latched s = .ok i
  /-- CMD holds its word (R33, R43). -/
  word : s.cmd = encode i
  /-- The position is one of its positions (R40). -/
  pos : posOk i s = true
  /-- Chip select is as the position has it (R42). -/
  cs : ∀ b, csAt i s.pos = some b → s.cs = b
  /-- Loop indices, cursor and operands are in their bounds (R251). -/
  loop : loopOk i s
  /-- What waits to be assigned has its step still to come (R21). -/
  held : heldOk i s

/-- The invariant of the machine. -/
structure Inv (s : State) : Prop where
  /-- DONE and ERR are never both 1 (R38). -/
  outcome : ¬(s.done = true ∧ s.err = true)
  /-- While a command runs neither is 1 (R38). -/
  running : s.busy = true → s.done = false ∧ s.err = false
  /-- CAUSE is NONE exactly when ERR = 0 (R39). -/
  cause : s.err = false ↔ s.cause = .none
  /-- STATE is IDLE exactly when BUSY = 0 (R41). -/
  phase : s.phase = .idle ↔ s.busy = false
  /-- The position is IDLE exactly when BUSY = 0 (R40). -/
  idle : s.pos = .idle ↔ s.busy = false
  /-- With no command running nothing waits to be assigned (R21). -/
  settled : s.busy = false → s.sample = none ∧ s.sourced = none
  /-- A busy machine runs a command (R37). -/
  command : s.busy = true → ∃ i, Running i s
  /-- The history is a run of frames, and STATUS.CS says whether one is open (R42, R85). -/
  wire : wireState s.events = some s.cs
  /-- CURSOR stays in 0..TOTAL_SIZE (R48). -/
  cursor : s.cursor.toNat ≤ Config.totalSize
  /-- PCT stays in 0..100 (R50). -/
  pct : s.pct.toNat ≤ 100
  /-- WBUF is in canonical form and within its size (R52). -/
  wbuf : Memory.wf none Config.chunkSize s.wbuf = true
  /-- DBUF is in canonical form and within its size (R53). -/
  dbuf : Memory.wf none Config.pageSize s.dbuf = true
  /-- FREF's array, where FREF is the chip, is in canonical form. -/
  flash : s.flash.wf = true

/-! ### The host's duties (R346, R347): SFC checks neither (R196) -/

/-- What a host has to remember between commands. -/
structure HostDuty where
  /-- A chip-erase or page-program may still be running in the chip (R346). -/
  writePending : Bool
  /-- A WREN was sent, and no write, no write-disable and no raw byte since (R347, log 27). -/
  writeEnabled : Bool
  deriving DecidableEq, Repr

/-- Whether the duties let a host issue a command now. -/
def HostDuty.allows (d : HostDuty) (i : Instr) : Bool :=
  match i with
  | .rdsr1 | .rdsr2 | .rdid | .readId | .waitReady => true
  | .ce | .pp => !d.writePending && d.writeEnabled
  | _ => !d.writePending

/-- The duties after a command ended with DONE. A WRDI takes the WREN before it back, and so does any
byte of a raw frame, since SFC does not know which of them the chip takes for a write (R347; DESIGN CHOICE, log 27). -/
def HostDuty.after (d : HostDuty) (i : Instr) : HostDuty :=
  match i with
  | .wren => { d with writeEnabled := true }
  | .wrdi | .exchange _ => { d with writeEnabled := false }
  | .ce | .pp => ⟨true, false⟩
  | .waitReady => { d with writePending := false }
  | .upload => ⟨false, false⟩
  | _ => d

/-- Whether a host that issues these commands, each ending with DONE, keeps its duties. -/
def HostDuty.kept : HostDuty → List Instr → Bool
  | _, [] => true
  | d, i :: is => d.allows i && HostDuty.kept (d.after i) is

end Sys2Proof.Machine
end

