-- ==== Sys2Proof/Claims.lean ====
section
/-! DEFINITION. The spec's own tables and procedures, written out again from their rules and not from the
model's meanings, for the statements to hold the model against. -/

namespace Sys2Proof.Claims

open Sys2Proof Sys2Proof.Machine

/-- The commands accepted while a raw frame is open (R161). -/
def isTransport : Instr → Bool
  | .select | .exchange _ | .deselect => true
  | _ => false

/-- The bulk commands (R25). -/
def isBulk : Instr → Bool
  | .dump | .upload | .verify => true
  | _ => false

/-- The cause of the highest issue check a legal command fails, in the order of R302. -/
def issueCause (i : Instr) (s : State) : Option Cause :=
  if isTransport i = false ∧ s.cs = true then some .state
  else if (∃ b, i = .exchange b) ∧ s.cs = false then some .state
  else if i = .read ∧ 256 < s.len.toNat then some .len
  else if i = .pp ∧ (256 < s.len.toNat ∨ 256 < s.addr.toNat % 256 + s.len.toNat) then some .len
  else none

/-- The first primitive of a command (40_transport.md to 44_bulk_transfer.md). -/
def firstPos : Instr → Pos
  | .exchange _ => .byte .own 0
  | .deselect => .deselect .own
  | .readId => .select .ident
  | .upload => .select .eraseWren
  | _ => .select .own

/-- Bulk acceptance: cursor and progress cleared, for VERIFY the mismatch registers too (R250). The loop indices
start with them (log 12). -/
def bulkCleared (i : Instr) (s : State) : State :=
  if isBulk i = false then s
  else
    { s with
      cursor := 0
      pct := 0
      chunkIx := 0
      pageIx := 0
      strideIx := 0
      byteIx := 0
      mmAddr := if i = .verify then 0 else s.mmAddr
      mmDev := if i = .verify then 0 else s.mmDev
      mmExp := if i = .verify then 0 else s.mmExp }

/-- A command accepted: CMD and STATUS as R302 has them, the latches of R55. -/
def accepted (i : Instr) (s : State) : State :=
  { bulkCleared i s with
    cmd := encode i
    done := false
    err := false
    cause := .none
    lOp := (encode i).extractLsb' 8 4
    lByte := (encode i).extractLsb' 0 8
    lAddr := s.addr
    lLen := s.len
    lLimit := s.pollLimit
    busy := true
    phase := .start
    pos := firstPos i }

/-- A word refused: CMD and STATUS change, nothing else (R304). -/
def rejected (w : Word) (c : Cause) (s : State) : State :=
  { s with cmd := w, done := false, err := true, cause := c }

/-- The issue sequence of R302 for a host write of `w` to CMD. -/
def issueOutcome (w : Word) (s : State) : State :=
  if s.busy then { s with cmdRej := true }
  else
    match decode w with
    | .error _ => rejected w .illegal s
    | .ok i =>
      match issueCause i s with
      | some c => rejected w c s
      | none => accepted i s

/-- The state a successful command leaves, but for what the command itself writes: accepted, then `Finish()`. -/
def finished (i : Instr) (s : State) : State :=
  { accepted i s with done := true, busy := false, phase := .idle, pos := .idle }

/-- The state a failed command leaves, but for what the command itself writes: accepted, then `Fail(c)`. -/
def failed (i : Instr) (c : Cause) (s : State) : State :=
  { accepted i s with err := true, cause := c, busy := false, phase := .idle, pos := .idle }

/-- The address bytes of a frame: A[23:16], A[15:8], A[7:0] (R128). -/
def addrBytes (a : Addr) : List Byte :=
  [BitVec.ofNat 8 (a.toNat / 65536), BitVec.ofNat 8 (a.toNat / 256), BitVec.ofNat 8 a.toNat]

/-- A frame's events: Select, one Exchange for each pair of bytes, Deselect after the idle wait (R85, R180). -/
def frameEvents (tx rx : List Byte) : List BusEvent :=
  .select :: List.zipWith .exchange tx rx ++ [.deselect true]

/-- The bytes a FLASH agent that has seen `seen` answers while `tx` is sent, one in each `Exchange`, which it sees in
its turn (R18, R84). -/
def heard (f : Flash) (seen : List BusEvent) (draw : Nat) : List Byte → List Byte
  | [] => []
  | b :: bs =>
    f.answer seen b draw ::
      heard (f.clocked b) (seen ++ [.exchange b (f.answer seen b draw)]) (draw + 1) bs

/-- The bytes heard while `tx` is sent from a state. -/
def heardFrom (s : State) (tx : List Byte) : List Byte := heard s.flash (chipSaw s.events) s.draws tx

/-- The bytes heard in a frame of `tx` sent from a state (R84). -/
def frameRx (tx : List Byte) (s : State) : List Byte :=
  heard s.flash.selected (chipSaw s.events ++ [.select]) s.draws tx

/-- Byte `k` heard in a frame of `tx`, counted from 0 (R127). -/
def response (tx : List Byte) (s : State) (k : Nat) : Byte := (frameRx tx s).getD k 0

/-- What one whole frame of `tx` does: to the history, to the chip, to the count of bytes drawn from it. -/
def framed (tx : List Byte) (s : State) : State :=
  { s with
    events := s.events ++ frameEvents tx (frameRx tx s)
    flash := (tx.foldl Flash.clocked s.flash.selected).released
    draws := s.draws + tx.length }

/-- The frame of a FRAME-class command on MOSI (R124, R127). -/
def frameTx (i : Instr) (s : State) : Option (List Byte) :=
  match i with
  | .rdid => some [0x9F, 0, 0, 0]
  | .rdsr1 => some [0x05, 0]
  | .rdsr2 => some [0x35, 0]
  | .read => some (0x03 :: addrBytes s.addr ++ List.replicate s.len.toNat 0)
  | .wren => some [0x06]
  | .wrdi => some [0x04]
  | .ce => some [0xC7]
  | .pp => some (0x02 :: addrBytes s.addr ++ (List.range s.len.toNat).map (dbufAt s))
  | _ => none

/-- The frame of a poll that takes `n` samples (R220). -/
def pollTx (n : Nat) : List Byte := 0x05 :: List.replicate n 0

/-- Samples 1 to `n` of a poll from a state all show the busy bit (R220). -/
def allBusy (n : Nat) (s : State) : Prop :=
  ∀ k, 1 ≤ k → k ≤ n → (response (pollTx n) s k).getLsbD 0 = true

/-- What `n` samples leave in SR.SR1, POLLCNT and the poll count once all are assigned (R220). -/
def sampled (n : Nat) (s t : State) : State :=
  { t with
    sr1 := response (pollTx n) s n
    pollN := n
    pollCnt := BitVec.ofNat 32 (min n 0xFFFFFFFF)
    sample := none }

/-- A sample that waits to be assigned, assigned (R21, R220). -/
def counted (s : State) : State :=
  match s.sample with
  | none => s
  | some b =>
    { s with
      pollN := s.pollN + 1
      pollCnt := BitVec.ofNat 32 (min (s.pollN + 1) 0xFFFFFFFF)
      sr1 := b
      sample := none }

/-- The bytes on MISO in a history, in order. -/
def miso (l : List BusEvent) : List Byte :=
  l.filterMap fun e => match e with
    | .exchange _ r => some r
    | _ => none

/-- Source requests of a history, with whether they were met (R86). -/
def sourceReads (l : List BusEvent) : List (Nat × Bool) :=
  l.filterMap fun e => match e with
    | .sourceRead n ok _ => some (n, ok)
    | _ => none

/-- Piece `k` of `n` bytes of a list. -/
def piece (d : List Byte) (n k : Nat) : List Byte := (d.drop (k * n)).take n

/-- The header of a sweep's one frame: read-data at address 0 (R129, R252, R270). -/
def sweepHeader : List Byte := [0x03, 0x00, 0x00, 0x00]

/-- Several commands in turn, `n` steps each (one issue step, then SEQ). -/
def runEach (n : Nat) : List Instr → State → Result
  | [], s => .next s
  | i :: is, s =>
    match execN i n s with
    | .next t => runEach n is t
    | .fault r => .fault r
    | .refused r => .refused r

/-- Other values in the operand registers ADDR, LEN and POLL_LIMIT (R349). -/
def withOperands (a : Addr) (n : BitVec 16) (l : Word) (s : State) : State :=
  { s with addr := a, len := n, pollLimit := l }

/-- A step's outcome with its next state changed. -/
def mapNext (f : State → State) : Result → Result
  | .next t => .next (f t)
  | .fault r => .fault r
  | .refused r => .refused r

/-- The first `n` progress events of a sweep: event k is (k * 0x4000, 0x800000), k = 1.. (R254, R265, R275). -/
def sweepProgress (n : Nat) : List (Nat × Nat) :=
  (List.range n).map fun k => ((k + 1) * 0x4000, 0x800000)

/-- The three frames of page `k` of an UPLOAD from `d`: write-enable, page-program at k * 256, a poll of one
sample (R263, R264). -/
def pageFrames (d : List Byte) (k : Nat) : List (List Byte) :=
  [[0x06], 0x02 :: BitVec.ofNat 8 (k / 256) :: BitVec.ofNat 8 k :: 0x00 :: piece d 256 k, pollTx 1]

/-- What a history put on MOSI, frame by frame: the bytes heard are left out. -/
def sent (l : List BusEvent) : List BusEvent :=
  (l.filter onWire).map fun e => match e with
    | .exchange tx _ => .exchange tx 0
    | e => e

/-- Frames on MOSI, one after another. -/
def sentFrames (txs : List (List Byte)) : List BusEvent :=
  txs.flatMap fun tx => frameEvents tx (List.replicate tx.length 0)

/-! ### The register map in numbers (R33 to R51, R88) -/

/-- A bit as a number. -/
def bit (b : Bool) : Nat := if b then 1 else 0

/-- The code of a cause (R300). -/
def causeNumber : Cause → Nat
  | .none => 0
  | .srcShort => 1
  | .snkRej => 2
  | .mismatch => 3
  | .unresponsive => 4
  | .len => 5
  | .illegal => 6
  | .state => 7

/-- The code of a phase (R41). -/
def phaseNumber : Phase → Nat
  | .idle => 0
  | .start => 1
  | .transfer => 2
  | .finish => 3

/-- STATUS as a number (R36). -/
def statusNumber (s : State) : Nat :=
  bit s.busy + 2 * bit s.done + 4 * bit s.err + 8 * bit s.cs + 16 * bit s.cmdRej +
    0x100 * causeNumber s.cause + 0x10000 * phaseNumber s.phase

/-- What the register at an offset reads as (R88). -/
def regNumber (s : State) (off : Nat) : Nat :=
  if off = 0x000 then s.cmd.toNat
  else if off = 0x004 then s.addr.toNat
  else if off = 0x008 then s.len.toNat
  else if off = 0x00C then statusNumber s
  else if off = 0x010 then 2 * bit s.doneIe + 4 * bit s.errIe + 16 * bit s.rejIe
  else if off = 0x014 then 0x10000 * s.idMfr.toNat + 0x100 * s.idType.toNat + s.idCap.toNat
  else if off = 0x018 then 0x100 * s.sr2.toNat + s.sr1.toNat
  else if off = 0x01C then s.rxdata.toNat
  else if off = 0x020 then s.cursor.toNat
  else if off = 0x024 then s.mmAddr.toNat
  else if off = 0x028 then 0x100 * s.mmExp.toNat + s.mmDev.toNat
  else if off = 0x02C then s.pct.toNat
  else if off = 0x030 then s.pollLimit.toNat
  else if off = 0x034 then s.pollCnt.toNat
  else if 0x100 ≤ off ∧ off ≤ 0x1FC then
    let k := off - 0x100
    (dbufAt s k).toNat + 0x100 * (dbufAt s (k + 1)).toNat + 0x10000 * (dbufAt s (k + 2)).toNat +
      0x1000000 * (dbufAt s (k + 3)).toNat
  else 0

/-- A host write of a register other than CMD and DBUF (R34, R35, R36, R44, R51, R59, R88). -/
def regWritten (off : Nat) (w : Word) (s : State) : State :=
  let ones k := w.toNat / 2 ^ k % 2 = 1
  if off = 0x004 then { s with addr := BitVec.ofNat 24 w.toNat }
  else if off = 0x008 then { s with len := BitVec.ofNat 16 w.toNat }
  else if off = 0x00C then
    { s with
      done := if ones 1 then false else s.done
      err := if ones 2 then false else s.err
      cause := if ones 2 then .none else s.cause
      cmdRej := if ones 4 then false else s.cmdRej }
  else if off = 0x010 then
    { s with doneIe := decide (ones 1), errIe := decide (ones 2), rejIe := decide (ones 4) }
  else if off = 0x030 then { s with pollLimit := w }
  else s

/-- SEQ moves next and runs one of these commands. -/
def seqRuns (is : List Instr) (s : State) : Prop :=
  nextMove s = .seq ∧ s.busy = true ∧ ∃ i ∈ is, latched s = .ok i

/-- STATE at each position of a running command (R41), by the markers of its rule: none in R160 to R163; SendFrame's
(R180), which READ_ID's frames in the middle keep (R240, log 11); PollReady's (R220); and the bulk commands' own
(R250, R252, R260, R270). Until a bulk command's first data byte or answered source read its loops have not begun. -/
def phaseRule (i : Instr) (s : State) : Prop :=
  match i with
  | .select | .exchange _ | .deselect => s.phase = .start
  | .rdid | .rdsr1 | .rdsr2 | .read | .wren | .wrdi | .ce | .pp =>
    match s.pos with
    | .select _ | .byte _ 0 => s.phase = .start
    | .finish => s.phase = .finish
    | _ => s.phase = .transfer
  | .waitReady =>
    match s.pos with
    | .select _ | .byte _ _ => s.phase = .start
    | .finish => s.phase = .finish
    | _ => s.phase = .transfer
  | .readId =>
    match s.pos with
    | .select .ident | .byte .ident 0 => s.phase = .start
    | .select _ | .byte _ 0 | .finish => s.phase = .finish
    | _ => s.phase = .transfer
  | .dump =>
    match s.pos with
    | .select _ | .byte _ _ => s.phase = .start ∧ s.chunkIx = 0 ∧ s.byteIx = 0
    | .data => s.phase = if s.chunkIx = 0 ∧ s.byteIx = 0 then .start else .transfer
    | .finish => s.phase = .finish
    | _ => s.phase = .transfer
  | .verify =>
    match s.pos with
    | .select _ | .byte _ _ => s.phase = .start ∧ s.strideIx = 0 ∧ s.byteIx = 0
    | .data => s.phase = if s.strideIx = 0 ∧ s.byteIx = 0 then .start else .transfer
    | .finish => s.phase = .finish
    | _ => s.phase = .transfer
  | .upload =>
    match s.pos with
    | .select .eraseWren | .byte .eraseWren _ | .deselect .eraseWren | .select .eraseCe | .byte .eraseCe _
    | .deselect .eraseCe | .select .erasePoll | .byte .erasePoll _ | .sample .erasePoll
    | .deselect .erasePoll => s.phase = .start ∧ s.chunkIx = 0
    | .sourceRead => s.phase = if s.chunkIx = 0 then .start else .transfer
    | .fail .unresponsive => s.phase = .start ∧ s.chunkIx = 0 ∨ s.phase = .transfer
    | _ => s.phase = .transfer

/-- STATE is IDLE with no command running, and follows the position of the one that runs. -/
def PhaseFollows (s : State) : Prop :=
  (s.busy = false → s.phase = .idle) ∧ (s.busy = true → ∃ i, latched s = .ok i ∧ phaseRule i s)

/-- A move SFC's interface admits (R90). -/
def admissible : Move → Bool
  | .hostRead width off => width == .word && off.toNat % 4 == 0
  | .hostWrite width off _ => width == .word && off.toNat % 4 == 0
  | _ => true

end Sys2Proof.Claims
end

