-- ==== Sys2Proof/Certificates/Slice0/Obligations.lean ====
section
/-! DEFINITION. The statements for the provers. Each docstring names the rules it formalises. -/

open Sys2Proof Sys2Proof.Machine Sys2Proof.Claims

/-! ### Encoding (30_encoding.md) -/

/-- Decoding and encoding agree on every word and every command: no bit of a legal word is dropped, and no
other word decodes to the command (R121, R122, R124, R130). -/
def Obligations.DecodeInvertsEncode : Prop :=
  ∀ (w : Word) (i : Instr), decode w = .ok i ↔ w = encode i

/-- A word is illegal exactly when one of R125's four items holds of it, and a host write of such a word while
BUSY = 0 is refused with ILLEGAL, with no event (R125). -/
def Obligations.IllegalWordsRefused : Prop :=
  ∀ (w : Word),
    let rsv := w.toNat / 0x1000
    let op := w.toNat / 0x100 % 0x10
    let b := w.toNat % 0x100
    let illegal :=
      rsv ≠ 0 ∨ (op = 6 ∨ op = 7 ∨ 0xB ≤ op) ∨ (op ≠ 0 ∧ op ≠ 2 ∧ b ≠ 0) ∨
        (op = 0 ∧ b ∉ [0x9F, 0x05, 0x35, 0x03, 0x06, 0x04, 0xC7, 0x02])
    (illegal ↔ ∃ e, decode w = .error e) ∧
      ∀ (s : State) (ms : List Move), illegal → s.moves = .hostWrite .word 0x000 w :: ms → s.busy = false →
        step s = .next (rejected w .illegal (setMoves ms s))

/-- The command words of R133, each decoded, and the reset value of CMD, which is illegal (R133). -/
def Obligations.CommandWordValues : Prop :=
  (∀ p ∈ ([(0x0000009F, .rdid), (0x00000005, .rdsr1), (0x00000035, .rdsr2), (0x00000003, .read),
      (0x00000006, .wren), (0x00000004, .wrdi), (0x000000C7, .ce), (0x00000002, .pp), (0x00000100, .select),
      (0x00000300, .deselect), (0x00000400, .waitReady), (0x00000500, .readId), (0x00000800, .dump),
      (0x00000900, .upload), (0x00000A00, .verify)] : List (Word × Instr)),
    decode p.1 = .ok p.2 ∧ encode p.2 = p.1) ∧
  (∀ b : Byte, decode (0x00000200 + b.setWidth 32) = .ok (.exchange b) ∧
    encode (.exchange b) = 0x00000200 + b.setWidth 32) ∧
  decode State.reset.cmd = .error .flashOpcode

/-! ### Steps and issue (R22, R26, R37, R95, R302 to R304) -/

/-- When the host writes the word of a legal command to CMD and no command runs, the step is that command's
`exec`, on the state with the write taken from the moves (R2, R22, R302; log 18). -/
def Obligations.StepRunsIssuedCommand : Prop :=
  ∀ (s : State) (ms : List Move) (w : Word) (i : Instr),
    s.moves = .hostWrite .word 0x000 w :: ms → s.busy = false → decode w = .ok i →
    step s = exec i (setMoves ms s)

/-- SEQ's move runs the latched command's `exec` while BUSY = 1; with BUSY = 0 SEQ has no step and its turn
changes nothing (R26, R37, R55; log 3). -/
def Obligations.StepRunsLatchedCommand : Prop :=
  ∀ (s : State) (ms : List Move), s.moves = .seq :: ms →
    (∀ i, s.busy = true → latched s = .ok i → step s = exec i (setMoves ms s)) ∧
    (s.busy = false → step s = .next (setMoves ms s))

/-- Where the state names no move, the step is that of an admitted move nothing constrains (R95; logs 1, 17). -/
def Obligations.UnnamedMoveIsFree : Prop :=
  ∀ s : State, s.moves = [] →
    step s = step { s with moves := [admitted (Config.nextMove s.draws)], draws := s.draws + 1 }

/-- A host write of CMD is the issue sequence of R302, with the priorities of R303, for every word and every
state; that the loop indices start at acceptance is log 12's. -/
def Obligations.IssueSequence : Prop :=
  ∀ (s : State) (ms : List Move) (w : Word), s.moves = .hostWrite .word 0x000 w :: ms →
    step s = .next (issueOutcome w (setMoves ms s))

/-- Of the conditions BUSY, ILLEGAL, STATE, LEN the highest that applies is the one a CMD write reports; where
none applies the command is accepted (R303). -/
def Obligations.IssuePriority : Prop :=
  ∀ (s : State) (ms : List Move) (w : Word), s.moves = .hostWrite .word 0x000 w :: ms →
    ∃ t, step s = .next t ∧
      (s.busy = true → t = { setMoves ms s with cmdRej := true }) ∧
      (s.busy = false → t.cmdRej = s.cmdRej ∧
        ((∃ e, decode w = .error e) → t.busy = false ∧ t.err = true ∧ t.cause = .illegal) ∧
        ∀ i, decode w = .ok i →
          let wrongSelect := isTransport i = false ∧ s.cs = true ∨ (∃ b, i = .exchange b) ∧ s.cs = false
          let wrongLength := i = .read ∧ 256 < s.len.toNat ∨
            i = .pp ∧ (256 < s.len.toNat ∨ 256 < s.addr.toNat % 256 + s.len.toNat)
          (wrongSelect → t.busy = false ∧ t.err = true ∧ t.cause = .state) ∧
          (¬wrongSelect → wrongLength → t.busy = false ∧ t.err = true ∧ t.cause = .len) ∧
          (¬wrongSelect → ¬wrongLength → t.busy = true ∧ t.err = false ∧ t.cause = .none))

/-- Every command is issued in one step that answers a next state: accepted when its checks pass, refused with
the cause of the highest check that fails (R302, R303; loop indices by log 12). -/
def Obligations.EveryCommandIssues : Prop :=
  ∀ (i : Instr) (s : State), s.busy = false → exec i s = .next (issueOutcome (encode i) s)

/-- A refused command changes CMD and STATUS only, and leaves BUSY = 0, STATE = IDLE and CS as it was (R304). -/
def Obligations.RejectLeavesTheRest : Prop :=
  ∀ (s : State) (ms : List Move) (w : Word) (c : Cause),
    s.moves = .hostWrite .word 0x000 w :: ms → s.busy = false → s.phase = .idle →
    ((∃ e, decode w = .error e) ∧ c = .illegal ∨ ∃ i, decode w = .ok i ∧ issueCause i s = some c) →
    ∃ t, step s = .next t ∧ t.err = true ∧ t.cause = c ∧ t.busy = false ∧ t.phase = .idle ∧ t.cs = s.cs ∧
      t = { setMoves ms s with cmd := w, done := false, err := true, cause := c }

/-- CMD_REJ rises only with a CMD write while BUSY = 1, which changes nothing else, and falls only with a host
write of 1 to STATUS bit 4 or with reset (R43). -/
def Obligations.CmdRejRule : Prop :=
  (∀ (s : State) (ms : List Move) (w : Word), s.moves = .hostWrite .word 0x000 w :: ms → s.busy = true →
    step s = .next { setMoves ms s with cmdRej := true }) ∧
  ∀ s t : State, step s = .next t →
    (s.cmdRej = false → t.cmdRej = true → s.busy = true ∧ ∃ w, nextMove s = .hostWrite .word 0x000 w) ∧
    (s.cmdRej = true → t.cmdRej = false →
      nextMove s = .rst ∨ ∃ w, nextMove s = .hostWrite .word 0x00C w ∧ w.getLsbD 4 = true)

/-- A host access that is not 32 bits wide or not aligned to 4 bytes is refused, with no step (R90). -/
def Obligations.OtherHostAccessesRefused : Prop :=
  ∀ (s : State) (ms : List Move) (width : AccessWidth) (off : BitVec 12) (w : Word),
    (s.moves = .hostRead width off :: ms ∨ s.moves = .hostWrite width off w :: ms) →
    (width ≠ .word → step s = .refused .hostAccessNarrow) ∧
    (width = .word → off.toNat % 4 ≠ 0 → step s = .refused .hostAccessMisaligned)

/-! ### Reset (R60, R340 to R342) -/

/-- Reset values: every host register reads 0, STATE is IDLE, CS = 0 with CS_n high, irq = 0, the position is
IDLE, and every byte of WBUF and DBUF is a free value (R60). -/
def Obligations.ResetValues : Prop :=
  (∀ off, off < 0x100 → regNumber State.reset off = 0) ∧
  State.reset.busy = false ∧ State.reset.phase = .idle ∧ State.reset.pos = .idle ∧ State.reset.cs = false ∧
  csN State.reset = true ∧ irq State.reset = false ∧
  (∀ k, dbufAt State.reset k = Config.dbufByte 0 k) ∧ ∀ k, wbufAt State.reset k = Config.wbufByte 0 k

/-- The reset step, at any time: every piece of SFC state at its reset value, DONE = ERR = 0, chip select
released without the idle wait if it was active, the chip and the streams as they are otherwise, and every byte
of WBUF and DBUF a free value of a new draw (R340, R341, R342; log 7 for the buffers, log 9 for the history). The
latches and the loop indices, which the spec leaves unspecified after reset, are 0 by the model's choice (log 8). -/
def Obligations.ResetStepResets : Prop :=
  ∀ (s : State) (ms : List Move), s.moves = .rst :: ms →
    ∃ t, step s = .next t ∧
      t = { State.reset with
            events := if s.cs then s.events ++ [.deselect false] else s.events
            flash := if s.cs then s.flash.released else s.flash
            rdata := s.rdata
            moves := ms
            source := s.source
            sink := s.sink
            draws := t.draws
            ramDraw := t.ramDraw } ∧
      (∀ k, dbufAt t k = Config.dbufByte s.draws k) ∧ (∀ k, wbufAt t k = Config.wbufByte s.draws k) ∧
      s.draws < t.draws

/-! ### The invariant (R38, R39, R41, R42, R48, R50) -/

/-- The invariant holds right after reset. -/
def Obligations.ResetMeetsInvariant : Prop := Inv State.reset

/-- Every step, of any agent, keeps the invariant: outcome flags and CAUSE agree (R38, R39), BUSY and STATE
agree (R37, R41), the history is a run of frames and CS says whether one is open (R42, R85; that a SELECT or DESELECT
which changes nothing on the wire adds no event is log 13's), CURSOR and PCT stay in range (R48, R50), the buffers
stay canonical, a running command stands where its rule puts it (its loop indices from acceptance on are log 12's),
and what waits to be assigned waits for a step of its command (R21; the reading and the fields that hold it are logs
25 and 26). -/
def Obligations.EveryStepKeepsInvariant : Prop :=
  ∀ s t : State, Inv s → step s = .next t → Inv t

/-- In a state that meets the invariant the next move, if SFC's interface admits it, always has a next state:
no fault and no refusal. That SEQ's turn has a next state too with BUSY = 0, or while STREAM has not answered, where
R37 and R86 give SEQ no step, is log 3's choice; that a move the state does not name is always admitted is log 17's. -/
def Obligations.EveryAdmittedMoveSteps : Prop :=
  ∀ s : State, Inv s → s.moves = [] ∨ admissible (nextMove s) = true → ∃ t, step s = .next t

/-- STATE follows the position of the running command: right after reset it is IDLE, and every step of every agent
keeps the rule. So inside DUMP and VERIFY it is START to the last header byte, TRANSFER from the first data byte and
FINISH from the last `Deselect()`; inside UPLOAD it is START through the erase, whose FINISH markers do not apply, and
TRANSFER from the first answered `SrcRead` (log 23), its FINISH marker belonging to `Finish()`'s own step, which leaves
IDLE (R21, R260); IDLE when no command runs (R41, R250, R252, R260, R270; READ_ID by log 11; loop indices by log 12).
That STATE does not change before a `Fail`, TRANSFER or, in UPLOAD's erase, START standing until it, is log 15's. -/
def Obligations.StateFollowsThePosition : Prop :=
  PhaseFollows State.reset ∧ ∀ s t : State, PhaseFollows s → step s = .next t → PhaseFollows t

/-- Two canonical memories that read alike are the same data. -/
def Obligations.CanonicalMemoriesAgree : Prop :=
  ∀ (u : Option Byte) (n : Nat) (m m' : Memory), Memory.wf u n m = true → Memory.wf u n m' = true →
    (∀ x, x < n → Memory.read u m x = Memory.read u m' x) → m = m'

/-! ### Completion and failure (R305, R306) -/

/-- `Finish()`: every command's last step sets DONE, clears BUSY, puts STATE to IDLE and changes nothing else;
CS is then 0 for every command but SELECT and EXCHANGE, which leave it 1 (R305). -/
def Obligations.FinishStep : Prop :=
  ∀ (i : Instr) (s : State), s.busy = true → s.pos = .finish →
    ∃ t, exec i s = .next t ∧
      t = { s with done := true, busy := false, phase := .idle, pos := .idle } ∧
      (Running i s → (t.cs = true ↔ i = .select ∨ ∃ b, i = .exchange b))

/-- `Fail(c)`: chip select is released, with the idle wait, if it was active; ERR and CAUSE are set, BUSY
cleared, STATE IDLE, everything else kept; after a poll the last sample is assigned in the same step (R21, R220; log
25). VERIFY's mismatch step does the same and writes the mismatch registers (R274, R306). -/
def Obligations.FailStep : Prop :=
  ∀ s : State, s.busy = true →
    let released (u : State) (c : Cause) : State :=
      { u with
        cs := false
        events := if u.cs then u.events ++ [.deselect true] else u.events
        flash := if u.cs then u.flash.released else u.flash
        err := true
        cause := c
        busy := false
        phase := .idle
        pos := .idle }
    (∀ (i : Instr) (c : Cause), i = .dump ∨ i = .verify → s.pos = .fail c →
      exec i s = .next (released s c)) ∧
    (∀ (i : Instr) (c : Cause), i = .waitReady ∨ i = .upload → s.pos = .fail c →
      exec i s = .next (released (counted s) c)) ∧
    (s.pos = .mismatch →
      exec .verify s = .next
        { released s .mismatch with
          mmAddr := BitVec.ofNat 24 (s.strideIx * 0x2000 + s.byteIx)
          mmDev := wbufAt s s.byteIx
          mmExp := wbufAt s (0x2000 + s.byteIx) })

/-! ### Transport (40_transport.md) -/

/-- SELECT, in its three steps: chip select active, a Select event only if it was not, everything else as
acceptance and `Finish()` leave it; BUSY = 1 in between; from reset STATUS is then 0x0000000A (R160; that no event
is recorded with CS = 1 is log 13's). -/
def Obligations.SelectAsserts : Prop :=
  encode .select = 0x00000100 ∧
  (∀ s : State, s.busy = false →
    (∀ k, k = 1 ∨ k = 2 → ∃ u, execN .select k s = .next u ∧ u.busy = true) ∧
    execN .select 3 s = .next
      { finished .select s with
        cs := true
        events := if s.cs then s.events else s.events ++ [.select]
        flash := if s.cs then s.flash else s.flash.selected }) ∧
  ∃ t, execN .select 3 State.reset = .next t ∧ statusNumber t = 0x0000000A

/-- EXCHANGE #b with the device selected sends b and keeps the byte heard in RXDATA; with no device selected it
is refused with STATE and nothing is clocked (R162). -/
def Obligations.ExchangeMovesOneByte : Prop :=
  ∀ (b : Byte) (s : State), s.busy = false →
    (s.cs = true →
      execN (.exchange b) 3 s = .next
        { finished (.exchange b) s with
          rxdata := s.flash.answer (chipSaw s.events) b s.draws
          events := s.events ++ [.exchange b (s.flash.answer (chipSaw s.events) b s.draws)]
          flash := s.flash.clocked b
          draws := s.draws + 1 }) ∧
    (s.cs = false → exec (.exchange b) s = .next (rejected (encode (.exchange b)) .state s))

/-- DESELECT, in its three steps: chip select released after the idle wait; with it inactive nothing happens on
the wire (no event: log 13) and the command still ends with DONE (R163). -/
def Obligations.DeselectReleases : Prop :=
  ∀ s : State, s.busy = false →
    execN .deselect 3 s = .next
      { finished .deselect s with
        cs := false
        events := if s.cs then s.events ++ [.deselect true] else s.events
        flash := if s.cs then s.flash.released else s.flash }

/-- While a raw frame is open every command but SELECT, EXCHANGE and DESELECT is refused with STATE, whatever
LEN holds, and those three are accepted (R161, R350). -/
def Obligations.RawFrameShutsOutComposites : Prop :=
  ∀ (i : Instr) (s : State), s.busy = false → s.cs = true →
    exec i s = .next (if isTransport i then accepted i s else rejected (encode i) .state s)

/-- SELECT, one EXCHANGE for each byte and DESELECT put one frame of exactly those bytes on the wire, in issue
order; RXDATA keeps the last byte heard (R164). -/
def Obligations.RawFrameIsItsBytes : Prop :=
  ∀ (bs : List Byte) (s : State), s.busy = false → s.cs = false →
    ∃ t, runEach 3 (.select :: bs.map .exchange ++ [.deselect]) s = .next t ∧
      t.events = s.events ++ frameEvents bs (frameRx bs s) ∧
      t.flash = (bs.foldl Flash.clocked s.flash.selected).released ∧
      t.rxdata = ((frameRx bs s).getLast?).getD s.rxdata ∧ t.cs = false ∧ t.busy = false ∧ t.done = true

/-! ### Single-frame commands (41_command_codec.md) -/

/-- RDID: one frame [0x9F, 0, 0, 0], its three response bytes in ID, 7 SEQ steps, nothing else but what
acceptance and `Finish()` write (R182, R197). -/
def Obligations.RdidKeepsIdentity : Prop :=
  ∀ s : State, s.busy = false → s.cs = false →
    let tx := [0x9F, 0x00, 0x00, 0x00]
    execN .rdid 8 s = .next
      { finished .rdid (framed tx s) with
        idMfr := response tx s 1
        idType := response tx s 2
        idCap := response tx s 3 }

/-- RDSR1 and RDSR2: one frame of two bytes, the response byte in its half of SR, 5 SEQ steps (R183, R184,
R197). -/
def Obligations.StatusReadsKeepTheByte : Prop :=
  ∀ s : State, s.busy = false → s.cs = false →
    execN .rdsr1 6 s = .next
      { finished .rdsr1 (framed [0x05, 0x00] s) with sr1 := response [0x05, 0x00] s 1 } ∧
    execN .rdsr2 6 s = .next
      { finished .rdsr2 (framed [0x35, 0x00] s) with sr2 := response [0x35, 0x00] s 1 }

/-- WREN, WRDI and CE: one frame of the opcode alone, 4 SEQ steps, no register written but STATUS (and CMD and
the latches at acceptance) (R185, R186, R187, R197). -/
def Obligations.OpcodeOnlyFrames : Prop :=
  ∀ (i : Instr) (op : Byte) (s : State), (i, op) ∈ [(.wren, 0x06), (.wrdi, 0x04), (.ce, 0xC7)] →
    s.busy = false → s.cs = false → execN i 5 s = .next (finished i (framed [op] s))

/-- READ with LEN.N = n up to 256: one frame of the opcode, the address high to low and n dummy bytes, response
byte j in DBUF[j], the other bytes of DBUF unchanged, 7 + n SEQ steps (R191, R197). -/
def Obligations.ReadFillsDbuf : Prop :=
  ∀ s : State, s.busy = false → s.cs = false → s.len.toNat ≤ 256 →
    let n := s.len.toNat
    let tx := 0x03 :: addrBytes s.addr ++ List.replicate n 0x00
    ∃ t, execN .read (8 + n) s = .next t ∧
      t = { finished .read (framed tx s) with dbuf := t.dbuf } ∧
      ∀ k, dbufAt t k = if k < n then response tx s (4 + k) else dbufAt s k

/-- PP with LEN.N = n inside a page: one frame of the opcode, the address high to low and DBUF[0..n-1], 7 + n
SEQ steps, no register written but STATUS (and CMD and the latches at acceptance), DBUF unchanged (R195, R197). -/
def Obligations.PageProgramSendsDbuf : Prop :=
  ∀ s : State, s.busy = false → s.cs = false → s.addr.toNat % 256 + s.len.toNat ≤ 256 →
    let n := s.len.toNat
    execN .pp (8 + n) s = .next
      (finished .pp (framed (0x02 :: addrBytes s.addr ++ (List.range n).map (dbufAt s)) s))

/-- READ is refused with LEN above 256, PP above 256 or across a page, each otherwise accepted (R190, R194). -/
def Obligations.LengthChecks : Prop :=
  ∀ s : State, s.busy = false → s.cs = false →
    exec .read s = .next
      (if 256 < s.len.toNat then rejected 0x00000003 .len s else accepted .read s) ∧
    exec .pp s = .next
      (if 256 < s.len.toNat ∨ 256 < s.addr.toNat % 256 + s.len.toNat then rejected 0x00000002 .len s
       else accepted .pp s)

/-- Every accepted FRAME-class command takes 1 + (frame bytes) + 2 SEQ steps, and STATE is START through
`Select()`, TRANSFER from the opcode byte to the last byte, FINISH after `Deselect()`, IDLE at the end, with CS = 1
exactly from `Select()` to the last byte. READ_ID's three frames do the same one after another, with FINISH from a
Deselect in the middle to the next opcode byte (log 11). In WAIT_READY's frame STATE is TRANSFER from the opcode byte
to the last sample, also where that is busy and `Fail` comes next (log 15), and FINISH after `Deselect()` (R41, R180,
R197, R220, R240). -/
def Obligations.SingleFramePhases : Prop :=
  (∀ (i : Instr) (s : State) (tx : List Byte), frameTx i s = some tx → s.busy = false → issueCause i s = none →
    (∃ t, execN i 1 s = .next t ∧ t.phase = .start ∧ t.busy = true ∧ t.cs = false) ∧
    (∃ t, execN i 2 s = .next t ∧ t.phase = .start ∧ t.busy = true ∧ t.cs = true) ∧
    (∀ j, 1 ≤ j → j ≤ tx.length →
      ∃ t, execN i (2 + j) s = .next t ∧ t.phase = .transfer ∧ t.busy = true ∧ t.cs = true) ∧
    (∃ t, execN i (3 + tx.length) s = .next t ∧ t.phase = .finish ∧ t.busy = true ∧ t.cs = false) ∧
    ∃ t, execN i (4 + tx.length) s = .next t ∧ t.phase = .idle ∧ t.busy = false ∧ t.cs = false ∧
      t.done = true) ∧
  (∀ s : State, s.busy = false → s.cs = false →
    (∀ (k : Nat) (p : Phase) (c : Bool),
      (k, p, c) ∈ [(1, .start, false), (2, .start, true), (3, .transfer, true), (4, .transfer, true),
        (5, .transfer, true), (6, .transfer, true), (7, .finish, false), (8, .finish, true),
        (9, .transfer, true), (10, .transfer, true), (11, .finish, false), (12, .finish, true),
        (13, .transfer, true), (14, .transfer, true), (15, .finish, false)] →
      ∃ t, execN .readId k s = .next t ∧ t.phase = p ∧ t.cs = c ∧ t.busy = true) ∧
    ∃ t, execN .readId 16 s = .next t ∧ t.phase = .idle ∧ t.cs = false ∧ t.busy = false ∧ t.done = true) ∧
  ∀ (n : Nat) (s : State), s.busy = false → s.cs = false → s.pollLimit = 0 ∨ n ≤ s.pollLimit.toNat →
    allBusy n s →
    (∃ t, execN .waitReady 1 s = .next t ∧ t.phase = .start ∧ t.busy = true ∧ t.cs = false) ∧
    (∃ t, execN .waitReady 2 s = .next t ∧ t.phase = .start ∧ t.busy = true ∧ t.cs = true) ∧
    (∀ j, j ≤ n → ∃ t, execN .waitReady (3 + j) s = .next t ∧ t.phase = .transfer ∧ t.busy = true ∧ t.cs = true) ∧
    (s.pollLimit = 0 ∨ n < s.pollLimit.toNat →
      (response (pollTx (n + 1)) s (n + 1)).getLsbD 0 = false →
      (∃ t, execN .waitReady (n + 4) s = .next t ∧ t.phase = .transfer ∧ t.busy = true ∧ t.cs = true) ∧
      (∃ t, execN .waitReady (n + 5) s = .next t ∧ t.phase = .finish ∧ t.busy = true ∧ t.cs = false) ∧
      ∃ t, execN .waitReady (n + 6) s = .next t ∧ t.phase = .idle ∧ t.busy = false ∧ t.cs = false ∧
        t.done = true)

/-! ### Status polling (42_status_poll.md) -/

/-- WAIT_READY ends with DONE at the first sample whose bit 0 is 0, if the bound has not ended it before: after n
busy samples the frame is [0x05] and n + 1 dummy bytes, SR.SR1 the last sample, POLLCNT = n + 1; a clear bit on
the last allowed sample is success (R220, R221, R222). -/
def Obligations.WaitReadyEndsWhenReady : Prop :=
  ∀ (n : Nat) (s : State), s.busy = false → s.cs = false →
    s.pollLimit = 0 ∨ n < s.pollLimit.toNat → allBusy n s →
    (response (pollTx (n + 1)) s (n + 1)).getLsbD 0 = false →
    execN .waitReady (n + 6) s = .next
      (sampled (n + 1) s (finished .waitReady (framed (pollTx (n + 1)) s)))

/-- WAIT_READY with a bound N > 0 and N busy samples fails with UNRESPONSIVE after exactly N samples: POLLCNT = N,
SR.SR1 the last sample, chip select released (R222, R306). -/
def Obligations.WaitReadyUnresponsive : Prop :=
  ∀ s : State, s.busy = false → s.cs = false → s.pollLimit ≠ 0 →
    let n := s.pollLimit.toNat
    allBusy n s →
    execN .waitReady (n + 4) s = .next
      (sampled n s (failed .waitReady .unresponsive (framed (pollTx n) s)))

/-- With POLL_LIMIT = 0 and nothing but busy samples WAIT_READY goes on for ever: after any number n of them BUSY
and CS are 1, POLLCNT counts all but the last, up to 0xFFFFFFFF where it stays, and SR.SR1 is the last but one: a
sample's assignments belong to the step of the following primitive (R21, R223; log 25). -/
def Obligations.WaitReadyHangs : Prop :=
  ∀ (n : Nat) (s : State), s.busy = false → s.cs = false → s.pollLimit = 0 → allBusy n s →
    ∃ t, execN .waitReady (3 + n) s = .next t ∧ t.busy = true ∧ t.cs = true ∧ t.phase = .transfer ∧
      t.pollCnt.toNat = min (n - 1) 0xFFFFFFFF ∧
      t.sr1 = (if n ≤ 1 then s.sr1 else response (pollTx n) s (n - 1)) ∧ t.done = false ∧ t.err = false

/-! ### Identification (43_identification.md) -/

/-- READ_ID: three frames, identify, status-1, status-2, their response bytes in ID and SR, 15 SEQ steps (R240). -/
def Obligations.ReadIdThreeFrames : Prop :=
  ∀ s : State, s.busy = false → s.cs = false →
    let tx := [0x9F, 0x00, 0x00, 0x00]
    let s₁ := framed tx s
    let s₂ := framed [0x05, 0x00] s₁
    execN .readId 16 s = .next
      { finished .readId (framed [0x35, 0x00] s₂) with
        idMfr := response tx s 1
        idType := response tx s 2
        idCap := response tx s 3
        sr1 := response [0x05, 0x00] s₁ 1
        sr2 := response [0x35, 0x00] s₂ 1 }

/-! ### Bulk transfer (44_bulk_transfer.md) -/

/-- DUMP whose 512 chunks the sink takes: 8,389,639 SEQ steps; one frame of the header and 0x800000 dummy bytes;
the byte at index x of the sweep is byte x % 0x4000 of sink chunk x / 0x4000; 512 progress events; CURSOR =
0x800000, PCT = 100, DONE; WBUF holds the last chunk. For a chip that has settled on its bytes the sweep is those
bytes (R252, R254, R255; the chip's and the sink's settled answers by logs 4 and 5, loop indices by log 12). -/
def Obligations.DumpStreamsTheDevice : Prop :=
  ∀ (s : State) (r : List Bool), s.busy = false → s.cs = false → s.sink = List.replicate 512 true ++ r →
    ∃ (t : State) (h d : List Byte), execN .dump 8389640 s = .next t ∧ h.length = 4 ∧ d.length = 0x800000 ∧
      t.events.filter onWire =
        s.events.filter onWire ++ frameEvents (sweepHeader ++ List.replicate 0x800000 0x00) (h ++ d) ∧
      sinkWrites t.events =
        sinkWrites s.events ++ (List.range 512).map (fun c => (piece d 0x4000 c, true)) ∧
      progressEvents t.events = progressEvents s.events ++ sweepProgress 512 ∧
      sourceReads t.events = sourceReads s.events ∧
      (∀ bs, s.flash = .oracle bs → 0x800004 ≤ bs.length → h ++ d = bs.take 0x800004) ∧
      (∀ j, wbufAt t j = if j < 0x4000 then (piece d 0x4000 511).getD j 0 else wbufAt s j) ∧
      t = { finished .dump s with
            cursor := 0x800000
            pct := 100
            wbuf := t.wbuf
            chunkIx := t.chunkIx
            byteIx := t.byteIx
            events := t.events
            flash := t.flash
            draws := t.draws
            sink := r }

/-- DUMP whose sink takes c chunks and refuses chunk c fails with SNK_REJ in the step after the refusal, chip
select released: CURSOR = c * 0x4000, c progress events, a frame of 4 + (c + 1) * 0x4000 bytes (R253; the sink's
settled answers by log 5, loop indices by log 12). -/
def Obligations.DumpSinkRejection : Prop :=
  ∀ (c : Nat) (s : State) (r : List Bool), c < 512 → s.busy = false → s.cs = false →
    s.sink = List.replicate c true ++ false :: r →
    ∃ (t : State) (h d : List Byte), execN .dump (6 + (c + 1) * 0x4002) s = .next t ∧ h.length = 4 ∧
      d.length = (c + 1) * 0x4000 ∧
      t.events.filter onWire =
        s.events.filter onWire ++
          frameEvents (sweepHeader ++ List.replicate ((c + 1) * 0x4000) 0x00) (h ++ d) ∧
      sinkWrites t.events =
        sinkWrites s.events ++ (List.range (c + 1)).map (fun k => (piece d 0x4000 k, decide (k < c))) ∧
      progressEvents t.events = progressEvents s.events ++ sweepProgress c ∧
      t = { failed .dump .snkRej s with
            cursor := BitVec.ofNat 24 (c * 0x4000)
            pct := BitVec.ofNat 8 (c * 100 / 512)
            wbuf := t.wbuf
            chunkIx := t.chunkIx
            byteIx := t.byteIx
            events := t.events
            flash := t.flash
            draws := t.draws
            sink := r }

/-- UPLOAD's erase phase, three frames of their own: after n busy samples and a clear one SEQ asks the source
next, STATE still START; with a bound of N busy samples it fails with UNRESPONSIVE, CURSOR = 0 and no source
byte read (R261; loop indices by log 12). -/
def Obligations.UploadErasesFirst : Prop :=
  ∀ s : State, s.busy = false → s.cs = false →
    let s₂ := framed [0xC7] (framed [0x06] s)
    (∀ n : Nat, s.pollLimit = 0 ∨ n < s.pollLimit.toNat → allBusy n s₂ →
      (response (pollTx (n + 1)) s₂ (n + 1)).getLsbD 0 = false →
      execN .upload (n + 11) s = .next
        { sampled (n + 1) s₂ (accepted .upload (framed (pollTx (n + 1)) s₂)) with pos := .sourceRead }) ∧
    (s.pollLimit ≠ 0 → allBusy s.pollLimit.toNat s₂ →
      execN .upload (s.pollLimit.toNat + 10) s = .next
        (sampled s.pollLimit.toNat s₂
          (failed .upload .unresponsive (framed (pollTx s.pollLimit.toNat) s₂))))

/-- One page of UPLOAD, from the frame of its write-enable, whose `Select()` puts a chunk's waiting source bytes in
WBUF (R21; log 25): [0x06], then the page-program of WBUF's 256 bytes at c * 0x4000 + p * 0x100, then a poll by the
latched limit. After n busy samples and a clear one it goes on to the next
page or, after the last, to the chunk's progress; with a bound of N busy samples the next step is
`Fail(UNRESPONSIVE)`, which deselects the open poll frame and leaves CURSOR, which is c * 0x4000 (R263, R264; that the
page index moves in the poll's Deselect step is log 12's). -/
def Obligations.UploadWritesAPage : Prop :=
  ∀ s : State, s.busy = true → s.pos = .select .pageWren → s.cs = false →
    let u := assignSourced 0 s
    let a := s.chunkIx * 0x4000 + s.pageIx * 0x100
    let tx := 0x02 :: BitVec.ofNat 8 (a / 0x10000) :: BitVec.ofNat 8 (a / 0x100) :: 0x00 ::
      (List.range 256).map (fun j => wbufAt u (s.pageIx * 256 + j))
    let s₂ := framed tx (framed [0x06] u)
    (∀ n : Nat, s.lLimit = 0 ∨ n < s.lLimit.toNat → allBusy n s₂ →
      (response (pollTx (n + 1)) s₂ (n + 1)).getLsbD 0 = false →
      execN .upload (n + 269) s = .next
        { sampled (n + 1) s₂ (framed (pollTx (n + 1)) s₂) with
          pos := if s.pageIx + 1 < 64 then .select .pageWren else .progress
          pageIx := if s.pageIx + 1 < 64 then s.pageIx + 1 else s.pageIx }) ∧
    (s.lLimit ≠ 0 → allBusy s.lLimit.toNat s₂ →
      ∃ t, execN .upload (s.lLimit.toNat + 268) s = .next t ∧
        t = { sampled s.lLimit.toNat s₂ (framed (pollTx s.lLimit.toNat) s₂) with
              err := true
              cause := .unresponsive
              busy := false
              phase := .idle
              pos := .idle } ∧
        (loopOk .upload s → t.cursor.toNat = s.chunkIx * 0x4000))

/-- UPLOAD of a source with the whole device, on a chip that shows no busy bit: 8,815,627 SEQ steps; the erase
frames, then for each of 32,768 pages a write-enable, a page-program of that page's source bytes and a poll, in
ascending order; 512 source requests of 0x4000 bytes; 512 progress events; CURSOR = 0x800000, PCT = 100, DONE;
WBUF holds the last chunk
(R260, R265, R266; the chip's and the source's settled bytes by logs 4 and 5, loop indices by log 12). -/
def Obligations.UploadProgramsTheDevice : Prop :=
  ∀ (s : State) (bs d : List Byte) (r : List SourceAnswer), s.busy = false → s.cs = false →
    s.flash = .oracle bs → 8617988 ≤ bs.length → (∀ b ∈ bs, b.getLsbD 0 = false) →
    s.source = .bytes d :: r → d.length = 0x800000 →
    ∃ t, execN .upload 8815628 s = .next t ∧
      sent t.events =
        sent s.events ++
          sentFrames ([[0x06], [0xC7], pollTx 1] ++ (List.range 32768).flatMap (pageFrames d)) ∧
      sourceReads t.events = sourceReads s.events ++ List.replicate 512 (0x4000, true) ∧
      progressEvents t.events = progressEvents s.events ++ sweepProgress 512 ∧
      (∀ j, wbufAt t j = if j < 0x4000 then (piece d 0x4000 511).getD j 0 else wbufAt s j) ∧
      t = { finished .upload s with
            cursor := 0x800000
            pct := 100
            sr1 := t.sr1
            pollCnt := 1
            pollN := t.pollN
            sample := none
            sourced := none
            wbuf := t.wbuf
            chunkIx := t.chunkIx
            pageIx := t.pageIx
            events := t.events
            flash := .oracle (bs.drop 8617988)
            draws := t.draws
            source := r }

/-- A source that cannot give UPLOAD the whole chunk c, by an error or too few bytes, makes the next step
`Fail(SRC_SHORT)`: one source request, no frame, no byte delivered, CURSOR as it was, which is c * 0x4000 (R87,
R262). That the answer, a short string too, is then used up is log 5's. No sample waits at this position, since a
poll's last one is assigned in its Deselect (R21, log 25; the clause `held` of the invariant). -/
def Obligations.UploadSourceShort : Prop :=
  ∀ (s : State) (a : SourceAnswer) (r : List SourceAnswer), s.busy = true → s.pos = .sourceRead →
    s.cs = false → s.sample = none → s.source = a :: r →
    a = .error ∨ (∃ d, a = .bytes d ∧ d.length < 0x4000) →
    ∃ t, execN .upload 2 s = .next t ∧
      t = { s with
            events := s.events ++ [.sourceRead 0x4000 false []]
            source := r
            draws := s.draws + 1
            err := true
            cause := .srcShort
            busy := false
            phase := .idle
            pos := .idle } ∧
      (loopOk .upload s → t.cursor.toNat = s.chunkIx * 0x4000)

/-- VERIFY of a device equal to the source: 8,391,175 SEQ steps; one frame of the header and 0x800000 dummy
bytes; 1024 source requests of 0x2000 bytes; 512 progress events; CURSOR = 0x800000, PCT = 100, the mismatch
registers 0, DONE; both halves of WBUF hold the last stride (R270, R271, R275, R276; the chip's
and the source's settled bytes by logs 4 and 5, loop indices by log 12). -/
def Obligations.VerifyOfEqualDataSucceeds : Prop :=
  ∀ (s : State) (h d rest : List Byte) (r : List SourceAnswer), s.busy = false → s.cs = false →
    h.length = 4 → d.length = 0x800000 → s.flash = .oracle (h ++ d ++ rest) → s.source = .bytes d :: r →
    ∃ t, execN .verify 8391176 s = .next t ∧
      t.events.filter onWire =
        s.events.filter onWire ++ frameEvents (sweepHeader ++ List.replicate 0x800000 0x00) (h ++ d) ∧
      sourceReads t.events = sourceReads s.events ++ List.replicate 1024 (0x2000, true) ∧
      progressEvents t.events = progressEvents s.events ++ sweepProgress 512 ∧
      t.mmAddr = 0 ∧ t.mmDev = 0 ∧ t.mmExp = 0 ∧
      (∀ j, wbufAt t j =
        if j < 0x4000 then (piece d 0x2000 1023).getD (j % 0x2000) 0 else wbufAt s j) ∧
      t = { finished .verify s with
            cursor := 0x800000
            pct := 100
            sourced := none
            wbuf := t.wbuf
            strideIx := t.strideIx
            byteIx := t.byteIx
            events := t.events
            flash := .oracle rest
            draws := t.draws
            source := r }

/-- VERIFY of a device that first differs from the source at address k fails with MISMATCH in stride k / 0x2000:
MM_ADDR = k, MM_DATA the device byte and the source byte, CURSOR the start of the stride, a progress event for
every second stride before it, a frame that ends with the stride (R273, R274, R275; the chip's and
the source's settled bytes by logs 4 and 5, loop indices by log 12). -/
def Obligations.VerifyReportsFirstDifference : Prop :=
  ∀ (s : State) (k : Nat) (h d e rest : List Byte) (r : List SourceAnswer), s.busy = false → s.cs = false →
    h.length = 4 → d.length = 0x800000 → e.length = 0x800000 → s.flash = .oracle (h ++ d ++ rest) →
    s.source = .bytes e :: r → k < 0x800000 → (∀ x, x < k → d.getD x 0 = e.getD x 0) →
    d.getD k 0 ≠ e.getD k 0 →
    let n := k / 0x2000
    ∃ t, execN .verify (6 + n * 0x2002 + n / 2 + 0x2003) s = .next t ∧
      t.events.filter onWire =
        s.events.filter onWire ++
          frameEvents (sweepHeader ++ List.replicate ((n + 1) * 0x2000) 0x00)
            (h ++ d.take ((n + 1) * 0x2000)) ∧
      sourceReads t.events = sourceReads s.events ++ List.replicate (n + 1) (0x2000, true) ∧
      progressEvents t.events = progressEvents s.events ++ sweepProgress (n / 2) ∧
      t = { failed .verify .mismatch s with
            cursor := BitVec.ofNat 24 (n * 0x2000)
            pct := BitVec.ofNat 8 (n / 2 * 100 / 512)
            mmAddr := BitVec.ofNat 24 k
            mmDev := d.getD k 0
            mmExp := e.getD k 0
            sourced := none
            wbuf := t.wbuf
            strideIx := n
            byteIx := k % 0x2000
            events := t.events
            flash := t.flash
            draws := t.draws
            source := t.source }

/-- A source that cannot give VERIFY the whole half of stride s makes the next step `Fail(SRC_SHORT)`, which
deselects the read frame; the bytes are not delivered and CURSOR stays s * 0x2000 (R87, R272; that the answer,
a short string too, is then used up is log 5's). -/
def Obligations.VerifySourceShort : Prop :=
  ∀ (s : State) (a : SourceAnswer) (r : List SourceAnswer), s.busy = true → s.pos = .sourceRead →
    s.cs = true → s.source = a :: r → a = .error ∨ (∃ d, a = .bytes d ∧ d.length < 0x2000) →
    ∃ t, execN .verify 2 s = .next t ∧
      t = { s with
            cs := false
            events := s.events ++ [.sourceRead 0x2000 false [], .deselect true]
            flash := s.flash.released
            source := r
            draws := s.draws + 1
            err := true
            cause := .srcShort
            busy := false
            phase := .idle
            pos := .idle } ∧
      (loopOk .verify s → t.cursor.toNat = s.strideIx * 0x2000)

/-- `Compare()` is one step with no port activity, in which the source half that waits goes to WBUF first (R21, R272;
log 25). Equal halves move the cursor to the stride's end, and a progress event follows exactly when that end is a
multiple of 0x4000; otherwise the least differing index is found, the cursor stays, and the next step is the
mismatch's (R273, R275; that the indices of the next stride start in this step is log 12's). -/
def Obligations.CompareFindsTheLeastIndex : Prop :=
  ∀ s : State, s.busy = true → s.pos = .compare → s.strideIx < 1024 →
    let u := assignSourced 0x2000 s
    ((∀ i, i < 0x2000 → wbufAt u i = wbufAt u (0x2000 + i)) →
      ∃ t, exec .verify s = .next t ∧ t.events = s.events ∧ t.flash = s.flash ∧ t.source = s.source ∧
        t.cursor.toNat = s.strideIx * 0x2000 + 0x2000 ∧
        (t.pos = .progress ↔ (s.strideIx * 0x2000 + 0x2000) % 0x4000 = 0) ∧
        (t.pos ≠ .progress → t.pos = .data ∧ t.strideIx = s.strideIx + 1 ∧ t.byteIx = 0)) ∧
    ∀ i, i < 0x2000 → wbufAt u i ≠ wbufAt u (0x2000 + i) →
      (∀ j, j < i → wbufAt u j = wbufAt u (0x2000 + j)) →
      exec .verify s = .next { u with pos := .mismatch, byteIx := i }

/-- `EmitProgress` of every bulk command: the cursor and TOTAL_SIZE on the progress port, PCT the integer
percentage (R32, R50; the event's place in the history is log 19's). -/
def Obligations.ProgressWritesPercentage : Prop :=
  ∀ (i : Instr) (s : State), isBulk i = true → s.busy = true → s.pos = .progress →
    ∃ t, exec i s = .next t ∧ t.events = s.events ++ [.progress t.cursor.toNat 0x800000] ∧
      t.pct.toNat = t.cursor.toNat * 100 / 0x800000

/-- A command always ends: where a poll is bounded and the streams answer every request, an accepted or refused
command comes to BUSY = 0 with DONE or ERR, whatever the chip returns (R354). -/
def Obligations.EveryCommandEnds : Prop :=
  ∀ (i : Instr) (s : State), Inv s → s.busy = false →
    (i = .waitReady ∨ i = .upload → s.pollLimit ≠ 0) → (i = .dump → 512 ≤ s.sink.length) →
    (i = .upload ∨ i = .verify → 1024 ≤ s.source.length) →
    ∃ (n : Nat) (t : State), execN i n s = .next t ∧ 0 < n ∧ t.busy = false ∧ (t.done = true ∨ t.err = true)

/-! ### Rules about every step -/

/-- CURSOR falls only when a bulk command is accepted or SFC is reset; else it moves only in a bulk command, by
a chunk (DUMP, UPLOAD) or half a chunk (VERIFY), and never passes 0x800000 (R48, R251). -/
def Obligations.CursorMovesByChunks : Prop :=
  ∀ s t : State, Inv s → step s = .next t → t.cursor ≠ s.cursor →
    nextMove s = .rst ∨
    (t.cursor = 0 ∧ s.busy = false ∧ ∃ i, isBulk i = true ∧ nextMove s = .hostWrite .word 0x000 (encode i)) ∨
    (seqRuns [.dump, .upload] s ∧ t.cursor.toNat = s.cursor.toNat + 0x4000 ∧ t.cursor.toNat ≤ 0x800000) ∨
    (seqRuns [.verify] s ∧ t.cursor.toNat = s.cursor.toNat + 0x2000 ∧ t.cursor.toNat ≤ 0x800000)

/-- Outside reset, who writes the read-only registers and buffers: ID only RDID and READ_ID; SR1 only RDSR1,
READ_ID and the polls; SR2 only RDSR2 and READ_ID; RXDATA only EXCHANGE; POLLCNT only the polls; the mismatch
registers only VERIFY; PCT only a bulk command; DBUF only READ or a host write; WBUF only a bulk command (R45,
R46, R47, R49, R52, R225). -/
def Obligations.RegisterWriters : Prop :=
  ∀ s t : State, step s = .next t → nextMove s ≠ .rst →
    ((t.idMfr ≠ s.idMfr ∨ t.idType ≠ s.idType ∨ t.idCap ≠ s.idCap) → seqRuns [.rdid, .readId] s) ∧
    (t.sr1 ≠ s.sr1 → seqRuns [.rdsr1, .readId, .waitReady, .upload] s) ∧
    (t.sr2 ≠ s.sr2 → seqRuns [.rdsr2, .readId] s) ∧
    (t.rxdata ≠ s.rxdata → ∃ b, seqRuns [.exchange b] s) ∧
    (t.pollCnt ≠ s.pollCnt → seqRuns [.waitReady, .upload] s) ∧
    ((t.mmAddr ≠ s.mmAddr ∨ t.mmDev ≠ s.mmDev ∨ t.mmExp ≠ s.mmExp) →
      seqRuns [.verify] s ∨ s.busy = false ∧ nextMove s = .hostWrite .word 0x000 (encode .verify)) ∧
    (t.pct ≠ s.pct →
      seqRuns [.dump, .upload, .verify] s ∨
      s.busy = false ∧ ∃ i, isBulk i = true ∧ nextMove s = .hostWrite .word 0x000 (encode i)) ∧
    (t.dbuf ≠ s.dbuf → seqRuns [.read] s ∨ s.busy = false ∧ ∃ off w, nextMove s = .hostWrite .word off w ∧
      0x100 ≤ off.toNat ∧ off.toNat ≤ 0x1FC) ∧
    (t.wbuf ≠ s.wbuf → seqRuns [.dump, .upload, .verify] s)

/-- One step adds at most one event, and only SEQ's and reset's steps add any: so one byte at most is in flight
(R345), the host puts nothing on a port by itself (R91), and only reset releases chip select without the idle
wait (R344; one history for all ports is log 19's). -/
def Obligations.OneEventPerStep : Prop :=
  ∀ s t : State, step s = .next t →
    ∃ l, t.events = s.events ++ l ∧ l.length ≤ 1 ∧ (nextMove s ≠ .seq → nextMove s ≠ .rst → l = []) ∧
      (nextMove s ≠ .rst → .deselect false ∉ l)

/-- A running command reads only the latches: other values in ADDR, LEN and POLL_LIMIT change none of its steps
(R55). -/
def Obligations.RunningCommandReadsLatches : Prop :=
  ∀ (i : Instr) (s : State) (a : Addr) (n : BitVec 16) (l : Word), s.busy = true →
    exec i (withOperands a n l s) = mapNext (withOperands a n l) (exec i s)

/-- A host write while a command runs changes at most ADDR, LEN, POLL_LIMIT, IRQ_EN and the W1C flags with
CAUSE and CMD_REJ: not the command, its latches or its position, no buffer, no port (R99). -/
def Obligations.HostWriteLeavesTheCommand : Prop :=
  ∀ (s : State) (ms : List Move) (off : BitVec 12) (w : Word), s.busy = true → off.toNat % 4 = 0 →
    s.moves = .hostWrite .word off w :: ms →
    ∃ t, step s = .next t ∧
      t = { setMoves ms s with
            addr := t.addr
            len := t.len
            pollLimit := t.pollLimit
            doneIe := t.doneIe
            errIe := t.errIe
            rejIe := t.rejIe
            done := t.done
            err := t.err
            cause := t.cause
            cmdRej := t.cmdRej }

/-! ### Host register accesses (20_memory.md) -/

/-- A host read returns the register at its offset, field by field as the register map and the register tables
place them, reserved bits and offsets as 0, and changes nothing else (R59, R88, R91). -/
def Obligations.HostReadReturnsRegister : Prop :=
  ∀ (s : State) (ms : List Move) (off : BitVec 12), s.moves = .hostRead .word off :: ms → off.toNat % 4 = 0 →
    ∃ t, step s = .next t ∧ t = { setMoves ms s with rdata := t.rdata } ∧ t.rdata.toNat = regNumber s off.toNat

/-- A host write of any register but CMD and DBUF: ADDR, LEN, POLL_LIMIT and IRQ_EN store their fields, STATUS
clears DONE, ERR with CAUSE, and CMD_REJ where a 1 is written, whatever BUSY is, and every read-only or reserved
place ignores the write (R34, R35, R36, R44, R51, R59). -/
def Obligations.HostWriteStoresFields : Prop :=
  ∀ (s : State) (ms : List Move) (off : BitVec 12) (w : Word), s.moves = .hostWrite .word off w :: ms →
    off.toNat % 4 = 0 → off.toNat ≠ 0 → ¬(0x100 ≤ off.toNat ∧ off.toNat ≤ 0x1FC) →
    step s = .next (regWritten off.toNat w (setMoves ms s))

/-- DBUF words are little-endian: word j read at 0x100 + 4j has DBUF[4j] lowest, a write while BUSY = 0 sets the
four bytes and no other, and a write while BUSY = 1 is ignored and does not set CMD_REJ (R89). -/
def Obligations.DbufAccess : Prop :=
  ∀ (s : State) (ms : List Move) (j : Nat) (w : Word), j < 64 →
    (s.moves = .hostRead .word (BitVec.ofNat 12 (0x100 + 4 * j)) :: ms →
      step s = .next
        { setMoves ms s with
          rdata := dbufAt s (4 * j + 3) ++ dbufAt s (4 * j + 2) ++ dbufAt s (4 * j + 1) ++ dbufAt s (4 * j) }) ∧
    (s.moves = .hostWrite .word (BitVec.ofNat 12 (0x100 + 4 * j)) w :: ms →
      (s.busy = false →
        ∃ t, step s = .next t ∧ t = { setMoves ms s with dbuf := t.dbuf } ∧
          (∀ k, k < 4 → dbufAt t (4 * j + k) = BitVec.ofNat 8 (w.toNat / 0x100 ^ k)) ∧
          ∀ x, x < 4 * j ∨ 4 * j + 4 ≤ x → dbufAt t x = dbufAt s x) ∧
      (s.busy = true → step s = .next (setMoves ms s)))

/-- `irq` is high exactly while a flag DONE, ERR or CMD_REJ of STATUS stands at a position enabled in IRQ_EN, as
the host reads the two words (R310). -/
def Obligations.IrqIsEnabledFlag : Prop :=
  ∀ s : State, irq s = true ↔ statusWord s &&& irqEnWord s ≠ 0

/-! ### The reference chip FREF (20_memory.md section 6, not normative for SFC) -/

/-- At a release FREF takes write-enable, write-disable and a write-enabled chip-erase, each a frame of one byte,
and while busy takes nothing (R107, R108, R110). -/
def Obligations.FrefTakesWriteFrames : Prop :=
  ∀ c : Fref,
    (c.busy ≠ 0 → c.released = { c with frame := [] }) ∧
    (c.busy = 0 →
      (c.frame = [0x06] → c.released = { c with frame := [], wel := true }) ∧
      (c.frame = [0x04] → c.released = { c with frame := [], wel := false }) ∧
      (c.frame = [0xC7] → c.wel = false → c.released = { c with frame := [] }) ∧
      (c.frame = [0xC7] → c.wel = true →
        (∀ x, c.released.byteAt x = 0xFF) ∧ c.released.busy = c.erasePolls ∧
          c.released.wel = decide (c.erasePolls ≠ 0)))

/-- A page-program FREF takes clears bits and sets none: every byte of the payload's range is ANDed with its
payload byte, every other byte of the array stays, inside one page (R109). -/
def Obligations.FrefProgramClearsBits : Prop :=
  ∀ (c : Fref) (a2 a1 a0 : Byte) (ds : List Byte) (x : Nat),
    Memory.wf (some frefErased) 0x800000 c.mem = true → c.busy = 0 → c.wel = true →
    c.frame = 0x02 :: a2 :: a1 :: a0 :: ds → a0.toNat + ds.length ≤ 256 → x < 0x800000 →
    let a := (a2.toNat * 0x10000 + a1.toNat * 0x100 + a0.toNat) % 0x800000
    c.released.byteAt x =
        (if a ≤ x ∧ x < a + ds.length then c.byteAt x &&& ds.getD (x - a) 0 else c.byteAt x) ∧
      c.released.busy = c.progPolls ∧ c.released.wel = decide (c.progPolls ≠ 0)
end

