-- ==== Sys2Proof/Laws/Memory.lean ====
section
/-! SUPPORT. The laws of the byte memories: read after write, and that every operation keeps the canonical form. -/

namespace Sys2Proof.Machine

theorem Memory.find_insert (m : Memory) (x y : Nat) (v : Byte) :
    Memory.find (Memory.insert m x v) y = if y = x then some v else Memory.find m y := by
  induction m with
  | nil => simp [Memory.insert, Memory.find]
  | cons c m ih =>
    obtain ⟨a, b⟩ := c
    simp only [Memory.insert]
    split
    · simp [Memory.find]
    · split
      · subst_vars; by_cases h : y = a <;> simp [Memory.find, h]
      · simp only [Memory.find, ih]
        split_ifs <;> simp_all

theorem Memory.find_erase_other (m : Memory) {x y : Nat} (h : y ≠ x) :
    Memory.find (Memory.erase m x) y = Memory.find m y := by
  induction m with
  | nil => rfl
  | cons c m ih =>
    obtain ⟨a, b⟩ := c
    simp only [Memory.erase]
    split
    · subst_vars; simp [Memory.find, h]
    · simp [Memory.find, ih]

/-- A cell at the head of a canonical memory: its bound, its byte, what follows. -/
theorem Memory.wf_cons {u : Option Byte} {n a : Nat} {b : Byte} {m : Memory} :
    Memory.wf u n ((a, b) :: m) = true ↔
      a < n ∧ u ≠ some b ∧ (∀ c ∈ m, a < c.1) ∧ Memory.wf u n m = true := by
  simp [Memory.wf, and_assoc]

theorem Memory.find_none_of_lt {m : Memory} {x : Nat} (h : ∀ c ∈ m, x < c.1) :
    Memory.find m x = none := by
  induction m with
  | nil => rfl
  | cons c m ih =>
    obtain ⟨a, b⟩ := c
    have ha : x < a := h (a, b) (by simp)
    simp only [Memory.find, if_neg (Nat.ne_of_lt ha)]
    exact ih fun c hc => h c (by simp [hc])

theorem Memory.find_erase_self {u : Option Byte} {n : Nat} {m : Memory} (x : Nat)
    (h : Memory.wf u n m = true) : Memory.find (Memory.erase m x) x = none := by
  induction m with
  | nil => rfl
  | cons c m ih =>
    obtain ⟨a, b⟩ := c
    obtain ⟨-, -, hlt, hm⟩ := Memory.wf_cons.1 h
    simp only [Memory.erase]
    split
    · subst_vars; exact Memory.find_none_of_lt hlt
    · rename_i hx; simp only [Memory.find, if_neg hx]; exact ih hm

/-- A byte written reads back. -/
theorem Memory.read_write_self {u : Option Byte} {n : Nat} {m : Memory} (x : Nat) (v : Byte)
    (h : Memory.wf u n m = true) : Memory.read u (Memory.write u m x v) x = some v := by
  unfold Memory.read Memory.write
  by_cases hu : u = some v
  · simp [Memory.find_erase_self x h, hu]
  · simp [if_neg hu, Memory.find_insert]

/-- Any other byte reads as before. -/
theorem Memory.read_write_other (u : Option Byte) (m : Memory) {x y : Nat} (v : Byte) (h : y ≠ x) :
    Memory.read u (Memory.write u m x v) y = Memory.read u m y := by
  unfold Memory.read Memory.write
  by_cases hu : u = some v
  · simp [if_pos hu, Memory.find_erase_other m h]
  · simp [if_neg hu, Memory.find_insert, h]

/-- Where no byte is special, a written byte reads back from any memory. -/
theorem Memory.read_none_write (m : Memory) (x y : Nat) (v : Byte) :
    Memory.read none (Memory.write none m x v) y = if y = x then some v else Memory.read none m y := by
  by_cases h : y = x
  · subst h; simp [Memory.read, Memory.write, Memory.find_insert]
  · simp [Memory.read_write_other none m v h, h]

theorem Memory.mem_insert {m : Memory} {x : Nat} {v : Byte} {c : Host.Cell}
    (h : c ∈ Memory.insert m x v) : c = (x, v) ∨ c ∈ m := by
  induction m with
  | nil => simpa [Memory.insert] using h
  | cons d m ih =>
    obtain ⟨a, b⟩ := d
    simp only [Memory.insert] at h
    split at h
    · simpa using h
    · split at h
      · simp only [List.mem_cons] at h ⊢; tauto
      · simp only [List.mem_cons] at h ⊢
        rcases h with h | h
        · exact .inr (.inl h)
        · rcases ih h with h | h <;> tauto

theorem Memory.mem_erase {m : Memory} {x : Nat} {c : Host.Cell} (h : c ∈ Memory.erase m x) : c ∈ m := by
  induction m with
  | nil => exact h
  | cons d m ih =>
    obtain ⟨a, b⟩ := d
    simp only [Memory.erase] at h
    split at h
    · simp [h]
    · simp only [List.mem_cons] at h ⊢
      exact h.imp id ih

theorem Memory.wf_insert {u : Option Byte} {n : Nat} {m : Memory} {x : Nat} {v : Byte}
    (hx : x < n) (hv : u ≠ some v) (h : Memory.wf u n m = true) :
    Memory.wf u n (Memory.insert m x v) = true := by
  induction m with
  | nil => simp [Memory.insert, Memory.wf, hx, hv]
  | cons c m ih =>
    obtain ⟨a, b⟩ := c
    obtain ⟨ha, hb, hlt, hm⟩ := Memory.wf_cons.1 h
    simp only [Memory.insert]
    split
    · rename_i hxa
      refine Memory.wf_cons.2 ⟨hx, hv, ?_, h⟩
      intro c hc
      rcases List.mem_cons.1 hc with rfl | hc
      · exact hxa
      · exact hxa.trans (hlt c hc)
    · split
      · subst_vars; exact Memory.wf_cons.2 ⟨ha, hv, hlt, hm⟩
      · refine Memory.wf_cons.2 ⟨ha, hb, ?_, ih hm⟩
        intro c hc
        rcases Memory.mem_insert hc with rfl | hc
        · simp only; omega
        · exact hlt c hc

theorem Memory.wf_erase {u : Option Byte} {n : Nat} {m : Memory} (x : Nat)
    (h : Memory.wf u n m = true) : Memory.wf u n (Memory.erase m x) = true := by
  induction m with
  | nil => exact h
  | cons c m ih =>
    obtain ⟨a, b⟩ := c
    obtain ⟨ha, hb, hlt, hm⟩ := Memory.wf_cons.1 h
    simp only [Memory.erase]
    split
    · exact hm
    · exact Memory.wf_cons.2 ⟨ha, hb, fun c hc => hlt c (Memory.mem_erase hc), ih hm⟩

/-- A write below the size keeps the canonical form. -/
theorem Memory.wf_write {u : Option Byte} {n : Nat} {m : Memory} {x : Nat} (v : Byte)
    (hx : x < n) (h : Memory.wf u n m = true) : Memory.wf u n (Memory.write u m x v) = true := by
  unfold Memory.write
  split
  · exact Memory.wf_erase x h
  · rename_i hv; exact Memory.wf_insert hx hv h

/-- So do writes of a run of bytes that ends at or below the size. -/
theorem Memory.wf_writeList {u : Option Byte} {n : Nat} (vs : List Byte) {m : Memory} {x : Nat}
    (hx : x + vs.length ≤ n) (h : Memory.wf u n m = true) :
    Memory.wf u n (Memory.writeList u m x vs) = true := by
  induction vs generalizing m x with
  | nil => exact h
  | cons v vs ih =>
    simp only [List.length_cons] at hx
    exact ih (by omega) (Memory.wf_write v (by omega) h)

/-- The bytes of a run read back, and every byte outside it reads as before. -/
theorem Memory.read_none_writeList (vs : List Byte) (m : Memory) (x y : Nat) :
    Memory.read none (Memory.writeList none m x vs) y =
      if x ≤ y ∧ y < x + vs.length then vs[y - x]? else Memory.read none m y := by
  induction vs generalizing m x with
  | nil => simp only [Memory.writeList, List.length_nil]; split_ifs <;> first | omega | rfl
  | cons v vs ih =>
    rw [Memory.writeList, ih, Memory.read_none_write]
    simp only [List.length_cons]
    by_cases hy : y = x
    · subst hy; simp
    · by_cases hr : x + 1 ≤ y ∧ y < x + 1 + vs.length
      · rw [if_pos hr, if_pos (by omega)]
        obtain ⟨k, rfl⟩ : ∃ k, y = x + 1 + k := ⟨y - (x + 1), by omega⟩
        rw [show x + 1 + k - (x + 1) = k by omega, show x + 1 + k - x = k + 1 by omega]
        simp
      · rw [if_neg hr, if_neg hy, if_neg (by omega)]

/-- FREF's page-program writes keep its array in canonical form. -/
theorem wf_programBytes (ds : List Byte) {m : Memory} {a : Nat} (j : Nat) (ha : a < Config.totalSize)
    (h : Memory.wf (some frefErased) Config.totalSize m = true) :
    Memory.wf (some frefErased) Config.totalSize (programBytes m a j ds) = true := by
  induction ds generalizing m j with
  | nil => exact h
  | cons d ds ih =>
    refine ih (j + 1) (Memory.wf_write _ ?_ h)
    have : a / 256 < 0x8000 := by rw [Config.totalSize] at ha; omega
    rw [Config.totalSize]; omega

end Sys2Proof.Machine
end

