-- ==== Sys2Proof/Laws/State.lean ====
section
/-! SUPPORT. One lemma per field per named update of the state, each true by rfl. -/

namespace Sys2Proof.Machine

variable (s : State)

/-! select -/

@[simp] theorem select_cmd : (select s).cmd = s.cmd := rfl
@[simp] theorem select_addr : (select s).addr = s.addr := rfl
@[simp] theorem select_len : (select s).len = s.len := rfl
@[simp] theorem select_busy : (select s).busy = s.busy := rfl
@[simp] theorem select_done : (select s).done = s.done := rfl
@[simp] theorem select_err : (select s).err = s.err := rfl
@[simp] theorem select_cs : (select s).cs = true := rfl
@[simp] theorem select_cmdRej : (select s).cmdRej = s.cmdRej := rfl
@[simp] theorem select_cause : (select s).cause = s.cause := rfl
@[simp] theorem select_phase : (select s).phase = s.phase := rfl
@[simp] theorem select_doneIe : (select s).doneIe = s.doneIe := rfl
@[simp] theorem select_errIe : (select s).errIe = s.errIe := rfl
@[simp] theorem select_rejIe : (select s).rejIe = s.rejIe := rfl
@[simp] theorem select_idMfr : (select s).idMfr = s.idMfr := rfl
@[simp] theorem select_idType : (select s).idType = s.idType := rfl
@[simp] theorem select_idCap : (select s).idCap = s.idCap := rfl
@[simp] theorem select_sr1 : (select s).sr1 = s.sr1 := rfl
@[simp] theorem select_sr2 : (select s).sr2 = s.sr2 := rfl
@[simp] theorem select_rxdata : (select s).rxdata = s.rxdata := rfl
@[simp] theorem select_cursor : (select s).cursor = s.cursor := rfl
@[simp] theorem select_mmAddr : (select s).mmAddr = s.mmAddr := rfl
@[simp] theorem select_mmDev : (select s).mmDev = s.mmDev := rfl
@[simp] theorem select_mmExp : (select s).mmExp = s.mmExp := rfl
@[simp] theorem select_pct : (select s).pct = s.pct := rfl
@[simp] theorem select_pollLimit : (select s).pollLimit = s.pollLimit := rfl
@[simp] theorem select_pollCnt : (select s).pollCnt = s.pollCnt := rfl
@[simp] theorem select_wbuf : (select s).wbuf = s.wbuf := rfl
@[simp] theorem select_dbuf : (select s).dbuf = s.dbuf := rfl
@[simp] theorem select_lOp : (select s).lOp = s.lOp := rfl
@[simp] theorem select_lByte : (select s).lByte = s.lByte := rfl
@[simp] theorem select_lAddr : (select s).lAddr = s.lAddr := rfl
@[simp] theorem select_lLen : (select s).lLen = s.lLen := rfl
@[simp] theorem select_lLimit : (select s).lLimit = s.lLimit := rfl
@[simp] theorem select_pos : (select s).pos = s.pos := rfl
@[simp] theorem select_chunkIx : (select s).chunkIx = s.chunkIx := rfl
@[simp] theorem select_pageIx : (select s).pageIx = s.pageIx := rfl
@[simp] theorem select_strideIx : (select s).strideIx = s.strideIx := rfl
@[simp] theorem select_byteIx : (select s).byteIx = s.byteIx := rfl
@[simp] theorem select_pollN : (select s).pollN = s.pollN := rfl
@[simp] theorem select_sample : (select s).sample = s.sample := rfl
@[simp] theorem select_sourced : (select s).sourced = s.sourced := rfl
@[simp] theorem select_events : (select s).events = if s.cs then s.events else s.events ++ [.select] := rfl
@[simp] theorem select_rdata : (select s).rdata = s.rdata := rfl
@[simp] theorem select_flash : (select s).flash = if s.cs then s.flash else s.flash.selected := rfl
@[simp] theorem select_moves : (select s).moves = s.moves := rfl
@[simp] theorem select_source : (select s).source = s.source := rfl
@[simp] theorem select_sink : (select s).sink = s.sink := rfl
@[simp] theorem select_draws : (select s).draws = s.draws := rfl
@[simp] theorem select_ramDraw : (select s).ramDraw = s.ramDraw := rfl

/-! exchange -/

@[simp] theorem exchange_cmd (tx : Byte) : (exchange tx s).cmd = s.cmd := rfl
@[simp] theorem exchange_addr (tx : Byte) : (exchange tx s).addr = s.addr := rfl
@[simp] theorem exchange_len (tx : Byte) : (exchange tx s).len = s.len := rfl
@[simp] theorem exchange_busy (tx : Byte) : (exchange tx s).busy = s.busy := rfl
@[simp] theorem exchange_done (tx : Byte) : (exchange tx s).done = s.done := rfl
@[simp] theorem exchange_err (tx : Byte) : (exchange tx s).err = s.err := rfl
@[simp] theorem exchange_cs (tx : Byte) : (exchange tx s).cs = s.cs := rfl
@[simp] theorem exchange_cmdRej (tx : Byte) : (exchange tx s).cmdRej = s.cmdRej := rfl
@[simp] theorem exchange_cause (tx : Byte) : (exchange tx s).cause = s.cause := rfl
@[simp] theorem exchange_phase (tx : Byte) : (exchange tx s).phase = s.phase := rfl
@[simp] theorem exchange_doneIe (tx : Byte) : (exchange tx s).doneIe = s.doneIe := rfl
@[simp] theorem exchange_errIe (tx : Byte) : (exchange tx s).errIe = s.errIe := rfl
@[simp] theorem exchange_rejIe (tx : Byte) : (exchange tx s).rejIe = s.rejIe := rfl
@[simp] theorem exchange_idMfr (tx : Byte) : (exchange tx s).idMfr = s.idMfr := rfl
@[simp] theorem exchange_idType (tx : Byte) : (exchange tx s).idType = s.idType := rfl
@[simp] theorem exchange_idCap (tx : Byte) : (exchange tx s).idCap = s.idCap := rfl
@[simp] theorem exchange_sr1 (tx : Byte) : (exchange tx s).sr1 = s.sr1 := rfl
@[simp] theorem exchange_sr2 (tx : Byte) : (exchange tx s).sr2 = s.sr2 := rfl
@[simp] theorem exchange_rxdata (tx : Byte) : (exchange tx s).rxdata = s.rxdata := rfl
@[simp] theorem exchange_cursor (tx : Byte) : (exchange tx s).cursor = s.cursor := rfl
@[simp] theorem exchange_mmAddr (tx : Byte) : (exchange tx s).mmAddr = s.mmAddr := rfl
@[simp] theorem exchange_mmDev (tx : Byte) : (exchange tx s).mmDev = s.mmDev := rfl
@[simp] theorem exchange_mmExp (tx : Byte) : (exchange tx s).mmExp = s.mmExp := rfl
@[simp] theorem exchange_pct (tx : Byte) : (exchange tx s).pct = s.pct := rfl
@[simp] theorem exchange_pollLimit (tx : Byte) : (exchange tx s).pollLimit = s.pollLimit := rfl
@[simp] theorem exchange_pollCnt (tx : Byte) : (exchange tx s).pollCnt = s.pollCnt := rfl
@[simp] theorem exchange_wbuf (tx : Byte) : (exchange tx s).wbuf = s.wbuf := rfl
@[simp] theorem exchange_dbuf (tx : Byte) : (exchange tx s).dbuf = s.dbuf := rfl
@[simp] theorem exchange_lOp (tx : Byte) : (exchange tx s).lOp = s.lOp := rfl
@[simp] theorem exchange_lByte (tx : Byte) : (exchange tx s).lByte = s.lByte := rfl
@[simp] theorem exchange_lAddr (tx : Byte) : (exchange tx s).lAddr = s.lAddr := rfl
@[simp] theorem exchange_lLen (tx : Byte) : (exchange tx s).lLen = s.lLen := rfl
@[simp] theorem exchange_lLimit (tx : Byte) : (exchange tx s).lLimit = s.lLimit := rfl
@[simp] theorem exchange_pos (tx : Byte) : (exchange tx s).pos = s.pos := rfl
@[simp] theorem exchange_chunkIx (tx : Byte) : (exchange tx s).chunkIx = s.chunkIx := rfl
@[simp] theorem exchange_pageIx (tx : Byte) : (exchange tx s).pageIx = s.pageIx := rfl
@[simp] theorem exchange_strideIx (tx : Byte) : (exchange tx s).strideIx = s.strideIx := rfl
@[simp] theorem exchange_byteIx (tx : Byte) : (exchange tx s).byteIx = s.byteIx := rfl
@[simp] theorem exchange_pollN (tx : Byte) : (exchange tx s).pollN = s.pollN := rfl
@[simp] theorem exchange_sample (tx : Byte) : (exchange tx s).sample = s.sample := rfl
@[simp] theorem exchange_sourced (tx : Byte) : (exchange tx s).sourced = s.sourced := rfl
@[simp] theorem exchange_events (tx : Byte) : (exchange tx s).events = s.events ++ [.exchange tx (rx tx s)] := rfl
@[simp] theorem exchange_rdata (tx : Byte) : (exchange tx s).rdata = s.rdata := rfl
@[simp] theorem exchange_flash (tx : Byte) : (exchange tx s).flash = s.flash.clocked tx := rfl
@[simp] theorem exchange_moves (tx : Byte) : (exchange tx s).moves = s.moves := rfl
@[simp] theorem exchange_source (tx : Byte) : (exchange tx s).source = s.source := rfl
@[simp] theorem exchange_sink (tx : Byte) : (exchange tx s).sink = s.sink := rfl
@[simp] theorem exchange_draws (tx : Byte) : (exchange tx s).draws = s.draws + 1 := rfl
@[simp] theorem exchange_ramDraw (tx : Byte) : (exchange tx s).ramDraw = s.ramDraw := rfl

/-! deselect -/

@[simp] theorem deselect_cmd (w : Bool) : (deselect w s).cmd = s.cmd := rfl
@[simp] theorem deselect_addr (w : Bool) : (deselect w s).addr = s.addr := rfl
@[simp] theorem deselect_len (w : Bool) : (deselect w s).len = s.len := rfl
@[simp] theorem deselect_busy (w : Bool) : (deselect w s).busy = s.busy := rfl
@[simp] theorem deselect_done (w : Bool) : (deselect w s).done = s.done := rfl
@[simp] theorem deselect_err (w : Bool) : (deselect w s).err = s.err := rfl
@[simp] theorem deselect_cs (w : Bool) : (deselect w s).cs = false := rfl
@[simp] theorem deselect_cmdRej (w : Bool) : (deselect w s).cmdRej = s.cmdRej := rfl
@[simp] theorem deselect_cause (w : Bool) : (deselect w s).cause = s.cause := rfl
@[simp] theorem deselect_phase (w : Bool) : (deselect w s).phase = s.phase := rfl
@[simp] theorem deselect_doneIe (w : Bool) : (deselect w s).doneIe = s.doneIe := rfl
@[simp] theorem deselect_errIe (w : Bool) : (deselect w s).errIe = s.errIe := rfl
@[simp] theorem deselect_rejIe (w : Bool) : (deselect w s).rejIe = s.rejIe := rfl
@[simp] theorem deselect_idMfr (w : Bool) : (deselect w s).idMfr = s.idMfr := rfl
@[simp] theorem deselect_idType (w : Bool) : (deselect w s).idType = s.idType := rfl
@[simp] theorem deselect_idCap (w : Bool) : (deselect w s).idCap = s.idCap := rfl
@[simp] theorem deselect_sr1 (w : Bool) : (deselect w s).sr1 = s.sr1 := rfl
@[simp] theorem deselect_sr2 (w : Bool) : (deselect w s).sr2 = s.sr2 := rfl
@[simp] theorem deselect_rxdata (w : Bool) : (deselect w s).rxdata = s.rxdata := rfl
@[simp] theorem deselect_cursor (w : Bool) : (deselect w s).cursor = s.cursor := rfl
@[simp] theorem deselect_mmAddr (w : Bool) : (deselect w s).mmAddr = s.mmAddr := rfl
@[simp] theorem deselect_mmDev (w : Bool) : (deselect w s).mmDev = s.mmDev := rfl
@[simp] theorem deselect_mmExp (w : Bool) : (deselect w s).mmExp = s.mmExp := rfl
@[simp] theorem deselect_pct (w : Bool) : (deselect w s).pct = s.pct := rfl
@[simp] theorem deselect_pollLimit (w : Bool) : (deselect w s).pollLimit = s.pollLimit := rfl
@[simp] theorem deselect_pollCnt (w : Bool) : (deselect w s).pollCnt = s.pollCnt := rfl
@[simp] theorem deselect_wbuf (w : Bool) : (deselect w s).wbuf = s.wbuf := rfl
@[simp] theorem deselect_dbuf (w : Bool) : (deselect w s).dbuf = s.dbuf := rfl
@[simp] theorem deselect_lOp (w : Bool) : (deselect w s).lOp = s.lOp := rfl
@[simp] theorem deselect_lByte (w : Bool) : (deselect w s).lByte = s.lByte := rfl
@[simp] theorem deselect_lAddr (w : Bool) : (deselect w s).lAddr = s.lAddr := rfl
@[simp] theorem deselect_lLen (w : Bool) : (deselect w s).lLen = s.lLen := rfl
@[simp] theorem deselect_lLimit (w : Bool) : (deselect w s).lLimit = s.lLimit := rfl
@[simp] theorem deselect_pos (w : Bool) : (deselect w s).pos = s.pos := rfl
@[simp] theorem deselect_chunkIx (w : Bool) : (deselect w s).chunkIx = s.chunkIx := rfl
@[simp] theorem deselect_pageIx (w : Bool) : (deselect w s).pageIx = s.pageIx := rfl
@[simp] theorem deselect_strideIx (w : Bool) : (deselect w s).strideIx = s.strideIx := rfl
@[simp] theorem deselect_byteIx (w : Bool) : (deselect w s).byteIx = s.byteIx := rfl
@[simp] theorem deselect_pollN (w : Bool) : (deselect w s).pollN = s.pollN := rfl
@[simp] theorem deselect_sample (w : Bool) : (deselect w s).sample = s.sample := rfl
@[simp] theorem deselect_sourced (w : Bool) : (deselect w s).sourced = s.sourced := rfl
@[simp] theorem deselect_events (w : Bool) : (deselect w s).events = if s.cs then s.events ++ [.deselect w] else s.events := rfl
@[simp] theorem deselect_rdata (w : Bool) : (deselect w s).rdata = s.rdata := rfl
@[simp] theorem deselect_flash (w : Bool) : (deselect w s).flash = if s.cs then s.flash.released else s.flash := rfl
@[simp] theorem deselect_moves (w : Bool) : (deselect w s).moves = s.moves := rfl
@[simp] theorem deselect_source (w : Bool) : (deselect w s).source = s.source := rfl
@[simp] theorem deselect_sink (w : Bool) : (deselect w s).sink = s.sink := rfl
@[simp] theorem deselect_draws (w : Bool) : (deselect w s).draws = s.draws := rfl
@[simp] theorem deselect_ramDraw (w : Bool) : (deselect w s).ramDraw = s.ramDraw := rfl

/-! setPos -/

@[simp] theorem setPos_cmd (p : Pos) : (setPos p s).cmd = s.cmd := rfl
@[simp] theorem setPos_addr (p : Pos) : (setPos p s).addr = s.addr := rfl
@[simp] theorem setPos_len (p : Pos) : (setPos p s).len = s.len := rfl
@[simp] theorem setPos_busy (p : Pos) : (setPos p s).busy = s.busy := rfl
@[simp] theorem setPos_done (p : Pos) : (setPos p s).done = s.done := rfl
@[simp] theorem setPos_err (p : Pos) : (setPos p s).err = s.err := rfl
@[simp] theorem setPos_cs (p : Pos) : (setPos p s).cs = s.cs := rfl
@[simp] theorem setPos_cmdRej (p : Pos) : (setPos p s).cmdRej = s.cmdRej := rfl
@[simp] theorem setPos_cause (p : Pos) : (setPos p s).cause = s.cause := rfl
@[simp] theorem setPos_phase (p : Pos) : (setPos p s).phase = s.phase := rfl
@[simp] theorem setPos_doneIe (p : Pos) : (setPos p s).doneIe = s.doneIe := rfl
@[simp] theorem setPos_errIe (p : Pos) : (setPos p s).errIe = s.errIe := rfl
@[simp] theorem setPos_rejIe (p : Pos) : (setPos p s).rejIe = s.rejIe := rfl
@[simp] theorem setPos_idMfr (p : Pos) : (setPos p s).idMfr = s.idMfr := rfl
@[simp] theorem setPos_idType (p : Pos) : (setPos p s).idType = s.idType := rfl
@[simp] theorem setPos_idCap (p : Pos) : (setPos p s).idCap = s.idCap := rfl
@[simp] theorem setPos_sr1 (p : Pos) : (setPos p s).sr1 = s.sr1 := rfl
@[simp] theorem setPos_sr2 (p : Pos) : (setPos p s).sr2 = s.sr2 := rfl
@[simp] theorem setPos_rxdata (p : Pos) : (setPos p s).rxdata = s.rxdata := rfl
@[simp] theorem setPos_cursor (p : Pos) : (setPos p s).cursor = s.cursor := rfl
@[simp] theorem setPos_mmAddr (p : Pos) : (setPos p s).mmAddr = s.mmAddr := rfl
@[simp] theorem setPos_mmDev (p : Pos) : (setPos p s).mmDev = s.mmDev := rfl
@[simp] theorem setPos_mmExp (p : Pos) : (setPos p s).mmExp = s.mmExp := rfl
@[simp] theorem setPos_pct (p : Pos) : (setPos p s).pct = s.pct := rfl
@[simp] theorem setPos_pollLimit (p : Pos) : (setPos p s).pollLimit = s.pollLimit := rfl
@[simp] theorem setPos_pollCnt (p : Pos) : (setPos p s).pollCnt = s.pollCnt := rfl
@[simp] theorem setPos_wbuf (p : Pos) : (setPos p s).wbuf = s.wbuf := rfl
@[simp] theorem setPos_dbuf (p : Pos) : (setPos p s).dbuf = s.dbuf := rfl
@[simp] theorem setPos_lOp (p : Pos) : (setPos p s).lOp = s.lOp := rfl
@[simp] theorem setPos_lByte (p : Pos) : (setPos p s).lByte = s.lByte := rfl
@[simp] theorem setPos_lAddr (p : Pos) : (setPos p s).lAddr = s.lAddr := rfl
@[simp] theorem setPos_lLen (p : Pos) : (setPos p s).lLen = s.lLen := rfl
@[simp] theorem setPos_lLimit (p : Pos) : (setPos p s).lLimit = s.lLimit := rfl
@[simp] theorem setPos_pos (p : Pos) : (setPos p s).pos = p := rfl
@[simp] theorem setPos_chunkIx (p : Pos) : (setPos p s).chunkIx = s.chunkIx := rfl
@[simp] theorem setPos_pageIx (p : Pos) : (setPos p s).pageIx = s.pageIx := rfl
@[simp] theorem setPos_strideIx (p : Pos) : (setPos p s).strideIx = s.strideIx := rfl
@[simp] theorem setPos_byteIx (p : Pos) : (setPos p s).byteIx = s.byteIx := rfl
@[simp] theorem setPos_pollN (p : Pos) : (setPos p s).pollN = s.pollN := rfl
@[simp] theorem setPos_sample (p : Pos) : (setPos p s).sample = s.sample := rfl
@[simp] theorem setPos_sourced (p : Pos) : (setPos p s).sourced = s.sourced := rfl
@[simp] theorem setPos_events (p : Pos) : (setPos p s).events = s.events := rfl
@[simp] theorem setPos_rdata (p : Pos) : (setPos p s).rdata = s.rdata := rfl
@[simp] theorem setPos_flash (p : Pos) : (setPos p s).flash = s.flash := rfl
@[simp] theorem setPos_moves (p : Pos) : (setPos p s).moves = s.moves := rfl
@[simp] theorem setPos_source (p : Pos) : (setPos p s).source = s.source := rfl
@[simp] theorem setPos_sink (p : Pos) : (setPos p s).sink = s.sink := rfl
@[simp] theorem setPos_draws (p : Pos) : (setPos p s).draws = s.draws := rfl
@[simp] theorem setPos_ramDraw (p : Pos) : (setPos p s).ramDraw = s.ramDraw := rfl

/-! setPhase -/

@[simp] theorem setPhase_cmd (p : Phase) : (setPhase p s).cmd = s.cmd := rfl
@[simp] theorem setPhase_addr (p : Phase) : (setPhase p s).addr = s.addr := rfl
@[simp] theorem setPhase_len (p : Phase) : (setPhase p s).len = s.len := rfl
@[simp] theorem setPhase_busy (p : Phase) : (setPhase p s).busy = s.busy := rfl
@[simp] theorem setPhase_done (p : Phase) : (setPhase p s).done = s.done := rfl
@[simp] theorem setPhase_err (p : Phase) : (setPhase p s).err = s.err := rfl
@[simp] theorem setPhase_cs (p : Phase) : (setPhase p s).cs = s.cs := rfl
@[simp] theorem setPhase_cmdRej (p : Phase) : (setPhase p s).cmdRej = s.cmdRej := rfl
@[simp] theorem setPhase_cause (p : Phase) : (setPhase p s).cause = s.cause := rfl
@[simp] theorem setPhase_phase (p : Phase) : (setPhase p s).phase = p := rfl
@[simp] theorem setPhase_doneIe (p : Phase) : (setPhase p s).doneIe = s.doneIe := rfl
@[simp] theorem setPhase_errIe (p : Phase) : (setPhase p s).errIe = s.errIe := rfl
@[simp] theorem setPhase_rejIe (p : Phase) : (setPhase p s).rejIe = s.rejIe := rfl
@[simp] theorem setPhase_idMfr (p : Phase) : (setPhase p s).idMfr = s.idMfr := rfl
@[simp] theorem setPhase_idType (p : Phase) : (setPhase p s).idType = s.idType := rfl
@[simp] theorem setPhase_idCap (p : Phase) : (setPhase p s).idCap = s.idCap := rfl
@[simp] theorem setPhase_sr1 (p : Phase) : (setPhase p s).sr1 = s.sr1 := rfl
@[simp] theorem setPhase_sr2 (p : Phase) : (setPhase p s).sr2 = s.sr2 := rfl
@[simp] theorem setPhase_rxdata (p : Phase) : (setPhase p s).rxdata = s.rxdata := rfl
@[simp] theorem setPhase_cursor (p : Phase) : (setPhase p s).cursor = s.cursor := rfl
@[simp] theorem setPhase_mmAddr (p : Phase) : (setPhase p s).mmAddr = s.mmAddr := rfl
@[simp] theorem setPhase_mmDev (p : Phase) : (setPhase p s).mmDev = s.mmDev := rfl
@[simp] theorem setPhase_mmExp (p : Phase) : (setPhase p s).mmExp = s.mmExp := rfl
@[simp] theorem setPhase_pct (p : Phase) : (setPhase p s).pct = s.pct := rfl
@[simp] theorem setPhase_pollLimit (p : Phase) : (setPhase p s).pollLimit = s.pollLimit := rfl
@[simp] theorem setPhase_pollCnt (p : Phase) : (setPhase p s).pollCnt = s.pollCnt := rfl
@[simp] theorem setPhase_wbuf (p : Phase) : (setPhase p s).wbuf = s.wbuf := rfl
@[simp] theorem setPhase_dbuf (p : Phase) : (setPhase p s).dbuf = s.dbuf := rfl
@[simp] theorem setPhase_lOp (p : Phase) : (setPhase p s).lOp = s.lOp := rfl
@[simp] theorem setPhase_lByte (p : Phase) : (setPhase p s).lByte = s.lByte := rfl
@[simp] theorem setPhase_lAddr (p : Phase) : (setPhase p s).lAddr = s.lAddr := rfl
@[simp] theorem setPhase_lLen (p : Phase) : (setPhase p s).lLen = s.lLen := rfl
@[simp] theorem setPhase_lLimit (p : Phase) : (setPhase p s).lLimit = s.lLimit := rfl
@[simp] theorem setPhase_pos (p : Phase) : (setPhase p s).pos = s.pos := rfl
@[simp] theorem setPhase_chunkIx (p : Phase) : (setPhase p s).chunkIx = s.chunkIx := rfl
@[simp] theorem setPhase_pageIx (p : Phase) : (setPhase p s).pageIx = s.pageIx := rfl
@[simp] theorem setPhase_strideIx (p : Phase) : (setPhase p s).strideIx = s.strideIx := rfl
@[simp] theorem setPhase_byteIx (p : Phase) : (setPhase p s).byteIx = s.byteIx := rfl
@[simp] theorem setPhase_pollN (p : Phase) : (setPhase p s).pollN = s.pollN := rfl
@[simp] theorem setPhase_sample (p : Phase) : (setPhase p s).sample = s.sample := rfl
@[simp] theorem setPhase_sourced (p : Phase) : (setPhase p s).sourced = s.sourced := rfl
@[simp] theorem setPhase_events (p : Phase) : (setPhase p s).events = s.events := rfl
@[simp] theorem setPhase_rdata (p : Phase) : (setPhase p s).rdata = s.rdata := rfl
@[simp] theorem setPhase_flash (p : Phase) : (setPhase p s).flash = s.flash := rfl
@[simp] theorem setPhase_moves (p : Phase) : (setPhase p s).moves = s.moves := rfl
@[simp] theorem setPhase_source (p : Phase) : (setPhase p s).source = s.source := rfl
@[simp] theorem setPhase_sink (p : Phase) : (setPhase p s).sink = s.sink := rfl
@[simp] theorem setPhase_draws (p : Phase) : (setPhase p s).draws = s.draws := rfl
@[simp] theorem setPhase_ramDraw (p : Phase) : (setPhase p s).ramDraw = s.ramDraw := rfl

/-! setDbuf -/

@[simp] theorem setDbuf_cmd (k : Nat) (v : Byte) : (setDbuf k v s).cmd = s.cmd := rfl
@[simp] theorem setDbuf_addr (k : Nat) (v : Byte) : (setDbuf k v s).addr = s.addr := rfl
@[simp] theorem setDbuf_len (k : Nat) (v : Byte) : (setDbuf k v s).len = s.len := rfl
@[simp] theorem setDbuf_busy (k : Nat) (v : Byte) : (setDbuf k v s).busy = s.busy := rfl
@[simp] theorem setDbuf_done (k : Nat) (v : Byte) : (setDbuf k v s).done = s.done := rfl
@[simp] theorem setDbuf_err (k : Nat) (v : Byte) : (setDbuf k v s).err = s.err := rfl
@[simp] theorem setDbuf_cs (k : Nat) (v : Byte) : (setDbuf k v s).cs = s.cs := rfl
@[simp] theorem setDbuf_cmdRej (k : Nat) (v : Byte) : (setDbuf k v s).cmdRej = s.cmdRej := rfl
@[simp] theorem setDbuf_cause (k : Nat) (v : Byte) : (setDbuf k v s).cause = s.cause := rfl
@[simp] theorem setDbuf_phase (k : Nat) (v : Byte) : (setDbuf k v s).phase = s.phase := rfl
@[simp] theorem setDbuf_doneIe (k : Nat) (v : Byte) : (setDbuf k v s).doneIe = s.doneIe := rfl
@[simp] theorem setDbuf_errIe (k : Nat) (v : Byte) : (setDbuf k v s).errIe = s.errIe := rfl
@[simp] theorem setDbuf_rejIe (k : Nat) (v : Byte) : (setDbuf k v s).rejIe = s.rejIe := rfl
@[simp] theorem setDbuf_idMfr (k : Nat) (v : Byte) : (setDbuf k v s).idMfr = s.idMfr := rfl
@[simp] theorem setDbuf_idType (k : Nat) (v : Byte) : (setDbuf k v s).idType = s.idType := rfl
@[simp] theorem setDbuf_idCap (k : Nat) (v : Byte) : (setDbuf k v s).idCap = s.idCap := rfl
@[simp] theorem setDbuf_sr1 (k : Nat) (v : Byte) : (setDbuf k v s).sr1 = s.sr1 := rfl
@[simp] theorem setDbuf_sr2 (k : Nat) (v : Byte) : (setDbuf k v s).sr2 = s.sr2 := rfl
@[simp] theorem setDbuf_rxdata (k : Nat) (v : Byte) : (setDbuf k v s).rxdata = s.rxdata := rfl
@[simp] theorem setDbuf_cursor (k : Nat) (v : Byte) : (setDbuf k v s).cursor = s.cursor := rfl
@[simp] theorem setDbuf_mmAddr (k : Nat) (v : Byte) : (setDbuf k v s).mmAddr = s.mmAddr := rfl
@[simp] theorem setDbuf_mmDev (k : Nat) (v : Byte) : (setDbuf k v s).mmDev = s.mmDev := rfl
@[simp] theorem setDbuf_mmExp (k : Nat) (v : Byte) : (setDbuf k v s).mmExp = s.mmExp := rfl
@[simp] theorem setDbuf_pct (k : Nat) (v : Byte) : (setDbuf k v s).pct = s.pct := rfl
@[simp] theorem setDbuf_pollLimit (k : Nat) (v : Byte) : (setDbuf k v s).pollLimit = s.pollLimit := rfl
@[simp] theorem setDbuf_pollCnt (k : Nat) (v : Byte) : (setDbuf k v s).pollCnt = s.pollCnt := rfl
@[simp] theorem setDbuf_wbuf (k : Nat) (v : Byte) : (setDbuf k v s).wbuf = s.wbuf := rfl
@[simp] theorem setDbuf_dbuf (k : Nat) (v : Byte) : (setDbuf k v s).dbuf = Memory.write none s.dbuf k v := rfl
@[simp] theorem setDbuf_lOp (k : Nat) (v : Byte) : (setDbuf k v s).lOp = s.lOp := rfl
@[simp] theorem setDbuf_lByte (k : Nat) (v : Byte) : (setDbuf k v s).lByte = s.lByte := rfl
@[simp] theorem setDbuf_lAddr (k : Nat) (v : Byte) : (setDbuf k v s).lAddr = s.lAddr := rfl
@[simp] theorem setDbuf_lLen (k : Nat) (v : Byte) : (setDbuf k v s).lLen = s.lLen := rfl
@[simp] theorem setDbuf_lLimit (k : Nat) (v : Byte) : (setDbuf k v s).lLimit = s.lLimit := rfl
@[simp] theorem setDbuf_pos (k : Nat) (v : Byte) : (setDbuf k v s).pos = s.pos := rfl
@[simp] theorem setDbuf_chunkIx (k : Nat) (v : Byte) : (setDbuf k v s).chunkIx = s.chunkIx := rfl
@[simp] theorem setDbuf_pageIx (k : Nat) (v : Byte) : (setDbuf k v s).pageIx = s.pageIx := rfl
@[simp] theorem setDbuf_strideIx (k : Nat) (v : Byte) : (setDbuf k v s).strideIx = s.strideIx := rfl
@[simp] theorem setDbuf_byteIx (k : Nat) (v : Byte) : (setDbuf k v s).byteIx = s.byteIx := rfl
@[simp] theorem setDbuf_pollN (k : Nat) (v : Byte) : (setDbuf k v s).pollN = s.pollN := rfl
@[simp] theorem setDbuf_sample (k : Nat) (v : Byte) : (setDbuf k v s).sample = s.sample := rfl
@[simp] theorem setDbuf_sourced (k : Nat) (v : Byte) : (setDbuf k v s).sourced = s.sourced := rfl
@[simp] theorem setDbuf_events (k : Nat) (v : Byte) : (setDbuf k v s).events = s.events := rfl
@[simp] theorem setDbuf_rdata (k : Nat) (v : Byte) : (setDbuf k v s).rdata = s.rdata := rfl
@[simp] theorem setDbuf_flash (k : Nat) (v : Byte) : (setDbuf k v s).flash = s.flash := rfl
@[simp] theorem setDbuf_moves (k : Nat) (v : Byte) : (setDbuf k v s).moves = s.moves := rfl
@[simp] theorem setDbuf_source (k : Nat) (v : Byte) : (setDbuf k v s).source = s.source := rfl
@[simp] theorem setDbuf_sink (k : Nat) (v : Byte) : (setDbuf k v s).sink = s.sink := rfl
@[simp] theorem setDbuf_draws (k : Nat) (v : Byte) : (setDbuf k v s).draws = s.draws := rfl
@[simp] theorem setDbuf_ramDraw (k : Nat) (v : Byte) : (setDbuf k v s).ramDraw = s.ramDraw := rfl

/-! setWbuf -/

@[simp] theorem setWbuf_cmd (k : Nat) (v : Byte) : (setWbuf k v s).cmd = s.cmd := rfl
@[simp] theorem setWbuf_addr (k : Nat) (v : Byte) : (setWbuf k v s).addr = s.addr := rfl
@[simp] theorem setWbuf_len (k : Nat) (v : Byte) : (setWbuf k v s).len = s.len := rfl
@[simp] theorem setWbuf_busy (k : Nat) (v : Byte) : (setWbuf k v s).busy = s.busy := rfl
@[simp] theorem setWbuf_done (k : Nat) (v : Byte) : (setWbuf k v s).done = s.done := rfl
@[simp] theorem setWbuf_err (k : Nat) (v : Byte) : (setWbuf k v s).err = s.err := rfl
@[simp] theorem setWbuf_cs (k : Nat) (v : Byte) : (setWbuf k v s).cs = s.cs := rfl
@[simp] theorem setWbuf_cmdRej (k : Nat) (v : Byte) : (setWbuf k v s).cmdRej = s.cmdRej := rfl
@[simp] theorem setWbuf_cause (k : Nat) (v : Byte) : (setWbuf k v s).cause = s.cause := rfl
@[simp] theorem setWbuf_phase (k : Nat) (v : Byte) : (setWbuf k v s).phase = s.phase := rfl
@[simp] theorem setWbuf_doneIe (k : Nat) (v : Byte) : (setWbuf k v s).doneIe = s.doneIe := rfl
@[simp] theorem setWbuf_errIe (k : Nat) (v : Byte) : (setWbuf k v s).errIe = s.errIe := rfl
@[simp] theorem setWbuf_rejIe (k : Nat) (v : Byte) : (setWbuf k v s).rejIe = s.rejIe := rfl
@[simp] theorem setWbuf_idMfr (k : Nat) (v : Byte) : (setWbuf k v s).idMfr = s.idMfr := rfl
@[simp] theorem setWbuf_idType (k : Nat) (v : Byte) : (setWbuf k v s).idType = s.idType := rfl
@[simp] theorem setWbuf_idCap (k : Nat) (v : Byte) : (setWbuf k v s).idCap = s.idCap := rfl
@[simp] theorem setWbuf_sr1 (k : Nat) (v : Byte) : (setWbuf k v s).sr1 = s.sr1 := rfl
@[simp] theorem setWbuf_sr2 (k : Nat) (v : Byte) : (setWbuf k v s).sr2 = s.sr2 := rfl
@[simp] theorem setWbuf_rxdata (k : Nat) (v : Byte) : (setWbuf k v s).rxdata = s.rxdata := rfl
@[simp] theorem setWbuf_cursor (k : Nat) (v : Byte) : (setWbuf k v s).cursor = s.cursor := rfl
@[simp] theorem setWbuf_mmAddr (k : Nat) (v : Byte) : (setWbuf k v s).mmAddr = s.mmAddr := rfl
@[simp] theorem setWbuf_mmDev (k : Nat) (v : Byte) : (setWbuf k v s).mmDev = s.mmDev := rfl
@[simp] theorem setWbuf_mmExp (k : Nat) (v : Byte) : (setWbuf k v s).mmExp = s.mmExp := rfl
@[simp] theorem setWbuf_pct (k : Nat) (v : Byte) : (setWbuf k v s).pct = s.pct := rfl
@[simp] theorem setWbuf_pollLimit (k : Nat) (v : Byte) : (setWbuf k v s).pollLimit = s.pollLimit := rfl
@[simp] theorem setWbuf_pollCnt (k : Nat) (v : Byte) : (setWbuf k v s).pollCnt = s.pollCnt := rfl
@[simp] theorem setWbuf_wbuf (k : Nat) (v : Byte) : (setWbuf k v s).wbuf = Memory.write none s.wbuf k v := rfl
@[simp] theorem setWbuf_dbuf (k : Nat) (v : Byte) : (setWbuf k v s).dbuf = s.dbuf := rfl
@[simp] theorem setWbuf_lOp (k : Nat) (v : Byte) : (setWbuf k v s).lOp = s.lOp := rfl
@[simp] theorem setWbuf_lByte (k : Nat) (v : Byte) : (setWbuf k v s).lByte = s.lByte := rfl
@[simp] theorem setWbuf_lAddr (k : Nat) (v : Byte) : (setWbuf k v s).lAddr = s.lAddr := rfl
@[simp] theorem setWbuf_lLen (k : Nat) (v : Byte) : (setWbuf k v s).lLen = s.lLen := rfl
@[simp] theorem setWbuf_lLimit (k : Nat) (v : Byte) : (setWbuf k v s).lLimit = s.lLimit := rfl
@[simp] theorem setWbuf_pos (k : Nat) (v : Byte) : (setWbuf k v s).pos = s.pos := rfl
@[simp] theorem setWbuf_chunkIx (k : Nat) (v : Byte) : (setWbuf k v s).chunkIx = s.chunkIx := rfl
@[simp] theorem setWbuf_pageIx (k : Nat) (v : Byte) : (setWbuf k v s).pageIx = s.pageIx := rfl
@[simp] theorem setWbuf_strideIx (k : Nat) (v : Byte) : (setWbuf k v s).strideIx = s.strideIx := rfl
@[simp] theorem setWbuf_byteIx (k : Nat) (v : Byte) : (setWbuf k v s).byteIx = s.byteIx := rfl
@[simp] theorem setWbuf_pollN (k : Nat) (v : Byte) : (setWbuf k v s).pollN = s.pollN := rfl
@[simp] theorem setWbuf_sample (k : Nat) (v : Byte) : (setWbuf k v s).sample = s.sample := rfl
@[simp] theorem setWbuf_sourced (k : Nat) (v : Byte) : (setWbuf k v s).sourced = s.sourced := rfl
@[simp] theorem setWbuf_events (k : Nat) (v : Byte) : (setWbuf k v s).events = s.events := rfl
@[simp] theorem setWbuf_rdata (k : Nat) (v : Byte) : (setWbuf k v s).rdata = s.rdata := rfl
@[simp] theorem setWbuf_flash (k : Nat) (v : Byte) : (setWbuf k v s).flash = s.flash := rfl
@[simp] theorem setWbuf_moves (k : Nat) (v : Byte) : (setWbuf k v s).moves = s.moves := rfl
@[simp] theorem setWbuf_source (k : Nat) (v : Byte) : (setWbuf k v s).source = s.source := rfl
@[simp] theorem setWbuf_sink (k : Nat) (v : Byte) : (setWbuf k v s).sink = s.sink := rfl
@[simp] theorem setWbuf_draws (k : Nat) (v : Byte) : (setWbuf k v s).draws = s.draws := rfl
@[simp] theorem setWbuf_ramDraw (k : Nat) (v : Byte) : (setWbuf k v s).ramDraw = s.ramDraw := rfl

/-! fillWbuf -/

@[simp] theorem fillWbuf_cmd (k : Nat) (d : List Byte) : (fillWbuf k d s).cmd = s.cmd := rfl
@[simp] theorem fillWbuf_addr (k : Nat) (d : List Byte) : (fillWbuf k d s).addr = s.addr := rfl
@[simp] theorem fillWbuf_len (k : Nat) (d : List Byte) : (fillWbuf k d s).len = s.len := rfl
@[simp] theorem fillWbuf_busy (k : Nat) (d : List Byte) : (fillWbuf k d s).busy = s.busy := rfl
@[simp] theorem fillWbuf_done (k : Nat) (d : List Byte) : (fillWbuf k d s).done = s.done := rfl
@[simp] theorem fillWbuf_err (k : Nat) (d : List Byte) : (fillWbuf k d s).err = s.err := rfl
@[simp] theorem fillWbuf_cs (k : Nat) (d : List Byte) : (fillWbuf k d s).cs = s.cs := rfl
@[simp] theorem fillWbuf_cmdRej (k : Nat) (d : List Byte) : (fillWbuf k d s).cmdRej = s.cmdRej := rfl
@[simp] theorem fillWbuf_cause (k : Nat) (d : List Byte) : (fillWbuf k d s).cause = s.cause := rfl
@[simp] theorem fillWbuf_phase (k : Nat) (d : List Byte) : (fillWbuf k d s).phase = s.phase := rfl
@[simp] theorem fillWbuf_doneIe (k : Nat) (d : List Byte) : (fillWbuf k d s).doneIe = s.doneIe := rfl
@[simp] theorem fillWbuf_errIe (k : Nat) (d : List Byte) : (fillWbuf k d s).errIe = s.errIe := rfl
@[simp] theorem fillWbuf_rejIe (k : Nat) (d : List Byte) : (fillWbuf k d s).rejIe = s.rejIe := rfl
@[simp] theorem fillWbuf_idMfr (k : Nat) (d : List Byte) : (fillWbuf k d s).idMfr = s.idMfr := rfl
@[simp] theorem fillWbuf_idType (k : Nat) (d : List Byte) : (fillWbuf k d s).idType = s.idType := rfl
@[simp] theorem fillWbuf_idCap (k : Nat) (d : List Byte) : (fillWbuf k d s).idCap = s.idCap := rfl
@[simp] theorem fillWbuf_sr1 (k : Nat) (d : List Byte) : (fillWbuf k d s).sr1 = s.sr1 := rfl
@[simp] theorem fillWbuf_sr2 (k : Nat) (d : List Byte) : (fillWbuf k d s).sr2 = s.sr2 := rfl
@[simp] theorem fillWbuf_rxdata (k : Nat) (d : List Byte) : (fillWbuf k d s).rxdata = s.rxdata := rfl
@[simp] theorem fillWbuf_cursor (k : Nat) (d : List Byte) : (fillWbuf k d s).cursor = s.cursor := rfl
@[simp] theorem fillWbuf_mmAddr (k : Nat) (d : List Byte) : (fillWbuf k d s).mmAddr = s.mmAddr := rfl
@[simp] theorem fillWbuf_mmDev (k : Nat) (d : List Byte) : (fillWbuf k d s).mmDev = s.mmDev := rfl
@[simp] theorem fillWbuf_mmExp (k : Nat) (d : List Byte) : (fillWbuf k d s).mmExp = s.mmExp := rfl
@[simp] theorem fillWbuf_pct (k : Nat) (d : List Byte) : (fillWbuf k d s).pct = s.pct := rfl
@[simp] theorem fillWbuf_pollLimit (k : Nat) (d : List Byte) : (fillWbuf k d s).pollLimit = s.pollLimit := rfl
@[simp] theorem fillWbuf_pollCnt (k : Nat) (d : List Byte) : (fillWbuf k d s).pollCnt = s.pollCnt := rfl
@[simp] theorem fillWbuf_wbuf (k : Nat) (d : List Byte) : (fillWbuf k d s).wbuf = Memory.writeList none s.wbuf k d := rfl
@[simp] theorem fillWbuf_dbuf (k : Nat) (d : List Byte) : (fillWbuf k d s).dbuf = s.dbuf := rfl
@[simp] theorem fillWbuf_lOp (k : Nat) (d : List Byte) : (fillWbuf k d s).lOp = s.lOp := rfl
@[simp] theorem fillWbuf_lByte (k : Nat) (d : List Byte) : (fillWbuf k d s).lByte = s.lByte := rfl
@[simp] theorem fillWbuf_lAddr (k : Nat) (d : List Byte) : (fillWbuf k d s).lAddr = s.lAddr := rfl
@[simp] theorem fillWbuf_lLen (k : Nat) (d : List Byte) : (fillWbuf k d s).lLen = s.lLen := rfl
@[simp] theorem fillWbuf_lLimit (k : Nat) (d : List Byte) : (fillWbuf k d s).lLimit = s.lLimit := rfl
@[simp] theorem fillWbuf_pos (k : Nat) (d : List Byte) : (fillWbuf k d s).pos = s.pos := rfl
@[simp] theorem fillWbuf_chunkIx (k : Nat) (d : List Byte) : (fillWbuf k d s).chunkIx = s.chunkIx := rfl
@[simp] theorem fillWbuf_pageIx (k : Nat) (d : List Byte) : (fillWbuf k d s).pageIx = s.pageIx := rfl
@[simp] theorem fillWbuf_strideIx (k : Nat) (d : List Byte) : (fillWbuf k d s).strideIx = s.strideIx := rfl
@[simp] theorem fillWbuf_byteIx (k : Nat) (d : List Byte) : (fillWbuf k d s).byteIx = s.byteIx := rfl
@[simp] theorem fillWbuf_pollN (k : Nat) (d : List Byte) : (fillWbuf k d s).pollN = s.pollN := rfl
@[simp] theorem fillWbuf_sample (k : Nat) (d : List Byte) : (fillWbuf k d s).sample = s.sample := rfl
@[simp] theorem fillWbuf_sourced (k : Nat) (d : List Byte) : (fillWbuf k d s).sourced = s.sourced := rfl
@[simp] theorem fillWbuf_events (k : Nat) (d : List Byte) : (fillWbuf k d s).events = s.events := rfl
@[simp] theorem fillWbuf_rdata (k : Nat) (d : List Byte) : (fillWbuf k d s).rdata = s.rdata := rfl
@[simp] theorem fillWbuf_flash (k : Nat) (d : List Byte) : (fillWbuf k d s).flash = s.flash := rfl
@[simp] theorem fillWbuf_moves (k : Nat) (d : List Byte) : (fillWbuf k d s).moves = s.moves := rfl
@[simp] theorem fillWbuf_source (k : Nat) (d : List Byte) : (fillWbuf k d s).source = s.source := rfl
@[simp] theorem fillWbuf_sink (k : Nat) (d : List Byte) : (fillWbuf k d s).sink = s.sink := rfl
@[simp] theorem fillWbuf_draws (k : Nat) (d : List Byte) : (fillWbuf k d s).draws = s.draws := rfl
@[simp] theorem fillWbuf_ramDraw (k : Nat) (d : List Byte) : (fillWbuf k d s).ramDraw = s.ramDraw := rfl

/-! finish -/

@[simp] theorem finish_cmd : (finish s).cmd = s.cmd := rfl
@[simp] theorem finish_addr : (finish s).addr = s.addr := rfl
@[simp] theorem finish_len : (finish s).len = s.len := rfl
@[simp] theorem finish_busy : (finish s).busy = false := rfl
@[simp] theorem finish_done : (finish s).done = true := rfl
@[simp] theorem finish_err : (finish s).err = s.err := rfl
@[simp] theorem finish_cs : (finish s).cs = s.cs := rfl
@[simp] theorem finish_cmdRej : (finish s).cmdRej = s.cmdRej := rfl
@[simp] theorem finish_cause : (finish s).cause = s.cause := rfl
@[simp] theorem finish_phase : (finish s).phase = .idle := rfl
@[simp] theorem finish_doneIe : (finish s).doneIe = s.doneIe := rfl
@[simp] theorem finish_errIe : (finish s).errIe = s.errIe := rfl
@[simp] theorem finish_rejIe : (finish s).rejIe = s.rejIe := rfl
@[simp] theorem finish_idMfr : (finish s).idMfr = s.idMfr := rfl
@[simp] theorem finish_idType : (finish s).idType = s.idType := rfl
@[simp] theorem finish_idCap : (finish s).idCap = s.idCap := rfl
@[simp] theorem finish_sr1 : (finish s).sr1 = s.sr1 := rfl
@[simp] theorem finish_sr2 : (finish s).sr2 = s.sr2 := rfl
@[simp] theorem finish_rxdata : (finish s).rxdata = s.rxdata := rfl
@[simp] theorem finish_cursor : (finish s).cursor = s.cursor := rfl
@[simp] theorem finish_mmAddr : (finish s).mmAddr = s.mmAddr := rfl
@[simp] theorem finish_mmDev : (finish s).mmDev = s.mmDev := rfl
@[simp] theorem finish_mmExp : (finish s).mmExp = s.mmExp := rfl
@[simp] theorem finish_pct : (finish s).pct = s.pct := rfl
@[simp] theorem finish_pollLimit : (finish s).pollLimit = s.pollLimit := rfl
@[simp] theorem finish_pollCnt : (finish s).pollCnt = s.pollCnt := rfl
@[simp] theorem finish_wbuf : (finish s).wbuf = s.wbuf := rfl
@[simp] theorem finish_dbuf : (finish s).dbuf = s.dbuf := rfl
@[simp] theorem finish_lOp : (finish s).lOp = s.lOp := rfl
@[simp] theorem finish_lByte : (finish s).lByte = s.lByte := rfl
@[simp] theorem finish_lAddr : (finish s).lAddr = s.lAddr := rfl
@[simp] theorem finish_lLen : (finish s).lLen = s.lLen := rfl
@[simp] theorem finish_lLimit : (finish s).lLimit = s.lLimit := rfl
@[simp] theorem finish_pos : (finish s).pos = .idle := rfl
@[simp] theorem finish_chunkIx : (finish s).chunkIx = s.chunkIx := rfl
@[simp] theorem finish_pageIx : (finish s).pageIx = s.pageIx := rfl
@[simp] theorem finish_strideIx : (finish s).strideIx = s.strideIx := rfl
@[simp] theorem finish_byteIx : (finish s).byteIx = s.byteIx := rfl
@[simp] theorem finish_pollN : (finish s).pollN = s.pollN := rfl
@[simp] theorem finish_sample : (finish s).sample = s.sample := rfl
@[simp] theorem finish_sourced : (finish s).sourced = s.sourced := rfl
@[simp] theorem finish_events : (finish s).events = s.events := rfl
@[simp] theorem finish_rdata : (finish s).rdata = s.rdata := rfl
@[simp] theorem finish_flash : (finish s).flash = s.flash := rfl
@[simp] theorem finish_moves : (finish s).moves = s.moves := rfl
@[simp] theorem finish_source : (finish s).source = s.source := rfl
@[simp] theorem finish_sink : (finish s).sink = s.sink := rfl
@[simp] theorem finish_draws : (finish s).draws = s.draws := rfl
@[simp] theorem finish_ramDraw : (finish s).ramDraw = s.ramDraw := rfl

/-! setFailed -/

@[simp] theorem setFailed_cmd (c : Cause) : (setFailed c s).cmd = s.cmd := rfl
@[simp] theorem setFailed_addr (c : Cause) : (setFailed c s).addr = s.addr := rfl
@[simp] theorem setFailed_len (c : Cause) : (setFailed c s).len = s.len := rfl
@[simp] theorem setFailed_busy (c : Cause) : (setFailed c s).busy = false := rfl
@[simp] theorem setFailed_done (c : Cause) : (setFailed c s).done = s.done := rfl
@[simp] theorem setFailed_err (c : Cause) : (setFailed c s).err = true := rfl
@[simp] theorem setFailed_cs (c : Cause) : (setFailed c s).cs = s.cs := rfl
@[simp] theorem setFailed_cmdRej (c : Cause) : (setFailed c s).cmdRej = s.cmdRej := rfl
@[simp] theorem setFailed_cause (c : Cause) : (setFailed c s).cause = c := rfl
@[simp] theorem setFailed_phase (c : Cause) : (setFailed c s).phase = .idle := rfl
@[simp] theorem setFailed_doneIe (c : Cause) : (setFailed c s).doneIe = s.doneIe := rfl
@[simp] theorem setFailed_errIe (c : Cause) : (setFailed c s).errIe = s.errIe := rfl
@[simp] theorem setFailed_rejIe (c : Cause) : (setFailed c s).rejIe = s.rejIe := rfl
@[simp] theorem setFailed_idMfr (c : Cause) : (setFailed c s).idMfr = s.idMfr := rfl
@[simp] theorem setFailed_idType (c : Cause) : (setFailed c s).idType = s.idType := rfl
@[simp] theorem setFailed_idCap (c : Cause) : (setFailed c s).idCap = s.idCap := rfl
@[simp] theorem setFailed_sr1 (c : Cause) : (setFailed c s).sr1 = s.sr1 := rfl
@[simp] theorem setFailed_sr2 (c : Cause) : (setFailed c s).sr2 = s.sr2 := rfl
@[simp] theorem setFailed_rxdata (c : Cause) : (setFailed c s).rxdata = s.rxdata := rfl
@[simp] theorem setFailed_cursor (c : Cause) : (setFailed c s).cursor = s.cursor := rfl
@[simp] theorem setFailed_mmAddr (c : Cause) : (setFailed c s).mmAddr = s.mmAddr := rfl
@[simp] theorem setFailed_mmDev (c : Cause) : (setFailed c s).mmDev = s.mmDev := rfl
@[simp] theorem setFailed_mmExp (c : Cause) : (setFailed c s).mmExp = s.mmExp := rfl
@[simp] theorem setFailed_pct (c : Cause) : (setFailed c s).pct = s.pct := rfl
@[simp] theorem setFailed_pollLimit (c : Cause) : (setFailed c s).pollLimit = s.pollLimit := rfl
@[simp] theorem setFailed_pollCnt (c : Cause) : (setFailed c s).pollCnt = s.pollCnt := rfl
@[simp] theorem setFailed_wbuf (c : Cause) : (setFailed c s).wbuf = s.wbuf := rfl
@[simp] theorem setFailed_dbuf (c : Cause) : (setFailed c s).dbuf = s.dbuf := rfl
@[simp] theorem setFailed_lOp (c : Cause) : (setFailed c s).lOp = s.lOp := rfl
@[simp] theorem setFailed_lByte (c : Cause) : (setFailed c s).lByte = s.lByte := rfl
@[simp] theorem setFailed_lAddr (c : Cause) : (setFailed c s).lAddr = s.lAddr := rfl
@[simp] theorem setFailed_lLen (c : Cause) : (setFailed c s).lLen = s.lLen := rfl
@[simp] theorem setFailed_lLimit (c : Cause) : (setFailed c s).lLimit = s.lLimit := rfl
@[simp] theorem setFailed_pos (c : Cause) : (setFailed c s).pos = .idle := rfl
@[simp] theorem setFailed_chunkIx (c : Cause) : (setFailed c s).chunkIx = s.chunkIx := rfl
@[simp] theorem setFailed_pageIx (c : Cause) : (setFailed c s).pageIx = s.pageIx := rfl
@[simp] theorem setFailed_strideIx (c : Cause) : (setFailed c s).strideIx = s.strideIx := rfl
@[simp] theorem setFailed_byteIx (c : Cause) : (setFailed c s).byteIx = s.byteIx := rfl
@[simp] theorem setFailed_pollN (c : Cause) : (setFailed c s).pollN = s.pollN := rfl
@[simp] theorem setFailed_sample (c : Cause) : (setFailed c s).sample = s.sample := rfl
@[simp] theorem setFailed_sourced (c : Cause) : (setFailed c s).sourced = s.sourced := rfl
@[simp] theorem setFailed_events (c : Cause) : (setFailed c s).events = s.events := rfl
@[simp] theorem setFailed_rdata (c : Cause) : (setFailed c s).rdata = s.rdata := rfl
@[simp] theorem setFailed_flash (c : Cause) : (setFailed c s).flash = s.flash := rfl
@[simp] theorem setFailed_moves (c : Cause) : (setFailed c s).moves = s.moves := rfl
@[simp] theorem setFailed_source (c : Cause) : (setFailed c s).source = s.source := rfl
@[simp] theorem setFailed_sink (c : Cause) : (setFailed c s).sink = s.sink := rfl
@[simp] theorem setFailed_draws (c : Cause) : (setFailed c s).draws = s.draws := rfl
@[simp] theorem setFailed_ramDraw (c : Cause) : (setFailed c s).ramDraw = s.ramDraw := rfl

/-! fail -/

@[simp] theorem fail_cmd (c : Cause) : (fail c s).cmd = s.cmd := rfl
@[simp] theorem fail_addr (c : Cause) : (fail c s).addr = s.addr := rfl
@[simp] theorem fail_len (c : Cause) : (fail c s).len = s.len := rfl
@[simp] theorem fail_busy (c : Cause) : (fail c s).busy = false := rfl
@[simp] theorem fail_done (c : Cause) : (fail c s).done = s.done := rfl
@[simp] theorem fail_err (c : Cause) : (fail c s).err = true := rfl
@[simp] theorem fail_cs (c : Cause) : (fail c s).cs = false := rfl
@[simp] theorem fail_cmdRej (c : Cause) : (fail c s).cmdRej = s.cmdRej := rfl
@[simp] theorem fail_cause (c : Cause) : (fail c s).cause = c := rfl
@[simp] theorem fail_phase (c : Cause) : (fail c s).phase = .idle := rfl
@[simp] theorem fail_doneIe (c : Cause) : (fail c s).doneIe = s.doneIe := rfl
@[simp] theorem fail_errIe (c : Cause) : (fail c s).errIe = s.errIe := rfl
@[simp] theorem fail_rejIe (c : Cause) : (fail c s).rejIe = s.rejIe := rfl
@[simp] theorem fail_idMfr (c : Cause) : (fail c s).idMfr = s.idMfr := rfl
@[simp] theorem fail_idType (c : Cause) : (fail c s).idType = s.idType := rfl
@[simp] theorem fail_idCap (c : Cause) : (fail c s).idCap = s.idCap := rfl
@[simp] theorem fail_sr1 (c : Cause) : (fail c s).sr1 = s.sr1 := rfl
@[simp] theorem fail_sr2 (c : Cause) : (fail c s).sr2 = s.sr2 := rfl
@[simp] theorem fail_rxdata (c : Cause) : (fail c s).rxdata = s.rxdata := rfl
@[simp] theorem fail_cursor (c : Cause) : (fail c s).cursor = s.cursor := rfl
@[simp] theorem fail_mmAddr (c : Cause) : (fail c s).mmAddr = s.mmAddr := rfl
@[simp] theorem fail_mmDev (c : Cause) : (fail c s).mmDev = s.mmDev := rfl
@[simp] theorem fail_mmExp (c : Cause) : (fail c s).mmExp = s.mmExp := rfl
@[simp] theorem fail_pct (c : Cause) : (fail c s).pct = s.pct := rfl
@[simp] theorem fail_pollLimit (c : Cause) : (fail c s).pollLimit = s.pollLimit := rfl
@[simp] theorem fail_pollCnt (c : Cause) : (fail c s).pollCnt = s.pollCnt := rfl
@[simp] theorem fail_wbuf (c : Cause) : (fail c s).wbuf = s.wbuf := rfl
@[simp] theorem fail_dbuf (c : Cause) : (fail c s).dbuf = s.dbuf := rfl
@[simp] theorem fail_lOp (c : Cause) : (fail c s).lOp = s.lOp := rfl
@[simp] theorem fail_lByte (c : Cause) : (fail c s).lByte = s.lByte := rfl
@[simp] theorem fail_lAddr (c : Cause) : (fail c s).lAddr = s.lAddr := rfl
@[simp] theorem fail_lLen (c : Cause) : (fail c s).lLen = s.lLen := rfl
@[simp] theorem fail_lLimit (c : Cause) : (fail c s).lLimit = s.lLimit := rfl
@[simp] theorem fail_pos (c : Cause) : (fail c s).pos = .idle := rfl
@[simp] theorem fail_chunkIx (c : Cause) : (fail c s).chunkIx = s.chunkIx := rfl
@[simp] theorem fail_pageIx (c : Cause) : (fail c s).pageIx = s.pageIx := rfl
@[simp] theorem fail_strideIx (c : Cause) : (fail c s).strideIx = s.strideIx := rfl
@[simp] theorem fail_byteIx (c : Cause) : (fail c s).byteIx = s.byteIx := rfl
@[simp] theorem fail_pollN (c : Cause) : (fail c s).pollN = s.pollN := rfl
@[simp] theorem fail_sample (c : Cause) : (fail c s).sample = s.sample := rfl
@[simp] theorem fail_sourced (c : Cause) : (fail c s).sourced = s.sourced := rfl
@[simp] theorem fail_events (c : Cause) : (fail c s).events = if s.cs then s.events ++ [.deselect true] else s.events := rfl
@[simp] theorem fail_rdata (c : Cause) : (fail c s).rdata = s.rdata := rfl
@[simp] theorem fail_flash (c : Cause) : (fail c s).flash = if s.cs then s.flash.released else s.flash := rfl
@[simp] theorem fail_moves (c : Cause) : (fail c s).moves = s.moves := rfl
@[simp] theorem fail_source (c : Cause) : (fail c s).source = s.source := rfl
@[simp] theorem fail_sink (c : Cause) : (fail c s).sink = s.sink := rfl
@[simp] theorem fail_draws (c : Cause) : (fail c s).draws = s.draws := rfl
@[simp] theorem fail_ramDraw (c : Cause) : (fail c s).ramDraw = s.ramDraw := rfl

/-! reject -/

@[simp] theorem reject_cmd (c : Cause) : (reject c s).cmd = s.cmd := rfl
@[simp] theorem reject_addr (c : Cause) : (reject c s).addr = s.addr := rfl
@[simp] theorem reject_len (c : Cause) : (reject c s).len = s.len := rfl
@[simp] theorem reject_busy (c : Cause) : (reject c s).busy = s.busy := rfl
@[simp] theorem reject_done (c : Cause) : (reject c s).done = s.done := rfl
@[simp] theorem reject_err (c : Cause) : (reject c s).err = true := rfl
@[simp] theorem reject_cs (c : Cause) : (reject c s).cs = s.cs := rfl
@[simp] theorem reject_cmdRej (c : Cause) : (reject c s).cmdRej = s.cmdRej := rfl
@[simp] theorem reject_cause (c : Cause) : (reject c s).cause = c := rfl
@[simp] theorem reject_phase (c : Cause) : (reject c s).phase = s.phase := rfl
@[simp] theorem reject_doneIe (c : Cause) : (reject c s).doneIe = s.doneIe := rfl
@[simp] theorem reject_errIe (c : Cause) : (reject c s).errIe = s.errIe := rfl
@[simp] theorem reject_rejIe (c : Cause) : (reject c s).rejIe = s.rejIe := rfl
@[simp] theorem reject_idMfr (c : Cause) : (reject c s).idMfr = s.idMfr := rfl
@[simp] theorem reject_idType (c : Cause) : (reject c s).idType = s.idType := rfl
@[simp] theorem reject_idCap (c : Cause) : (reject c s).idCap = s.idCap := rfl
@[simp] theorem reject_sr1 (c : Cause) : (reject c s).sr1 = s.sr1 := rfl
@[simp] theorem reject_sr2 (c : Cause) : (reject c s).sr2 = s.sr2 := rfl
@[simp] theorem reject_rxdata (c : Cause) : (reject c s).rxdata = s.rxdata := rfl
@[simp] theorem reject_cursor (c : Cause) : (reject c s).cursor = s.cursor := rfl
@[simp] theorem reject_mmAddr (c : Cause) : (reject c s).mmAddr = s.mmAddr := rfl
@[simp] theorem reject_mmDev (c : Cause) : (reject c s).mmDev = s.mmDev := rfl
@[simp] theorem reject_mmExp (c : Cause) : (reject c s).mmExp = s.mmExp := rfl
@[simp] theorem reject_pct (c : Cause) : (reject c s).pct = s.pct := rfl
@[simp] theorem reject_pollLimit (c : Cause) : (reject c s).pollLimit = s.pollLimit := rfl
@[simp] theorem reject_pollCnt (c : Cause) : (reject c s).pollCnt = s.pollCnt := rfl
@[simp] theorem reject_wbuf (c : Cause) : (reject c s).wbuf = s.wbuf := rfl
@[simp] theorem reject_dbuf (c : Cause) : (reject c s).dbuf = s.dbuf := rfl
@[simp] theorem reject_lOp (c : Cause) : (reject c s).lOp = s.lOp := rfl
@[simp] theorem reject_lByte (c : Cause) : (reject c s).lByte = s.lByte := rfl
@[simp] theorem reject_lAddr (c : Cause) : (reject c s).lAddr = s.lAddr := rfl
@[simp] theorem reject_lLen (c : Cause) : (reject c s).lLen = s.lLen := rfl
@[simp] theorem reject_lLimit (c : Cause) : (reject c s).lLimit = s.lLimit := rfl
@[simp] theorem reject_pos (c : Cause) : (reject c s).pos = s.pos := rfl
@[simp] theorem reject_chunkIx (c : Cause) : (reject c s).chunkIx = s.chunkIx := rfl
@[simp] theorem reject_pageIx (c : Cause) : (reject c s).pageIx = s.pageIx := rfl
@[simp] theorem reject_strideIx (c : Cause) : (reject c s).strideIx = s.strideIx := rfl
@[simp] theorem reject_byteIx (c : Cause) : (reject c s).byteIx = s.byteIx := rfl
@[simp] theorem reject_pollN (c : Cause) : (reject c s).pollN = s.pollN := rfl
@[simp] theorem reject_sample (c : Cause) : (reject c s).sample = s.sample := rfl
@[simp] theorem reject_sourced (c : Cause) : (reject c s).sourced = s.sourced := rfl
@[simp] theorem reject_events (c : Cause) : (reject c s).events = s.events := rfl
@[simp] theorem reject_rdata (c : Cause) : (reject c s).rdata = s.rdata := rfl
@[simp] theorem reject_flash (c : Cause) : (reject c s).flash = s.flash := rfl
@[simp] theorem reject_moves (c : Cause) : (reject c s).moves = s.moves := rfl
@[simp] theorem reject_source (c : Cause) : (reject c s).source = s.source := rfl
@[simp] theorem reject_sink (c : Cause) : (reject c s).sink = s.sink := rfl
@[simp] theorem reject_draws (c : Cause) : (reject c s).draws = s.draws := rfl
@[simp] theorem reject_ramDraw (c : Cause) : (reject c s).ramDraw = s.ramDraw := rfl

/-! recordCommand -/

@[simp] theorem recordCommand_cmd (w : Word) : (recordCommand w s).cmd = w := rfl
@[simp] theorem recordCommand_addr (w : Word) : (recordCommand w s).addr = s.addr := rfl
@[simp] theorem recordCommand_len (w : Word) : (recordCommand w s).len = s.len := rfl
@[simp] theorem recordCommand_busy (w : Word) : (recordCommand w s).busy = s.busy := rfl
@[simp] theorem recordCommand_done (w : Word) : (recordCommand w s).done = false := rfl
@[simp] theorem recordCommand_err (w : Word) : (recordCommand w s).err = false := rfl
@[simp] theorem recordCommand_cs (w : Word) : (recordCommand w s).cs = s.cs := rfl
@[simp] theorem recordCommand_cmdRej (w : Word) : (recordCommand w s).cmdRej = s.cmdRej := rfl
@[simp] theorem recordCommand_cause (w : Word) : (recordCommand w s).cause = .none := rfl
@[simp] theorem recordCommand_phase (w : Word) : (recordCommand w s).phase = s.phase := rfl
@[simp] theorem recordCommand_doneIe (w : Word) : (recordCommand w s).doneIe = s.doneIe := rfl
@[simp] theorem recordCommand_errIe (w : Word) : (recordCommand w s).errIe = s.errIe := rfl
@[simp] theorem recordCommand_rejIe (w : Word) : (recordCommand w s).rejIe = s.rejIe := rfl
@[simp] theorem recordCommand_idMfr (w : Word) : (recordCommand w s).idMfr = s.idMfr := rfl
@[simp] theorem recordCommand_idType (w : Word) : (recordCommand w s).idType = s.idType := rfl
@[simp] theorem recordCommand_idCap (w : Word) : (recordCommand w s).idCap = s.idCap := rfl
@[simp] theorem recordCommand_sr1 (w : Word) : (recordCommand w s).sr1 = s.sr1 := rfl
@[simp] theorem recordCommand_sr2 (w : Word) : (recordCommand w s).sr2 = s.sr2 := rfl
@[simp] theorem recordCommand_rxdata (w : Word) : (recordCommand w s).rxdata = s.rxdata := rfl
@[simp] theorem recordCommand_cursor (w : Word) : (recordCommand w s).cursor = s.cursor := rfl
@[simp] theorem recordCommand_mmAddr (w : Word) : (recordCommand w s).mmAddr = s.mmAddr := rfl
@[simp] theorem recordCommand_mmDev (w : Word) : (recordCommand w s).mmDev = s.mmDev := rfl
@[simp] theorem recordCommand_mmExp (w : Word) : (recordCommand w s).mmExp = s.mmExp := rfl
@[simp] theorem recordCommand_pct (w : Word) : (recordCommand w s).pct = s.pct := rfl
@[simp] theorem recordCommand_pollLimit (w : Word) : (recordCommand w s).pollLimit = s.pollLimit := rfl
@[simp] theorem recordCommand_pollCnt (w : Word) : (recordCommand w s).pollCnt = s.pollCnt := rfl
@[simp] theorem recordCommand_wbuf (w : Word) : (recordCommand w s).wbuf = s.wbuf := rfl
@[simp] theorem recordCommand_dbuf (w : Word) : (recordCommand w s).dbuf = s.dbuf := rfl
@[simp] theorem recordCommand_lOp (w : Word) : (recordCommand w s).lOp = s.lOp := rfl
@[simp] theorem recordCommand_lByte (w : Word) : (recordCommand w s).lByte = s.lByte := rfl
@[simp] theorem recordCommand_lAddr (w : Word) : (recordCommand w s).lAddr = s.lAddr := rfl
@[simp] theorem recordCommand_lLen (w : Word) : (recordCommand w s).lLen = s.lLen := rfl
@[simp] theorem recordCommand_lLimit (w : Word) : (recordCommand w s).lLimit = s.lLimit := rfl
@[simp] theorem recordCommand_pos (w : Word) : (recordCommand w s).pos = s.pos := rfl
@[simp] theorem recordCommand_chunkIx (w : Word) : (recordCommand w s).chunkIx = s.chunkIx := rfl
@[simp] theorem recordCommand_pageIx (w : Word) : (recordCommand w s).pageIx = s.pageIx := rfl
@[simp] theorem recordCommand_strideIx (w : Word) : (recordCommand w s).strideIx = s.strideIx := rfl
@[simp] theorem recordCommand_byteIx (w : Word) : (recordCommand w s).byteIx = s.byteIx := rfl
@[simp] theorem recordCommand_pollN (w : Word) : (recordCommand w s).pollN = s.pollN := rfl
@[simp] theorem recordCommand_sample (w : Word) : (recordCommand w s).sample = s.sample := rfl
@[simp] theorem recordCommand_sourced (w : Word) : (recordCommand w s).sourced = s.sourced := rfl
@[simp] theorem recordCommand_events (w : Word) : (recordCommand w s).events = s.events := rfl
@[simp] theorem recordCommand_rdata (w : Word) : (recordCommand w s).rdata = s.rdata := rfl
@[simp] theorem recordCommand_flash (w : Word) : (recordCommand w s).flash = s.flash := rfl
@[simp] theorem recordCommand_moves (w : Word) : (recordCommand w s).moves = s.moves := rfl
@[simp] theorem recordCommand_source (w : Word) : (recordCommand w s).source = s.source := rfl
@[simp] theorem recordCommand_sink (w : Word) : (recordCommand w s).sink = s.sink := rfl
@[simp] theorem recordCommand_draws (w : Word) : (recordCommand w s).draws = s.draws := rfl
@[simp] theorem recordCommand_ramDraw (w : Word) : (recordCommand w s).ramDraw = s.ramDraw := rfl

/-! accept -/

@[simp] theorem accept_cmd (i : Instr) (p : Pos) : (accept i p s).cmd = s.cmd := rfl
@[simp] theorem accept_addr (i : Instr) (p : Pos) : (accept i p s).addr = s.addr := rfl
@[simp] theorem accept_len (i : Instr) (p : Pos) : (accept i p s).len = s.len := rfl
@[simp] theorem accept_busy (i : Instr) (p : Pos) : (accept i p s).busy = true := rfl
@[simp] theorem accept_done (i : Instr) (p : Pos) : (accept i p s).done = s.done := rfl
@[simp] theorem accept_err (i : Instr) (p : Pos) : (accept i p s).err = s.err := rfl
@[simp] theorem accept_cs (i : Instr) (p : Pos) : (accept i p s).cs = s.cs := rfl
@[simp] theorem accept_cmdRej (i : Instr) (p : Pos) : (accept i p s).cmdRej = s.cmdRej := rfl
@[simp] theorem accept_cause (i : Instr) (p : Pos) : (accept i p s).cause = s.cause := rfl
@[simp] theorem accept_phase (i : Instr) (p : Pos) : (accept i p s).phase = .start := rfl
@[simp] theorem accept_doneIe (i : Instr) (p : Pos) : (accept i p s).doneIe = s.doneIe := rfl
@[simp] theorem accept_errIe (i : Instr) (p : Pos) : (accept i p s).errIe = s.errIe := rfl
@[simp] theorem accept_rejIe (i : Instr) (p : Pos) : (accept i p s).rejIe = s.rejIe := rfl
@[simp] theorem accept_idMfr (i : Instr) (p : Pos) : (accept i p s).idMfr = s.idMfr := rfl
@[simp] theorem accept_idType (i : Instr) (p : Pos) : (accept i p s).idType = s.idType := rfl
@[simp] theorem accept_idCap (i : Instr) (p : Pos) : (accept i p s).idCap = s.idCap := rfl
@[simp] theorem accept_sr1 (i : Instr) (p : Pos) : (accept i p s).sr1 = s.sr1 := rfl
@[simp] theorem accept_sr2 (i : Instr) (p : Pos) : (accept i p s).sr2 = s.sr2 := rfl
@[simp] theorem accept_rxdata (i : Instr) (p : Pos) : (accept i p s).rxdata = s.rxdata := rfl
@[simp] theorem accept_cursor (i : Instr) (p : Pos) : (accept i p s).cursor = s.cursor := rfl
@[simp] theorem accept_mmAddr (i : Instr) (p : Pos) : (accept i p s).mmAddr = s.mmAddr := rfl
@[simp] theorem accept_mmDev (i : Instr) (p : Pos) : (accept i p s).mmDev = s.mmDev := rfl
@[simp] theorem accept_mmExp (i : Instr) (p : Pos) : (accept i p s).mmExp = s.mmExp := rfl
@[simp] theorem accept_pct (i : Instr) (p : Pos) : (accept i p s).pct = s.pct := rfl
@[simp] theorem accept_pollLimit (i : Instr) (p : Pos) : (accept i p s).pollLimit = s.pollLimit := rfl
@[simp] theorem accept_pollCnt (i : Instr) (p : Pos) : (accept i p s).pollCnt = s.pollCnt := rfl
@[simp] theorem accept_wbuf (i : Instr) (p : Pos) : (accept i p s).wbuf = s.wbuf := rfl
@[simp] theorem accept_dbuf (i : Instr) (p : Pos) : (accept i p s).dbuf = s.dbuf := rfl
@[simp] theorem accept_lOp (i : Instr) (p : Pos) : (accept i p s).lOp = (encodeFields i).op := rfl
@[simp] theorem accept_lByte (i : Instr) (p : Pos) : (accept i p s).lByte = (encodeFields i).byte := rfl
@[simp] theorem accept_lAddr (i : Instr) (p : Pos) : (accept i p s).lAddr = s.addr := rfl
@[simp] theorem accept_lLen (i : Instr) (p : Pos) : (accept i p s).lLen = s.len := rfl
@[simp] theorem accept_lLimit (i : Instr) (p : Pos) : (accept i p s).lLimit = s.pollLimit := rfl
@[simp] theorem accept_pos (i : Instr) (p : Pos) : (accept i p s).pos = p := rfl
@[simp] theorem accept_chunkIx (i : Instr) (p : Pos) : (accept i p s).chunkIx = s.chunkIx := rfl
@[simp] theorem accept_pageIx (i : Instr) (p : Pos) : (accept i p s).pageIx = s.pageIx := rfl
@[simp] theorem accept_strideIx (i : Instr) (p : Pos) : (accept i p s).strideIx = s.strideIx := rfl
@[simp] theorem accept_byteIx (i : Instr) (p : Pos) : (accept i p s).byteIx = s.byteIx := rfl
@[simp] theorem accept_pollN (i : Instr) (p : Pos) : (accept i p s).pollN = s.pollN := rfl
@[simp] theorem accept_sample (i : Instr) (p : Pos) : (accept i p s).sample = s.sample := rfl
@[simp] theorem accept_sourced (i : Instr) (p : Pos) : (accept i p s).sourced = s.sourced := rfl
@[simp] theorem accept_events (i : Instr) (p : Pos) : (accept i p s).events = s.events := rfl
@[simp] theorem accept_rdata (i : Instr) (p : Pos) : (accept i p s).rdata = s.rdata := rfl
@[simp] theorem accept_flash (i : Instr) (p : Pos) : (accept i p s).flash = s.flash := rfl
@[simp] theorem accept_moves (i : Instr) (p : Pos) : (accept i p s).moves = s.moves := rfl
@[simp] theorem accept_source (i : Instr) (p : Pos) : (accept i p s).source = s.source := rfl
@[simp] theorem accept_sink (i : Instr) (p : Pos) : (accept i p s).sink = s.sink := rfl
@[simp] theorem accept_draws (i : Instr) (p : Pos) : (accept i p s).draws = s.draws := rfl
@[simp] theorem accept_ramDraw (i : Instr) (p : Pos) : (accept i p s).ramDraw = s.ramDraw := rfl

/-! dropCommand -/

@[simp] theorem dropCommand_cmd : (dropCommand s).cmd = s.cmd := rfl
@[simp] theorem dropCommand_addr : (dropCommand s).addr = s.addr := rfl
@[simp] theorem dropCommand_len : (dropCommand s).len = s.len := rfl
@[simp] theorem dropCommand_busy : (dropCommand s).busy = s.busy := rfl
@[simp] theorem dropCommand_done : (dropCommand s).done = s.done := rfl
@[simp] theorem dropCommand_err : (dropCommand s).err = s.err := rfl
@[simp] theorem dropCommand_cs : (dropCommand s).cs = s.cs := rfl
@[simp] theorem dropCommand_cmdRej : (dropCommand s).cmdRej = true := rfl
@[simp] theorem dropCommand_cause : (dropCommand s).cause = s.cause := rfl
@[simp] theorem dropCommand_phase : (dropCommand s).phase = s.phase := rfl
@[simp] theorem dropCommand_doneIe : (dropCommand s).doneIe = s.doneIe := rfl
@[simp] theorem dropCommand_errIe : (dropCommand s).errIe = s.errIe := rfl
@[simp] theorem dropCommand_rejIe : (dropCommand s).rejIe = s.rejIe := rfl
@[simp] theorem dropCommand_idMfr : (dropCommand s).idMfr = s.idMfr := rfl
@[simp] theorem dropCommand_idType : (dropCommand s).idType = s.idType := rfl
@[simp] theorem dropCommand_idCap : (dropCommand s).idCap = s.idCap := rfl
@[simp] theorem dropCommand_sr1 : (dropCommand s).sr1 = s.sr1 := rfl
@[simp] theorem dropCommand_sr2 : (dropCommand s).sr2 = s.sr2 := rfl
@[simp] theorem dropCommand_rxdata : (dropCommand s).rxdata = s.rxdata := rfl
@[simp] theorem dropCommand_cursor : (dropCommand s).cursor = s.cursor := rfl
@[simp] theorem dropCommand_mmAddr : (dropCommand s).mmAddr = s.mmAddr := rfl
@[simp] theorem dropCommand_mmDev : (dropCommand s).mmDev = s.mmDev := rfl
@[simp] theorem dropCommand_mmExp : (dropCommand s).mmExp = s.mmExp := rfl
@[simp] theorem dropCommand_pct : (dropCommand s).pct = s.pct := rfl
@[simp] theorem dropCommand_pollLimit : (dropCommand s).pollLimit = s.pollLimit := rfl
@[simp] theorem dropCommand_pollCnt : (dropCommand s).pollCnt = s.pollCnt := rfl
@[simp] theorem dropCommand_wbuf : (dropCommand s).wbuf = s.wbuf := rfl
@[simp] theorem dropCommand_dbuf : (dropCommand s).dbuf = s.dbuf := rfl
@[simp] theorem dropCommand_lOp : (dropCommand s).lOp = s.lOp := rfl
@[simp] theorem dropCommand_lByte : (dropCommand s).lByte = s.lByte := rfl
@[simp] theorem dropCommand_lAddr : (dropCommand s).lAddr = s.lAddr := rfl
@[simp] theorem dropCommand_lLen : (dropCommand s).lLen = s.lLen := rfl
@[simp] theorem dropCommand_lLimit : (dropCommand s).lLimit = s.lLimit := rfl
@[simp] theorem dropCommand_pos : (dropCommand s).pos = s.pos := rfl
@[simp] theorem dropCommand_chunkIx : (dropCommand s).chunkIx = s.chunkIx := rfl
@[simp] theorem dropCommand_pageIx : (dropCommand s).pageIx = s.pageIx := rfl
@[simp] theorem dropCommand_strideIx : (dropCommand s).strideIx = s.strideIx := rfl
@[simp] theorem dropCommand_byteIx : (dropCommand s).byteIx = s.byteIx := rfl
@[simp] theorem dropCommand_pollN : (dropCommand s).pollN = s.pollN := rfl
@[simp] theorem dropCommand_sample : (dropCommand s).sample = s.sample := rfl
@[simp] theorem dropCommand_sourced : (dropCommand s).sourced = s.sourced := rfl
@[simp] theorem dropCommand_events : (dropCommand s).events = s.events := rfl
@[simp] theorem dropCommand_rdata : (dropCommand s).rdata = s.rdata := rfl
@[simp] theorem dropCommand_flash : (dropCommand s).flash = s.flash := rfl
@[simp] theorem dropCommand_moves : (dropCommand s).moves = s.moves := rfl
@[simp] theorem dropCommand_source : (dropCommand s).source = s.source := rfl
@[simp] theorem dropCommand_sink : (dropCommand s).sink = s.sink := rfl
@[simp] theorem dropCommand_draws : (dropCommand s).draws = s.draws := rfl
@[simp] theorem dropCommand_ramDraw : (dropCommand s).ramDraw = s.ramDraw := rfl

/-! bulkInit -/

@[simp] theorem bulkInit_cmd : (bulkInit s).cmd = s.cmd := rfl
@[simp] theorem bulkInit_addr : (bulkInit s).addr = s.addr := rfl
@[simp] theorem bulkInit_len : (bulkInit s).len = s.len := rfl
@[simp] theorem bulkInit_busy : (bulkInit s).busy = s.busy := rfl
@[simp] theorem bulkInit_done : (bulkInit s).done = s.done := rfl
@[simp] theorem bulkInit_err : (bulkInit s).err = s.err := rfl
@[simp] theorem bulkInit_cs : (bulkInit s).cs = s.cs := rfl
@[simp] theorem bulkInit_cmdRej : (bulkInit s).cmdRej = s.cmdRej := rfl
@[simp] theorem bulkInit_cause : (bulkInit s).cause = s.cause := rfl
@[simp] theorem bulkInit_phase : (bulkInit s).phase = s.phase := rfl
@[simp] theorem bulkInit_doneIe : (bulkInit s).doneIe = s.doneIe := rfl
@[simp] theorem bulkInit_errIe : (bulkInit s).errIe = s.errIe := rfl
@[simp] theorem bulkInit_rejIe : (bulkInit s).rejIe = s.rejIe := rfl
@[simp] theorem bulkInit_idMfr : (bulkInit s).idMfr = s.idMfr := rfl
@[simp] theorem bulkInit_idType : (bulkInit s).idType = s.idType := rfl
@[simp] theorem bulkInit_idCap : (bulkInit s).idCap = s.idCap := rfl
@[simp] theorem bulkInit_sr1 : (bulkInit s).sr1 = s.sr1 := rfl
@[simp] theorem bulkInit_sr2 : (bulkInit s).sr2 = s.sr2 := rfl
@[simp] theorem bulkInit_rxdata : (bulkInit s).rxdata = s.rxdata := rfl
@[simp] theorem bulkInit_cursor : (bulkInit s).cursor = 0 := rfl
@[simp] theorem bulkInit_mmAddr : (bulkInit s).mmAddr = s.mmAddr := rfl
@[simp] theorem bulkInit_mmDev : (bulkInit s).mmDev = s.mmDev := rfl
@[simp] theorem bulkInit_mmExp : (bulkInit s).mmExp = s.mmExp := rfl
@[simp] theorem bulkInit_pct : (bulkInit s).pct = 0 := rfl
@[simp] theorem bulkInit_pollLimit : (bulkInit s).pollLimit = s.pollLimit := rfl
@[simp] theorem bulkInit_pollCnt : (bulkInit s).pollCnt = s.pollCnt := rfl
@[simp] theorem bulkInit_wbuf : (bulkInit s).wbuf = s.wbuf := rfl
@[simp] theorem bulkInit_dbuf : (bulkInit s).dbuf = s.dbuf := rfl
@[simp] theorem bulkInit_lOp : (bulkInit s).lOp = s.lOp := rfl
@[simp] theorem bulkInit_lByte : (bulkInit s).lByte = s.lByte := rfl
@[simp] theorem bulkInit_lAddr : (bulkInit s).lAddr = s.lAddr := rfl
@[simp] theorem bulkInit_lLen : (bulkInit s).lLen = s.lLen := rfl
@[simp] theorem bulkInit_lLimit : (bulkInit s).lLimit = s.lLimit := rfl
@[simp] theorem bulkInit_pos : (bulkInit s).pos = s.pos := rfl
@[simp] theorem bulkInit_chunkIx : (bulkInit s).chunkIx = 0 := rfl
@[simp] theorem bulkInit_pageIx : (bulkInit s).pageIx = 0 := rfl
@[simp] theorem bulkInit_strideIx : (bulkInit s).strideIx = 0 := rfl
@[simp] theorem bulkInit_byteIx : (bulkInit s).byteIx = 0 := rfl
@[simp] theorem bulkInit_pollN : (bulkInit s).pollN = s.pollN := rfl
@[simp] theorem bulkInit_sample : (bulkInit s).sample = s.sample := rfl
@[simp] theorem bulkInit_sourced : (bulkInit s).sourced = s.sourced := rfl
@[simp] theorem bulkInit_events : (bulkInit s).events = s.events := rfl
@[simp] theorem bulkInit_rdata : (bulkInit s).rdata = s.rdata := rfl
@[simp] theorem bulkInit_flash : (bulkInit s).flash = s.flash := rfl
@[simp] theorem bulkInit_moves : (bulkInit s).moves = s.moves := rfl
@[simp] theorem bulkInit_source : (bulkInit s).source = s.source := rfl
@[simp] theorem bulkInit_sink : (bulkInit s).sink = s.sink := rfl
@[simp] theorem bulkInit_draws : (bulkInit s).draws = s.draws := rfl
@[simp] theorem bulkInit_ramDraw : (bulkInit s).ramDraw = s.ramDraw := rfl

/-! verifyInit -/

@[simp] theorem verifyInit_cmd : (verifyInit s).cmd = s.cmd := rfl
@[simp] theorem verifyInit_addr : (verifyInit s).addr = s.addr := rfl
@[simp] theorem verifyInit_len : (verifyInit s).len = s.len := rfl
@[simp] theorem verifyInit_busy : (verifyInit s).busy = s.busy := rfl
@[simp] theorem verifyInit_done : (verifyInit s).done = s.done := rfl
@[simp] theorem verifyInit_err : (verifyInit s).err = s.err := rfl
@[simp] theorem verifyInit_cs : (verifyInit s).cs = s.cs := rfl
@[simp] theorem verifyInit_cmdRej : (verifyInit s).cmdRej = s.cmdRej := rfl
@[simp] theorem verifyInit_cause : (verifyInit s).cause = s.cause := rfl
@[simp] theorem verifyInit_phase : (verifyInit s).phase = s.phase := rfl
@[simp] theorem verifyInit_doneIe : (verifyInit s).doneIe = s.doneIe := rfl
@[simp] theorem verifyInit_errIe : (verifyInit s).errIe = s.errIe := rfl
@[simp] theorem verifyInit_rejIe : (verifyInit s).rejIe = s.rejIe := rfl
@[simp] theorem verifyInit_idMfr : (verifyInit s).idMfr = s.idMfr := rfl
@[simp] theorem verifyInit_idType : (verifyInit s).idType = s.idType := rfl
@[simp] theorem verifyInit_idCap : (verifyInit s).idCap = s.idCap := rfl
@[simp] theorem verifyInit_sr1 : (verifyInit s).sr1 = s.sr1 := rfl
@[simp] theorem verifyInit_sr2 : (verifyInit s).sr2 = s.sr2 := rfl
@[simp] theorem verifyInit_rxdata : (verifyInit s).rxdata = s.rxdata := rfl
@[simp] theorem verifyInit_cursor : (verifyInit s).cursor = 0 := rfl
@[simp] theorem verifyInit_mmAddr : (verifyInit s).mmAddr = 0 := rfl
@[simp] theorem verifyInit_mmDev : (verifyInit s).mmDev = 0 := rfl
@[simp] theorem verifyInit_mmExp : (verifyInit s).mmExp = 0 := rfl
@[simp] theorem verifyInit_pct : (verifyInit s).pct = 0 := rfl
@[simp] theorem verifyInit_pollLimit : (verifyInit s).pollLimit = s.pollLimit := rfl
@[simp] theorem verifyInit_pollCnt : (verifyInit s).pollCnt = s.pollCnt := rfl
@[simp] theorem verifyInit_wbuf : (verifyInit s).wbuf = s.wbuf := rfl
@[simp] theorem verifyInit_dbuf : (verifyInit s).dbuf = s.dbuf := rfl
@[simp] theorem verifyInit_lOp : (verifyInit s).lOp = s.lOp := rfl
@[simp] theorem verifyInit_lByte : (verifyInit s).lByte = s.lByte := rfl
@[simp] theorem verifyInit_lAddr : (verifyInit s).lAddr = s.lAddr := rfl
@[simp] theorem verifyInit_lLen : (verifyInit s).lLen = s.lLen := rfl
@[simp] theorem verifyInit_lLimit : (verifyInit s).lLimit = s.lLimit := rfl
@[simp] theorem verifyInit_pos : (verifyInit s).pos = s.pos := rfl
@[simp] theorem verifyInit_chunkIx : (verifyInit s).chunkIx = 0 := rfl
@[simp] theorem verifyInit_pageIx : (verifyInit s).pageIx = 0 := rfl
@[simp] theorem verifyInit_strideIx : (verifyInit s).strideIx = 0 := rfl
@[simp] theorem verifyInit_byteIx : (verifyInit s).byteIx = 0 := rfl
@[simp] theorem verifyInit_pollN : (verifyInit s).pollN = s.pollN := rfl
@[simp] theorem verifyInit_sample : (verifyInit s).sample = s.sample := rfl
@[simp] theorem verifyInit_sourced : (verifyInit s).sourced = s.sourced := rfl
@[simp] theorem verifyInit_events : (verifyInit s).events = s.events := rfl
@[simp] theorem verifyInit_rdata : (verifyInit s).rdata = s.rdata := rfl
@[simp] theorem verifyInit_flash : (verifyInit s).flash = s.flash := rfl
@[simp] theorem verifyInit_moves : (verifyInit s).moves = s.moves := rfl
@[simp] theorem verifyInit_source : (verifyInit s).source = s.source := rfl
@[simp] theorem verifyInit_sink : (verifyInit s).sink = s.sink := rfl
@[simp] theorem verifyInit_draws : (verifyInit s).draws = s.draws := rfl
@[simp] theorem verifyInit_ramDraw : (verifyInit s).ramDraw = s.ramDraw := rfl

/-! sourceRead -/

@[simp] theorem sourceRead_cmd (n : Nat) (ok : Bool) (d : List Byte) : (sourceRead n ok d s).cmd = s.cmd := rfl
@[simp] theorem sourceRead_addr (n : Nat) (ok : Bool) (d : List Byte) : (sourceRead n ok d s).addr = s.addr := rfl
@[simp] theorem sourceRead_len (n : Nat) (ok : Bool) (d : List Byte) : (sourceRead n ok d s).len = s.len := rfl
@[simp] theorem sourceRead_busy (n : Nat) (ok : Bool) (d : List Byte) : (sourceRead n ok d s).busy = s.busy := rfl
@[simp] theorem sourceRead_done (n : Nat) (ok : Bool) (d : List Byte) : (sourceRead n ok d s).done = s.done := rfl
@[simp] theorem sourceRead_err (n : Nat) (ok : Bool) (d : List Byte) : (sourceRead n ok d s).err = s.err := rfl
@[simp] theorem sourceRead_cs (n : Nat) (ok : Bool) (d : List Byte) : (sourceRead n ok d s).cs = s.cs := rfl
@[simp] theorem sourceRead_cmdRej (n : Nat) (ok : Bool) (d : List Byte) : (sourceRead n ok d s).cmdRej = s.cmdRej := rfl
@[simp] theorem sourceRead_cause (n : Nat) (ok : Bool) (d : List Byte) : (sourceRead n ok d s).cause = s.cause := rfl
@[simp] theorem sourceRead_phase (n : Nat) (ok : Bool) (d : List Byte) : (sourceRead n ok d s).phase = s.phase := rfl
@[simp] theorem sourceRead_doneIe (n : Nat) (ok : Bool) (d : List Byte) : (sourceRead n ok d s).doneIe = s.doneIe := rfl
@[simp] theorem sourceRead_errIe (n : Nat) (ok : Bool) (d : List Byte) : (sourceRead n ok d s).errIe = s.errIe := rfl
@[simp] theorem sourceRead_rejIe (n : Nat) (ok : Bool) (d : List Byte) : (sourceRead n ok d s).rejIe = s.rejIe := rfl
@[simp] theorem sourceRead_idMfr (n : Nat) (ok : Bool) (d : List Byte) : (sourceRead n ok d s).idMfr = s.idMfr := rfl
@[simp] theorem sourceRead_idType (n : Nat) (ok : Bool) (d : List Byte) : (sourceRead n ok d s).idType = s.idType := rfl
@[simp] theorem sourceRead_idCap (n : Nat) (ok : Bool) (d : List Byte) : (sourceRead n ok d s).idCap = s.idCap := rfl
@[simp] theorem sourceRead_sr1 (n : Nat) (ok : Bool) (d : List Byte) : (sourceRead n ok d s).sr1 = s.sr1 := rfl
@[simp] theorem sourceRead_sr2 (n : Nat) (ok : Bool) (d : List Byte) : (sourceRead n ok d s).sr2 = s.sr2 := rfl
@[simp] theorem sourceRead_rxdata (n : Nat) (ok : Bool) (d : List Byte) : (sourceRead n ok d s).rxdata = s.rxdata := rfl
@[simp] theorem sourceRead_cursor (n : Nat) (ok : Bool) (d : List Byte) : (sourceRead n ok d s).cursor = s.cursor := rfl
@[simp] theorem sourceRead_mmAddr (n : Nat) (ok : Bool) (d : List Byte) : (sourceRead n ok d s).mmAddr = s.mmAddr := rfl
@[simp] theorem sourceRead_mmDev (n : Nat) (ok : Bool) (d : List Byte) : (sourceRead n ok d s).mmDev = s.mmDev := rfl
@[simp] theorem sourceRead_mmExp (n : Nat) (ok : Bool) (d : List Byte) : (sourceRead n ok d s).mmExp = s.mmExp := rfl
@[simp] theorem sourceRead_pct (n : Nat) (ok : Bool) (d : List Byte) : (sourceRead n ok d s).pct = s.pct := rfl
@[simp] theorem sourceRead_pollLimit (n : Nat) (ok : Bool) (d : List Byte) : (sourceRead n ok d s).pollLimit = s.pollLimit := rfl
@[simp] theorem sourceRead_pollCnt (n : Nat) (ok : Bool) (d : List Byte) : (sourceRead n ok d s).pollCnt = s.pollCnt := rfl
@[simp] theorem sourceRead_wbuf (n : Nat) (ok : Bool) (d : List Byte) : (sourceRead n ok d s).wbuf = s.wbuf := rfl
@[simp] theorem sourceRead_dbuf (n : Nat) (ok : Bool) (d : List Byte) : (sourceRead n ok d s).dbuf = s.dbuf := rfl
@[simp] theorem sourceRead_lOp (n : Nat) (ok : Bool) (d : List Byte) : (sourceRead n ok d s).lOp = s.lOp := rfl
@[simp] theorem sourceRead_lByte (n : Nat) (ok : Bool) (d : List Byte) : (sourceRead n ok d s).lByte = s.lByte := rfl
@[simp] theorem sourceRead_lAddr (n : Nat) (ok : Bool) (d : List Byte) : (sourceRead n ok d s).lAddr = s.lAddr := rfl
@[simp] theorem sourceRead_lLen (n : Nat) (ok : Bool) (d : List Byte) : (sourceRead n ok d s).lLen = s.lLen := rfl
@[simp] theorem sourceRead_lLimit (n : Nat) (ok : Bool) (d : List Byte) : (sourceRead n ok d s).lLimit = s.lLimit := rfl
@[simp] theorem sourceRead_pos (n : Nat) (ok : Bool) (d : List Byte) : (sourceRead n ok d s).pos = s.pos := rfl
@[simp] theorem sourceRead_chunkIx (n : Nat) (ok : Bool) (d : List Byte) : (sourceRead n ok d s).chunkIx = s.chunkIx := rfl
@[simp] theorem sourceRead_pageIx (n : Nat) (ok : Bool) (d : List Byte) : (sourceRead n ok d s).pageIx = s.pageIx := rfl
@[simp] theorem sourceRead_strideIx (n : Nat) (ok : Bool) (d : List Byte) : (sourceRead n ok d s).strideIx = s.strideIx := rfl
@[simp] theorem sourceRead_byteIx (n : Nat) (ok : Bool) (d : List Byte) : (sourceRead n ok d s).byteIx = s.byteIx := rfl
@[simp] theorem sourceRead_pollN (n : Nat) (ok : Bool) (d : List Byte) : (sourceRead n ok d s).pollN = s.pollN := rfl
@[simp] theorem sourceRead_sample (n : Nat) (ok : Bool) (d : List Byte) : (sourceRead n ok d s).sample = s.sample := rfl
@[simp] theorem sourceRead_sourced (n : Nat) (ok : Bool) (d : List Byte) : (sourceRead n ok d s).sourced = s.sourced := rfl
@[simp] theorem sourceRead_events (n : Nat) (ok : Bool) (d : List Byte) : (sourceRead n ok d s).events = s.events ++ [.sourceRead n ok d] := rfl
@[simp] theorem sourceRead_rdata (n : Nat) (ok : Bool) (d : List Byte) : (sourceRead n ok d s).rdata = s.rdata := rfl
@[simp] theorem sourceRead_flash (n : Nat) (ok : Bool) (d : List Byte) : (sourceRead n ok d s).flash = s.flash := rfl
@[simp] theorem sourceRead_moves (n : Nat) (ok : Bool) (d : List Byte) : (sourceRead n ok d s).moves = s.moves := rfl
@[simp] theorem sourceRead_source (n : Nat) (ok : Bool) (d : List Byte) : (sourceRead n ok d s).source = sourceRest s.source n := rfl
@[simp] theorem sourceRead_sink (n : Nat) (ok : Bool) (d : List Byte) : (sourceRead n ok d s).sink = s.sink := rfl
@[simp] theorem sourceRead_draws (n : Nat) (ok : Bool) (d : List Byte) : (sourceRead n ok d s).draws = s.draws + 1 := rfl
@[simp] theorem sourceRead_ramDraw (n : Nat) (ok : Bool) (d : List Byte) : (sourceRead n ok d s).ramDraw = s.ramDraw := rfl

/-! sinkWrite -/

@[simp] theorem sinkWrite_cmd (d : List Byte) (ok : Bool) : (sinkWrite d ok s).cmd = s.cmd := rfl
@[simp] theorem sinkWrite_addr (d : List Byte) (ok : Bool) : (sinkWrite d ok s).addr = s.addr := rfl
@[simp] theorem sinkWrite_len (d : List Byte) (ok : Bool) : (sinkWrite d ok s).len = s.len := rfl
@[simp] theorem sinkWrite_busy (d : List Byte) (ok : Bool) : (sinkWrite d ok s).busy = s.busy := rfl
@[simp] theorem sinkWrite_done (d : List Byte) (ok : Bool) : (sinkWrite d ok s).done = s.done := rfl
@[simp] theorem sinkWrite_err (d : List Byte) (ok : Bool) : (sinkWrite d ok s).err = s.err := rfl
@[simp] theorem sinkWrite_cs (d : List Byte) (ok : Bool) : (sinkWrite d ok s).cs = s.cs := rfl
@[simp] theorem sinkWrite_cmdRej (d : List Byte) (ok : Bool) : (sinkWrite d ok s).cmdRej = s.cmdRej := rfl
@[simp] theorem sinkWrite_cause (d : List Byte) (ok : Bool) : (sinkWrite d ok s).cause = s.cause := rfl
@[simp] theorem sinkWrite_phase (d : List Byte) (ok : Bool) : (sinkWrite d ok s).phase = s.phase := rfl
@[simp] theorem sinkWrite_doneIe (d : List Byte) (ok : Bool) : (sinkWrite d ok s).doneIe = s.doneIe := rfl
@[simp] theorem sinkWrite_errIe (d : List Byte) (ok : Bool) : (sinkWrite d ok s).errIe = s.errIe := rfl
@[simp] theorem sinkWrite_rejIe (d : List Byte) (ok : Bool) : (sinkWrite d ok s).rejIe = s.rejIe := rfl
@[simp] theorem sinkWrite_idMfr (d : List Byte) (ok : Bool) : (sinkWrite d ok s).idMfr = s.idMfr := rfl
@[simp] theorem sinkWrite_idType (d : List Byte) (ok : Bool) : (sinkWrite d ok s).idType = s.idType := rfl
@[simp] theorem sinkWrite_idCap (d : List Byte) (ok : Bool) : (sinkWrite d ok s).idCap = s.idCap := rfl
@[simp] theorem sinkWrite_sr1 (d : List Byte) (ok : Bool) : (sinkWrite d ok s).sr1 = s.sr1 := rfl
@[simp] theorem sinkWrite_sr2 (d : List Byte) (ok : Bool) : (sinkWrite d ok s).sr2 = s.sr2 := rfl
@[simp] theorem sinkWrite_rxdata (d : List Byte) (ok : Bool) : (sinkWrite d ok s).rxdata = s.rxdata := rfl
@[simp] theorem sinkWrite_cursor (d : List Byte) (ok : Bool) : (sinkWrite d ok s).cursor = s.cursor := rfl
@[simp] theorem sinkWrite_mmAddr (d : List Byte) (ok : Bool) : (sinkWrite d ok s).mmAddr = s.mmAddr := rfl
@[simp] theorem sinkWrite_mmDev (d : List Byte) (ok : Bool) : (sinkWrite d ok s).mmDev = s.mmDev := rfl
@[simp] theorem sinkWrite_mmExp (d : List Byte) (ok : Bool) : (sinkWrite d ok s).mmExp = s.mmExp := rfl
@[simp] theorem sinkWrite_pct (d : List Byte) (ok : Bool) : (sinkWrite d ok s).pct = s.pct := rfl
@[simp] theorem sinkWrite_pollLimit (d : List Byte) (ok : Bool) : (sinkWrite d ok s).pollLimit = s.pollLimit := rfl
@[simp] theorem sinkWrite_pollCnt (d : List Byte) (ok : Bool) : (sinkWrite d ok s).pollCnt = s.pollCnt := rfl
@[simp] theorem sinkWrite_wbuf (d : List Byte) (ok : Bool) : (sinkWrite d ok s).wbuf = s.wbuf := rfl
@[simp] theorem sinkWrite_dbuf (d : List Byte) (ok : Bool) : (sinkWrite d ok s).dbuf = s.dbuf := rfl
@[simp] theorem sinkWrite_lOp (d : List Byte) (ok : Bool) : (sinkWrite d ok s).lOp = s.lOp := rfl
@[simp] theorem sinkWrite_lByte (d : List Byte) (ok : Bool) : (sinkWrite d ok s).lByte = s.lByte := rfl
@[simp] theorem sinkWrite_lAddr (d : List Byte) (ok : Bool) : (sinkWrite d ok s).lAddr = s.lAddr := rfl
@[simp] theorem sinkWrite_lLen (d : List Byte) (ok : Bool) : (sinkWrite d ok s).lLen = s.lLen := rfl
@[simp] theorem sinkWrite_lLimit (d : List Byte) (ok : Bool) : (sinkWrite d ok s).lLimit = s.lLimit := rfl
@[simp] theorem sinkWrite_pos (d : List Byte) (ok : Bool) : (sinkWrite d ok s).pos = s.pos := rfl
@[simp] theorem sinkWrite_chunkIx (d : List Byte) (ok : Bool) : (sinkWrite d ok s).chunkIx = s.chunkIx := rfl
@[simp] theorem sinkWrite_pageIx (d : List Byte) (ok : Bool) : (sinkWrite d ok s).pageIx = s.pageIx := rfl
@[simp] theorem sinkWrite_strideIx (d : List Byte) (ok : Bool) : (sinkWrite d ok s).strideIx = s.strideIx := rfl
@[simp] theorem sinkWrite_byteIx (d : List Byte) (ok : Bool) : (sinkWrite d ok s).byteIx = s.byteIx := rfl
@[simp] theorem sinkWrite_pollN (d : List Byte) (ok : Bool) : (sinkWrite d ok s).pollN = s.pollN := rfl
@[simp] theorem sinkWrite_sample (d : List Byte) (ok : Bool) : (sinkWrite d ok s).sample = s.sample := rfl
@[simp] theorem sinkWrite_sourced (d : List Byte) (ok : Bool) : (sinkWrite d ok s).sourced = s.sourced := rfl
@[simp] theorem sinkWrite_events (d : List Byte) (ok : Bool) : (sinkWrite d ok s).events = s.events ++ [.sinkWrite d ok] := rfl
@[simp] theorem sinkWrite_rdata (d : List Byte) (ok : Bool) : (sinkWrite d ok s).rdata = s.rdata := rfl
@[simp] theorem sinkWrite_flash (d : List Byte) (ok : Bool) : (sinkWrite d ok s).flash = s.flash := rfl
@[simp] theorem sinkWrite_moves (d : List Byte) (ok : Bool) : (sinkWrite d ok s).moves = s.moves := rfl
@[simp] theorem sinkWrite_source (d : List Byte) (ok : Bool) : (sinkWrite d ok s).source = s.source := rfl
@[simp] theorem sinkWrite_sink (d : List Byte) (ok : Bool) : (sinkWrite d ok s).sink = s.sink.tail := rfl
@[simp] theorem sinkWrite_draws (d : List Byte) (ok : Bool) : (sinkWrite d ok s).draws = s.draws + 1 := rfl
@[simp] theorem sinkWrite_ramDraw (d : List Byte) (ok : Bool) : (sinkWrite d ok s).ramDraw = s.ramDraw := rfl

/-! setMoves -/

@[simp] theorem setMoves_cmd (l : List Move) : (setMoves l s).cmd = s.cmd := rfl
@[simp] theorem setMoves_addr (l : List Move) : (setMoves l s).addr = s.addr := rfl
@[simp] theorem setMoves_len (l : List Move) : (setMoves l s).len = s.len := rfl
@[simp] theorem setMoves_busy (l : List Move) : (setMoves l s).busy = s.busy := rfl
@[simp] theorem setMoves_done (l : List Move) : (setMoves l s).done = s.done := rfl
@[simp] theorem setMoves_err (l : List Move) : (setMoves l s).err = s.err := rfl
@[simp] theorem setMoves_cs (l : List Move) : (setMoves l s).cs = s.cs := rfl
@[simp] theorem setMoves_cmdRej (l : List Move) : (setMoves l s).cmdRej = s.cmdRej := rfl
@[simp] theorem setMoves_cause (l : List Move) : (setMoves l s).cause = s.cause := rfl
@[simp] theorem setMoves_phase (l : List Move) : (setMoves l s).phase = s.phase := rfl
@[simp] theorem setMoves_doneIe (l : List Move) : (setMoves l s).doneIe = s.doneIe := rfl
@[simp] theorem setMoves_errIe (l : List Move) : (setMoves l s).errIe = s.errIe := rfl
@[simp] theorem setMoves_rejIe (l : List Move) : (setMoves l s).rejIe = s.rejIe := rfl
@[simp] theorem setMoves_idMfr (l : List Move) : (setMoves l s).idMfr = s.idMfr := rfl
@[simp] theorem setMoves_idType (l : List Move) : (setMoves l s).idType = s.idType := rfl
@[simp] theorem setMoves_idCap (l : List Move) : (setMoves l s).idCap = s.idCap := rfl
@[simp] theorem setMoves_sr1 (l : List Move) : (setMoves l s).sr1 = s.sr1 := rfl
@[simp] theorem setMoves_sr2 (l : List Move) : (setMoves l s).sr2 = s.sr2 := rfl
@[simp] theorem setMoves_rxdata (l : List Move) : (setMoves l s).rxdata = s.rxdata := rfl
@[simp] theorem setMoves_cursor (l : List Move) : (setMoves l s).cursor = s.cursor := rfl
@[simp] theorem setMoves_mmAddr (l : List Move) : (setMoves l s).mmAddr = s.mmAddr := rfl
@[simp] theorem setMoves_mmDev (l : List Move) : (setMoves l s).mmDev = s.mmDev := rfl
@[simp] theorem setMoves_mmExp (l : List Move) : (setMoves l s).mmExp = s.mmExp := rfl
@[simp] theorem setMoves_pct (l : List Move) : (setMoves l s).pct = s.pct := rfl
@[simp] theorem setMoves_pollLimit (l : List Move) : (setMoves l s).pollLimit = s.pollLimit := rfl
@[simp] theorem setMoves_pollCnt (l : List Move) : (setMoves l s).pollCnt = s.pollCnt := rfl
@[simp] theorem setMoves_wbuf (l : List Move) : (setMoves l s).wbuf = s.wbuf := rfl
@[simp] theorem setMoves_dbuf (l : List Move) : (setMoves l s).dbuf = s.dbuf := rfl
@[simp] theorem setMoves_lOp (l : List Move) : (setMoves l s).lOp = s.lOp := rfl
@[simp] theorem setMoves_lByte (l : List Move) : (setMoves l s).lByte = s.lByte := rfl
@[simp] theorem setMoves_lAddr (l : List Move) : (setMoves l s).lAddr = s.lAddr := rfl
@[simp] theorem setMoves_lLen (l : List Move) : (setMoves l s).lLen = s.lLen := rfl
@[simp] theorem setMoves_lLimit (l : List Move) : (setMoves l s).lLimit = s.lLimit := rfl
@[simp] theorem setMoves_pos (l : List Move) : (setMoves l s).pos = s.pos := rfl
@[simp] theorem setMoves_chunkIx (l : List Move) : (setMoves l s).chunkIx = s.chunkIx := rfl
@[simp] theorem setMoves_pageIx (l : List Move) : (setMoves l s).pageIx = s.pageIx := rfl
@[simp] theorem setMoves_strideIx (l : List Move) : (setMoves l s).strideIx = s.strideIx := rfl
@[simp] theorem setMoves_byteIx (l : List Move) : (setMoves l s).byteIx = s.byteIx := rfl
@[simp] theorem setMoves_pollN (l : List Move) : (setMoves l s).pollN = s.pollN := rfl
@[simp] theorem setMoves_sample (l : List Move) : (setMoves l s).sample = s.sample := rfl
@[simp] theorem setMoves_sourced (l : List Move) : (setMoves l s).sourced = s.sourced := rfl
@[simp] theorem setMoves_events (l : List Move) : (setMoves l s).events = s.events := rfl
@[simp] theorem setMoves_rdata (l : List Move) : (setMoves l s).rdata = s.rdata := rfl
@[simp] theorem setMoves_flash (l : List Move) : (setMoves l s).flash = s.flash := rfl
@[simp] theorem setMoves_moves (l : List Move) : (setMoves l s).moves = l := rfl
@[simp] theorem setMoves_source (l : List Move) : (setMoves l s).source = s.source := rfl
@[simp] theorem setMoves_sink (l : List Move) : (setMoves l s).sink = s.sink := rfl
@[simp] theorem setMoves_draws (l : List Move) : (setMoves l s).draws = s.draws := rfl
@[simp] theorem setMoves_ramDraw (l : List Move) : (setMoves l s).ramDraw = s.ramDraw := rfl

/-! streamWait -/

@[simp] theorem streamWait_cmd : (streamWait s).cmd = s.cmd := rfl
@[simp] theorem streamWait_addr : (streamWait s).addr = s.addr := rfl
@[simp] theorem streamWait_len : (streamWait s).len = s.len := rfl
@[simp] theorem streamWait_busy : (streamWait s).busy = s.busy := rfl
@[simp] theorem streamWait_done : (streamWait s).done = s.done := rfl
@[simp] theorem streamWait_err : (streamWait s).err = s.err := rfl
@[simp] theorem streamWait_cs : (streamWait s).cs = s.cs := rfl
@[simp] theorem streamWait_cmdRej : (streamWait s).cmdRej = s.cmdRej := rfl
@[simp] theorem streamWait_cause : (streamWait s).cause = s.cause := rfl
@[simp] theorem streamWait_phase : (streamWait s).phase = s.phase := rfl
@[simp] theorem streamWait_doneIe : (streamWait s).doneIe = s.doneIe := rfl
@[simp] theorem streamWait_errIe : (streamWait s).errIe = s.errIe := rfl
@[simp] theorem streamWait_rejIe : (streamWait s).rejIe = s.rejIe := rfl
@[simp] theorem streamWait_idMfr : (streamWait s).idMfr = s.idMfr := rfl
@[simp] theorem streamWait_idType : (streamWait s).idType = s.idType := rfl
@[simp] theorem streamWait_idCap : (streamWait s).idCap = s.idCap := rfl
@[simp] theorem streamWait_sr1 : (streamWait s).sr1 = s.sr1 := rfl
@[simp] theorem streamWait_sr2 : (streamWait s).sr2 = s.sr2 := rfl
@[simp] theorem streamWait_rxdata : (streamWait s).rxdata = s.rxdata := rfl
@[simp] theorem streamWait_cursor : (streamWait s).cursor = s.cursor := rfl
@[simp] theorem streamWait_mmAddr : (streamWait s).mmAddr = s.mmAddr := rfl
@[simp] theorem streamWait_mmDev : (streamWait s).mmDev = s.mmDev := rfl
@[simp] theorem streamWait_mmExp : (streamWait s).mmExp = s.mmExp := rfl
@[simp] theorem streamWait_pct : (streamWait s).pct = s.pct := rfl
@[simp] theorem streamWait_pollLimit : (streamWait s).pollLimit = s.pollLimit := rfl
@[simp] theorem streamWait_pollCnt : (streamWait s).pollCnt = s.pollCnt := rfl
@[simp] theorem streamWait_wbuf : (streamWait s).wbuf = s.wbuf := rfl
@[simp] theorem streamWait_dbuf : (streamWait s).dbuf = s.dbuf := rfl
@[simp] theorem streamWait_lOp : (streamWait s).lOp = s.lOp := rfl
@[simp] theorem streamWait_lByte : (streamWait s).lByte = s.lByte := rfl
@[simp] theorem streamWait_lAddr : (streamWait s).lAddr = s.lAddr := rfl
@[simp] theorem streamWait_lLen : (streamWait s).lLen = s.lLen := rfl
@[simp] theorem streamWait_lLimit : (streamWait s).lLimit = s.lLimit := rfl
@[simp] theorem streamWait_pos : (streamWait s).pos = s.pos := rfl
@[simp] theorem streamWait_chunkIx : (streamWait s).chunkIx = s.chunkIx := rfl
@[simp] theorem streamWait_pageIx : (streamWait s).pageIx = s.pageIx := rfl
@[simp] theorem streamWait_strideIx : (streamWait s).strideIx = s.strideIx := rfl
@[simp] theorem streamWait_byteIx : (streamWait s).byteIx = s.byteIx := rfl
@[simp] theorem streamWait_pollN : (streamWait s).pollN = s.pollN := rfl
@[simp] theorem streamWait_sample : (streamWait s).sample = s.sample := rfl
@[simp] theorem streamWait_sourced : (streamWait s).sourced = s.sourced := rfl
@[simp] theorem streamWait_events : (streamWait s).events = s.events := rfl
@[simp] theorem streamWait_rdata : (streamWait s).rdata = s.rdata := rfl
@[simp] theorem streamWait_flash : (streamWait s).flash = s.flash := rfl
@[simp] theorem streamWait_moves : (streamWait s).moves = s.moves := rfl
@[simp] theorem streamWait_source : (streamWait s).source = s.source := rfl
@[simp] theorem streamWait_sink : (streamWait s).sink = s.sink := rfl
@[simp] theorem streamWait_draws : (streamWait s).draws = s.draws + 1 := rfl
@[simp] theorem streamWait_ramDraw : (streamWait s).ramDraw = s.ramDraw := rfl

/-! setCursor -/

@[simp] theorem setCursor_cmd (c : Nat) : (setCursor c s).cmd = s.cmd := rfl
@[simp] theorem setCursor_addr (c : Nat) : (setCursor c s).addr = s.addr := rfl
@[simp] theorem setCursor_len (c : Nat) : (setCursor c s).len = s.len := rfl
@[simp] theorem setCursor_busy (c : Nat) : (setCursor c s).busy = s.busy := rfl
@[simp] theorem setCursor_done (c : Nat) : (setCursor c s).done = s.done := rfl
@[simp] theorem setCursor_err (c : Nat) : (setCursor c s).err = s.err := rfl
@[simp] theorem setCursor_cs (c : Nat) : (setCursor c s).cs = s.cs := rfl
@[simp] theorem setCursor_cmdRej (c : Nat) : (setCursor c s).cmdRej = s.cmdRej := rfl
@[simp] theorem setCursor_cause (c : Nat) : (setCursor c s).cause = s.cause := rfl
@[simp] theorem setCursor_phase (c : Nat) : (setCursor c s).phase = s.phase := rfl
@[simp] theorem setCursor_doneIe (c : Nat) : (setCursor c s).doneIe = s.doneIe := rfl
@[simp] theorem setCursor_errIe (c : Nat) : (setCursor c s).errIe = s.errIe := rfl
@[simp] theorem setCursor_rejIe (c : Nat) : (setCursor c s).rejIe = s.rejIe := rfl
@[simp] theorem setCursor_idMfr (c : Nat) : (setCursor c s).idMfr = s.idMfr := rfl
@[simp] theorem setCursor_idType (c : Nat) : (setCursor c s).idType = s.idType := rfl
@[simp] theorem setCursor_idCap (c : Nat) : (setCursor c s).idCap = s.idCap := rfl
@[simp] theorem setCursor_sr1 (c : Nat) : (setCursor c s).sr1 = s.sr1 := rfl
@[simp] theorem setCursor_sr2 (c : Nat) : (setCursor c s).sr2 = s.sr2 := rfl
@[simp] theorem setCursor_rxdata (c : Nat) : (setCursor c s).rxdata = s.rxdata := rfl
@[simp] theorem setCursor_cursor (c : Nat) : (setCursor c s).cursor = BitVec.ofNat 24 c := rfl
@[simp] theorem setCursor_mmAddr (c : Nat) : (setCursor c s).mmAddr = s.mmAddr := rfl
@[simp] theorem setCursor_mmDev (c : Nat) : (setCursor c s).mmDev = s.mmDev := rfl
@[simp] theorem setCursor_mmExp (c : Nat) : (setCursor c s).mmExp = s.mmExp := rfl
@[simp] theorem setCursor_pct (c : Nat) : (setCursor c s).pct = s.pct := rfl
@[simp] theorem setCursor_pollLimit (c : Nat) : (setCursor c s).pollLimit = s.pollLimit := rfl
@[simp] theorem setCursor_pollCnt (c : Nat) : (setCursor c s).pollCnt = s.pollCnt := rfl
@[simp] theorem setCursor_wbuf (c : Nat) : (setCursor c s).wbuf = s.wbuf := rfl
@[simp] theorem setCursor_dbuf (c : Nat) : (setCursor c s).dbuf = s.dbuf := rfl
@[simp] theorem setCursor_lOp (c : Nat) : (setCursor c s).lOp = s.lOp := rfl
@[simp] theorem setCursor_lByte (c : Nat) : (setCursor c s).lByte = s.lByte := rfl
@[simp] theorem setCursor_lAddr (c : Nat) : (setCursor c s).lAddr = s.lAddr := rfl
@[simp] theorem setCursor_lLen (c : Nat) : (setCursor c s).lLen = s.lLen := rfl
@[simp] theorem setCursor_lLimit (c : Nat) : (setCursor c s).lLimit = s.lLimit := rfl
@[simp] theorem setCursor_pos (c : Nat) : (setCursor c s).pos = s.pos := rfl
@[simp] theorem setCursor_chunkIx (c : Nat) : (setCursor c s).chunkIx = s.chunkIx := rfl
@[simp] theorem setCursor_pageIx (c : Nat) : (setCursor c s).pageIx = s.pageIx := rfl
@[simp] theorem setCursor_strideIx (c : Nat) : (setCursor c s).strideIx = s.strideIx := rfl
@[simp] theorem setCursor_byteIx (c : Nat) : (setCursor c s).byteIx = s.byteIx := rfl
@[simp] theorem setCursor_pollN (c : Nat) : (setCursor c s).pollN = s.pollN := rfl
@[simp] theorem setCursor_sample (c : Nat) : (setCursor c s).sample = s.sample := rfl
@[simp] theorem setCursor_sourced (c : Nat) : (setCursor c s).sourced = s.sourced := rfl
@[simp] theorem setCursor_events (c : Nat) : (setCursor c s).events = s.events := rfl
@[simp] theorem setCursor_rdata (c : Nat) : (setCursor c s).rdata = s.rdata := rfl
@[simp] theorem setCursor_flash (c : Nat) : (setCursor c s).flash = s.flash := rfl
@[simp] theorem setCursor_moves (c : Nat) : (setCursor c s).moves = s.moves := rfl
@[simp] theorem setCursor_source (c : Nat) : (setCursor c s).source = s.source := rfl
@[simp] theorem setCursor_sink (c : Nat) : (setCursor c s).sink = s.sink := rfl
@[simp] theorem setCursor_draws (c : Nat) : (setCursor c s).draws = s.draws := rfl
@[simp] theorem setCursor_ramDraw (c : Nat) : (setCursor c s).ramDraw = s.ramDraw := rfl

/-! emitProgress -/

@[simp] theorem emitProgress_cmd : (emitProgress s).cmd = s.cmd := rfl
@[simp] theorem emitProgress_addr : (emitProgress s).addr = s.addr := rfl
@[simp] theorem emitProgress_len : (emitProgress s).len = s.len := rfl
@[simp] theorem emitProgress_busy : (emitProgress s).busy = s.busy := rfl
@[simp] theorem emitProgress_done : (emitProgress s).done = s.done := rfl
@[simp] theorem emitProgress_err : (emitProgress s).err = s.err := rfl
@[simp] theorem emitProgress_cs : (emitProgress s).cs = s.cs := rfl
@[simp] theorem emitProgress_cmdRej : (emitProgress s).cmdRej = s.cmdRej := rfl
@[simp] theorem emitProgress_cause : (emitProgress s).cause = s.cause := rfl
@[simp] theorem emitProgress_phase : (emitProgress s).phase = s.phase := rfl
@[simp] theorem emitProgress_doneIe : (emitProgress s).doneIe = s.doneIe := rfl
@[simp] theorem emitProgress_errIe : (emitProgress s).errIe = s.errIe := rfl
@[simp] theorem emitProgress_rejIe : (emitProgress s).rejIe = s.rejIe := rfl
@[simp] theorem emitProgress_idMfr : (emitProgress s).idMfr = s.idMfr := rfl
@[simp] theorem emitProgress_idType : (emitProgress s).idType = s.idType := rfl
@[simp] theorem emitProgress_idCap : (emitProgress s).idCap = s.idCap := rfl
@[simp] theorem emitProgress_sr1 : (emitProgress s).sr1 = s.sr1 := rfl
@[simp] theorem emitProgress_sr2 : (emitProgress s).sr2 = s.sr2 := rfl
@[simp] theorem emitProgress_rxdata : (emitProgress s).rxdata = s.rxdata := rfl
@[simp] theorem emitProgress_cursor : (emitProgress s).cursor = s.cursor := rfl
@[simp] theorem emitProgress_mmAddr : (emitProgress s).mmAddr = s.mmAddr := rfl
@[simp] theorem emitProgress_mmDev : (emitProgress s).mmDev = s.mmDev := rfl
@[simp] theorem emitProgress_mmExp : (emitProgress s).mmExp = s.mmExp := rfl
@[simp] theorem emitProgress_pct : (emitProgress s).pct = percent s.cursor.toNat := rfl
@[simp] theorem emitProgress_pollLimit : (emitProgress s).pollLimit = s.pollLimit := rfl
@[simp] theorem emitProgress_pollCnt : (emitProgress s).pollCnt = s.pollCnt := rfl
@[simp] theorem emitProgress_wbuf : (emitProgress s).wbuf = s.wbuf := rfl
@[simp] theorem emitProgress_dbuf : (emitProgress s).dbuf = s.dbuf := rfl
@[simp] theorem emitProgress_lOp : (emitProgress s).lOp = s.lOp := rfl
@[simp] theorem emitProgress_lByte : (emitProgress s).lByte = s.lByte := rfl
@[simp] theorem emitProgress_lAddr : (emitProgress s).lAddr = s.lAddr := rfl
@[simp] theorem emitProgress_lLen : (emitProgress s).lLen = s.lLen := rfl
@[simp] theorem emitProgress_lLimit : (emitProgress s).lLimit = s.lLimit := rfl
@[simp] theorem emitProgress_pos : (emitProgress s).pos = s.pos := rfl
@[simp] theorem emitProgress_chunkIx : (emitProgress s).chunkIx = s.chunkIx := rfl
@[simp] theorem emitProgress_pageIx : (emitProgress s).pageIx = s.pageIx := rfl
@[simp] theorem emitProgress_strideIx : (emitProgress s).strideIx = s.strideIx := rfl
@[simp] theorem emitProgress_byteIx : (emitProgress s).byteIx = s.byteIx := rfl
@[simp] theorem emitProgress_pollN : (emitProgress s).pollN = s.pollN := rfl
@[simp] theorem emitProgress_sample : (emitProgress s).sample = s.sample := rfl
@[simp] theorem emitProgress_sourced : (emitProgress s).sourced = s.sourced := rfl
@[simp] theorem emitProgress_events : (emitProgress s).events = s.events ++ [.progress s.cursor.toNat Config.totalSize] := rfl
@[simp] theorem emitProgress_rdata : (emitProgress s).rdata = s.rdata := rfl
@[simp] theorem emitProgress_flash : (emitProgress s).flash = s.flash := rfl
@[simp] theorem emitProgress_moves : (emitProgress s).moves = s.moves := rfl
@[simp] theorem emitProgress_source : (emitProgress s).source = s.source := rfl
@[simp] theorem emitProgress_sink : (emitProgress s).sink = s.sink := rfl
@[simp] theorem emitProgress_draws : (emitProgress s).draws = s.draws := rfl
@[simp] theorem emitProgress_ramDraw : (emitProgress s).ramDraw = s.ramDraw := rfl

/-! setByteIx -/

@[simp] theorem setByteIx_cmd (k : Nat) : (setByteIx k s).cmd = s.cmd := rfl
@[simp] theorem setByteIx_addr (k : Nat) : (setByteIx k s).addr = s.addr := rfl
@[simp] theorem setByteIx_len (k : Nat) : (setByteIx k s).len = s.len := rfl
@[simp] theorem setByteIx_busy (k : Nat) : (setByteIx k s).busy = s.busy := rfl
@[simp] theorem setByteIx_done (k : Nat) : (setByteIx k s).done = s.done := rfl
@[simp] theorem setByteIx_err (k : Nat) : (setByteIx k s).err = s.err := rfl
@[simp] theorem setByteIx_cs (k : Nat) : (setByteIx k s).cs = s.cs := rfl
@[simp] theorem setByteIx_cmdRej (k : Nat) : (setByteIx k s).cmdRej = s.cmdRej := rfl
@[simp] theorem setByteIx_cause (k : Nat) : (setByteIx k s).cause = s.cause := rfl
@[simp] theorem setByteIx_phase (k : Nat) : (setByteIx k s).phase = s.phase := rfl
@[simp] theorem setByteIx_doneIe (k : Nat) : (setByteIx k s).doneIe = s.doneIe := rfl
@[simp] theorem setByteIx_errIe (k : Nat) : (setByteIx k s).errIe = s.errIe := rfl
@[simp] theorem setByteIx_rejIe (k : Nat) : (setByteIx k s).rejIe = s.rejIe := rfl
@[simp] theorem setByteIx_idMfr (k : Nat) : (setByteIx k s).idMfr = s.idMfr := rfl
@[simp] theorem setByteIx_idType (k : Nat) : (setByteIx k s).idType = s.idType := rfl
@[simp] theorem setByteIx_idCap (k : Nat) : (setByteIx k s).idCap = s.idCap := rfl
@[simp] theorem setByteIx_sr1 (k : Nat) : (setByteIx k s).sr1 = s.sr1 := rfl
@[simp] theorem setByteIx_sr2 (k : Nat) : (setByteIx k s).sr2 = s.sr2 := rfl
@[simp] theorem setByteIx_rxdata (k : Nat) : (setByteIx k s).rxdata = s.rxdata := rfl
@[simp] theorem setByteIx_cursor (k : Nat) : (setByteIx k s).cursor = s.cursor := rfl
@[simp] theorem setByteIx_mmAddr (k : Nat) : (setByteIx k s).mmAddr = s.mmAddr := rfl
@[simp] theorem setByteIx_mmDev (k : Nat) : (setByteIx k s).mmDev = s.mmDev := rfl
@[simp] theorem setByteIx_mmExp (k : Nat) : (setByteIx k s).mmExp = s.mmExp := rfl
@[simp] theorem setByteIx_pct (k : Nat) : (setByteIx k s).pct = s.pct := rfl
@[simp] theorem setByteIx_pollLimit (k : Nat) : (setByteIx k s).pollLimit = s.pollLimit := rfl
@[simp] theorem setByteIx_pollCnt (k : Nat) : (setByteIx k s).pollCnt = s.pollCnt := rfl
@[simp] theorem setByteIx_wbuf (k : Nat) : (setByteIx k s).wbuf = s.wbuf := rfl
@[simp] theorem setByteIx_dbuf (k : Nat) : (setByteIx k s).dbuf = s.dbuf := rfl
@[simp] theorem setByteIx_lOp (k : Nat) : (setByteIx k s).lOp = s.lOp := rfl
@[simp] theorem setByteIx_lByte (k : Nat) : (setByteIx k s).lByte = s.lByte := rfl
@[simp] theorem setByteIx_lAddr (k : Nat) : (setByteIx k s).lAddr = s.lAddr := rfl
@[simp] theorem setByteIx_lLen (k : Nat) : (setByteIx k s).lLen = s.lLen := rfl
@[simp] theorem setByteIx_lLimit (k : Nat) : (setByteIx k s).lLimit = s.lLimit := rfl
@[simp] theorem setByteIx_pos (k : Nat) : (setByteIx k s).pos = s.pos := rfl
@[simp] theorem setByteIx_chunkIx (k : Nat) : (setByteIx k s).chunkIx = s.chunkIx := rfl
@[simp] theorem setByteIx_pageIx (k : Nat) : (setByteIx k s).pageIx = s.pageIx := rfl
@[simp] theorem setByteIx_strideIx (k : Nat) : (setByteIx k s).strideIx = s.strideIx := rfl
@[simp] theorem setByteIx_byteIx (k : Nat) : (setByteIx k s).byteIx = k := rfl
@[simp] theorem setByteIx_pollN (k : Nat) : (setByteIx k s).pollN = s.pollN := rfl
@[simp] theorem setByteIx_sample (k : Nat) : (setByteIx k s).sample = s.sample := rfl
@[simp] theorem setByteIx_sourced (k : Nat) : (setByteIx k s).sourced = s.sourced := rfl
@[simp] theorem setByteIx_events (k : Nat) : (setByteIx k s).events = s.events := rfl
@[simp] theorem setByteIx_rdata (k : Nat) : (setByteIx k s).rdata = s.rdata := rfl
@[simp] theorem setByteIx_flash (k : Nat) : (setByteIx k s).flash = s.flash := rfl
@[simp] theorem setByteIx_moves (k : Nat) : (setByteIx k s).moves = s.moves := rfl
@[simp] theorem setByteIx_source (k : Nat) : (setByteIx k s).source = s.source := rfl
@[simp] theorem setByteIx_sink (k : Nat) : (setByteIx k s).sink = s.sink := rfl
@[simp] theorem setByteIx_draws (k : Nat) : (setByteIx k s).draws = s.draws := rfl
@[simp] theorem setByteIx_ramDraw (k : Nat) : (setByteIx k s).ramDraw = s.ramDraw := rfl

/-! nextChunk -/

@[simp] theorem nextChunk_cmd : (nextChunk s).cmd = s.cmd := rfl
@[simp] theorem nextChunk_addr : (nextChunk s).addr = s.addr := rfl
@[simp] theorem nextChunk_len : (nextChunk s).len = s.len := rfl
@[simp] theorem nextChunk_busy : (nextChunk s).busy = s.busy := rfl
@[simp] theorem nextChunk_done : (nextChunk s).done = s.done := rfl
@[simp] theorem nextChunk_err : (nextChunk s).err = s.err := rfl
@[simp] theorem nextChunk_cs : (nextChunk s).cs = s.cs := rfl
@[simp] theorem nextChunk_cmdRej : (nextChunk s).cmdRej = s.cmdRej := rfl
@[simp] theorem nextChunk_cause : (nextChunk s).cause = s.cause := rfl
@[simp] theorem nextChunk_phase : (nextChunk s).phase = s.phase := rfl
@[simp] theorem nextChunk_doneIe : (nextChunk s).doneIe = s.doneIe := rfl
@[simp] theorem nextChunk_errIe : (nextChunk s).errIe = s.errIe := rfl
@[simp] theorem nextChunk_rejIe : (nextChunk s).rejIe = s.rejIe := rfl
@[simp] theorem nextChunk_idMfr : (nextChunk s).idMfr = s.idMfr := rfl
@[simp] theorem nextChunk_idType : (nextChunk s).idType = s.idType := rfl
@[simp] theorem nextChunk_idCap : (nextChunk s).idCap = s.idCap := rfl
@[simp] theorem nextChunk_sr1 : (nextChunk s).sr1 = s.sr1 := rfl
@[simp] theorem nextChunk_sr2 : (nextChunk s).sr2 = s.sr2 := rfl
@[simp] theorem nextChunk_rxdata : (nextChunk s).rxdata = s.rxdata := rfl
@[simp] theorem nextChunk_cursor : (nextChunk s).cursor = s.cursor := rfl
@[simp] theorem nextChunk_mmAddr : (nextChunk s).mmAddr = s.mmAddr := rfl
@[simp] theorem nextChunk_mmDev : (nextChunk s).mmDev = s.mmDev := rfl
@[simp] theorem nextChunk_mmExp : (nextChunk s).mmExp = s.mmExp := rfl
@[simp] theorem nextChunk_pct : (nextChunk s).pct = s.pct := rfl
@[simp] theorem nextChunk_pollLimit : (nextChunk s).pollLimit = s.pollLimit := rfl
@[simp] theorem nextChunk_pollCnt : (nextChunk s).pollCnt = s.pollCnt := rfl
@[simp] theorem nextChunk_wbuf : (nextChunk s).wbuf = s.wbuf := rfl
@[simp] theorem nextChunk_dbuf : (nextChunk s).dbuf = s.dbuf := rfl
@[simp] theorem nextChunk_lOp : (nextChunk s).lOp = s.lOp := rfl
@[simp] theorem nextChunk_lByte : (nextChunk s).lByte = s.lByte := rfl
@[simp] theorem nextChunk_lAddr : (nextChunk s).lAddr = s.lAddr := rfl
@[simp] theorem nextChunk_lLen : (nextChunk s).lLen = s.lLen := rfl
@[simp] theorem nextChunk_lLimit : (nextChunk s).lLimit = s.lLimit := rfl
@[simp] theorem nextChunk_pos : (nextChunk s).pos = s.pos := rfl
@[simp] theorem nextChunk_chunkIx : (nextChunk s).chunkIx = s.chunkIx + 1 := rfl
@[simp] theorem nextChunk_pageIx : (nextChunk s).pageIx = 0 := rfl
@[simp] theorem nextChunk_strideIx : (nextChunk s).strideIx = s.strideIx := rfl
@[simp] theorem nextChunk_byteIx : (nextChunk s).byteIx = 0 := rfl
@[simp] theorem nextChunk_pollN : (nextChunk s).pollN = s.pollN := rfl
@[simp] theorem nextChunk_sample : (nextChunk s).sample = s.sample := rfl
@[simp] theorem nextChunk_sourced : (nextChunk s).sourced = s.sourced := rfl
@[simp] theorem nextChunk_events : (nextChunk s).events = s.events := rfl
@[simp] theorem nextChunk_rdata : (nextChunk s).rdata = s.rdata := rfl
@[simp] theorem nextChunk_flash : (nextChunk s).flash = s.flash := rfl
@[simp] theorem nextChunk_moves : (nextChunk s).moves = s.moves := rfl
@[simp] theorem nextChunk_source : (nextChunk s).source = s.source := rfl
@[simp] theorem nextChunk_sink : (nextChunk s).sink = s.sink := rfl
@[simp] theorem nextChunk_draws : (nextChunk s).draws = s.draws := rfl
@[simp] theorem nextChunk_ramDraw : (nextChunk s).ramDraw = s.ramDraw := rfl

/-! nextPage -/

@[simp] theorem nextPage_cmd : (nextPage s).cmd = s.cmd := rfl
@[simp] theorem nextPage_addr : (nextPage s).addr = s.addr := rfl
@[simp] theorem nextPage_len : (nextPage s).len = s.len := rfl
@[simp] theorem nextPage_busy : (nextPage s).busy = s.busy := rfl
@[simp] theorem nextPage_done : (nextPage s).done = s.done := rfl
@[simp] theorem nextPage_err : (nextPage s).err = s.err := rfl
@[simp] theorem nextPage_cs : (nextPage s).cs = s.cs := rfl
@[simp] theorem nextPage_cmdRej : (nextPage s).cmdRej = s.cmdRej := rfl
@[simp] theorem nextPage_cause : (nextPage s).cause = s.cause := rfl
@[simp] theorem nextPage_phase : (nextPage s).phase = s.phase := rfl
@[simp] theorem nextPage_doneIe : (nextPage s).doneIe = s.doneIe := rfl
@[simp] theorem nextPage_errIe : (nextPage s).errIe = s.errIe := rfl
@[simp] theorem nextPage_rejIe : (nextPage s).rejIe = s.rejIe := rfl
@[simp] theorem nextPage_idMfr : (nextPage s).idMfr = s.idMfr := rfl
@[simp] theorem nextPage_idType : (nextPage s).idType = s.idType := rfl
@[simp] theorem nextPage_idCap : (nextPage s).idCap = s.idCap := rfl
@[simp] theorem nextPage_sr1 : (nextPage s).sr1 = s.sr1 := rfl
@[simp] theorem nextPage_sr2 : (nextPage s).sr2 = s.sr2 := rfl
@[simp] theorem nextPage_rxdata : (nextPage s).rxdata = s.rxdata := rfl
@[simp] theorem nextPage_cursor : (nextPage s).cursor = s.cursor := rfl
@[simp] theorem nextPage_mmAddr : (nextPage s).mmAddr = s.mmAddr := rfl
@[simp] theorem nextPage_mmDev : (nextPage s).mmDev = s.mmDev := rfl
@[simp] theorem nextPage_mmExp : (nextPage s).mmExp = s.mmExp := rfl
@[simp] theorem nextPage_pct : (nextPage s).pct = s.pct := rfl
@[simp] theorem nextPage_pollLimit : (nextPage s).pollLimit = s.pollLimit := rfl
@[simp] theorem nextPage_pollCnt : (nextPage s).pollCnt = s.pollCnt := rfl
@[simp] theorem nextPage_wbuf : (nextPage s).wbuf = s.wbuf := rfl
@[simp] theorem nextPage_dbuf : (nextPage s).dbuf = s.dbuf := rfl
@[simp] theorem nextPage_lOp : (nextPage s).lOp = s.lOp := rfl
@[simp] theorem nextPage_lByte : (nextPage s).lByte = s.lByte := rfl
@[simp] theorem nextPage_lAddr : (nextPage s).lAddr = s.lAddr := rfl
@[simp] theorem nextPage_lLen : (nextPage s).lLen = s.lLen := rfl
@[simp] theorem nextPage_lLimit : (nextPage s).lLimit = s.lLimit := rfl
@[simp] theorem nextPage_pos : (nextPage s).pos = s.pos := rfl
@[simp] theorem nextPage_chunkIx : (nextPage s).chunkIx = s.chunkIx := rfl
@[simp] theorem nextPage_pageIx : (nextPage s).pageIx = s.pageIx + 1 := rfl
@[simp] theorem nextPage_strideIx : (nextPage s).strideIx = s.strideIx := rfl
@[simp] theorem nextPage_byteIx : (nextPage s).byteIx = s.byteIx := rfl
@[simp] theorem nextPage_pollN : (nextPage s).pollN = s.pollN := rfl
@[simp] theorem nextPage_sample : (nextPage s).sample = s.sample := rfl
@[simp] theorem nextPage_sourced : (nextPage s).sourced = s.sourced := rfl
@[simp] theorem nextPage_events : (nextPage s).events = s.events := rfl
@[simp] theorem nextPage_rdata : (nextPage s).rdata = s.rdata := rfl
@[simp] theorem nextPage_flash : (nextPage s).flash = s.flash := rfl
@[simp] theorem nextPage_moves : (nextPage s).moves = s.moves := rfl
@[simp] theorem nextPage_source : (nextPage s).source = s.source := rfl
@[simp] theorem nextPage_sink : (nextPage s).sink = s.sink := rfl
@[simp] theorem nextPage_draws : (nextPage s).draws = s.draws := rfl
@[simp] theorem nextPage_ramDraw : (nextPage s).ramDraw = s.ramDraw := rfl

/-! nextStride -/

@[simp] theorem nextStride_cmd : (nextStride s).cmd = s.cmd := rfl
@[simp] theorem nextStride_addr : (nextStride s).addr = s.addr := rfl
@[simp] theorem nextStride_len : (nextStride s).len = s.len := rfl
@[simp] theorem nextStride_busy : (nextStride s).busy = s.busy := rfl
@[simp] theorem nextStride_done : (nextStride s).done = s.done := rfl
@[simp] theorem nextStride_err : (nextStride s).err = s.err := rfl
@[simp] theorem nextStride_cs : (nextStride s).cs = s.cs := rfl
@[simp] theorem nextStride_cmdRej : (nextStride s).cmdRej = s.cmdRej := rfl
@[simp] theorem nextStride_cause : (nextStride s).cause = s.cause := rfl
@[simp] theorem nextStride_phase : (nextStride s).phase = s.phase := rfl
@[simp] theorem nextStride_doneIe : (nextStride s).doneIe = s.doneIe := rfl
@[simp] theorem nextStride_errIe : (nextStride s).errIe = s.errIe := rfl
@[simp] theorem nextStride_rejIe : (nextStride s).rejIe = s.rejIe := rfl
@[simp] theorem nextStride_idMfr : (nextStride s).idMfr = s.idMfr := rfl
@[simp] theorem nextStride_idType : (nextStride s).idType = s.idType := rfl
@[simp] theorem nextStride_idCap : (nextStride s).idCap = s.idCap := rfl
@[simp] theorem nextStride_sr1 : (nextStride s).sr1 = s.sr1 := rfl
@[simp] theorem nextStride_sr2 : (nextStride s).sr2 = s.sr2 := rfl
@[simp] theorem nextStride_rxdata : (nextStride s).rxdata = s.rxdata := rfl
@[simp] theorem nextStride_cursor : (nextStride s).cursor = s.cursor := rfl
@[simp] theorem nextStride_mmAddr : (nextStride s).mmAddr = s.mmAddr := rfl
@[simp] theorem nextStride_mmDev : (nextStride s).mmDev = s.mmDev := rfl
@[simp] theorem nextStride_mmExp : (nextStride s).mmExp = s.mmExp := rfl
@[simp] theorem nextStride_pct : (nextStride s).pct = s.pct := rfl
@[simp] theorem nextStride_pollLimit : (nextStride s).pollLimit = s.pollLimit := rfl
@[simp] theorem nextStride_pollCnt : (nextStride s).pollCnt = s.pollCnt := rfl
@[simp] theorem nextStride_wbuf : (nextStride s).wbuf = s.wbuf := rfl
@[simp] theorem nextStride_dbuf : (nextStride s).dbuf = s.dbuf := rfl
@[simp] theorem nextStride_lOp : (nextStride s).lOp = s.lOp := rfl
@[simp] theorem nextStride_lByte : (nextStride s).lByte = s.lByte := rfl
@[simp] theorem nextStride_lAddr : (nextStride s).lAddr = s.lAddr := rfl
@[simp] theorem nextStride_lLen : (nextStride s).lLen = s.lLen := rfl
@[simp] theorem nextStride_lLimit : (nextStride s).lLimit = s.lLimit := rfl
@[simp] theorem nextStride_pos : (nextStride s).pos = s.pos := rfl
@[simp] theorem nextStride_chunkIx : (nextStride s).chunkIx = s.chunkIx := rfl
@[simp] theorem nextStride_pageIx : (nextStride s).pageIx = s.pageIx := rfl
@[simp] theorem nextStride_strideIx : (nextStride s).strideIx = s.strideIx + 1 := rfl
@[simp] theorem nextStride_byteIx : (nextStride s).byteIx = 0 := rfl
@[simp] theorem nextStride_pollN : (nextStride s).pollN = s.pollN := rfl
@[simp] theorem nextStride_sample : (nextStride s).sample = s.sample := rfl
@[simp] theorem nextStride_sourced : (nextStride s).sourced = s.sourced := rfl
@[simp] theorem nextStride_events : (nextStride s).events = s.events := rfl
@[simp] theorem nextStride_rdata : (nextStride s).rdata = s.rdata := rfl
@[simp] theorem nextStride_flash : (nextStride s).flash = s.flash := rfl
@[simp] theorem nextStride_moves : (nextStride s).moves = s.moves := rfl
@[simp] theorem nextStride_source : (nextStride s).source = s.source := rfl
@[simp] theorem nextStride_sink : (nextStride s).sink = s.sink := rfl
@[simp] theorem nextStride_draws : (nextStride s).draws = s.draws := rfl
@[simp] theorem nextStride_ramDraw : (nextStride s).ramDraw = s.ramDraw := rfl

/-! startPoll -/

@[simp] theorem startPoll_cmd : (startPoll s).cmd = s.cmd := rfl
@[simp] theorem startPoll_addr : (startPoll s).addr = s.addr := rfl
@[simp] theorem startPoll_len : (startPoll s).len = s.len := rfl
@[simp] theorem startPoll_busy : (startPoll s).busy = s.busy := rfl
@[simp] theorem startPoll_done : (startPoll s).done = s.done := rfl
@[simp] theorem startPoll_err : (startPoll s).err = s.err := rfl
@[simp] theorem startPoll_cs : (startPoll s).cs = s.cs := rfl
@[simp] theorem startPoll_cmdRej : (startPoll s).cmdRej = s.cmdRej := rfl
@[simp] theorem startPoll_cause : (startPoll s).cause = s.cause := rfl
@[simp] theorem startPoll_phase : (startPoll s).phase = s.phase := rfl
@[simp] theorem startPoll_doneIe : (startPoll s).doneIe = s.doneIe := rfl
@[simp] theorem startPoll_errIe : (startPoll s).errIe = s.errIe := rfl
@[simp] theorem startPoll_rejIe : (startPoll s).rejIe = s.rejIe := rfl
@[simp] theorem startPoll_idMfr : (startPoll s).idMfr = s.idMfr := rfl
@[simp] theorem startPoll_idType : (startPoll s).idType = s.idType := rfl
@[simp] theorem startPoll_idCap : (startPoll s).idCap = s.idCap := rfl
@[simp] theorem startPoll_sr1 : (startPoll s).sr1 = s.sr1 := rfl
@[simp] theorem startPoll_sr2 : (startPoll s).sr2 = s.sr2 := rfl
@[simp] theorem startPoll_rxdata : (startPoll s).rxdata = s.rxdata := rfl
@[simp] theorem startPoll_cursor : (startPoll s).cursor = s.cursor := rfl
@[simp] theorem startPoll_mmAddr : (startPoll s).mmAddr = s.mmAddr := rfl
@[simp] theorem startPoll_mmDev : (startPoll s).mmDev = s.mmDev := rfl
@[simp] theorem startPoll_mmExp : (startPoll s).mmExp = s.mmExp := rfl
@[simp] theorem startPoll_pct : (startPoll s).pct = s.pct := rfl
@[simp] theorem startPoll_pollLimit : (startPoll s).pollLimit = s.pollLimit := rfl
@[simp] theorem startPoll_pollCnt : (startPoll s).pollCnt = 0 := rfl
@[simp] theorem startPoll_wbuf : (startPoll s).wbuf = s.wbuf := rfl
@[simp] theorem startPoll_dbuf : (startPoll s).dbuf = s.dbuf := rfl
@[simp] theorem startPoll_lOp : (startPoll s).lOp = s.lOp := rfl
@[simp] theorem startPoll_lByte : (startPoll s).lByte = s.lByte := rfl
@[simp] theorem startPoll_lAddr : (startPoll s).lAddr = s.lAddr := rfl
@[simp] theorem startPoll_lLen : (startPoll s).lLen = s.lLen := rfl
@[simp] theorem startPoll_lLimit : (startPoll s).lLimit = s.lLimit := rfl
@[simp] theorem startPoll_pos : (startPoll s).pos = s.pos := rfl
@[simp] theorem startPoll_chunkIx : (startPoll s).chunkIx = s.chunkIx := rfl
@[simp] theorem startPoll_pageIx : (startPoll s).pageIx = s.pageIx := rfl
@[simp] theorem startPoll_strideIx : (startPoll s).strideIx = s.strideIx := rfl
@[simp] theorem startPoll_byteIx : (startPoll s).byteIx = s.byteIx := rfl
@[simp] theorem startPoll_pollN : (startPoll s).pollN = 0 := rfl
@[simp] theorem startPoll_sample : (startPoll s).sample = none := rfl
@[simp] theorem startPoll_sourced : (startPoll s).sourced = s.sourced := rfl
@[simp] theorem startPoll_events : (startPoll s).events = s.events := rfl
@[simp] theorem startPoll_rdata : (startPoll s).rdata = s.rdata := rfl
@[simp] theorem startPoll_flash : (startPoll s).flash = s.flash := rfl
@[simp] theorem startPoll_moves : (startPoll s).moves = s.moves := rfl
@[simp] theorem startPoll_source : (startPoll s).source = s.source := rfl
@[simp] theorem startPoll_sink : (startPoll s).sink = s.sink := rfl
@[simp] theorem startPoll_draws : (startPoll s).draws = s.draws := rfl
@[simp] theorem startPoll_ramDraw : (startPoll s).ramDraw = s.ramDraw := rfl

/-! keepSample -/

@[simp] theorem keepSample_cmd (b : Byte) : (keepSample b s).cmd = s.cmd := rfl
@[simp] theorem keepSample_addr (b : Byte) : (keepSample b s).addr = s.addr := rfl
@[simp] theorem keepSample_len (b : Byte) : (keepSample b s).len = s.len := rfl
@[simp] theorem keepSample_busy (b : Byte) : (keepSample b s).busy = s.busy := rfl
@[simp] theorem keepSample_done (b : Byte) : (keepSample b s).done = s.done := rfl
@[simp] theorem keepSample_err (b : Byte) : (keepSample b s).err = s.err := rfl
@[simp] theorem keepSample_cs (b : Byte) : (keepSample b s).cs = s.cs := rfl
@[simp] theorem keepSample_cmdRej (b : Byte) : (keepSample b s).cmdRej = s.cmdRej := rfl
@[simp] theorem keepSample_cause (b : Byte) : (keepSample b s).cause = s.cause := rfl
@[simp] theorem keepSample_phase (b : Byte) : (keepSample b s).phase = s.phase := rfl
@[simp] theorem keepSample_doneIe (b : Byte) : (keepSample b s).doneIe = s.doneIe := rfl
@[simp] theorem keepSample_errIe (b : Byte) : (keepSample b s).errIe = s.errIe := rfl
@[simp] theorem keepSample_rejIe (b : Byte) : (keepSample b s).rejIe = s.rejIe := rfl
@[simp] theorem keepSample_idMfr (b : Byte) : (keepSample b s).idMfr = s.idMfr := rfl
@[simp] theorem keepSample_idType (b : Byte) : (keepSample b s).idType = s.idType := rfl
@[simp] theorem keepSample_idCap (b : Byte) : (keepSample b s).idCap = s.idCap := rfl
@[simp] theorem keepSample_sr1 (b : Byte) : (keepSample b s).sr1 = s.sr1 := rfl
@[simp] theorem keepSample_sr2 (b : Byte) : (keepSample b s).sr2 = s.sr2 := rfl
@[simp] theorem keepSample_rxdata (b : Byte) : (keepSample b s).rxdata = s.rxdata := rfl
@[simp] theorem keepSample_cursor (b : Byte) : (keepSample b s).cursor = s.cursor := rfl
@[simp] theorem keepSample_mmAddr (b : Byte) : (keepSample b s).mmAddr = s.mmAddr := rfl
@[simp] theorem keepSample_mmDev (b : Byte) : (keepSample b s).mmDev = s.mmDev := rfl
@[simp] theorem keepSample_mmExp (b : Byte) : (keepSample b s).mmExp = s.mmExp := rfl
@[simp] theorem keepSample_pct (b : Byte) : (keepSample b s).pct = s.pct := rfl
@[simp] theorem keepSample_pollLimit (b : Byte) : (keepSample b s).pollLimit = s.pollLimit := rfl
@[simp] theorem keepSample_pollCnt (b : Byte) : (keepSample b s).pollCnt = s.pollCnt := rfl
@[simp] theorem keepSample_wbuf (b : Byte) : (keepSample b s).wbuf = s.wbuf := rfl
@[simp] theorem keepSample_dbuf (b : Byte) : (keepSample b s).dbuf = s.dbuf := rfl
@[simp] theorem keepSample_lOp (b : Byte) : (keepSample b s).lOp = s.lOp := rfl
@[simp] theorem keepSample_lByte (b : Byte) : (keepSample b s).lByte = s.lByte := rfl
@[simp] theorem keepSample_lAddr (b : Byte) : (keepSample b s).lAddr = s.lAddr := rfl
@[simp] theorem keepSample_lLen (b : Byte) : (keepSample b s).lLen = s.lLen := rfl
@[simp] theorem keepSample_lLimit (b : Byte) : (keepSample b s).lLimit = s.lLimit := rfl
@[simp] theorem keepSample_pos (b : Byte) : (keepSample b s).pos = s.pos := rfl
@[simp] theorem keepSample_chunkIx (b : Byte) : (keepSample b s).chunkIx = s.chunkIx := rfl
@[simp] theorem keepSample_pageIx (b : Byte) : (keepSample b s).pageIx = s.pageIx := rfl
@[simp] theorem keepSample_strideIx (b : Byte) : (keepSample b s).strideIx = s.strideIx := rfl
@[simp] theorem keepSample_byteIx (b : Byte) : (keepSample b s).byteIx = s.byteIx := rfl
@[simp] theorem keepSample_pollN (b : Byte) : (keepSample b s).pollN = s.pollN := rfl
@[simp] theorem keepSample_sample (b : Byte) : (keepSample b s).sample = some b := rfl
@[simp] theorem keepSample_sourced (b : Byte) : (keepSample b s).sourced = s.sourced := rfl
@[simp] theorem keepSample_events (b : Byte) : (keepSample b s).events = s.events := rfl
@[simp] theorem keepSample_rdata (b : Byte) : (keepSample b s).rdata = s.rdata := rfl
@[simp] theorem keepSample_flash (b : Byte) : (keepSample b s).flash = s.flash := rfl
@[simp] theorem keepSample_moves (b : Byte) : (keepSample b s).moves = s.moves := rfl
@[simp] theorem keepSample_source (b : Byte) : (keepSample b s).source = s.source := rfl
@[simp] theorem keepSample_sink (b : Byte) : (keepSample b s).sink = s.sink := rfl
@[simp] theorem keepSample_draws (b : Byte) : (keepSample b s).draws = s.draws := rfl
@[simp] theorem keepSample_ramDraw (b : Byte) : (keepSample b s).ramDraw = s.ramDraw := rfl

/-! assignSample -/

@[simp] theorem assignSample_cmd : (assignSample s).cmd = s.cmd := rfl
@[simp] theorem assignSample_addr : (assignSample s).addr = s.addr := rfl
@[simp] theorem assignSample_len : (assignSample s).len = s.len := rfl
@[simp] theorem assignSample_busy : (assignSample s).busy = s.busy := rfl
@[simp] theorem assignSample_done : (assignSample s).done = s.done := rfl
@[simp] theorem assignSample_err : (assignSample s).err = s.err := rfl
@[simp] theorem assignSample_cs : (assignSample s).cs = s.cs := rfl
@[simp] theorem assignSample_cmdRej : (assignSample s).cmdRej = s.cmdRej := rfl
@[simp] theorem assignSample_cause : (assignSample s).cause = s.cause := rfl
@[simp] theorem assignSample_phase : (assignSample s).phase = s.phase := rfl
@[simp] theorem assignSample_doneIe : (assignSample s).doneIe = s.doneIe := rfl
@[simp] theorem assignSample_errIe : (assignSample s).errIe = s.errIe := rfl
@[simp] theorem assignSample_rejIe : (assignSample s).rejIe = s.rejIe := rfl
@[simp] theorem assignSample_idMfr : (assignSample s).idMfr = s.idMfr := rfl
@[simp] theorem assignSample_idType : (assignSample s).idType = s.idType := rfl
@[simp] theorem assignSample_idCap : (assignSample s).idCap = s.idCap := rfl
@[simp] theorem assignSample_sr1 : (assignSample s).sr1 = s.sample.getD s.sr1 := rfl
@[simp] theorem assignSample_sr2 : (assignSample s).sr2 = s.sr2 := rfl
@[simp] theorem assignSample_rxdata : (assignSample s).rxdata = s.rxdata := rfl
@[simp] theorem assignSample_cursor : (assignSample s).cursor = s.cursor := rfl
@[simp] theorem assignSample_mmAddr : (assignSample s).mmAddr = s.mmAddr := rfl
@[simp] theorem assignSample_mmDev : (assignSample s).mmDev = s.mmDev := rfl
@[simp] theorem assignSample_mmExp : (assignSample s).mmExp = s.mmExp := rfl
@[simp] theorem assignSample_pct : (assignSample s).pct = s.pct := rfl
@[simp] theorem assignSample_pollLimit : (assignSample s).pollLimit = s.pollLimit := rfl
@[simp] theorem assignSample_pollCnt : (assignSample s).pollCnt = if s.sample.isSome then saturate (sampleCount s) else s.pollCnt := rfl
@[simp] theorem assignSample_wbuf : (assignSample s).wbuf = s.wbuf := rfl
@[simp] theorem assignSample_dbuf : (assignSample s).dbuf = s.dbuf := rfl
@[simp] theorem assignSample_lOp : (assignSample s).lOp = s.lOp := rfl
@[simp] theorem assignSample_lByte : (assignSample s).lByte = s.lByte := rfl
@[simp] theorem assignSample_lAddr : (assignSample s).lAddr = s.lAddr := rfl
@[simp] theorem assignSample_lLen : (assignSample s).lLen = s.lLen := rfl
@[simp] theorem assignSample_lLimit : (assignSample s).lLimit = s.lLimit := rfl
@[simp] theorem assignSample_pos : (assignSample s).pos = s.pos := rfl
@[simp] theorem assignSample_chunkIx : (assignSample s).chunkIx = s.chunkIx := rfl
@[simp] theorem assignSample_pageIx : (assignSample s).pageIx = s.pageIx := rfl
@[simp] theorem assignSample_strideIx : (assignSample s).strideIx = s.strideIx := rfl
@[simp] theorem assignSample_byteIx : (assignSample s).byteIx = s.byteIx := rfl
@[simp] theorem assignSample_pollN : (assignSample s).pollN = sampleCount s := rfl
@[simp] theorem assignSample_sample : (assignSample s).sample = none := rfl
@[simp] theorem assignSample_sourced : (assignSample s).sourced = s.sourced := rfl
@[simp] theorem assignSample_events : (assignSample s).events = s.events := rfl
@[simp] theorem assignSample_rdata : (assignSample s).rdata = s.rdata := rfl
@[simp] theorem assignSample_flash : (assignSample s).flash = s.flash := rfl
@[simp] theorem assignSample_moves : (assignSample s).moves = s.moves := rfl
@[simp] theorem assignSample_source : (assignSample s).source = s.source := rfl
@[simp] theorem assignSample_sink : (assignSample s).sink = s.sink := rfl
@[simp] theorem assignSample_draws : (assignSample s).draws = s.draws := rfl
@[simp] theorem assignSample_ramDraw : (assignSample s).ramDraw = s.ramDraw := rfl

/-! keepSourced -/

@[simp] theorem keepSourced_cmd (d : List Byte) : (keepSourced d s).cmd = s.cmd := rfl
@[simp] theorem keepSourced_addr (d : List Byte) : (keepSourced d s).addr = s.addr := rfl
@[simp] theorem keepSourced_len (d : List Byte) : (keepSourced d s).len = s.len := rfl
@[simp] theorem keepSourced_busy (d : List Byte) : (keepSourced d s).busy = s.busy := rfl
@[simp] theorem keepSourced_done (d : List Byte) : (keepSourced d s).done = s.done := rfl
@[simp] theorem keepSourced_err (d : List Byte) : (keepSourced d s).err = s.err := rfl
@[simp] theorem keepSourced_cs (d : List Byte) : (keepSourced d s).cs = s.cs := rfl
@[simp] theorem keepSourced_cmdRej (d : List Byte) : (keepSourced d s).cmdRej = s.cmdRej := rfl
@[simp] theorem keepSourced_cause (d : List Byte) : (keepSourced d s).cause = s.cause := rfl
@[simp] theorem keepSourced_phase (d : List Byte) : (keepSourced d s).phase = s.phase := rfl
@[simp] theorem keepSourced_doneIe (d : List Byte) : (keepSourced d s).doneIe = s.doneIe := rfl
@[simp] theorem keepSourced_errIe (d : List Byte) : (keepSourced d s).errIe = s.errIe := rfl
@[simp] theorem keepSourced_rejIe (d : List Byte) : (keepSourced d s).rejIe = s.rejIe := rfl
@[simp] theorem keepSourced_idMfr (d : List Byte) : (keepSourced d s).idMfr = s.idMfr := rfl
@[simp] theorem keepSourced_idType (d : List Byte) : (keepSourced d s).idType = s.idType := rfl
@[simp] theorem keepSourced_idCap (d : List Byte) : (keepSourced d s).idCap = s.idCap := rfl
@[simp] theorem keepSourced_sr1 (d : List Byte) : (keepSourced d s).sr1 = s.sr1 := rfl
@[simp] theorem keepSourced_sr2 (d : List Byte) : (keepSourced d s).sr2 = s.sr2 := rfl
@[simp] theorem keepSourced_rxdata (d : List Byte) : (keepSourced d s).rxdata = s.rxdata := rfl
@[simp] theorem keepSourced_cursor (d : List Byte) : (keepSourced d s).cursor = s.cursor := rfl
@[simp] theorem keepSourced_mmAddr (d : List Byte) : (keepSourced d s).mmAddr = s.mmAddr := rfl
@[simp] theorem keepSourced_mmDev (d : List Byte) : (keepSourced d s).mmDev = s.mmDev := rfl
@[simp] theorem keepSourced_mmExp (d : List Byte) : (keepSourced d s).mmExp = s.mmExp := rfl
@[simp] theorem keepSourced_pct (d : List Byte) : (keepSourced d s).pct = s.pct := rfl
@[simp] theorem keepSourced_pollLimit (d : List Byte) : (keepSourced d s).pollLimit = s.pollLimit := rfl
@[simp] theorem keepSourced_pollCnt (d : List Byte) : (keepSourced d s).pollCnt = s.pollCnt := rfl
@[simp] theorem keepSourced_wbuf (d : List Byte) : (keepSourced d s).wbuf = s.wbuf := rfl
@[simp] theorem keepSourced_dbuf (d : List Byte) : (keepSourced d s).dbuf = s.dbuf := rfl
@[simp] theorem keepSourced_lOp (d : List Byte) : (keepSourced d s).lOp = s.lOp := rfl
@[simp] theorem keepSourced_lByte (d : List Byte) : (keepSourced d s).lByte = s.lByte := rfl
@[simp] theorem keepSourced_lAddr (d : List Byte) : (keepSourced d s).lAddr = s.lAddr := rfl
@[simp] theorem keepSourced_lLen (d : List Byte) : (keepSourced d s).lLen = s.lLen := rfl
@[simp] theorem keepSourced_lLimit (d : List Byte) : (keepSourced d s).lLimit = s.lLimit := rfl
@[simp] theorem keepSourced_pos (d : List Byte) : (keepSourced d s).pos = s.pos := rfl
@[simp] theorem keepSourced_chunkIx (d : List Byte) : (keepSourced d s).chunkIx = s.chunkIx := rfl
@[simp] theorem keepSourced_pageIx (d : List Byte) : (keepSourced d s).pageIx = s.pageIx := rfl
@[simp] theorem keepSourced_strideIx (d : List Byte) : (keepSourced d s).strideIx = s.strideIx := rfl
@[simp] theorem keepSourced_byteIx (d : List Byte) : (keepSourced d s).byteIx = s.byteIx := rfl
@[simp] theorem keepSourced_pollN (d : List Byte) : (keepSourced d s).pollN = s.pollN := rfl
@[simp] theorem keepSourced_sample (d : List Byte) : (keepSourced d s).sample = s.sample := rfl
@[simp] theorem keepSourced_sourced (d : List Byte) : (keepSourced d s).sourced = some d := rfl
@[simp] theorem keepSourced_events (d : List Byte) : (keepSourced d s).events = s.events := rfl
@[simp] theorem keepSourced_rdata (d : List Byte) : (keepSourced d s).rdata = s.rdata := rfl
@[simp] theorem keepSourced_flash (d : List Byte) : (keepSourced d s).flash = s.flash := rfl
@[simp] theorem keepSourced_moves (d : List Byte) : (keepSourced d s).moves = s.moves := rfl
@[simp] theorem keepSourced_source (d : List Byte) : (keepSourced d s).source = s.source := rfl
@[simp] theorem keepSourced_sink (d : List Byte) : (keepSourced d s).sink = s.sink := rfl
@[simp] theorem keepSourced_draws (d : List Byte) : (keepSourced d s).draws = s.draws := rfl
@[simp] theorem keepSourced_ramDraw (d : List Byte) : (keepSourced d s).ramDraw = s.ramDraw := rfl

/-! assignSourced -/

@[simp] theorem assignSourced_cmd (k : Nat) : (assignSourced k s).cmd = s.cmd := rfl
@[simp] theorem assignSourced_addr (k : Nat) : (assignSourced k s).addr = s.addr := rfl
@[simp] theorem assignSourced_len (k : Nat) : (assignSourced k s).len = s.len := rfl
@[simp] theorem assignSourced_busy (k : Nat) : (assignSourced k s).busy = s.busy := rfl
@[simp] theorem assignSourced_done (k : Nat) : (assignSourced k s).done = s.done := rfl
@[simp] theorem assignSourced_err (k : Nat) : (assignSourced k s).err = s.err := rfl
@[simp] theorem assignSourced_cs (k : Nat) : (assignSourced k s).cs = s.cs := rfl
@[simp] theorem assignSourced_cmdRej (k : Nat) : (assignSourced k s).cmdRej = s.cmdRej := rfl
@[simp] theorem assignSourced_cause (k : Nat) : (assignSourced k s).cause = s.cause := rfl
@[simp] theorem assignSourced_phase (k : Nat) : (assignSourced k s).phase = s.phase := rfl
@[simp] theorem assignSourced_doneIe (k : Nat) : (assignSourced k s).doneIe = s.doneIe := rfl
@[simp] theorem assignSourced_errIe (k : Nat) : (assignSourced k s).errIe = s.errIe := rfl
@[simp] theorem assignSourced_rejIe (k : Nat) : (assignSourced k s).rejIe = s.rejIe := rfl
@[simp] theorem assignSourced_idMfr (k : Nat) : (assignSourced k s).idMfr = s.idMfr := rfl
@[simp] theorem assignSourced_idType (k : Nat) : (assignSourced k s).idType = s.idType := rfl
@[simp] theorem assignSourced_idCap (k : Nat) : (assignSourced k s).idCap = s.idCap := rfl
@[simp] theorem assignSourced_sr1 (k : Nat) : (assignSourced k s).sr1 = s.sr1 := rfl
@[simp] theorem assignSourced_sr2 (k : Nat) : (assignSourced k s).sr2 = s.sr2 := rfl
@[simp] theorem assignSourced_rxdata (k : Nat) : (assignSourced k s).rxdata = s.rxdata := rfl
@[simp] theorem assignSourced_cursor (k : Nat) : (assignSourced k s).cursor = s.cursor := rfl
@[simp] theorem assignSourced_mmAddr (k : Nat) : (assignSourced k s).mmAddr = s.mmAddr := rfl
@[simp] theorem assignSourced_mmDev (k : Nat) : (assignSourced k s).mmDev = s.mmDev := rfl
@[simp] theorem assignSourced_mmExp (k : Nat) : (assignSourced k s).mmExp = s.mmExp := rfl
@[simp] theorem assignSourced_pct (k : Nat) : (assignSourced k s).pct = s.pct := rfl
@[simp] theorem assignSourced_pollLimit (k : Nat) : (assignSourced k s).pollLimit = s.pollLimit := rfl
@[simp] theorem assignSourced_pollCnt (k : Nat) : (assignSourced k s).pollCnt = s.pollCnt := rfl
@[simp] theorem assignSourced_wbuf (k : Nat) : (assignSourced k s).wbuf = s.sourced.elim s.wbuf fun d => (fillWbuf k d s).wbuf := rfl
@[simp] theorem assignSourced_dbuf (k : Nat) : (assignSourced k s).dbuf = s.dbuf := rfl
@[simp] theorem assignSourced_lOp (k : Nat) : (assignSourced k s).lOp = s.lOp := rfl
@[simp] theorem assignSourced_lByte (k : Nat) : (assignSourced k s).lByte = s.lByte := rfl
@[simp] theorem assignSourced_lAddr (k : Nat) : (assignSourced k s).lAddr = s.lAddr := rfl
@[simp] theorem assignSourced_lLen (k : Nat) : (assignSourced k s).lLen = s.lLen := rfl
@[simp] theorem assignSourced_lLimit (k : Nat) : (assignSourced k s).lLimit = s.lLimit := rfl
@[simp] theorem assignSourced_pos (k : Nat) : (assignSourced k s).pos = s.pos := rfl
@[simp] theorem assignSourced_chunkIx (k : Nat) : (assignSourced k s).chunkIx = s.chunkIx := rfl
@[simp] theorem assignSourced_pageIx (k : Nat) : (assignSourced k s).pageIx = s.pageIx := rfl
@[simp] theorem assignSourced_strideIx (k : Nat) : (assignSourced k s).strideIx = s.strideIx := rfl
@[simp] theorem assignSourced_byteIx (k : Nat) : (assignSourced k s).byteIx = s.byteIx := rfl
@[simp] theorem assignSourced_pollN (k : Nat) : (assignSourced k s).pollN = s.pollN := rfl
@[simp] theorem assignSourced_sample (k : Nat) : (assignSourced k s).sample = s.sample := rfl
@[simp] theorem assignSourced_sourced (k : Nat) : (assignSourced k s).sourced = none := rfl
@[simp] theorem assignSourced_events (k : Nat) : (assignSourced k s).events = s.events := rfl
@[simp] theorem assignSourced_rdata (k : Nat) : (assignSourced k s).rdata = s.rdata := rfl
@[simp] theorem assignSourced_flash (k : Nat) : (assignSourced k s).flash = s.flash := rfl
@[simp] theorem assignSourced_moves (k : Nat) : (assignSourced k s).moves = s.moves := rfl
@[simp] theorem assignSourced_source (k : Nat) : (assignSourced k s).source = s.source := rfl
@[simp] theorem assignSourced_sink (k : Nat) : (assignSourced k s).sink = s.sink := rfl
@[simp] theorem assignSourced_draws (k : Nat) : (assignSourced k s).draws = s.draws := rfl
@[simp] theorem assignSourced_ramDraw (k : Nat) : (assignSourced k s).ramDraw = s.ramDraw := rfl

/-! recordMismatch -/

@[simp] theorem recordMismatch_cmd (a : Nat) (d e : Byte) : (recordMismatch a d e s).cmd = s.cmd := rfl
@[simp] theorem recordMismatch_addr (a : Nat) (d e : Byte) : (recordMismatch a d e s).addr = s.addr := rfl
@[simp] theorem recordMismatch_len (a : Nat) (d e : Byte) : (recordMismatch a d e s).len = s.len := rfl
@[simp] theorem recordMismatch_busy (a : Nat) (d e : Byte) : (recordMismatch a d e s).busy = s.busy := rfl
@[simp] theorem recordMismatch_done (a : Nat) (d e : Byte) : (recordMismatch a d e s).done = s.done := rfl
@[simp] theorem recordMismatch_err (a : Nat) (d e : Byte) : (recordMismatch a d e s).err = s.err := rfl
@[simp] theorem recordMismatch_cs (a : Nat) (d e : Byte) : (recordMismatch a d e s).cs = s.cs := rfl
@[simp] theorem recordMismatch_cmdRej (a : Nat) (d e : Byte) : (recordMismatch a d e s).cmdRej = s.cmdRej := rfl
@[simp] theorem recordMismatch_cause (a : Nat) (d e : Byte) : (recordMismatch a d e s).cause = s.cause := rfl
@[simp] theorem recordMismatch_phase (a : Nat) (d e : Byte) : (recordMismatch a d e s).phase = s.phase := rfl
@[simp] theorem recordMismatch_doneIe (a : Nat) (d e : Byte) : (recordMismatch a d e s).doneIe = s.doneIe := rfl
@[simp] theorem recordMismatch_errIe (a : Nat) (d e : Byte) : (recordMismatch a d e s).errIe = s.errIe := rfl
@[simp] theorem recordMismatch_rejIe (a : Nat) (d e : Byte) : (recordMismatch a d e s).rejIe = s.rejIe := rfl
@[simp] theorem recordMismatch_idMfr (a : Nat) (d e : Byte) : (recordMismatch a d e s).idMfr = s.idMfr := rfl
@[simp] theorem recordMismatch_idType (a : Nat) (d e : Byte) : (recordMismatch a d e s).idType = s.idType := rfl
@[simp] theorem recordMismatch_idCap (a : Nat) (d e : Byte) : (recordMismatch a d e s).idCap = s.idCap := rfl
@[simp] theorem recordMismatch_sr1 (a : Nat) (d e : Byte) : (recordMismatch a d e s).sr1 = s.sr1 := rfl
@[simp] theorem recordMismatch_sr2 (a : Nat) (d e : Byte) : (recordMismatch a d e s).sr2 = s.sr2 := rfl
@[simp] theorem recordMismatch_rxdata (a : Nat) (d e : Byte) : (recordMismatch a d e s).rxdata = s.rxdata := rfl
@[simp] theorem recordMismatch_cursor (a : Nat) (d e : Byte) : (recordMismatch a d e s).cursor = s.cursor := rfl
@[simp] theorem recordMismatch_mmAddr (a : Nat) (d e : Byte) : (recordMismatch a d e s).mmAddr = BitVec.ofNat 24 a := rfl
@[simp] theorem recordMismatch_mmDev (a : Nat) (d e : Byte) : (recordMismatch a d e s).mmDev = d := rfl
@[simp] theorem recordMismatch_mmExp (a : Nat) (d e : Byte) : (recordMismatch a d e s).mmExp = e := rfl
@[simp] theorem recordMismatch_pct (a : Nat) (d e : Byte) : (recordMismatch a d e s).pct = s.pct := rfl
@[simp] theorem recordMismatch_pollLimit (a : Nat) (d e : Byte) : (recordMismatch a d e s).pollLimit = s.pollLimit := rfl
@[simp] theorem recordMismatch_pollCnt (a : Nat) (d e : Byte) : (recordMismatch a d e s).pollCnt = s.pollCnt := rfl
@[simp] theorem recordMismatch_wbuf (a : Nat) (d e : Byte) : (recordMismatch a d e s).wbuf = s.wbuf := rfl
@[simp] theorem recordMismatch_dbuf (a : Nat) (d e : Byte) : (recordMismatch a d e s).dbuf = s.dbuf := rfl
@[simp] theorem recordMismatch_lOp (a : Nat) (d e : Byte) : (recordMismatch a d e s).lOp = s.lOp := rfl
@[simp] theorem recordMismatch_lByte (a : Nat) (d e : Byte) : (recordMismatch a d e s).lByte = s.lByte := rfl
@[simp] theorem recordMismatch_lAddr (a : Nat) (d e : Byte) : (recordMismatch a d e s).lAddr = s.lAddr := rfl
@[simp] theorem recordMismatch_lLen (a : Nat) (d e : Byte) : (recordMismatch a d e s).lLen = s.lLen := rfl
@[simp] theorem recordMismatch_lLimit (a : Nat) (d e : Byte) : (recordMismatch a d e s).lLimit = s.lLimit := rfl
@[simp] theorem recordMismatch_pos (a : Nat) (d e : Byte) : (recordMismatch a d e s).pos = s.pos := rfl
@[simp] theorem recordMismatch_chunkIx (a : Nat) (d e : Byte) : (recordMismatch a d e s).chunkIx = s.chunkIx := rfl
@[simp] theorem recordMismatch_pageIx (a : Nat) (d e : Byte) : (recordMismatch a d e s).pageIx = s.pageIx := rfl
@[simp] theorem recordMismatch_strideIx (a : Nat) (d e : Byte) : (recordMismatch a d e s).strideIx = s.strideIx := rfl
@[simp] theorem recordMismatch_byteIx (a : Nat) (d e : Byte) : (recordMismatch a d e s).byteIx = s.byteIx := rfl
@[simp] theorem recordMismatch_pollN (a : Nat) (d e : Byte) : (recordMismatch a d e s).pollN = s.pollN := rfl
@[simp] theorem recordMismatch_sample (a : Nat) (d e : Byte) : (recordMismatch a d e s).sample = s.sample := rfl
@[simp] theorem recordMismatch_sourced (a : Nat) (d e : Byte) : (recordMismatch a d e s).sourced = s.sourced := rfl
@[simp] theorem recordMismatch_events (a : Nat) (d e : Byte) : (recordMismatch a d e s).events = s.events := rfl
@[simp] theorem recordMismatch_rdata (a : Nat) (d e : Byte) : (recordMismatch a d e s).rdata = s.rdata := rfl
@[simp] theorem recordMismatch_flash (a : Nat) (d e : Byte) : (recordMismatch a d e s).flash = s.flash := rfl
@[simp] theorem recordMismatch_moves (a : Nat) (d e : Byte) : (recordMismatch a d e s).moves = s.moves := rfl
@[simp] theorem recordMismatch_source (a : Nat) (d e : Byte) : (recordMismatch a d e s).source = s.source := rfl
@[simp] theorem recordMismatch_sink (a : Nat) (d e : Byte) : (recordMismatch a d e s).sink = s.sink := rfl
@[simp] theorem recordMismatch_draws (a : Nat) (d e : Byte) : (recordMismatch a d e s).draws = s.draws := rfl
@[simp] theorem recordMismatch_ramDraw (a : Nat) (d e : Byte) : (recordMismatch a d e s).ramDraw = s.ramDraw := rfl

/-! keepSr1 -/

@[simp] theorem keepSr1_cmd (j : Nat) (b : Byte) : (keepSr1 j b s).cmd = s.cmd := rfl
@[simp] theorem keepSr1_addr (j : Nat) (b : Byte) : (keepSr1 j b s).addr = s.addr := rfl
@[simp] theorem keepSr1_len (j : Nat) (b : Byte) : (keepSr1 j b s).len = s.len := rfl
@[simp] theorem keepSr1_busy (j : Nat) (b : Byte) : (keepSr1 j b s).busy = s.busy := rfl
@[simp] theorem keepSr1_done (j : Nat) (b : Byte) : (keepSr1 j b s).done = s.done := rfl
@[simp] theorem keepSr1_err (j : Nat) (b : Byte) : (keepSr1 j b s).err = s.err := rfl
@[simp] theorem keepSr1_cs (j : Nat) (b : Byte) : (keepSr1 j b s).cs = s.cs := rfl
@[simp] theorem keepSr1_cmdRej (j : Nat) (b : Byte) : (keepSr1 j b s).cmdRej = s.cmdRej := rfl
@[simp] theorem keepSr1_cause (j : Nat) (b : Byte) : (keepSr1 j b s).cause = s.cause := rfl
@[simp] theorem keepSr1_phase (j : Nat) (b : Byte) : (keepSr1 j b s).phase = s.phase := rfl
@[simp] theorem keepSr1_doneIe (j : Nat) (b : Byte) : (keepSr1 j b s).doneIe = s.doneIe := rfl
@[simp] theorem keepSr1_errIe (j : Nat) (b : Byte) : (keepSr1 j b s).errIe = s.errIe := rfl
@[simp] theorem keepSr1_rejIe (j : Nat) (b : Byte) : (keepSr1 j b s).rejIe = s.rejIe := rfl
@[simp] theorem keepSr1_idMfr (j : Nat) (b : Byte) : (keepSr1 j b s).idMfr = s.idMfr := rfl
@[simp] theorem keepSr1_idType (j : Nat) (b : Byte) : (keepSr1 j b s).idType = s.idType := rfl
@[simp] theorem keepSr1_idCap (j : Nat) (b : Byte) : (keepSr1 j b s).idCap = s.idCap := rfl
@[simp] theorem keepSr1_sr1 (j : Nat) (b : Byte) : (keepSr1 j b s).sr1 = b := rfl
@[simp] theorem keepSr1_sr2 (j : Nat) (b : Byte) : (keepSr1 j b s).sr2 = s.sr2 := rfl
@[simp] theorem keepSr1_rxdata (j : Nat) (b : Byte) : (keepSr1 j b s).rxdata = s.rxdata := rfl
@[simp] theorem keepSr1_cursor (j : Nat) (b : Byte) : (keepSr1 j b s).cursor = s.cursor := rfl
@[simp] theorem keepSr1_mmAddr (j : Nat) (b : Byte) : (keepSr1 j b s).mmAddr = s.mmAddr := rfl
@[simp] theorem keepSr1_mmDev (j : Nat) (b : Byte) : (keepSr1 j b s).mmDev = s.mmDev := rfl
@[simp] theorem keepSr1_mmExp (j : Nat) (b : Byte) : (keepSr1 j b s).mmExp = s.mmExp := rfl
@[simp] theorem keepSr1_pct (j : Nat) (b : Byte) : (keepSr1 j b s).pct = s.pct := rfl
@[simp] theorem keepSr1_pollLimit (j : Nat) (b : Byte) : (keepSr1 j b s).pollLimit = s.pollLimit := rfl
@[simp] theorem keepSr1_pollCnt (j : Nat) (b : Byte) : (keepSr1 j b s).pollCnt = s.pollCnt := rfl
@[simp] theorem keepSr1_wbuf (j : Nat) (b : Byte) : (keepSr1 j b s).wbuf = s.wbuf := rfl
@[simp] theorem keepSr1_dbuf (j : Nat) (b : Byte) : (keepSr1 j b s).dbuf = s.dbuf := rfl
@[simp] theorem keepSr1_lOp (j : Nat) (b : Byte) : (keepSr1 j b s).lOp = s.lOp := rfl
@[simp] theorem keepSr1_lByte (j : Nat) (b : Byte) : (keepSr1 j b s).lByte = s.lByte := rfl
@[simp] theorem keepSr1_lAddr (j : Nat) (b : Byte) : (keepSr1 j b s).lAddr = s.lAddr := rfl
@[simp] theorem keepSr1_lLen (j : Nat) (b : Byte) : (keepSr1 j b s).lLen = s.lLen := rfl
@[simp] theorem keepSr1_lLimit (j : Nat) (b : Byte) : (keepSr1 j b s).lLimit = s.lLimit := rfl
@[simp] theorem keepSr1_pos (j : Nat) (b : Byte) : (keepSr1 j b s).pos = s.pos := rfl
@[simp] theorem keepSr1_chunkIx (j : Nat) (b : Byte) : (keepSr1 j b s).chunkIx = s.chunkIx := rfl
@[simp] theorem keepSr1_pageIx (j : Nat) (b : Byte) : (keepSr1 j b s).pageIx = s.pageIx := rfl
@[simp] theorem keepSr1_strideIx (j : Nat) (b : Byte) : (keepSr1 j b s).strideIx = s.strideIx := rfl
@[simp] theorem keepSr1_byteIx (j : Nat) (b : Byte) : (keepSr1 j b s).byteIx = s.byteIx := rfl
@[simp] theorem keepSr1_pollN (j : Nat) (b : Byte) : (keepSr1 j b s).pollN = s.pollN := rfl
@[simp] theorem keepSr1_sample (j : Nat) (b : Byte) : (keepSr1 j b s).sample = s.sample := rfl
@[simp] theorem keepSr1_sourced (j : Nat) (b : Byte) : (keepSr1 j b s).sourced = s.sourced := rfl
@[simp] theorem keepSr1_events (j : Nat) (b : Byte) : (keepSr1 j b s).events = s.events := rfl
@[simp] theorem keepSr1_rdata (j : Nat) (b : Byte) : (keepSr1 j b s).rdata = s.rdata := rfl
@[simp] theorem keepSr1_flash (j : Nat) (b : Byte) : (keepSr1 j b s).flash = s.flash := rfl
@[simp] theorem keepSr1_moves (j : Nat) (b : Byte) : (keepSr1 j b s).moves = s.moves := rfl
@[simp] theorem keepSr1_source (j : Nat) (b : Byte) : (keepSr1 j b s).source = s.source := rfl
@[simp] theorem keepSr1_sink (j : Nat) (b : Byte) : (keepSr1 j b s).sink = s.sink := rfl
@[simp] theorem keepSr1_draws (j : Nat) (b : Byte) : (keepSr1 j b s).draws = s.draws := rfl
@[simp] theorem keepSr1_ramDraw (j : Nat) (b : Byte) : (keepSr1 j b s).ramDraw = s.ramDraw := rfl

/-! keepSr2 -/

@[simp] theorem keepSr2_cmd (j : Nat) (b : Byte) : (keepSr2 j b s).cmd = s.cmd := rfl
@[simp] theorem keepSr2_addr (j : Nat) (b : Byte) : (keepSr2 j b s).addr = s.addr := rfl
@[simp] theorem keepSr2_len (j : Nat) (b : Byte) : (keepSr2 j b s).len = s.len := rfl
@[simp] theorem keepSr2_busy (j : Nat) (b : Byte) : (keepSr2 j b s).busy = s.busy := rfl
@[simp] theorem keepSr2_done (j : Nat) (b : Byte) : (keepSr2 j b s).done = s.done := rfl
@[simp] theorem keepSr2_err (j : Nat) (b : Byte) : (keepSr2 j b s).err = s.err := rfl
@[simp] theorem keepSr2_cs (j : Nat) (b : Byte) : (keepSr2 j b s).cs = s.cs := rfl
@[simp] theorem keepSr2_cmdRej (j : Nat) (b : Byte) : (keepSr2 j b s).cmdRej = s.cmdRej := rfl
@[simp] theorem keepSr2_cause (j : Nat) (b : Byte) : (keepSr2 j b s).cause = s.cause := rfl
@[simp] theorem keepSr2_phase (j : Nat) (b : Byte) : (keepSr2 j b s).phase = s.phase := rfl
@[simp] theorem keepSr2_doneIe (j : Nat) (b : Byte) : (keepSr2 j b s).doneIe = s.doneIe := rfl
@[simp] theorem keepSr2_errIe (j : Nat) (b : Byte) : (keepSr2 j b s).errIe = s.errIe := rfl
@[simp] theorem keepSr2_rejIe (j : Nat) (b : Byte) : (keepSr2 j b s).rejIe = s.rejIe := rfl
@[simp] theorem keepSr2_idMfr (j : Nat) (b : Byte) : (keepSr2 j b s).idMfr = s.idMfr := rfl
@[simp] theorem keepSr2_idType (j : Nat) (b : Byte) : (keepSr2 j b s).idType = s.idType := rfl
@[simp] theorem keepSr2_idCap (j : Nat) (b : Byte) : (keepSr2 j b s).idCap = s.idCap := rfl
@[simp] theorem keepSr2_sr1 (j : Nat) (b : Byte) : (keepSr2 j b s).sr1 = s.sr1 := rfl
@[simp] theorem keepSr2_sr2 (j : Nat) (b : Byte) : (keepSr2 j b s).sr2 = b := rfl
@[simp] theorem keepSr2_rxdata (j : Nat) (b : Byte) : (keepSr2 j b s).rxdata = s.rxdata := rfl
@[simp] theorem keepSr2_cursor (j : Nat) (b : Byte) : (keepSr2 j b s).cursor = s.cursor := rfl
@[simp] theorem keepSr2_mmAddr (j : Nat) (b : Byte) : (keepSr2 j b s).mmAddr = s.mmAddr := rfl
@[simp] theorem keepSr2_mmDev (j : Nat) (b : Byte) : (keepSr2 j b s).mmDev = s.mmDev := rfl
@[simp] theorem keepSr2_mmExp (j : Nat) (b : Byte) : (keepSr2 j b s).mmExp = s.mmExp := rfl
@[simp] theorem keepSr2_pct (j : Nat) (b : Byte) : (keepSr2 j b s).pct = s.pct := rfl
@[simp] theorem keepSr2_pollLimit (j : Nat) (b : Byte) : (keepSr2 j b s).pollLimit = s.pollLimit := rfl
@[simp] theorem keepSr2_pollCnt (j : Nat) (b : Byte) : (keepSr2 j b s).pollCnt = s.pollCnt := rfl
@[simp] theorem keepSr2_wbuf (j : Nat) (b : Byte) : (keepSr2 j b s).wbuf = s.wbuf := rfl
@[simp] theorem keepSr2_dbuf (j : Nat) (b : Byte) : (keepSr2 j b s).dbuf = s.dbuf := rfl
@[simp] theorem keepSr2_lOp (j : Nat) (b : Byte) : (keepSr2 j b s).lOp = s.lOp := rfl
@[simp] theorem keepSr2_lByte (j : Nat) (b : Byte) : (keepSr2 j b s).lByte = s.lByte := rfl
@[simp] theorem keepSr2_lAddr (j : Nat) (b : Byte) : (keepSr2 j b s).lAddr = s.lAddr := rfl
@[simp] theorem keepSr2_lLen (j : Nat) (b : Byte) : (keepSr2 j b s).lLen = s.lLen := rfl
@[simp] theorem keepSr2_lLimit (j : Nat) (b : Byte) : (keepSr2 j b s).lLimit = s.lLimit := rfl
@[simp] theorem keepSr2_pos (j : Nat) (b : Byte) : (keepSr2 j b s).pos = s.pos := rfl
@[simp] theorem keepSr2_chunkIx (j : Nat) (b : Byte) : (keepSr2 j b s).chunkIx = s.chunkIx := rfl
@[simp] theorem keepSr2_pageIx (j : Nat) (b : Byte) : (keepSr2 j b s).pageIx = s.pageIx := rfl
@[simp] theorem keepSr2_strideIx (j : Nat) (b : Byte) : (keepSr2 j b s).strideIx = s.strideIx := rfl
@[simp] theorem keepSr2_byteIx (j : Nat) (b : Byte) : (keepSr2 j b s).byteIx = s.byteIx := rfl
@[simp] theorem keepSr2_pollN (j : Nat) (b : Byte) : (keepSr2 j b s).pollN = s.pollN := rfl
@[simp] theorem keepSr2_sample (j : Nat) (b : Byte) : (keepSr2 j b s).sample = s.sample := rfl
@[simp] theorem keepSr2_sourced (j : Nat) (b : Byte) : (keepSr2 j b s).sourced = s.sourced := rfl
@[simp] theorem keepSr2_events (j : Nat) (b : Byte) : (keepSr2 j b s).events = s.events := rfl
@[simp] theorem keepSr2_rdata (j : Nat) (b : Byte) : (keepSr2 j b s).rdata = s.rdata := rfl
@[simp] theorem keepSr2_flash (j : Nat) (b : Byte) : (keepSr2 j b s).flash = s.flash := rfl
@[simp] theorem keepSr2_moves (j : Nat) (b : Byte) : (keepSr2 j b s).moves = s.moves := rfl
@[simp] theorem keepSr2_source (j : Nat) (b : Byte) : (keepSr2 j b s).source = s.source := rfl
@[simp] theorem keepSr2_sink (j : Nat) (b : Byte) : (keepSr2 j b s).sink = s.sink := rfl
@[simp] theorem keepSr2_draws (j : Nat) (b : Byte) : (keepSr2 j b s).draws = s.draws := rfl
@[simp] theorem keepSr2_ramDraw (j : Nat) (b : Byte) : (keepSr2 j b s).ramDraw = s.ramDraw := rfl

/-! keepRxdata -/

@[simp] theorem keepRxdata_cmd (b : Byte) : (keepRxdata b s).cmd = s.cmd := rfl
@[simp] theorem keepRxdata_addr (b : Byte) : (keepRxdata b s).addr = s.addr := rfl
@[simp] theorem keepRxdata_len (b : Byte) : (keepRxdata b s).len = s.len := rfl
@[simp] theorem keepRxdata_busy (b : Byte) : (keepRxdata b s).busy = s.busy := rfl
@[simp] theorem keepRxdata_done (b : Byte) : (keepRxdata b s).done = s.done := rfl
@[simp] theorem keepRxdata_err (b : Byte) : (keepRxdata b s).err = s.err := rfl
@[simp] theorem keepRxdata_cs (b : Byte) : (keepRxdata b s).cs = s.cs := rfl
@[simp] theorem keepRxdata_cmdRej (b : Byte) : (keepRxdata b s).cmdRej = s.cmdRej := rfl
@[simp] theorem keepRxdata_cause (b : Byte) : (keepRxdata b s).cause = s.cause := rfl
@[simp] theorem keepRxdata_phase (b : Byte) : (keepRxdata b s).phase = s.phase := rfl
@[simp] theorem keepRxdata_doneIe (b : Byte) : (keepRxdata b s).doneIe = s.doneIe := rfl
@[simp] theorem keepRxdata_errIe (b : Byte) : (keepRxdata b s).errIe = s.errIe := rfl
@[simp] theorem keepRxdata_rejIe (b : Byte) : (keepRxdata b s).rejIe = s.rejIe := rfl
@[simp] theorem keepRxdata_idMfr (b : Byte) : (keepRxdata b s).idMfr = s.idMfr := rfl
@[simp] theorem keepRxdata_idType (b : Byte) : (keepRxdata b s).idType = s.idType := rfl
@[simp] theorem keepRxdata_idCap (b : Byte) : (keepRxdata b s).idCap = s.idCap := rfl
@[simp] theorem keepRxdata_sr1 (b : Byte) : (keepRxdata b s).sr1 = s.sr1 := rfl
@[simp] theorem keepRxdata_sr2 (b : Byte) : (keepRxdata b s).sr2 = s.sr2 := rfl
@[simp] theorem keepRxdata_rxdata (b : Byte) : (keepRxdata b s).rxdata = b := rfl
@[simp] theorem keepRxdata_cursor (b : Byte) : (keepRxdata b s).cursor = s.cursor := rfl
@[simp] theorem keepRxdata_mmAddr (b : Byte) : (keepRxdata b s).mmAddr = s.mmAddr := rfl
@[simp] theorem keepRxdata_mmDev (b : Byte) : (keepRxdata b s).mmDev = s.mmDev := rfl
@[simp] theorem keepRxdata_mmExp (b : Byte) : (keepRxdata b s).mmExp = s.mmExp := rfl
@[simp] theorem keepRxdata_pct (b : Byte) : (keepRxdata b s).pct = s.pct := rfl
@[simp] theorem keepRxdata_pollLimit (b : Byte) : (keepRxdata b s).pollLimit = s.pollLimit := rfl
@[simp] theorem keepRxdata_pollCnt (b : Byte) : (keepRxdata b s).pollCnt = s.pollCnt := rfl
@[simp] theorem keepRxdata_wbuf (b : Byte) : (keepRxdata b s).wbuf = s.wbuf := rfl
@[simp] theorem keepRxdata_dbuf (b : Byte) : (keepRxdata b s).dbuf = s.dbuf := rfl
@[simp] theorem keepRxdata_lOp (b : Byte) : (keepRxdata b s).lOp = s.lOp := rfl
@[simp] theorem keepRxdata_lByte (b : Byte) : (keepRxdata b s).lByte = s.lByte := rfl
@[simp] theorem keepRxdata_lAddr (b : Byte) : (keepRxdata b s).lAddr = s.lAddr := rfl
@[simp] theorem keepRxdata_lLen (b : Byte) : (keepRxdata b s).lLen = s.lLen := rfl
@[simp] theorem keepRxdata_lLimit (b : Byte) : (keepRxdata b s).lLimit = s.lLimit := rfl
@[simp] theorem keepRxdata_pos (b : Byte) : (keepRxdata b s).pos = s.pos := rfl
@[simp] theorem keepRxdata_chunkIx (b : Byte) : (keepRxdata b s).chunkIx = s.chunkIx := rfl
@[simp] theorem keepRxdata_pageIx (b : Byte) : (keepRxdata b s).pageIx = s.pageIx := rfl
@[simp] theorem keepRxdata_strideIx (b : Byte) : (keepRxdata b s).strideIx = s.strideIx := rfl
@[simp] theorem keepRxdata_byteIx (b : Byte) : (keepRxdata b s).byteIx = s.byteIx := rfl
@[simp] theorem keepRxdata_pollN (b : Byte) : (keepRxdata b s).pollN = s.pollN := rfl
@[simp] theorem keepRxdata_sample (b : Byte) : (keepRxdata b s).sample = s.sample := rfl
@[simp] theorem keepRxdata_sourced (b : Byte) : (keepRxdata b s).sourced = s.sourced := rfl
@[simp] theorem keepRxdata_events (b : Byte) : (keepRxdata b s).events = s.events := rfl
@[simp] theorem keepRxdata_rdata (b : Byte) : (keepRxdata b s).rdata = s.rdata := rfl
@[simp] theorem keepRxdata_flash (b : Byte) : (keepRxdata b s).flash = s.flash := rfl
@[simp] theorem keepRxdata_moves (b : Byte) : (keepRxdata b s).moves = s.moves := rfl
@[simp] theorem keepRxdata_source (b : Byte) : (keepRxdata b s).source = s.source := rfl
@[simp] theorem keepRxdata_sink (b : Byte) : (keepRxdata b s).sink = s.sink := rfl
@[simp] theorem keepRxdata_draws (b : Byte) : (keepRxdata b s).draws = s.draws := rfl
@[simp] theorem keepRxdata_ramDraw (b : Byte) : (keepRxdata b s).ramDraw = s.ramDraw := rfl

end Sys2Proof.Machine
end

