-- ==== Sys2Proof/Laws/Ops.lean ====
section
/-! SUPPORT. What each shared operation can do, said once: the buffers, the wire history, the streams, issue, and
the step of a scripted move. -/

namespace Sys2Proof.Machine

/-! ### The buffers -/

@[simp] theorem dbufAt_setDbuf (s : State) (k j : Nat) (v : Byte) :
    dbufAt (setDbuf k v s) j = if j = k then v else dbufAt s j := by
  simp only [dbufAt, setDbuf_dbuf, setDbuf_ramDraw, Memory.read_none_write]
  split <;> rfl

@[simp] theorem wbufAt_setWbuf (s : State) (k j : Nat) (v : Byte) :
    wbufAt (setWbuf k v s) j = if j = k then v else wbufAt s j := by
  simp only [wbufAt, setWbuf_wbuf, setWbuf_ramDraw, Memory.read_none_write]
  split <;> rfl

theorem wbufAt_fillWbuf (s : State) (k j : Nat) (d : List Byte) :
    wbufAt (fillWbuf k d s) j =
      if k ≤ j ∧ j < k + d.length then d.getD (j - k) 0 else wbufAt s j := by
  simp only [wbufAt, fillWbuf_wbuf, fillWbuf_ramDraw, Memory.read_none_writeList]
  split
  · rename_i h
    have : j - k < d.length := by omega
    simp [List.getD, List.getElem?_eq_getElem this]
  · rfl

/-- DBUF reads through the memory and the draw in force alone. -/
theorem dbufAt_congr {s t : State} (h : t.dbuf = s.dbuf) (h' : t.ramDraw = s.ramDraw) (k : Nat) :
    dbufAt t k = dbufAt s k := by simp [dbufAt, h, h']

/-- WBUF reads through the memory and the draw in force alone. -/
theorem wbufAt_congr {s t : State} (h : t.wbuf = s.wbuf) (h' : t.ramDraw = s.ramDraw) (k : Nat) :
    wbufAt t k = wbufAt s k := by simp [wbufAt, h, h']

/-! ### What waits for the next primitive (R21) -/

/-- Where no sample waits nothing is assigned. -/
theorem assignSample_none {s : State} (h : s.sample = none) : assignSample s = s := by
  apply State.ext <;> simp [sampleCount, h]

/-- A sample that waits is counted and kept. -/
theorem assignSample_some {s : State} {b : Byte} (h : s.sample = some b) :
    assignSample s =
      { s with pollN := s.pollN + 1, pollCnt := saturate (s.pollN + 1), sr1 := b, sample := none } := by
  apply State.ext <;> simp [sampleCount, h]

/-- Where no source bytes wait nothing is assigned. -/
theorem assignSourced_none {s : State} (k : Nat) (h : s.sourced = none) : assignSourced k s = s := by
  apply State.ext <;> simp [h]

/-- Source bytes that wait go to WBUF from `k` on. -/
theorem assignSourced_some {s : State} {d : List Byte} (k : Nat) (h : s.sourced = some d) :
    assignSourced k s = { fillWbuf k d s with sourced := none } := by
  apply State.ext <;> simp [h]

theorem wbufAt_assignSourced {s : State} {d : List Byte} (k j : Nat) (h : s.sourced = some d) :
    wbufAt (assignSourced k s) j = if k ≤ j ∧ j < k + d.length then d.getD (j - k) 0 else wbufAt s j := by
  rw [assignSourced_some k h]
  exact wbufAt_fillWbuf s k j d

/-! ### The SPI port -/

/-- A byte the oracle has settled on is the byte received. -/
theorem rx_of_settled {s : State} {b : Byte} {bs : List Byte} (tx : Byte) (h : s.flash = .oracle (b :: bs)) :
    rx tx s = b := by simp [rx, h, Flash.answer]

/-- Past its settled bytes an oracle's byte is a free value of all the chip has seen. -/
theorem rx_of_unsettled {s : State} (tx : Byte) (h : s.flash = .oracle []) :
    rx tx s = Config.flashByte (chipSaw s.events) tx s.draws := by simp [rx, h, Flash.answer]

@[simp] theorem rx_setPhase (tx : Byte) (p : Phase) (s : State) : rx tx (setPhase p s) = rx tx s := rfl

@[simp] theorem rx_setPos (tx : Byte) (p : Pos) (s : State) : rx tx (setPos p s) = rx tx s := rfl

@[simp] theorem rx_assignSample (tx : Byte) (s : State) : rx tx (assignSample s) = rx tx s := rfl

/-! What the chip has seen grows by the port events alone (R85). -/

@[simp] theorem chipSaw_nil : chipSaw [] = [] := rfl

@[simp] theorem chipSaw_append (l m : List BusEvent) : chipSaw (l ++ m) = chipSaw l ++ chipSaw m :=
  List.filter_append ..

@[simp] theorem chipSaw_cons (e : BusEvent) (l : List BusEvent) :
    chipSaw (e :: l) = if onWire e then e :: chipSaw l else chipSaw l := List.filter_cons

@[simp] theorem onWire_select : onWire .select = true := rfl

@[simp] theorem onWire_exchange (t r : Byte) : onWire (.exchange t r) = true := rfl

@[simp] theorem onWire_deselect (w : Bool) : onWire (.deselect w) = true := rfl

@[simp] theorem onWire_sourceRead (n : Nat) (ok : Bool) (d : List Byte) : onWire (.sourceRead n ok d) = false := rfl

@[simp] theorem onWire_sinkWrite (d : List Byte) (ok : Bool) : onWire (.sinkWrite d ok) = false := rfl

@[simp] theorem onWire_progress (c t : Nat) : onWire (.progress c t) = false := rfl

@[simp] theorem Flash.selected_wf (f : Flash) : f.selected.wf = f.wf := by cases f <;> rfl

@[simp] theorem Flash.clocked_wf (f : Flash) (tx : Byte) : (f.clocked tx).wf = f.wf := by
  cases f with
  | oracle => rfl
  | fref c => simp only [Flash.clocked, Flash.wf, Fref.clocked, Fref.sampled]; split_ifs <;> rfl

theorem Fref.released_mem_wf {c : Fref}
    (h : Memory.wf (some frefErased) Config.totalSize c.mem = true) :
    Memory.wf (some frefErased) Config.totalSize c.released.mem = true := by
  have hm := Nat.mod_lt (frameAddr c.frame).toNat (show 0 < Config.totalSize by decide)
  unfold Fref.released
  split_ifs
  · exact h
  · split
    · exact h
    · split_ifs <;> first | exact h | simp [Fref.startBusy, Memory.wf]
    · split_ifs
      · exact wf_programBytes _ 0 hm h
      · exact h
    · exact h

/-- A release keeps FREF's array in canonical form. -/
theorem Flash.released_wf {f : Flash} (h : f.wf = true) : f.released.wf = true := by
  cases f with
  | oracle => rfl
  | fref c => exact Fref.released_mem_wf h

/-! ### The wire history -/

@[simp] theorem wireState_nil : wireState [] = some false := rfl

@[simp] theorem wireState_snoc (l : List BusEvent) (e : BusEvent) :
    wireState (l ++ [e]) = wireStep (wireState l) e := by simp [wireState]

/-- After `Select()` a frame is open. -/
theorem select_wire {s : State} (h : wireState s.events = some s.cs) :
    wireState (select s).events = some true := by
  rw [select_events]
  split
  · rename_i hc; rw [h, hc]
  · rename_i hc; rw [wireState_snoc, h]; simp_all [wireStep]

/-- An `Exchange` in an open frame keeps it open. -/
theorem exchange_wire {s : State} (tx : Byte) (h : wireState s.events = some true) :
    wireState (exchange tx s).events = some true := by
  rw [exchange_events, wireState_snoc, h]; rfl

/-- After a release no frame is open. -/
theorem deselect_wire {s : State} (w : Bool) (h : wireState s.events = some s.cs) :
    wireState (deselect w s).events = some false := by
  rw [deselect_events]
  split
  · rename_i hc; rw [wireState_snoc, h, hc]; rfl
  · rename_i hc; rw [h]; simpa using hc

/-! ### The streams -/

/-- Bytes the source delivers are exactly as many as were asked for (R86). -/
theorem sourceReply_length {s : State} {n : Nat} {d : List Byte} (h : sourceReply s n = .data d) :
    d.length = n := by
  unfold sourceReply at h
  split at h
  · split at h
    · cases h; simpa using ‹n ≤ _›
    · cases h
  · cases h
  · split at h
    · cases h
    · cases h
    · cases h; simp

/-- A source with enough bytes delivers the first of them. -/
theorem sourceReply_of_bytes {s : State} {n : Nat} {d : List Byte} {r : List SourceAnswer}
    (h : s.source = .bytes d :: r) (hn : n ≤ d.length) : sourceReply s n = .data (d.take n) := by
  simp [sourceReply, h, hn]

/-- A settled sink answer is the answer. -/
theorem sinkReply_of_settled {s : State} {ok : Bool} {r : List Bool} (d : List Byte) (h : s.sink = ok :: r) :
    sinkReply d s = some ok := by simp [sinkReply, h]

/-! ### Issue and the steps of a command -/

theorem runCommand_idle {i : Instr} {refuse : State → Option Cause} {init : State → State} {start : Pos}
    {seq : State → Result} {s : State} (h : s.busy = false) :
    runCommand i refuse init start seq s = .next (issue i refuse init start s) := by
  simp [runCommand, h]

theorem runCommand_busy {i : Instr} {refuse : State → Option Cause} {init : State → State} {start : Pos}
    {seq : State → Result} {s : State} (h : s.busy = true) :
    runCommand i refuse init start seq s = seq s := by
  simp [runCommand, h]

/-- A command refused at issue: CMD recorded, ERR and CAUSE set (R304). -/
theorem issue_refused {i : Instr} {refuse : State → Option Cause} {init : State → State} {start : Pos}
    {s : State} {c : Cause} (h : refuse (recordCommand (encode i) s) = some c) :
    issue i refuse init start s = reject c (recordCommand (encode i) s) := by
  simp [issue, h]

/-- A command accepted: SEQ started at its first primitive (R302). -/
theorem issue_accepted {i : Instr} {refuse : State → Option Cause} {init : State → State} {start : Pos}
    {s : State} (h : refuse (recordCommand (encode i) s) = none) :
    issue i refuse init start s = accept i start (init (recordCommand (encode i) s)) := by
  simp [issue, h]

theorem execN_succ {i : Instr} {s t : State} (n : Nat) (h : exec i s = .next t) :
    execN i (n + 1) s = execN i n t := by simp [execN, h]

/-- Steps of a command compose. -/
theorem execN_add {i : Instr} {s t : State} {m : Nat} (n : Nat) (h : execN i m s = .next t) :
    execN i (m + n) s = execN i n t := by
  induction m generalizing s with
  | zero => simp only [execN] at h; cases h; rw [Nat.zero_add]
  | succ m ih =>
    rw [Nat.succ_add]
    simp only [execN] at h ⊢
    split at h <;> simp_all

/-! ### The step -/

/-- With a move named in the state, the step is that move. -/
theorem step_of_move {s : State} {m : Move} {ms : List Move} (h : s.moves = m :: ms) :
    step s = runFetched (fetchMove m (setMoves ms s)) := by
  simp only [step, fetch, nextMove, moveTaken, h]

end Sys2Proof.Machine
end

