-- ==== Sys2Proof/Laws/Draws.lean ====
section
/-! SUPPORT. The count of free values drawn (log 21): no step of a command lowers it or changes the buffers' draw, and
a reset makes a draw of its own, so that no draw of the buffers is made twice. -/

namespace Sys2Proof.Machine

/-- From `s` to `t` no draw is taken back and the buffers keep theirs. -/
structure DrawsOn (s t : State) : Prop where
  draws : s.draws ≤ t.draws
  ramDraw : t.ramDraw = s.ramDraw

theorem DrawsOn.trans {a b c : State} (h : DrawsOn a b) (h' : DrawsOn b c) : DrawsOn a c :=
  ⟨h.1.trans h'.1, h'.2.trans h.2⟩

/-! ### The shared steps -/

theorem byteStep_drawsOn {keep : Nat → Byte → State → State} (hk : ∀ j b u, DrawsOn u (keep j b u)) (t : FrameTag)
    (marks : Bool) (f : Frame) (k : Nat) (s : State) : DrawsOn s (byteStep t marks f keep k s) := by
  have key (p : Phase) (q : Pos) : DrawsOn s (setPos q
      (if k < f.sent then exchange (f.tx k) (setPhase p s)
        else keep (k - f.sent) (rx (f.tx k) s) (exchange (f.tx k) (setPhase p s)))) := by
    have h : DrawsOn s (exchange (f.tx k) (setPhase p s)) := by constructor <;> simp
    split
    · exact h.trans ⟨Nat.le_refl _, rfl⟩
    · exact (h.trans (hk _ _ _)).trans ⟨Nat.le_refl _, rfl⟩
  exact key _ _

theorem keepId_drawsOn (j : Nat) (b : Byte) (s : State) : DrawsOn s (keepId j b s) := by
  unfold keepId; split <;> exact ⟨Nat.le_refl _, rfl⟩

theorem keepSr1_drawsOn (j : Nat) (b : Byte) (s : State) : DrawsOn s (keepSr1 j b s) := ⟨Nat.le_refl _, rfl⟩

theorem keepSr2_drawsOn (j : Nat) (b : Byte) (s : State) : DrawsOn s (keepSr2 j b s) := ⟨Nat.le_refl _, rfl⟩

theorem keepDbuf_drawsOn (j : Nat) (b : Byte) (s : State) : DrawsOn s (keepDbuf j b s) := ⟨Nat.le_refl _, rfl⟩

theorem keepNone_drawsOn (j : Nat) (b : Byte) (s : State) : DrawsOn s (keepNone j b s) := ⟨Nat.le_refl _, rfl⟩

theorem verifyInit_drawsOn (s : State) : DrawsOn s (verifyInit s) := ⟨Nat.le_refl _, rfl⟩

theorem uploadSourceStep_drawsOn (s : State) : DrawsOn s (uploadSourceStep s) := by
  unfold uploadSourceStep; split <;> constructor <;> simp [streamWait]

theorem pageEndStep_drawsOn (s : State) : DrawsOn s (pageEndStep s) := by
  unfold pageEndStep pollEndStep deselectStep; split <;> constructor <;> simp

theorem uploadProgressStep_drawsOn (s : State) : DrawsOn s (uploadProgressStep s) := by
  unfold uploadProgressStep uploadNextChunk; split <;> constructor <;> simp

theorem dumpSinkStep_drawsOn (s : State) : DrawsOn s (dumpSinkStep s) := by
  unfold dumpSinkStep; split <;> constructor <;> simp [streamWait]

theorem dumpProgressStep_drawsOn (s : State) : DrawsOn s (dumpProgressStep s) := by
  unfold dumpProgressStep dumpNextChunk; split <;> constructor <;> simp

theorem verifySourceStep_drawsOn (s : State) : DrawsOn s (verifySourceStep s) := by
  unfold verifySourceStep; split <;> constructor <;> simp [streamWait]

theorem verifyNextStride_drawsOn (s : State) : DrawsOn s (verifyNextStride s) := by
  unfold verifyNextStride; split <;> constructor <;> simp

theorem verifyCompareStep_drawsOn (s : State) : DrawsOn s (verifyCompareStep s) := by
  refine DrawsOn.trans (b := assignSourced Config.halfSize s) ⟨Nat.le_refl _, rfl⟩ ?_
  rw [verifyCompareStep]
  generalize assignSourced Config.halfSize s = s
  unfold verifyCompare
  split
  · constructor <;> simp
  · dsimp only
    split
    · constructor <;> simp
    · exact DrawsOn.trans (by constructor <;> simp) (verifyNextStride_drawsOn _)

/-! ### A step of a command -/

theorem seqFrame_drawsOn {f : Frame} {keep : Nat → Byte → State → State} (hk : ∀ j b u, DrawsOn u (keep j b u))
    {s t : State} (h : seqFrame f keep s = .next t) : DrawsOn s t := by
  unfold seqFrame at h
  split at h <;> cases h
  · constructor <;> simp [selectStep]
  · exact byteStep_drawsOn hk _ _ _ _ _
  · constructor <;> simp [deselectStep]
  · constructor <;> simp

theorem seqReadId_drawsOn {s t : State} (h : seqReadId s = .next t) : DrawsOn s t := by
  unfold seqReadId at h
  split at h <;> cases h <;>
    first
    | exact byteStep_drawsOn keepId_drawsOn _ _ _ _ _
    | exact byteStep_drawsOn keepSr1_drawsOn _ _ _ _ _
    | exact byteStep_drawsOn keepSr2_drawsOn _ _ _ _ _
    | (constructor <;> simp [selectStep, deselectStep])

theorem seqWaitReady_drawsOn {s t : State} (h : seqWaitReady s = .next t) : DrawsOn s t := by
  unfold seqWaitReady at h
  split at h <;> cases h <;> constructor <;>
    simp [selectStep, deselectStep, pollOpcodeStep, sampleStep, pollEndStep, pollFailStep]

theorem seqDump_drawsOn {s t : State} (h : seqDump s = .next t) : DrawsOn s t := by
  unfold seqDump at h
  split at h <;> cases h <;>
    first
    | exact dumpSinkStep_drawsOn _
    | exact dumpProgressStep_drawsOn _
    | (constructor <;> simp [selectStep, headerStep, dataStep, sweepEndStep])

theorem seqUpload_drawsOn {s t : State} (h : seqUpload s = .next t) : DrawsOn s t := by
  unfold seqUpload at h
  split at h <;> cases h <;>
    first
    | exact byteStep_drawsOn keepNone_drawsOn _ _ _ _ _
    | exact uploadSourceStep_drawsOn _
    | exact pageEndStep_drawsOn _
    | exact uploadProgressStep_drawsOn _
    | (constructor <;>
        simp [selectStep, deselectStep, pollOpcodeStep, sampleStep, pageSelectStep, pollEndStep, pollFailStep])

theorem seqVerify_drawsOn {s t : State} (h : seqVerify s = .next t) : DrawsOn s t := by
  unfold seqVerify at h
  split at h <;> first | (injection h with h; subst h) | exact nomatch h
  · constructor <;> simp [selectStep]
  · constructor <;> simp [headerStep]
  · constructor <;> simp [dataStep]
  · exact verifySourceStep_drawsOn _
  · exact verifyCompareStep_drawsOn _
  · constructor <;> simp [verifyMismatchStep]
  · exact DrawsOn.trans (b := emitProgress s) ⟨Nat.le_refl _, rfl⟩ (verifyNextStride_drawsOn _)
  · constructor <;> simp [sweepEndStep]
  · constructor <;> simp
  · constructor <;> simp

theorem runCommand_drawsOn {i : Instr} {refuse : State → Option Cause} {init : State → State} {start : Pos}
    {seq : State → Result} (hi : ∀ u, DrawsOn u (init u)) (hs : ∀ s t, seq s = .next t → DrawsOn s t) {s t : State}
    (h : runCommand i refuse init start seq s = .next t) : DrawsOn s t := by
  unfold runCommand at h
  split at h
  · exact hs _ _ h
  · cases h
    unfold issue
    dsimp only
    split
    · exact ⟨Nat.le_refl _, rfl⟩
    · exact DrawsOn.trans (b := recordCommand (encode i) s) ⟨Nat.le_refl _, rfl⟩ ((hi _).trans ⟨Nat.le_refl _, rfl⟩)

/-- A step of a command takes no draw back and leaves the buffers theirs. -/
theorem exec_drawsOn {i : Instr} {s t : State} (h : exec i s = .next t) : DrawsOn s t := by
  have same (u : State) : DrawsOn u u := ⟨Nat.le_refl _, rfl⟩
  have bulk (u : State) : DrawsOn u (bulkInit u) := ⟨Nat.le_refl _, rfl⟩
  cases i with
  | rdid => exact runCommand_drawsOn same (fun _ _ => seqFrame_drawsOn keepId_drawsOn) h
  | rdsr1 => exact runCommand_drawsOn same (fun _ _ => seqFrame_drawsOn keepSr1_drawsOn) h
  | rdsr2 => exact runCommand_drawsOn same (fun _ _ => seqFrame_drawsOn keepSr2_drawsOn) h
  | read =>
    exact runCommand_drawsOn (seq := seqFrame (readFrame s) keepDbuf) same
      (fun _ _ => seqFrame_drawsOn keepDbuf_drawsOn) h
  | wren | wrdi | ce => exact runCommand_drawsOn same (fun _ _ => seqFrame_drawsOn keepNone_drawsOn) h
  | pp =>
    exact runCommand_drawsOn (seq := seqFrame (programFrame s) keepNone) same
      (fun _ _ => seqFrame_drawsOn keepNone_drawsOn) h
  | select =>
    refine runCommand_drawsOn same (fun s t hx => ?_) h
    unfold seqSelect at hx
    split at hx <;> cases hx <;> constructor <;> simp
  | exchange b =>
    refine runCommand_drawsOn same (fun s t hx => ?_) h
    unfold seqExchange at hx
    split at hx <;> cases hx <;> constructor <;> simp [keepRxdata]
  | deselect =>
    refine runCommand_drawsOn same (fun s t hx => ?_) h
    unfold seqDeselect at hx
    split at hx <;> cases hx <;> constructor <;> simp
  | waitReady => exact runCommand_drawsOn same (fun _ _ => seqWaitReady_drawsOn) h
  | readId => exact runCommand_drawsOn same (fun _ _ => seqReadId_drawsOn) h
  | dump => exact runCommand_drawsOn bulk (fun _ _ => seqDump_drawsOn) h
  | upload => exact runCommand_drawsOn bulk (fun _ _ => seqUpload_drawsOn) h
  | verify => exact runCommand_drawsOn verifyInit_drawsOn (fun _ _ => seqVerify_drawsOn) h

/-! ### Any step -/

/-- The buffers' draw is one already made. -/
abbrev DrawMade (s : State) : Prop := s.ramDraw < s.draws

theorem reset_draw_made : DrawMade State.reset := by decide

/-- A reset after a draw was made gives the buffers another one. -/
theorem resetStep_ramDraw_ne {s : State} (h : DrawMade s) : (resetStep s).ramDraw ≠ s.ramDraw :=
  Nat.ne_of_gt h

theorem writeReg_drawsOn (r : HostReg) (w : Word) (s : State) : DrawsOn s (writeReg r w s) := by
  unfold writeReg
  split <;> try split
  all_goals constructor <;> simp [clearStatus, setIrqEn, setDbufWord]

/-- Every step of every agent keeps it. -/
theorem step_draw_made {s t : State} (h : DrawMade s) (hx : step s = .next t) : DrawMade t := by
  have on {u v : State} (hu : DrawMade u) (d : DrawsOn u v) : DrawMade v :=
    (d.ramDraw.trans_lt hu).trans_le d.draws
  have hm : DrawMade (moveTaken s) := by
    unfold moveTaken
    split <;> exact on h (by constructor <;> simp)
  unfold step fetch at hx
  generalize moveTaken s = u at hm hx
  unfold fetchMove at hx
  split at hx
  · unfold fetchSeq at hx
    split at hx
    · split at hx
      · exact on hm (exec_drawsOn hx)
      · cases hx
    · cases hx; exact hm
  · unfold gate at hx
    split_ifs at hx <;> cases hx
    exact on hm ⟨Nat.le_refl _, rfl⟩
  · unfold gate at hx
    split_ifs at hx <;> try cases hx
    · unfold fetchCommand at hx
      split at hx
      · cases hx; exact on hm ⟨Nat.le_refl _, rfl⟩
      · split at hx
        · exact on hm (exec_drawsOn hx)
        · cases hx; exact on hm ⟨Nat.le_refl _, rfl⟩
    · exact on hm (writeReg_drawsOn _ _ _)
  · cases hx
    exact Nat.lt_succ_self _

end Sys2Proof.Machine
end

