-- ==== Sys2Proof/Laws/Loops.lean ====
section
/-! SUPPORT. What a loop of primitives does, said once: the bytes of a frame (R180), the samples of a poll (R220),
the data loop of a sweep (R252, R270). -/

namespace Sys2Proof.Machine

open Sys2Proof.Claims

/-! ### The bytes heard -/

@[simp] theorem heard_length (f : Flash) (l : List BusEvent) (n : Nat) (tx : List Byte) :
    (heard f l n tx).length = tx.length := by
  induction tx generalizing f l n with
  | nil => rfl
  | cons b bs ih => simp [heard, ih]

theorem heard_append (f : Flash) (l : List BusEvent) (n : Nat) (a b : List Byte) :
    heard f l n (a ++ b) =
      heard f l n a ++
        heard (a.foldl Flash.clocked f) (l ++ List.zipWith .exchange a (heard f l n a)) (n + a.length) b := by
  induction a generalizing f l n with
  | nil => simp [heard]
  | cons x a ih => simp only [heard, ih, List.foldl_cons, List.length_cons, List.zipWith_cons_cons,
      List.append_assoc, List.cons_append, List.nil_append, Nat.add_assoc, Nat.add_comm 1]

/-- The bytes heard from a state: the first, and those heard after it. -/
theorem heardFrom_cons (s : State) (b : Byte) (tx : List Byte) :
    heardFrom s (b :: tx) = rx b s :: heardFrom (exchange b s) tx := by
  simp [heardFrom, heard, rx]

@[simp] theorem heardFrom_nil (s : State) : heardFrom s [] = [] := rfl

@[simp] theorem heardFrom_length (s : State) (tx : List Byte) : (heardFrom s tx).length = tx.length :=
  heard_length ..

/-- The bytes heard depend on the chip, on what it has seen and on the draws alone. -/
theorem heardFrom_congr {s t : State} (hf : t.flash = s.flash) (he : t.events = s.events) (hd : t.draws = s.draws)
    (tx : List Byte) : heardFrom t tx = heardFrom s tx := by simp [heardFrom, hf, he, hd]

/-- The history of a run of `Exchange`s is what the chip sees of it. -/
@[simp] theorem chipSaw_exchanges (tx r : List Byte) :
    chipSaw (List.zipWith .exchange tx r) = List.zipWith .exchange tx r := by
  induction tx generalizing r with
  | nil => rfl
  | cons x tx ih => cases r <;> simp [ih]

/-- A chip that has settled on enough bytes answers them in order. -/
theorem heard_oracle (bs : List Byte) (l : List BusEvent) (n : Nat) (tx : List Byte) (h : tx.length ≤ bs.length) :
    heard (.oracle bs) l n tx = bs.take tx.length := by
  induction tx generalizing bs l n with
  | nil => rfl
  | cons x tx ih =>
    cases bs with
    | nil => simp at h
    | cons b bs => simpa [heard, Flash.answer, Flash.clocked] using ih bs _ (n + 1) (by simpa using h)

/-- What that chip has left. -/
theorem clocked_oracle (bs tx : List Byte) :
    tx.foldl Flash.clocked (.oracle bs) = .oracle (bs.drop tx.length) := by
  induction tx generalizing bs with
  | nil => rfl
  | cons x tx ih => simp [Flash.clocked, ih]

/-- A byte heard in a frame by a chip that has settled on enough bytes. -/
theorem response_oracle {s : State} {bs tx : List Byte} (h : s.flash = .oracle bs) (hl : tx.length ≤ bs.length)
    {k : Nat} (hk : k < tx.length) : response tx s k = bs.getD k 0 := by
  rw [response, frameRx, h, Flash.selected, heard_oracle _ _ _ _ hl]
  simp [List.getD, hk]

/-- What that chip has left after the frame. -/
theorem framed_oracle {s : State} {bs : List Byte} (tx : List Byte) (h : s.flash = .oracle bs) :
    (framed tx s).flash = .oracle (bs.drop tx.length) := by
  rw [framed, h, Flash.selected, clocked_oracle, Flash.released]

/-- A run of `Exchange` steps: history, chip and draws, nothing else. -/
def exchanged (tx : List Byte) (s : State) : State :=
  { s with
    events := s.events ++ List.zipWith .exchange tx (heardFrom s tx)
    flash := tx.foldl Flash.clocked s.flash
    draws := s.draws + tx.length }

theorem exchanged_cons (b : Byte) (tx : List Byte) (s : State) :
    exchanged (b :: tx) s = exchanged tx (exchange b s) := by
  apply State.ext <;> simp [exchanged, heardFrom_cons]
  omega

/-- Select, a run of `Exchange` steps and Deselect are one frame. -/
theorem deselect_exchanged_select (tx : List Byte) {s : State} (h : s.cs = false) :
    deselect true (exchanged tx (select s)) = framed tx s := by
  apply State.ext <;> simp [exchanged, framed, frameEvents, frameRx, heardFrom, h]

/-! ### The bytes of a frame that keeps none -/

/-- From byte `k` to the last byte of a frame whose received bytes are discarded, `STATE` already set: the rest of
the bytes sent, the position at the frame's Deselect. `F` is the frame as the state gives it. -/
theorem frame_bytes_tail {i : Instr} {t : FrameTag} {marks : Bool} {F : State → Frame}
    (hF : ∀ (s : State) (b : Byte) (p : Pos), F (setPos p (exchange b s)) = F s)
    (hstep : ∀ s k, s.busy = true → s.pos = .byte t k →
      exec i s = .next (byteStep t marks (F s) keepNone k s)) :
    ∀ (m k : Nat) (s : State), s.busy = true → s.pos = .byte t k → 0 < k → 0 < m → k + m = (F s).size →
      execN i m s =
        .next (setPos (.deselect t) (exchanged ((List.range' k m).map (F s).tx) s)) := by
  intro m
  induction m with
  | zero => intro k s _ _ _ h; omega
  | succ m ih =>
    intro k s hb hp hk _ hs
    have e : byteStep t marks (F s) keepNone k s =
        setPos (nextByte (F s) t k) (exchange ((F s).tx k) s) := by
      apply State.ext <;> simp [byteStep, keepNone, Nat.ne_of_gt hk]
    rw [execN_succ m (hstep s k hb hp), e, List.range'_succ, List.map_cons, exchanged_cons]
    rcases Nat.eq_zero_or_pos m with rfl | hm
    · simp only [execN, List.range'_zero, List.map_nil]
      congr 1
      apply State.ext <;> simp [exchanged, nextByte, show ¬(k + 1 < (F s).size) by omega]
    · have hn : nextByte (F s) t k = .byte t (k + 1) := by simp [nextByte, show k + 1 < (F s).size by omega]
      rw [hn, ih (k + 1) _ (by simpa using hb) (by simp) (by omega) hm (by rw [hF]; omega), hF]
      congr 1

/-- All the bytes of such a frame: STATE is set at the first. -/
theorem frame_bytes {i : Instr} {t : FrameTag} {marks : Bool} {F : State → Frame}
    (hF : ∀ (s : State) (b : Byte) (p : Pos), F (setPos p (exchange b s)) = F s)
    (hF' : ∀ (s : State) (p : Phase), F (setPhase p s) = F s)
    (hstep : ∀ s k, s.busy = true → s.pos = .byte t k →
      exec i s = .next (byteStep t marks (F s) keepNone k s))
    {s : State} (hb : s.busy = true) (hp : s.pos = .byte t 0) (hs : 0 < (F s).size) :
    execN i (F s).size s =
      .next (setPos (.deselect t) (exchanged (F s).bytes (setPhase (marked marks .transfer s.phase) s))) := by
  obtain ⟨m, hm⟩ : ∃ m, (F s).size = m + 1 := ⟨(F s).size - 1, by omega⟩
  have e : byteStep t marks (F s) keepNone 0 s =
      setPos (nextByte (F s) t 0) (exchange ((F s).tx 0) (setPhase (marked marks .transfer s.phase) s)) := by
    apply State.ext <;> simp [byteStep, keepNone]
  rw [Frame.bytes, List.range_eq_range', hm, execN_succ m (hstep s 0 hb hp), e, List.range'_succ, List.map_cons,
    exchanged_cons]
  rcases Nat.eq_zero_or_pos m with rfl | hpos
  · simp only [execN, List.range'_zero, List.map_nil]
    congr 1
    apply State.ext <;> simp [exchanged, nextByte, hm]
  · have hn : nextByte (F s) t 0 = .byte t (0 + 1) := by simp [nextByte, hm, hpos]
    rw [hn, frame_bytes_tail hF hstep m (0 + 1) _ (by simpa using hb) (by simp) (by omega) hpos
      (by rw [hF, hF']; omega), hF, hF']
    congr 1

/-! ### The samples of a poll -/

/-- The claims' assignment of a waiting sample is the model's. -/
theorem counted_eq (s : State) : counted s = assignSample s := by
  unfold counted
  split
  · exact (assignSample_none ‹_›).symm
  · exact (assignSample_some ‹_›).symm

/-- `m` status samples: with the one that may have waited they are counted and kept but for the last, which waits
in its turn (R21). -/
def polled (m : Nat) (s : State) : State :=
  let l := s.sample.toList ++ heardFrom s (List.replicate m 0)
  { exchanged (List.replicate m 0) s with
    pollN := s.pollN + (l.length - 1)
    pollCnt := if l.length ≤ 1 then s.pollCnt else saturate (s.pollN + (l.length - 1))
    sr1 := (l.dropLast.getLast?).getD s.sr1
    sample := l.getLast? }

/-- A busy sample within the bound keeps SEQ sampling. -/
theorem afterSample_busy {t : FrameTag} {limit : Word} {n : Nat} {b : Byte} (h : sampleBusy b = true)
    (hl : limit = 0 ∨ n < limit.toNat) : afterSample t limit n b = .sample t := by
  have : ¬(limit ≠ 0 ∧ limit.toNat ≤ n) := fun ⟨h0, hn⟩ => hl.elim h0 (by omega)
  rw [afterSample, if_neg (by simp [h]), if_neg this]

/-- A sample with a clear busy bit ends the poll, whatever the bound. -/
theorem afterSample_clear {t : FrameTag} {limit : Word} {n : Nat} {b : Byte} (h : sampleBusy b = false) :
    afterSample t limit n b = .deselect t := if_pos h

/-- A busy sample that reaches the bound fails the poll. -/
theorem afterSample_bound {t : FrameTag} {limit : Word} {n : Nat} {b : Byte} (h : sampleBusy b = true)
    (h0 : limit ≠ 0) (hn : limit.toNat ≤ n) : afterSample t limit n b = .fail .unresponsive := by
  rw [afterSample, if_neg (by simp [h]), if_pos ⟨h0, hn⟩]

/-- After a sample the chip goes on as after any dummy byte. -/
theorem heardFrom_sampleStep (t : FrameTag) (s : State) (tx : List Byte) :
    heardFrom (sampleStep t s) tx = heardFrom (exchange 0 s) tx := by
  apply heardFrom_congr <;> simp [sampleStep, Config.dummy]

theorem polled_succ {t : FrameTag} (m : Nat) (s : State) (hp : s.pos = .sample t)
    (h : afterSample t s.lLimit (sampleCount s + 1) (rx 0 s) = .sample t) :
    polled (m + 1) s = polled m (sampleStep t s) := by
  have e2 : s.draws + 1 + m = s.draws + (m + 1) := by omega
  have e3 : s.pollN + 1 + m = s.pollN + (m + 1) := by omega
  cases hs : s.sample with
  | none =>
    apply State.ext <;>
      simp [polled, exchanged, heardFrom_sampleStep, List.replicate_succ, heardFrom_cons, hs] <;>
      simp [sampleStep, Config.dummy, hp, hs, e2, sampleCount, List.getLast?_cons]
    simpa [sampleCount, hs] using h.symm
  | some b =>
    apply State.ext <;>
      simp [polled, exchanged, heardFrom_sampleStep, List.replicate_succ, heardFrom_cons, hs] <;>
      simp [sampleStep, Config.dummy, hp, hs, e2, e3, sampleCount, List.getLast?_cons]
    · rintro rfl; rfl
    · simpa [sampleCount, hs] using h.symm

/-- A run of `m` busy samples that does not reach the bound leaves SEQ sampling. -/
theorem poll_samples {i : Instr} {t : FrameTag}
    (hstep : ∀ s, s.busy = true → s.pos = .sample t → exec i s = .next (sampleStep t s)) :
    ∀ (m : Nat) (s : State), s.busy = true → s.pos = .sample t →
      (∀ b ∈ heardFrom s (List.replicate m 0), sampleBusy b = true) →
      s.lLimit = 0 ∨ sampleCount s + m < s.lLimit.toNat → execN i m s = .next (polled m s) := by
  intro m
  induction m with
  | zero =>
    intro s _ _ _ _
    simp only [execN]
    congr 1
    cases hs : s.sample <;> apply State.ext <;> simp [polled, exchanged, hs]
  | succ m ih =>
    intro s hb hp hbusy hl
    rw [List.replicate_succ, heardFrom_cons] at hbusy
    have hpos : afterSample t s.lLimit (sampleCount s + 1) (rx 0 s) = .sample t :=
      afterSample_busy (hbusy _ (List.mem_cons_self ..)) (hl.imp_right (by omega))
    rw [execN_succ m (hstep s hb hp), polled_succ m s hp hpos]
    refine ih _ (by simpa [sampleStep] using hb) (by simpa [sampleStep, Config.dummy] using hpos) (fun b hm => ?_) ?_
    · exact hbusy b (List.mem_cons_of_mem _ (by simpa [heardFrom_sampleStep] using hm))
    · have e1 : (sampleStep t s).lLimit = s.lLimit := by simp [sampleStep]
      have e2 : sampleCount (sampleStep t s) = sampleCount s + 1 := by simp [sampleStep, sampleCount]
      rw [e1, e2]
      exact hl.imp_right (by omega)

/-! ### The data loop of a sweep -/

/-- `m` steps of the data loop, `m` above 0: everything but WBUF. -/
def swept (n m : Nat) (after : Pos) (s : State) : State :=
  { exchanged (List.replicate m 0) s with
    phase := .transfer
    byteIx := s.byteIx + m
    pos := if s.byteIx + m < n then .data else after }

/-- After a data byte the chip goes on as after any dummy byte. -/
theorem heardFrom_dataStep (n : Nat) (after : Pos) (s : State) (tx : List Byte) :
    heardFrom (dataStep n after s) tx = heardFrom (exchange 0 s) tx := by
  apply heardFrom_congr <;> simp [dataStep, Config.dummy]

/-- `m` steps of the data loop: the bytes heard go to WBUF from the byte index on. -/
theorem data_loop {i : Instr} {n : Nat} {after : Pos}
    (hstep : ∀ s, s.busy = true → s.pos = .data → exec i s = .next (dataStep n after s)) :
    ∀ (m : Nat) (s : State), s.busy = true → s.pos = .data → 0 < m → s.byteIx + m ≤ n →
      ∃ t, execN i m s = .next t ∧ t = { swept n m after s with wbuf := t.wbuf } ∧
        ∀ j, wbufAt t j =
          if s.byteIx ≤ j ∧ j < s.byteIx + m then
            (heardFrom s (List.replicate m 0)).getD (j - s.byteIx) 0
          else wbufAt s j := by
  intro m
  induction m with
  | zero => intro s _ _ h; omega
  | succ m ih =>
    intro s hb hp _ hn
    have hw (j : Nat) : wbufAt (dataStep n after s) j = if j = s.byteIx then rx 0 s else wbufAt s j := by
      have : wbufAt (dataStep n after s) j = wbufAt (setWbuf s.byteIx (rx 0 s) s) j := by
        apply wbufAt_congr <;> simp [dataStep, Config.dummy]
      rw [this, wbufAt_setWbuf]
    have hbx : (dataStep n after s).byteIx = s.byteIx + 1 := by simp [dataStep]
    have e1 : s.byteIx + 1 + m = s.byteIx + (m + 1) := by omega
    have e2 : s.draws + 1 + m = s.draws + (m + 1) := by omega
    rw [execN_succ m (hstep s hb hp)]
    rcases Nat.eq_zero_or_pos m with rfl | hm
    · refine ⟨dataStep n after s, rfl, ?_, fun j => ?_⟩
      · apply State.ext <;> simp [dataStep, swept, exchanged, heardFrom_cons, Config.dummy]
      · rw [hw]
        by_cases h : j = s.byteIx
        · subst h; simp [heardFrom_cons]
        · rw [if_neg h, if_neg (by omega)]
    · obtain ⟨t, h1, h2, h3⟩ := ih (dataStep n after s) (by simpa [dataStep] using hb)
        (by simp only [dataStep, setPos_pos]; rw [if_pos (by omega)]) hm (by rw [hbx]; omega)
      refine ⟨t, h1, ?_, fun j => ?_⟩
      · rw [h2]
        apply State.ext <;>
          simp [swept, exchanged, heardFrom_dataStep, heardFrom_cons, List.replicate_succ] <;>
          simp [dataStep, Config.dummy, e1, e2]
      · rw [h3, heardFrom_dataStep, hw, hbx, List.replicate_succ, heardFrom_cons]
        by_cases h : j = s.byteIx
        · subst h
          rw [if_neg (by omega), if_pos rfl, if_pos (by omega)]; simp
        · by_cases h' : s.byteIx + 1 ≤ j ∧ j < s.byteIx + 1 + m
          · rw [if_pos h', if_pos (by omega)]
            obtain ⟨q, rfl⟩ : ∃ q, j = s.byteIx + 1 + q := ⟨j - (s.byteIx + 1), by omega⟩
            rw [show s.byteIx + 1 + q - (s.byteIx + 1) = q by omega,
              show s.byteIx + 1 + q - s.byteIx = q + 1 by omega]
            simp
          · rw [if_neg h', if_neg h, if_neg (by omega)]

/-- A slice of WBUF is the list its bytes are. -/
theorem wbufSlice_eq {t : State} {k n : Nat} {l : List Byte} (hl : l.length = n)
    (h : ∀ j, j < n → wbufAt t (k + j) = l.getD j 0) : wbufSlice t k n = l := by
  apply List.ext_getElem
  · simp [wbufSlice, hl]
  · intro j h1 h2
    simp [wbufSlice, h j (by omega), List.getD, List.getElem?_eq_getElem h2]

end Sys2Proof.Machine
end

