-- ==== Sys2Proof/Laws/Dump.lean ====
section
/-! SUPPORT. One chunk of DUMP (R252, R253, R254), for the statements about whole sweeps. The chunk size stands as a
variable `n`, so that no list of that length is ever written out. -/

namespace Sys2Proof.Machine

open Sys2Proof.Claims

/-- A step of DUMP's data loop. -/
theorem dump_data (s : State) (hb : s.busy = true) (hp : s.pos = .data) :
    exec .dump s = .next (dataStep Config.chunkSize .sinkWrite s) := by
  simp [exec, execDump, runCommand, hb, seqDump, hp]

/-- DUMP about to read chunk `c` (R252). -/
structure AtChunk (c : Nat) (s : State) : Prop where
  busy : s.busy = true
  pos : s.pos = .data
  byteIx : s.byteIx = 0
  chunkIx : s.chunkIx = c
  lt : c < 512
  cursor : s.cursor = BitVec.ofNat 24 (c * 0x4000)

/-- The bytes of the next `n` dummy exchanges. -/
def nextBytes (n : Nat) (s : State) : List Byte := heardFrom s (List.replicate n 0)

/-- Chunk `c` read and offered to the sink. -/
theorem dump_chunk {c : Nat} {s : State} (A : AtChunk c s) (ok : Bool) (r : List Bool)
    (hs : s.sink = ok :: r) (n : Nat) (hn : n = 0x4000) :
    ∃ t, execN .dump (n + 1) s = .next t ∧
      (∀ j, wbufAt t j = if j < n then (nextBytes n s).getD j 0 else wbufAt s j) ∧
      t = { s with
            phase := .transfer
            byteIx := n
            pos := if ok then .progress else .fail .snkRej
            wbuf := t.wbuf
            events := s.events ++
              (List.zipWith .exchange (List.replicate n 0) (nextBytes n s) ++ [.sinkWrite (nextBytes n s) ok])
            flash := (List.replicate n (0 : Byte)).foldl Flash.clocked s.flash
            sink := r
            draws := s.draws + n + 1 } := by
  have hc : Config.chunkSize = n := hn ▸ rfl
  obtain ⟨t, h1, h2, h3⟩ := data_loop dump_data n s A.busy A.pos (by omega) (by rw [A.byteIx]; omega)
  have hpos : t.pos = .sinkWrite := by rw [h2]; simp [swept, A.byteIx, hc]
  have hb : t.busy = true := by rw [h2]; exact A.busy
  have hs' : t.sink = ok :: r := by rw [h2]; exact hs
  have hw (j : Nat) : wbufAt t j = if j < n then (nextBytes n s).getD j 0 else wbufAt s j := by
    rw [h3, A.byteIx]; simp [nextBytes]
  have hsl : wbufSlice t 0 n = nextBytes n s :=
    wbufSlice_eq (by simp [nextBytes]) fun j hj => by rw [Nat.zero_add, hw, if_pos hj]
  have e : exec .dump t = .next (setPos (if ok then .progress else .fail .snkRej)
      (sinkWrite (nextBytes n s) ok t)) := by
    simp [exec, execDump, runCommand, hb, seqDump, hpos, dumpSinkStep, sinkReply_of_settled _ hs', hc, hsl]
  refine ⟨_, by rw [execN_add 1 h1]; simp only [execN, e]; rfl, fun j => ?_, ?_⟩
  · rw [← hw j]; apply wbufAt_congr <;> simp
  · apply State.ext <;> rw [h2] <;> simp [swept, exchanged, nextBytes, A.byteIx, hs]

/-- Chunk `c` read, taken by the sink, and its progress emitted. -/
theorem dump_round {c : Nat} {s : State} (A : AtChunk c s) (r : List Bool) (hs : s.sink = true :: r) (n : Nat)
    (hn : n = 0x4000) :
    ∃ t, execN .dump (n + 2) s = .next t ∧
      (∀ j, wbufAt t j = if j < n then (nextBytes n s).getD j 0 else wbufAt s j) ∧
      t = { s with
            phase := .transfer
            byteIx := if c + 1 < 512 then 0 else n
            pos := if c + 1 < 512 then .data else .deselect .own
            chunkIx := if c + 1 < 512 then c + 1 else c
            pageIx := if c + 1 < 512 then 0 else s.pageIx
            cursor := BitVec.ofNat 24 ((c + 1) * 0x4000)
            pct := BitVec.ofNat 8 ((c + 1) * 100 / 512)
            wbuf := t.wbuf
            events := s.events ++
              (List.zipWith .exchange (List.replicate n 0) (nextBytes n s) ++
                [.sinkWrite (nextBytes n s) true, .progress ((c + 1) * 0x4000) 0x800000])
            flash := (List.replicate n (0 : Byte)).foldl Flash.clocked s.flash
            sink := r
            draws := s.draws + n + 1 } := by
  obtain ⟨t, h1, hw, h2⟩ := dump_chunk A true r hs n hn
  have hlt := A.lt
  have hpos : t.pos = .progress := by rw [h2]; simp
  have hb : t.busy = true := by rw [h2]; exact A.busy
  have hcx : t.chunkIx = c := by rw [h2]; exact A.chunkIx
  have hcu : t.cursor = BitVec.ofNat 24 (c * 0x4000) := by rw [h2]; exact A.cursor
  have hcn (k : Nat) (hk : k ≤ 512) : (BitVec.ofNat 24 (k * 0x4000)).toNat = k * 0x4000 := by
    rw [BitVec.toNat_ofNat]; exact Nat.mod_eq_of_lt (by omega)
  have hset : setCursor (t.cursor.toNat + Config.chunkSize) t = setCursor ((c + 1) * 0x4000) t := by
    have h : c * 0x4000 + Config.chunkSize = (c + 1) * 0x4000 := by simp only [Config.chunkSize]; omega
    rw [hcu, hcn c (by omega), h]
  have e : exec .dump t = .next (dumpNextChunk (emitProgress (setCursor ((c + 1) * 0x4000) t))) := by
    simp only [exec, execDump, runCommand, hb, if_true, seqDump, hpos, dumpProgressStep, hset]
  have hpc : percent ((c + 1) * 0x4000) = BitVec.ofNat 8 ((c + 1) * 100 / 512) := by
    unfold percent; congr 1; rw [show Config.totalSize = 0x800000 from rfl]; omega
  have hN : Config.numChunks = 512 := by decide
  have hT : Config.totalSize = 0x800000 := rfl
  refine ⟨dumpNextChunk (emitProgress (setCursor ((c + 1) * 0x4000) t)), ?_, fun j => ?_, ?_⟩
  · rw [show n + 2 = (n + 1) + 1 from rfl, execN_add 1 h1]; simp only [execN, e]
  · rw [← hw j]; unfold dumpNextChunk; split <;> (apply wbufAt_congr <;> simp)
  · have hc1 := hcn (c + 1) (by omega)
    clear hset e hcn hcu h1
    revert hc1 hpc
    generalize (c + 1) * 0x4000 = k
    intro hpc hc1
    by_cases hl : c + 1 < 512
    · simp only [dumpNextChunk, setCursor_chunkIx, emitProgress_chunkIx, hcx, hN, if_pos hl]
      apply State.ext <;> simp [hcx, hT, hc1, hpc] <;> rw [h2] <;> simp
    · simp only [dumpNextChunk, setCursor_chunkIx, emitProgress_chunkIx, hcx, hN, if_neg hl]
      apply State.ext <;> simp [hcx, hT, hc1, hpc] <;> rw [h2] <;> simp

end Sys2Proof.Machine
end

