-- ==== Sys2Proof/Laws/PerInstr.lean ====
section
/-! SUPPORT. What holds of every command as syntax, one lemma per constructor: its word has the fields the encoder
gives it, and they are a legal command word's (R121, R125, R133). -/

namespace Sys2Proof

/-- A word put together from fields splits into them again (R121). -/
theorem wordFields_fieldsWord (f : CmdWord) : wordFields (fieldsWord f) = f := by
  obtain ⟨r, o, b⟩ := f
  simp only [wordFields, fieldsWord, CmdWord.mk.injEq]
  refine ⟨?_, ?_, ?_⟩
  · rw [BitVec.extractLsb'_append_eq_of_le (by omega)]; exact BitVec.extractLsb'_append_eq_left
  · rw [BitVec.extractLsb'_append_eq_of_le (by omega), BitVec.extractLsb'_append_eq_of_add_le (by omega)]
    exact BitVec.extractLsb'_eq_self
  · rw [BitVec.extractLsb'_append_eq_of_add_le (by omega)]; exact BitVec.extractLsb'_eq_self

namespace Laws.LegalWord

/-- The command's word splits into its own fields, and none of R125's items holds of them. -/
def Statement (i : Instr) : Prop :=
  wordFields (encode i) = encodeFields i ∧ (encodeFields i).wellFormed = true

theorem rdid : Statement .rdid := ⟨wordFields_fieldsWord _, by decide⟩
theorem rdsr1 : Statement .rdsr1 := ⟨wordFields_fieldsWord _, by decide⟩
theorem rdsr2 : Statement .rdsr2 := ⟨wordFields_fieldsWord _, by decide⟩
theorem read : Statement .read := ⟨wordFields_fieldsWord _, by decide⟩
theorem wren : Statement .wren := ⟨wordFields_fieldsWord _, by decide⟩
theorem wrdi : Statement .wrdi := ⟨wordFields_fieldsWord _, by decide⟩
theorem ce : Statement .ce := ⟨wordFields_fieldsWord _, by decide⟩
theorem pp : Statement .pp := ⟨wordFields_fieldsWord _, by decide⟩
theorem select : Statement .select := ⟨wordFields_fieldsWord _, by decide⟩
theorem exchange (b : Byte) : Statement (.exchange b) :=
  ⟨wordFields_fieldsWord _, by
    simp [CmdWord.wellFormed, CmdWord.rsvOk, CmdWord.opOk, CmdWord.byteOk, CmdWord.flashOk, encodeFields]⟩
theorem deselect : Statement .deselect := ⟨wordFields_fieldsWord _, by decide⟩
theorem waitReady : Statement .waitReady := ⟨wordFields_fieldsWord _, by decide⟩
theorem readId : Statement .readId := ⟨wordFields_fieldsWord _, by decide⟩
theorem dump : Statement .dump := ⟨wordFields_fieldsWord _, by decide⟩
theorem upload : Statement .upload := ⟨wordFields_fieldsWord _, by decide⟩
theorem verify : Statement .verify := ⟨wordFields_fieldsWord _, by decide⟩

end Laws.LegalWord

end Sys2Proof
end

