-- ==== Sys2Proof/Tests/Slice0.lean ====
section
/-! SUPPORT. Tests on small states, expected values from the spec's tables and worked examples, and a witness for
the hypotheses of each statement. -/

namespace Sys2Proof.Tests

open Sys2Proof Sys2Proof.Machine Sys2Proof.Claims

/-! ### Well-formedness: an ill-formed command word for each item of R125 -/

theorem test_reserved_bits_refused : (CmdWord.mk 1 0x0 0x02).wellFormed = false := by decide
theorem test_reserved_op_refused : (CmdWord.mk 0 0x6 0x00).wellFormed = false := by decide
theorem test_byte_not_zero_refused : (CmdWord.mk 0 0x3 0x01).wellFormed = false := by decide
theorem test_unknown_opcode_refused : (CmdWord.mk 0 0x0 0x0B).wellFormed = false := by decide
theorem test_each_check_alone :
    (CmdWord.mk 1 0x0 0x02).rsvOk = false ∧ (CmdWord.mk 0 0xB 0x00).opOk = false ∧
      (CmdWord.mk 0 0x3 0x01).byteOk = false ∧ (CmdWord.mk 0 0x0 0xFF).flashOk = false := by decide

/-! ### Decoding: RSV (20 bits), OP (4 bits), BYTE (8 bits), written out from R121, R122, R124 -/

theorem test_decode_rdid : decode 0b00000000000000000000_0000_10011111 = .ok .rdid := by decide
theorem test_decode_rdsr1 : decode 0b00000000000000000000_0000_00000101 = .ok .rdsr1 := by decide
theorem test_decode_rdsr2 : decode 0b00000000000000000000_0000_00110101 = .ok .rdsr2 := by decide
theorem test_decode_read : decode 0b00000000000000000000_0000_00000011 = .ok .read := by decide
theorem test_decode_wren : decode 0b00000000000000000000_0000_00000110 = .ok .wren := by decide
theorem test_decode_wrdi : decode 0b00000000000000000000_0000_00000100 = .ok .wrdi := by decide
theorem test_decode_ce : decode 0b00000000000000000000_0000_11000111 = .ok .ce := by decide
theorem test_decode_pp : decode 0b00000000000000000000_0000_00000010 = .ok .pp := by decide
theorem test_decode_select : decode 0b00000000000000000000_0001_00000000 = .ok .select := by decide
theorem test_decode_exchange : decode 0b00000000000000000000_0010_10100101 = .ok (.exchange 0xA5) := by decide
theorem test_decode_deselect : decode 0b00000000000000000000_0011_00000000 = .ok .deselect := by decide
theorem test_decode_wait_ready : decode 0b00000000000000000000_0100_00000000 = .ok .waitReady := by decide
theorem test_decode_read_id : decode 0b00000000000000000000_0101_00000000 = .ok .readId := by decide
theorem test_decode_dump : decode 0b00000000000000000000_1000_00000000 = .ok .dump := by decide
theorem test_decode_upload : decode 0b00000000000000000000_1001_00000000 = .ok .upload := by decide
theorem test_decode_verify : decode 0b00000000000000000000_1010_00000000 = .ok .verify := by decide

/-- R125: one word for each item; R133: the reset value of CMD. -/
theorem test_decode_illegal :
    decode 0x00001002 = .error .reservedBits ∧ decode 0x00000700 = .error .reservedOp ∧
      decode 0x00000F00 = .error .reservedOp ∧ decode 0x00000801 = .error .byteNotZero ∧
      decode 0x00000000 = .error .flashOpcode := by decide

/-- The table's row numbering is the word's own. -/
theorem test_decode_table_word :
    decodeTableWord 32 0x2FF = some (.exchange 0xFF) ∧ decodeTableWord 32 0x600 = none := by decide

/-! ### One command at a time, on small states -/

/-- Whether an outcome is a next state with a property. -/
def nextIs (o : Result) (p : State → Bool) : Bool :=
  match o with
  | .next t => p t
  | _ => false

/-- The state after `n` steps of a command. -/
def after (i : Instr) (n : Nat) (s : State) : State :=
  match execN i n s with
  | .next t => t
  | _ => s

/-- From reset, with FREF in the state of R112. -/
def onFref : State := { State.reset with flash := .fref frefInitial }

/-- From reset, with a chip that has settled on some bytes. -/
def onBytes (bs : List Byte) : State := { State.reset with flash := .oracle bs }

/-- A state with a raw frame open. -/
def rawOpen : State := { State.reset with cs := true, events := [.select] }

/-- A state with a command at one of its positions. -/
def running (i : Instr) (p : Pos) (c : Bool) : State :=
  { State.reset with
    cmd := encode i
    lOp := (encodeFields i).op
    lByte := (encodeFields i).byte
    busy := true
    phase := .transfer
    pos := p
    cs := c
    events := if c then [.select] else [] }

/-- R182, R197. -/
theorem test_rdid :
    nextIs (execN .rdid 8 onFref) (fun t =>
      idWord t == 0x00A1B2C3 && statusWord t == 0x00000002 && mosi t.events == [0x9F, 0, 0, 0]) = true := by
  decide

/-- R187: the next two RDSR1 after WREN and CE give 0x03 and 0x03, a third 0x00. -/
theorem test_rdsr1_after_erase :
    let s := after .ce 5 (after .wren 5 onFref)
    let s₁ := after .rdsr1 6 s
    let s₂ := after .rdsr1 6 s₁
    s₁.sr1 = 0x03 ∧ s₂.sr1 = 0x03 ∧ (after .rdsr1 6 s₂).sr1 = 0x00 := by decide

/-- R184: the byte is passed through, SR1 is not touched. -/
theorem test_rdsr2 :
    nextIs (execN .rdsr2 6 (onBytes [0xFF, 0x5A])) (fun t => srWord t == 0x00005A00) = true := by decide

/-- R185. -/
theorem test_wren : (after .rdsr1 6 (after .wren 5 onFref)).sr1 = 0x02 := by decide

/-- R186. -/
theorem test_wrdi : (after .rdsr1 6 (after .wrdi 5 (after .wren 5 onFref))).sr1 = 0x00 := by decide

/-- R191, DSF §8: the frame of a read at 0x012345, and the little-endian word that two bytes make. -/
theorem test_read :
    nextIs (execN .read 10 { onBytes [0, 0, 0, 0, 0x11, 0x22] with addr := 0x012345, len := 2 }) (fun t =>
      mosi t.events == [0x03, 0x01, 0x23, 0x45, 0, 0] && dbufAt t 0 == 0x11 && dbufAt t 1 == 0x22) = true := by
  decide

/-- R190: LEN.N = 256 is accepted, 257 refused. -/
theorem test_read_length :
    nextIs (exec .read { State.reset with len := 256 }) (fun t => t.busy) = true ∧
      nextIs (exec .read { State.reset with len := 257 }) (fun t => statusWord t == 0x00000504) = true := by
  decide

/-- R195: the header and payload on MOSI. -/
theorem test_pp :
    nextIs (execN .pp 10 { State.reset with addr := 0x000100, len := 2, dbuf := [(0, 0x0F), (1, 0xF0)] })
      (fun t => mosi t.events == [0x02, 0x00, 0x01, 0x00, 0x0F, 0xF0] && t.done) = true := by decide

/-- R195: 0xF0 + 0x20 crosses the page, 0xF0 + 0x10 does not. -/
theorem test_pp_page :
    nextIs (exec .pp { State.reset with addr := 0x0001F0, len := 0x20 }) (fun t => t.cause == .len) = true ∧
      nextIs (exec .pp { State.reset with addr := 0x0001F0, len := 0x10 }) (fun t => t.busy) = true := by decide

/-- R160. -/
theorem test_select :
    nextIs (execN .select 3 State.reset) (fun t => statusWord t == 0x0000000A && t.events == [.select]) = true := by
  decide

/-- R162, first byte of the identity after 0x9F. -/
theorem test_exchange :
    (after (.exchange 0) 3 (after (.exchange 0x9F) 3 (after .select 3 onFref))).rxdata = 0xA1 := by decide

/-- R162: refused with no device selected. -/
theorem test_exchange_deselected :
    nextIs (exec (.exchange 0) State.reset) (fun t => statusWord t == 0x00000704 && t.events == []) = true := by
  decide

/-- R163: `SEND 0x06` ends with it, and FREF's WEL is then 1. -/
theorem test_deselect :
    (after .rdsr1 6 (after .deselect 3 (after (.exchange 0x06) 3 (after .select 3 onFref)))).sr1 = 0x02 := by
  decide

/-- R221: samples 0x03, 0x03, 0x00. -/
theorem test_wait_ready :
    nextIs (execN .waitReady 8 (after .ce 5 (after .wren 5 onFref))) (fun t =>
      t.pollCnt == 3 && t.sr1 == 0x00 && t.done && !t.cs) = true := by decide

/-- R222: two samples of three, UNRESPONSIVE. -/
theorem test_wait_ready_bound :
    nextIs (execN .waitReady 6 { after .ce 5 (after .wren 5 onFref) with pollLimit := 2 }) (fun t =>
      statusWord t == 0x00000404 && t.pollCnt == 2 && t.sr1 == 0x03) = true := by decide

/-- R21, R220: after the second sample the first is counted and kept, the second waits. -/
theorem test_sample_waits :
    nextIs (execN .waitReady 5 (onBytes [0xFF, 0x05, 0x03])) (fun t =>
      t.pollCnt == 1 && t.sr1 == 0x05 && t.sample == some 0x03) = true := by decide

/-- R240: after `SEND 0x06` ID = 0x00A1B2C3 and SR = 0x00000002. -/
theorem test_read_id :
    nextIs (execN .readId 16 (after .wren 5 onFref)) (fun t =>
      idWord t == 0x00A1B2C3 && srWord t == 0x00000002 && t.done) = true := by decide

/-- R252: the header, then the first byte of the data loop, which sets TRANSFER. -/
theorem test_dump_header :
    nextIs (execN .dump 7 onFref) (fun t =>
      mosi t.events == [0x03, 0, 0, 0, 0] && statusWord t == 0x00020009 && wbufAt t 0 == 0xFF) = true := by decide

/-- R253, with the chunk's last byte read. -/
theorem test_dump_sink_refuses :
    nextIs (execN .dump 1 { running .dump (.fail .snkRej) true with cursor := 0x4000 }) (fun t =>
      statusWord t == 0x00000204 && t.cursor == 0x4000) = true := by decide

/-- R261: the three frames of the erase, then the source is asked. -/
theorem test_upload_erase :
    nextIs (execN .upload 13 onFref) (fun t =>
      mosi t.events == [0x06, 0xC7, 0x05, 0, 0, 0] && t.pos == .sourceRead && t.phase == .start) = true := by
  decide

/-- R262: a source that is one byte short. -/
theorem test_upload_source_short :
    nextIs (execN .upload 2 { running .upload .sourceRead false with source := [.bytes [0x55]] }) (fun t =>
      statusWord t == 0x00000104 && t.events == [.sourceRead 0x4000 false []]) = true := by decide

/-- R274, R276: offset 0x123456 is stride 0x91, index 0x1456. -/
theorem test_verify_mismatch :
    nextIs (exec .verify
      { running .verify .mismatch true with
        strideIx := 0x91
        byteIx := 0x1456
        wbuf := [(0x1456, 0xAA), (0x3456, 0xBB)] }) (fun t =>
      t.mmAddr == 0x123456 && mmDataWord t == 0x0000BBAA && statusWord t == 0x00000304) = true := by decide

/-- R275: after an odd stride progress is emitted. -/
theorem test_verify_progress :
    nextIs (exec .verify { running .verify .progress true with strideIx := 1, cursor := 0x4000 }) (fun t =>
      t.events == [.select, .progress 0x4000 0x800000] && t.strideIx == 2 && t.pos == .data) = true := by decide

/-! ### Host accesses, reset, the fetch -/

/-- R43: a CMD write while a command runs. -/
theorem test_cmd_write_dropped :
    nextIs (step { running .dump .data true with moves := [.hostWrite .word 0x000 0x500] }) (fun t =>
      statusWord t == 0x00020019 && t.cmd == 0x800) = true := by decide

/-- R303: RSV is tested before chip select and LEN. -/
theorem test_illegal_first :
    nextIs (step { rawOpen with len := 0x1000, moves := [.hostWrite .word 0x000 0x1002] }) (fun t =>
      statusWord t == 0x0000060C) = true := by decide

/-- R341: chip select released without the idle wait. -/
theorem test_reset_mid_frame :
    nextIs (step { running .dump .data true with moves := [.rst] }) (fun t =>
      statusWord t == 0 && t.events == [.select, .deselect false]) = true := by decide

/-- The first step after reset with a word placed issues it. -/
theorem test_fetch_word :
    nextIs (step (State.reset.withFetchWord 32 0x500)) (fun t => t.busy && t.cmd == 0x500) = true := by decide

/-- The buffers and FREF's array are canonical at reset. -/
theorem test_reset_memories :
    Memory.wf none Config.chunkSize State.reset.wbuf = true ∧
      Memory.wf none Config.pageSize State.reset.dbuf = true ∧ Flash.wf (.fref frefInitial) = true := by decide

/-- R132, R346, R347: ERASE_ALL keeps the host's duties; CE without its WREN, or with a WRDI after it, does not. -/
theorem test_host_duties :
    HostDuty.kept ⟨false, false⟩ [.wren, .ce, .waitReady] = true ∧
      HostDuty.kept ⟨false, false⟩ [.ce] = false ∧
      HostDuty.kept ⟨false, false⟩ [.wren, .wrdi, .ce] = false ∧
      HostDuty.kept ⟨false, false⟩ [.wren, .select, .exchange 0xC7, .deselect, .ce] = false ∧
      HostDuty.kept ⟨false, false⟩ [.wren, .ce, .read] = false := by decide

/-- R132: PROGRAM at 0x100, its host accesses. -/
theorem test_pseudo_program :
    (Pseudo.program 0x100 2).expand.flatMap AsmLine.moves =
      [writeMove 0x000 0x06, .hostRead .word 0x00C, writeMove 0x004 0x100, writeMove 0x008 2,
        writeMove 0x000 0x02, .hostRead .word 0x00C, writeMove 0x000 0x400] := by decide

/-! ### Witnesses: for each statement with hypotheses, states and operands that meet them together; for each
clause of a statement with several, one of its own, at the ends of its range -/

/-- The host about to write a word to CMD. -/
def cmdNext (w : Word) (s : State) : State := { s with moves := [.hostWrite .word 0x000 w] }

theorem witness_illegal_words_refused :
    (∃ e, decode 0x00001000 = .error e) ∧ (∃ e, decode 0x00000600 = .error e) ∧
      (∃ e, decode 0x00000B00 = .error e) ∧ (∃ e, decode 0x00000A01 = .error e) ∧
      (∃ e, decode 0x000000FF = .error e) ∧
      (cmdNext 0x000000FF State.reset).moves = [.hostWrite .word 0x000 0x000000FF] ∧
      (cmdNext 0x000000FF State.reset).busy = false :=
  ⟨⟨.reservedBits, by decide⟩, ⟨.reservedOp, by decide⟩, ⟨.reservedOp, by decide⟩, ⟨.byteNotZero, by decide⟩,
    ⟨.flashOpcode, by decide⟩, rfl, rfl⟩

theorem witness_step_runs_issued_command :
    (cmdNext 0x2FF State.reset).moves = [.hostWrite .word 0x000 0x2FF] ∧ (cmdNext 0x2FF State.reset).busy = false ∧
      decode 0x2FF = .ok (.exchange 0xFF) := ⟨rfl, rfl, by decide⟩

theorem witness_step_runs_latched_command :
    (let s := { running .dump .data true with moves := [.seq] };
      s.moves = [.seq] ∧ s.busy = true ∧ latched s = .ok .dump) ∧
    (let s := { State.reset with moves := [.seq] };
      s.moves = [.seq] ∧ s.busy = false) := by decide

theorem witness_unnamed_move_is_free : State.reset.moves = [] := rfl

theorem witness_issue_sequence :
    (cmdNext 0 State.reset).moves = [.hostWrite .word 0x000 0] ∧
      (cmdNext 0 (running .dump .data true)).moves = [.hostWrite .word 0x000 0] := ⟨rfl, rfl⟩

/-- Each clause of the priority: dropped, ILLEGAL, STATE over LEN, LEN, accepted. -/
theorem witness_issue_priority :
    (cmdNext 0 (running .dump .data true)).busy = true ∧ (∃ e, decode 0x1002 = .error e) ∧
      (decode 0x02 = .ok .pp ∧ isTransport .pp = false ∧ { cmdNext 0x02 rawOpen with len := 0x1000 }.cs = true) ∧
      (decode 0x03 = .ok .read ∧ (cmdNext 0x03 State.reset).cs = false ∧
        256 < { cmdNext 0x03 State.reset with len := 257 }.len.toNat) ∧
      ¬256 < (cmdNext 0x03 State.reset).len.toNat :=
  ⟨rfl, ⟨.reservedBits, by decide⟩, by decide, by decide, by decide⟩

theorem witness_every_command_issues : State.reset.busy = false ∧ rawOpen.busy = false := ⟨rfl, rfl⟩

/-- One refusal for each cause, ILLEGAL, STATE both ways, LEN both ways. -/
theorem witness_reject_leaves_the_rest :
    (∃ e, decode 0 = .error e) ∧ (cmdNext 0 State.reset).phase = .idle ∧
      decode 0x400 = .ok .waitReady ∧ issueCause .waitReady (cmdNext 0x400 rawOpen) = some .state ∧
      issueCause (.exchange 0) (cmdNext 0x200 State.reset) = some .state ∧
      issueCause .read { cmdNext 0x03 State.reset with len := 257 } = some .len ∧
      issueCause .pp { cmdNext 0x02 State.reset with addr := 0xFF, len := 2 } = some .len ∧
      (cmdNext 0x400 rawOpen).busy = false :=
  ⟨⟨.flashOpcode, by decide⟩, rfl, by decide, by decide, by simp [issueCause, cmdNext, isTransport, State.reset], by decide,
    by decide, rfl⟩

/-- The write dropped; CMD_REJ rising; falling by a STATUS write; falling by reset. -/
theorem witness_cmd_rej_rule :
    (let s := cmdNext 0x05 (running .dump .data true);
      s.moves = [.hostWrite .word 0x000 0x05] ∧ s.busy = true ∧ s.cmdRej = false ∧
        nextIs (step s) (fun t => t.cmdRej) = true) ∧
    (let s := { State.reset with cmdRej := true, moves := [.hostWrite .word 0x00C 0x10] };
      s.cmdRej = true ∧ nextIs (step s) (fun t => !t.cmdRej) = true) ∧
    (let s := { State.reset with cmdRej := true, moves := [.rst] };
      s.cmdRej = true ∧ nextIs (step s) (fun t => !t.cmdRej) = true) := by decide

theorem witness_other_host_accesses_refused :
    (let s := { State.reset with moves := [.hostRead .half 0x000] };
      s.moves = [.hostRead .half 0x000] ∧ AccessWidth.half ≠ .word) ∧
    (let s := { State.reset with moves := [.hostWrite .word 0xFFF 1] };
      s.moves = [.hostWrite .word 0xFFF 1] ∧ (0xFFF : BitVec 12).toNat % 4 ≠ 0) := by decide

theorem witness_reset_step_resets :
    { running .dump .data true with moves := [.rst] }.moves = [.rst] ∧
      { State.reset with moves := [.rst, .seq] }.moves = .rst :: [.seq] := ⟨rfl, rfl⟩

/-- The invariant holds at reset with FREF as the chip and a byte of DBUF written. -/
theorem written_inv : Inv { onFref with dbuf := [(255, 7)] } := by
  constructor <;> first | decide | exact fun h => absurd h (by decide)

/-- WAIT_READY in its sampling loop, a busy sample waiting. -/
def polling : State := { running .waitReady (.sample .own) true with sample := some 0x03 }

/-- The invariant holds of it. -/
theorem polling_inv : Inv polling := by
  constructor
  case command =>
    exact fun _ => ⟨.waitReady, ⟨by decide, rfl, by decide, fun b h => by cases h; rfl, trivial, fun _ => rfl,
      fun _ h => nomatch h⟩⟩
  all_goals decide

theorem witness_every_step_keeps_invariant :
    Inv { onFref with dbuf := [(255, 7)] } ∧
      nextIs (step { { onFref with dbuf := [(255, 7)] } with moves := [.seq] }) (fun _ => true) = true :=
  ⟨written_inv, by decide⟩

/-- Both ways a next move is admitted. -/
theorem witness_every_admitted_move_steps :
    (Inv polling ∧ polling.moves = []) ∧
      admissible (nextMove (cmdNext 0 State.reset)) = true := ⟨⟨polling_inv, rfl⟩, by decide⟩

theorem witness_canonical_memories_agree :
    Memory.wf (some 0xFF) 4 [(0, 1), (3, 2)] = true ∧ Memory.wf none 4 [(0, 0xFF), (3, 2)] = true := by decide

/-- A position at its last step, with chip select left active and released. -/
theorem witness_finish_step :
    (let s := running .select .finish true;
      s.busy = true ∧ s.pos = .finish ∧ Running .select s) ∧
    (let s := running .ce .finish false;
      s.busy = true ∧ s.pos = .finish ∧ Running .ce s) :=
  have held (i : Instr) (p : Pos) (c : Bool) : heldOk i (running i p c) :=
    ⟨fun h => absurd rfl h, fun _ h => nomatch h⟩
  ⟨⟨rfl, rfl, ⟨by decide, rfl, by decide, fun b h => by cases h; rfl, trivial, held ..⟩⟩,
    ⟨rfl, rfl, ⟨by decide, rfl, by decide, fun b h => by cases h; rfl, trivial, held ..⟩⟩⟩

theorem witness_fail_step :
    (∀ i ∈ [Instr.dump, .verify], (i = .dump ∨ i = .verify) ∧ (running i (.fail .srcShort) true).busy = true ∧
      (running i (.fail .srcShort) true).pos = .fail .srcShort) ∧
    ∀ i ∈ [Instr.waitReady, .upload], (i = .waitReady ∨ i = .upload) ∧
      { running i (.fail .unresponsive) true with sample := some 1 }.busy = true ∧
      { running i (.fail .unresponsive) true with sample := some 1 }.pos = .fail .unresponsive := by decide

theorem witness_mismatch_step :
    (running .verify .mismatch true).busy = true ∧ (running .verify .mismatch true).pos = .mismatch := by decide

/-- SELECT, EXCHANGE and DESELECT, the composites refused, the raw frame, and the commands that need no more than
CS = 0 and BUSY = 0 (RDID, RDSR1, RDSR2, READ_ID, LengthChecks). -/
theorem witness_transport :
    (State.reset.busy = false ∧ State.reset.cs = false) ∧ rawOpen.busy = false ∧ rawOpen.cs = true := by decide

theorem witness_opcode_only_frames :
    ∀ p ∈ [(Instr.wren, (0x06 : Byte)), (.wrdi, 0x04), (.ce, 0xC7)],
      p ∈ [(Instr.wren, (0x06 : Byte)), (.wrdi, 0x04), (.ce, 0xC7)] ∧ onFref.busy = false ∧ onFref.cs = false := by
  decide

/-- LEN at both ends of the range. -/
theorem witness_read_fills_dbuf :
    (let s := { State.reset with len := 256, addr := 0xFFFFFF };
      s.busy = false ∧ s.cs = false ∧ s.len.toNat ≤ 256) ∧ State.reset.len.toNat ≤ 256 := by decide

/-- LEN at both ends of the range, at the last byte of a page and over a whole one. -/
theorem witness_page_program_sends_dbuf :
    (let s := { State.reset with len := 1, addr := 0x0001FF };
      s.busy = false ∧ s.cs = false ∧ s.addr.toNat % 256 + s.len.toNat ≤ 256) ∧
    (let s := { State.reset with len := 256, addr := 0x000100 };
      s.addr.toNat % 256 + s.len.toNat ≤ 256) ∧
    State.reset.addr.toNat % 256 + State.reset.len.toNat ≤ 256 := by decide

/-- Each command of the class, READ and PP with LEN above 0; a state to start READ_ID in; WAIT_READY with a busy sample
that reaches its bound, and with a clear one after it. -/
theorem witness_single_frame_phases :
    (let s := { State.reset with len := 2, dbuf := [(0, 1), (1, 2)] };
      s.busy = false ∧
        (∀ i ∈ [Instr.rdid, .rdsr1, .rdsr2, .read, .wren, .wrdi, .ce], (frameTx i s).isSome = true) ∧
        frameTx .pp s = some [0x02, 0, 0, 0, 1, 2] ∧
        ∀ i ∈ [Instr.rdid, .rdsr1, .rdsr2, .read, .wren, .wrdi, .ce, .pp], issueCause i s = none) ∧
    (State.reset.busy = false ∧ State.reset.cs = false) ∧
    (let s := { onBytes [0xFF, 0x01] with pollLimit := 1 };
      s.busy = false ∧ s.cs = false ∧ 1 ≤ s.pollLimit.toNat ∧ allBusy 1 s) ∧
    (let s := { onBytes [0xFF, 0x01, 0xFE] with pollLimit := 2 };
      s.busy = false ∧ s.cs = false ∧ 1 < s.pollLimit.toNat ∧ allBusy 1 s ∧
        (response (pollTx (1 + 1)) s (1 + 1)).getLsbD 0 = false) := by
  refine ⟨⟨rfl, by decide, by decide, fun i hi => ?_⟩, ⟨rfl, rfl⟩, ⟨rfl, rfl, by decide, fun k h1 h2 => ?_⟩, rfl, rfl,
    by decide, fun k h1 h2 => ?_, by decide⟩
  · fin_cases hi <;> simp [issueCause, isTransport, State.reset]
  all_goals
    obtain rfl : k = 1 := by omega
    decide

/-- UPLOAD's first answered source read, which sets TRANSFER, and VERIFY's first data byte. -/
theorem witness_state_follows_the_position :
    (let s := { running .upload .sourceRead false with phase := .start, source := [.error], moves := [.seq] };
      PhaseFollows s ∧ nextIs (step s) (fun t => t.phase == .transfer) = true) ∧
    (let s := { running .verify .data true with phase := .start, moves := [.seq] };
      PhaseFollows s ∧ nextIs (step s) (fun t => t.phase == .transfer) = true) := by
  refine ⟨⟨⟨fun h => absurd h (by decide), fun _ => ⟨.upload, by decide, rfl⟩⟩, by decide⟩,
    ⟨fun h => absurd h (by decide), fun _ => ⟨.verify, by decide, rfl⟩⟩, by decide⟩

/-- Not busy at once, without a bound. -/
theorem witness_wait_ready_at_once :
    let s := onBytes [0xFF, 0x02]
    s.busy = false ∧ s.cs = false ∧ s.pollLimit = 0 ∧ allBusy 0 s ∧
      (response (pollTx 1) s 1).getLsbD 0 = false :=
  ⟨rfl, rfl, rfl, fun k h1 h2 => absurd h1 (by omega), by decide⟩

/-- Busy once, then ready on the last sample the bound allows. -/
theorem witness_wait_ready_last_sample :
    let s := { onBytes [0xFF, 0x03, 0x02] with pollLimit := 2 }
    s.busy = false ∧ s.cs = false ∧ 1 < s.pollLimit.toNat ∧ allBusy 1 s ∧
      (response (pollTx 2) s 2).getLsbD 0 = false := by
  refine ⟨rfl, rfl, by decide, fun k h1 h2 => ?_, by decide⟩
  obtain rfl : k = 1 := by omega
  decide

theorem witness_wait_ready_unresponsive :
    let s := { onBytes [0xFF, 0x01, 0xFF] with pollLimit := 2 }
    s.busy = false ∧ s.cs = false ∧ s.pollLimit ≠ 0 ∧ allBusy s.pollLimit.toNat s := by
  refine ⟨rfl, rfl, by decide, fun k h1 h2 => ?_⟩
  have h : k ≤ 2 := h2
  interval_cases k <;> decide

theorem witness_wait_ready_hangs :
    let s := onBytes [0x00, 0x01, 0x03]
    s.busy = false ∧ s.cs = false ∧ s.pollLimit = 0 ∧ allBusy 2 s := by
  refine ⟨rfl, rfl, rfl, fun k h1 h2 => ?_⟩
  interval_cases k <;> decide

theorem witness_dump_streams_the_device :
    ∃ (s : State) (bs : List Byte), s.busy = false ∧ s.cs = false ∧
      s.sink = List.replicate 512 true ++ [] ∧ s.flash = .oracle bs ∧ 0x800004 ≤ bs.length :=
  ⟨{ onBytes (List.replicate 0x800004 0) with sink := List.replicate 512 true ++ [] }, List.replicate 0x800004 0,
    rfl, rfl, rfl, rfl, by rw [List.length_replicate]⟩

/-- The first and the last chunk refused. -/
theorem witness_dump_sink_rejection :
    (∃ s : State, 0 < 512 ∧ s.busy = false ∧ s.cs = false ∧
      s.sink = List.replicate 0 true ++ false :: [true]) ∧
    ∃ s : State, 511 < 512 ∧ s.busy = false ∧ s.cs = false ∧
      s.sink = List.replicate 511 true ++ false :: [] :=
  ⟨⟨{ State.reset with sink := [false, true] }, by decide, rfl, rfl, rfl⟩,
    ⟨{ State.reset with sink := List.replicate 511 true ++ false :: [] }, by decide, rfl, rfl, rfl⟩⟩

/-- The erase poll, ready at once, and with the bound reached. -/
theorem witness_upload_erases_first :
    (let s := onBytes [0, 0, 0, 0];
      let s₂ := framed [0xC7] (framed [0x06] s);
      s.busy = false ∧ s.cs = false ∧ s.pollLimit = 0 ∧ allBusy 0 s₂ ∧
        (response (pollTx 1) s₂ 1).getLsbD 0 = false) ∧
    (let s := { onBytes [0, 0, 0, 1] with pollLimit := 1 };
      s.pollLimit ≠ 0 ∧ allBusy s.pollLimit.toNat (framed [0xC7] (framed [0x06] s))) := by
  refine ⟨⟨rfl, rfl, rfl, fun k h1 h2 => absurd h1 (by omega), by decide⟩, by decide, fun k h1 h2 => ?_⟩
  have h : k ≤ 1 := h2
  obtain rfl : k = 1 := by omega
  decide

/-- Page `p` of chunk `c` about to be written, on a chip that shows `bs` once write-enable and page-program are sent. -/
def atPage (c p : Nat) (limit : Word) (bs : List Byte) : State :=
  { running .upload (.select .pageWren) false with
    flash := .oracle (List.replicate 261 0 ++ bs)
    chunkIx := c
    pageIx := p
    cursor := BitVec.ofNat 24 (c * 0x4000)
    lLimit := limit }

/-- The state in which the page's poll begins. -/
def pageSent (s : State) : State :=
  let u := assignSourced 0 s
  let a := s.chunkIx * 0x4000 + s.pageIx * 0x100
  framed (0x02 :: BitVec.ofNat 8 (a / 0x10000) :: BitVec.ofNat 8 (a / 0x100) :: 0x00 ::
    (List.range 256).map (fun j => wbufAt u (s.pageIx * 256 + j))) (framed [0x06] u)

/-- The samples of that poll. -/
theorem page_samples {s : State} {bs : List Byte} (h : s.flash = .oracle (List.replicate 261 0 ++ bs)) (n k : Nat)
    (hn : n < bs.length) (hk : k ≤ n) : response (pollTx n) (pageSent s) k = bs.getD k 0 := by
  have hu : (assignSourced 0 s).flash = .oracle (List.replicate 261 0 ++ bs) := h
  have h : (pageSent s).flash = .oracle bs := by
    rw [pageSent, framed_oracle _ (framed_oracle [0x06] hu), List.drop_drop,
      List.drop_left' (by simp only [List.length_replicate, List.length_cons, List.length_map, List.length_range,
        List.length_nil])]
  exact response_oracle h (by simpa [pollTx] using hn) (by simp [pollTx]; omega)

/-- A busy sample before the clear one, on the last page of the last chunk without a bound; a clear sample at once,
on a chunk's first page with its source bytes waiting, which a bound of 1 allows; and a bound of 2 reached. -/
theorem witness_upload_writes_a_page :
    (let s := atPage 511 63 0 [0, 1, 0];
      s.busy = true ∧ s.pos = .select .pageWren ∧ s.cs = false ∧ s.lLimit = 0 ∧ allBusy 1 (pageSent s) ∧
        (response (pollTx (1 + 1)) (pageSent s) (1 + 1)).getLsbD 0 = false) ∧
    (let s := { atPage 0 0 1 [0, 0] with sourced := some (List.replicate 0x4000 7) };
      s.busy = true ∧ s.pos = .select .pageWren ∧ s.cs = false ∧ 0 < s.lLimit.toNat ∧ allBusy 0 (pageSent s) ∧
        (response (pollTx (0 + 1)) (pageSent s) (0 + 1)).getLsbD 0 = false) ∧
    (let s := atPage 511 63 2 [0, 1, 3];
      s.busy = true ∧ s.pos = .select .pageWren ∧ s.cs = false ∧ s.lLimit ≠ 0 ∧
        allBusy s.lLimit.toNat (pageSent s) ∧ loopOk .upload s) := by
  refine ⟨⟨rfl, rfl, rfl, rfl, fun k h1 h2 => ?_, ?_⟩, ⟨rfl, rfl, rfl, by decide, fun k h1 h2 => by omega, ?_⟩,
    rfl, rfl, rfl, by decide, fun k h1 h2 => ?_, by decide, by decide, rfl⟩
  · rw [page_samples rfl _ _ (by decide) h2]
    obtain rfl : k = 1 := by omega
    decide
  · rw [page_samples rfl _ _ (by decide) (by decide)]; decide
  · rw [page_samples rfl _ _ (by decide) (by decide)]; decide
  · have h : k ≤ 2 := h2
    show (response (pollTx 2) _ k).getLsbD 0 = true
    rw [page_samples rfl _ _ (by decide) h]
    interval_cases k <;> decide

theorem witness_upload_programs_the_device :
    ∃ (s : State) (bs d : List Byte), s.busy = false ∧ s.cs = false ∧ s.flash = .oracle bs ∧
      8617988 ≤ bs.length ∧ (∀ b ∈ bs, b.getLsbD 0 = false) ∧ s.source = .bytes d :: [] ∧ d.length = 0x800000 :=
  ⟨{ onBytes (List.replicate 8617988 0) with source := [.bytes (List.replicate 0x800000 0)] },
    List.replicate 8617988 0, List.replicate 0x800000 0, rfl, rfl, rfl, by rw [List.length_replicate],
    fun b hb => by rw [List.eq_of_mem_replicate hb]; decide, rfl, by rw [List.length_replicate]⟩

/-- An error, and one byte too few. -/
theorem witness_source_short :
    (let s := { running .upload .sourceRead false with source := [.error] };
      s.busy = true ∧ s.pos = .sourceRead ∧ s.cs = false ∧ s.sample = none ∧ s.source = .error :: [] ∧
        loopOk .upload s) ∧
    (let s := { running .upload .sourceRead false with source := [.bytes (List.replicate 0x3FFF 0)] };
      s.busy = true ∧ s.pos = .sourceRead ∧ s.cs = false ∧ s.sample = none ∧
        (List.replicate 0x3FFF (0 : Byte)).length < 0x4000) ∧
    (let s := { running .verify .sourceRead true with source := [.bytes (List.replicate 0x1FFF 0)] };
      s.busy = true ∧ s.pos = .sourceRead ∧ s.cs = true ∧ (List.replicate 0x1FFF (0 : Byte)).length < 0x2000 ∧
        loopOk .verify s) :=
  ⟨⟨rfl, rfl, rfl, rfl, rfl, by decide, by decide, rfl⟩,
    ⟨rfl, rfl, rfl, rfl, by rw [List.length_replicate]; decide⟩,
    ⟨rfl, rfl, rfl, by rw [List.length_replicate]; decide, by decide, rfl⟩⟩

theorem witness_verify_of_equal_data_succeeds :
    ∃ (s : State) (h d rest : List Byte), s.busy = false ∧ s.cs = false ∧ h.length = 4 ∧ d.length = 0x800000 ∧
      s.flash = .oracle (h ++ d ++ rest) ∧ s.source = .bytes d :: [] :=
  ⟨{ State.reset with
      flash := .oracle ([1, 2, 3, 4] ++ List.replicate 0x800000 7 ++ [5])
      source := [.bytes (List.replicate 0x800000 7)] },
    [1, 2, 3, 4], List.replicate 0x800000 7, [5], rfl, rfl, rfl, by rw [List.length_replicate], rfl, rfl⟩

/-- Two lists that differ at their last byte alone. -/
theorem differ_last (n : Nat) :
    (∀ x, x < n → (List.replicate n (0 : Byte) ++ [0]).getD x 0 = (List.replicate n (0 : Byte) ++ [1]).getD x 0) ∧
      (List.replicate n (0 : Byte) ++ [0]).getD n 0 ≠ (List.replicate n (0 : Byte) ++ [1]).getD n 0 :=
  ⟨fun x hx => by simp [List.getD, List.getElem?_append, hx], by simp [List.getD]⟩

/-- Hypotheses of VERIFY's first difference, for lists of any length. -/
theorem first_difference_states (n k : Nat) (d e : List Byte) (hd : d.length = n) (he : e.length = n)
    (h : (∀ x, x < k → d.getD x 0 = e.getD x 0) ∧ d.getD k 0 ≠ e.getD k 0) :
    ∃ (s : State) (h d e : List Byte), s.busy = false ∧ s.cs = false ∧ h.length = 4 ∧ d.length = n ∧
      e.length = n ∧ s.flash = .oracle (h ++ d ++ []) ∧ s.source = .bytes e :: [] ∧
      (∀ x, x < k → d.getD x 0 = e.getD x 0) ∧ d.getD k 0 ≠ e.getD k 0 :=
  ⟨{ State.reset with flash := .oracle ([1, 2, 3, 4] ++ d ++ []), source := [.bytes e] }, [1, 2, 3, 4], d, e, rfl,
    rfl, rfl, hd, he, rfl, rfl, h⟩

/-- The difference at the last byte. -/
theorem witness_verify_reports_last_difference :
    ∃ (s : State) (h d e : List Byte), s.busy = false ∧ s.cs = false ∧ h.length = 4 ∧ d.length = 0x7FFFFF + 1 ∧
      e.length = 0x7FFFFF + 1 ∧ s.flash = .oracle (h ++ d ++ []) ∧ s.source = .bytes e :: [] ∧
      (∀ x, x < 0x7FFFFF → d.getD x 0 = e.getD x 0) ∧ d.getD 0x7FFFFF 0 ≠ e.getD 0x7FFFFF 0 :=
  first_difference_states _ _ _ _ (by rw [List.length_append, List.length_replicate, List.length_singleton])
    (by rw [List.length_append, List.length_replicate, List.length_singleton]) (differ_last 0x7FFFFF)

/-- Two lists that differ at their first byte. -/
theorem differ_first (n : Nat) :
    (0 :: List.replicate n (0 : Byte)).length = n + 1 ∧ (1 :: List.replicate n (0 : Byte)).length = n + 1 ∧
      (∀ x, x < 0 → (0 :: List.replicate n (0 : Byte)).getD x 0 = (1 :: List.replicate n (0 : Byte)).getD x 0) ∧
      (0 :: List.replicate n (0 : Byte)).getD 0 0 ≠ (1 :: List.replicate n (0 : Byte)).getD 0 0 := by simp

/-- The difference at the first byte. -/
theorem witness_verify_reports_first_difference :
    ∃ (s : State) (h d e : List Byte), s.busy = false ∧ s.cs = false ∧ h.length = 4 ∧ d.length = 0x7FFFFF + 1 ∧
      e.length = 0x7FFFFF + 1 ∧ s.flash = .oracle (h ++ d ++ []) ∧ s.source = .bytes e :: [] ∧
      (∀ x, x < 0 → d.getD x 0 = e.getD x 0) ∧ d.getD 0 0 ≠ e.getD 0 0 :=
  first_difference_states _ _ _ _ (differ_first 0x7FFFFF).1 (differ_first 0x7FFFFF).2.1 (differ_first 0x7FFFFF).2.2

/-- Halves of any size that agree, the source half still waiting, in the last stride. -/
theorem equal_halves (n : Nat) :
    ∃ s : State, s.busy = true ∧ s.pos = .compare ∧ s.strideIx = 1023 ∧
      ∀ i, i < n → wbufAt (assignSourced n s) i = wbufAt (assignSourced n s) (n + i) := by
  have zero (k : Nat) (hk : k < n) : (List.replicate n (0 : Byte)).getD k 0 = 0 := by
    simp [List.getD, hk]
  refine ⟨{ fillWbuf 0 (List.replicate n 0) { running .verify .compare true with strideIx := 1023 }
    with sourced := some (List.replicate n 0) }, rfl, rfl, rfl, fun i hi => ?_⟩
  rw [wbufAt_assignSourced n i rfl, wbufAt_assignSourced n (n + i) rfl, List.length_replicate, if_neg (by omega),
    if_pos (by omega), zero _ (by omega)]
  refine (wbufAt_fillWbuf _ 0 i _).trans ?_
  rw [List.length_replicate, if_pos (by omega), zero _ (by omega)]

/-- Halves that differ at the first index, and halves that agree. -/
theorem witness_compare_finds_the_least_index :
    (let s := { running .verify .compare true with wbuf := [(0, 1)], sourced := some [2] };
      s.busy = true ∧ s.pos = .compare ∧ s.strideIx < 1024 ∧
        wbufAt (assignSourced 0x2000 s) 0 ≠ wbufAt (assignSourced 0x2000 s) (0x2000 + 0)) ∧
    ∃ s : State, s.busy = true ∧ s.pos = .compare ∧ s.strideIx = 1023 ∧
      ∀ i, i < 0x2000 → wbufAt (assignSourced 0x2000 s) i = wbufAt (assignSourced 0x2000 s) (0x2000 + i) :=
  ⟨by decide, equal_halves 0x2000⟩

theorem witness_progress_writes_percentage :
    ∀ i ∈ [Instr.dump, .upload, .verify], isBulk i = true ∧ (running i .progress true).busy = true ∧
      (running i .progress true).pos = .progress := by decide

theorem witness_every_command_ends :
    let s := { onFref with pollLimit := 1, sink := List.replicate 512 true,
                           source := List.replicate 1024 .error }
    Inv s ∧ s.busy = false ∧ s.pollLimit ≠ 0 ∧ 512 ≤ s.sink.length ∧ 1024 ≤ s.source.length := by
  refine ⟨?_, rfl, by decide, by rw [List.length_replicate], by rw [List.length_replicate]⟩
  constructor <;> first | decide | exact fun h => absurd h (by decide)

/-- The cursor moved by a chunk, and cleared by an acceptance. -/
theorem witness_cursor_moves_by_chunks :
    nextIs (step { running .dump .progress true with moves := [.seq] }) (fun t => t.cursor != 0) = true ∧
      Inv { onFref with cursor := 0x800000, moves := [.hostWrite .word 0x000 0x800] } ∧
      nextIs (step { onFref with cursor := 0x800000, moves := [.hostWrite .word 0x000 0x800] })
        (fun t => t.cursor == 0) = true := by
  refine ⟨by decide, ?_, by decide⟩
  constructor <;> first | decide | exact fun h => absurd h (by decide)

/-- A step that writes each register, by the command or the write the rule names. -/
theorem witness_register_writers :
    nextIs (step { running .rdid (.byte .own 1) true with flash := .oracle [9], moves := [.seq] })
        (fun t => t.idMfr != 0) = true ∧
      nextIs (step { polling with flash := .oracle [9], moves := [.seq] })
        (fun t => t.sr1 != 0 && t.pollCnt != 0) = true ∧
      nextIs (step { running .rdsr2 (.byte .own 1) true with flash := .oracle [9], moves := [.seq] })
        (fun t => t.sr2 != 0) = true ∧
      nextIs (step { running (.exchange 1) (.byte .own 0) true with flash := .oracle [9], moves := [.seq] })
        (fun t => t.rxdata != 0) = true ∧
      nextIs (step { State.reset with mmAddr := 5, pct := 7, moves := [.hostWrite .word 0x000 0xA00] })
        (fun t => t.mmAddr == 0 && t.pct == 0) = true ∧
      nextIs (step { State.reset with moves := [.hostWrite .word 0x1FC 1] }) (fun t => t.dbuf != []) = true ∧
      nextIs (step { running .dump .data true with moves := [.seq], flash := .oracle [9] })
        (fun t => t.wbuf != []) = true := by decide

theorem witness_one_event_per_step :
    nextIs (step { running .dump .data true with moves := [.seq] }) (fun t => t.events.length == 2) = true ∧
      nextIs (step { State.reset with moves := [.hostWrite .word 0x000 0x800] }) (fun t => t.events == []) = true := by
  decide

theorem witness_running_command : (running .dump .data true).busy = true := rfl

theorem witness_host_accesses :
    (0x00C : BitVec 12).toNat % 4 = 0 ∧ (0xFFC : BitVec 12).toNat % 4 = 0 ∧ (0x1FC : BitVec 12).toNat % 4 = 0 ∧
      ¬(0x100 ≤ (0x0FC : BitVec 12).toNat) ∧ ¬((0x200 : BitVec 12).toNat ≤ 0x1FC) ∧
      { State.reset with moves := [.hostRead .word 0x00C] }.moves = [.hostRead .word 0x00C] ∧
      { running .dump .data true with moves := [.hostWrite .word 0x0FC 1] }.busy = true := by decide

/-- The first and the last word of DBUF, with no command running and with one. -/
theorem witness_dbuf_access :
    { State.reset with moves := [.hostRead .word 0x100] }.moves = .hostRead .word (BitVec.ofNat 12 (0x100 + 4 * 0)) :: [] ∧
      { State.reset with moves := [.hostWrite .word 0x1FC 1] }.moves =
        .hostWrite .word (BitVec.ofNat 12 (0x100 + 4 * 63)) 1 :: [] ∧
      State.reset.busy = false ∧ (running .dump .data true).busy = true := by decide

/-- Each frame FREF takes, and a busy chip. -/
theorem witness_fref_takes_write_frames :
    { frefInitial with busy := 1, frame := [0x06] }.busy ≠ 0 ∧ { frefInitial with frame := [0x06] }.busy = 0 ∧
      { frefInitial with frame := [0x04] }.frame = [0x04] ∧
      { frefInitial with frame := [0xC7] }.wel = false ∧ { frefInitial with wel := true, frame := [0xC7] }.wel = true := by
  decide

/-- A payload that ends with its page, and one of no byte. -/
theorem witness_fref_program_clears_bits :
    (let c := { frefInitial with wel := true, frame := [0x02, 0xFF, 0x00, 0xFF, 0x0F] };
      Memory.wf (some frefErased) 0x800000 c.mem = true ∧ c.busy = 0 ∧ c.wel = true ∧
        c.frame = 0x02 :: 0xFF :: 0x00 :: 0xFF :: [0x0F] ∧ (0xFF : Byte).toNat + [(0x0F : Byte)].length ≤ 256) ∧
    (0x00 : Byte).toNat + ([] : List Byte).length ≤ 256 := by decide

end Sys2Proof.Tests
end

section
/-! PROOFS. The statements of scope (00_scope.md): what a step can be, the invariant that every step keeps, STATE and
the position, and the runs of WAIT_READY, UPLOAD and VERIFY that the rules name. -/

namespace Sys2Proof.Machine

open Sys2Proof.Claims

/-! ### What a step can be (R95) -/

/-- One move of an agent, from a state in which it has just been taken (R22, R26, R95, R340). -/
inductive MoveStep (s : State) : State → Prop where
  /-- SEQ's next primitive of the latched command. -/
  | primitive (i : Instr) (t : State) (hb : s.busy = true) (hl : latched s = .ok i) (hx : exec i s = .next t) :
    MoveStep s t
  /-- SEQ's turn with no command running. -/
  | pass (hb : s.busy = false) : MoveStep s s
  | read (off : BitVec 12) : MoveStep s (hostRead off s)
  /-- CMD written while a command runs. -/
  | drop (hb : s.busy = true) : MoveStep s (dropCommand s)
  /-- CMD written with the word of a command, none running. -/
  | issue (i : Instr) (t : State) (hb : s.busy = false) (hx : exec i s = .next t) : MoveStep s t
  /-- CMD written with an illegal word, no command running. -/
  | illegal (w : Word) (hb : s.busy = false) : MoveStep s (issueIllegal w s)
  /-- Another register written. -/
  | write (off : BitVec 12) (w : Word) : MoveStep s (writeReg (hostReg off) w s)
  | reset : MoveStep s (resetStep s)

/-- A host access that has a next state is one the interface admits (R90). -/
theorem runFetched_gate {width : AccessWidth} {off : BitVec 12} {f : Fetched} {t : State}
    (h : runFetched (gate width off f) = .next t) : runFetched f = .next t := by
  unfold gate at h
  split_ifs at h
  · cases h
  · cases h
  · exact h

theorem fetchSeq_moveStep {s t : State} (h : runFetched (fetchSeq s) = .next t) : MoveStep s t := by
  unfold fetchSeq at h
  split at h
  · split at h
    · exact .primitive _ _ ‹_› ‹_› h
    · cases h
  · cases h
    exact .pass (Bool.eq_false_iff.2 ‹_›)

theorem fetchCommand_moveStep {w : Word} {s t : State} (h : runFetched (fetchCommand w s) = .next t) :
    MoveStep s t := by
  unfold fetchCommand at h
  split at h
  · cases h
    exact .drop ‹_›
  · rename_i hb
    rw [Bool.not_eq_true] at hb
    split at h
    · exact .issue _ _ hb h
    · cases h
      exact .illegal w hb

/-- Every step that has a next state is one of these, on the state with the move taken from it. -/
theorem step_moveStep {s t : State} (h : step s = .next t) : MoveStep (moveTaken s) t := by
  unfold step fetch fetchMove at h
  split at h
  · exact fetchSeq_moveStep h
  · cases runFetched_gate h
    exact .read _
  · have hx := runFetched_gate h
    split at hx
    · exact fetchCommand_moveStep hx
    · cases hx
      exact .write _ _
  · cases h
    exact .reset

/-- Taking a move changes only what is the model's own. -/
theorem moveTaken_eq (s : State) : ∃ ms n, moveTaken s = { s with moves := ms, draws := n } := by
  unfold moveTaken
  split
  · exact ⟨_, _, rfl⟩
  · exact ⟨s.moves, s.draws + 1, rfl⟩

/-! ### Steps of one command -/

/-- The command of the latches acceptance fills (R55, R133). -/
theorem decodeFields_encodeFields (i : Instr) : decodeFields (encodeFields i) = .ok i := by
  cases i <;> rfl

/-- The commands of one frame (R180), with the frame and what becomes of its response bytes. -/
def frameOf (i : Instr) (s : State) : Option (Frame × (Nat → Byte → State → State)) :=
  match i with
  | .rdid => some (frameF1 0x9F 3, keepId)
  | .rdsr1 => some (frameF1 0x05 1, keepSr1)
  | .rdsr2 => some (frameF1 0x35 1, keepSr2)
  | .read => some (readFrame s, keepDbuf)
  | .wren => some (frameF0 0x06, keepNone)
  | .wrdi => some (frameF0 0x04, keepNone)
  | .ce => some (frameF0 0xC7, keepNone)
  | .pp => some (programFrame s, keepNone)
  | _ => none

/-- The SEQ primitives of a command. -/
def seqOf (i : Instr) (s : State) : Result :=
  match i with
  | .select => seqSelect s
  | .exchange b => seqExchange b s
  | .deselect => seqDeselect s
  | .waitReady => seqWaitReady s
  | .readId => seqReadId s
  | .dump => seqDump s
  | .upload => seqUpload s
  | .verify => seqVerify s
  | i => match frameOf i s with
    | some (f, keep) => seqFrame f keep s
    | none => .next s

/-- The issue checks of a command (R160 to R163, R190, R194, R302). -/
def refuseOf : Instr → State → Option Cause
  | .read => refuseRead
  | .pp => refuseProgram
  | .select | .deselect => refuseNever
  | .exchange _ => refuseExchange
  | _ => refuseComposite

/-- A command's own part of acceptance (R250). -/
def initOf : Instr → State → State
  | .dump | .upload => bulkInit
  | .verify => verifyInit
  | _ => id

/-- A running command's step is its next primitive (R26, R37). -/
theorem exec_busy {i : Instr} {s : State} (h : s.busy = true) : exec i s = seqOf i s := by
  cases i <;> exact runCommand_busy h

/-- With no command running a command's step is its issue (R302). -/
theorem exec_idle {i : Instr} {s : State} (h : s.busy = false) :
    exec i s = .next (issue i (refuseOf i) (initOf i) (firstPos i) s) := by
  cases i <;> exact runCommand_idle h

/-- Settles O4: the word decodes to the command, so the host's write runs it (R302). -/
theorem stepRunsIssuedCommand : Obligations.StepRunsIssuedCommand := by
  intro s ms w i hm hb hd
  have hg : fetchMove (.hostWrite .word 0x000 w) (setMoves ms s) = fetchCommand w (setMoves ms s) := rfl
  rw [step_of_move hm, hg]
  simp [fetchCommand, hb, hd, runFetched]

/-- Settles O5: SEQ's move fetches the latched command while BUSY = 1, and passes else (R26, R37). -/
theorem stepRunsLatchedCommand : Obligations.StepRunsLatchedCommand := by
  intro s ms hm
  rw [step_of_move hm]
  refine ⟨fun i hb hl => ?_, fun hb => ?_⟩
  · have hl' : latched (setMoves ms s) = .ok i := hl
    simp [fetchMove, fetchSeq, hb, hl', runFetched]
  · simp [fetchMove, fetchSeq, hb, runFetched]

/-! ### The parts of the invariant -/

/-- The clauses of the invariant that do not depend on the position. -/
structure Sound (s : State) : Prop where
  wire : wireState s.events = some s.cs
  cursor : s.cursor.toNat ≤ Config.totalSize
  pct : s.pct.toNat ≤ 100
  wbuf : Memory.wf none Config.chunkSize s.wbuf = true
  dbuf : Memory.wf none Config.pageSize s.dbuf = true
  flash : s.flash.wf = true

/-- What those clauses read. -/
def soundPart (s : State) : List BusEvent × Bool × Addr × Byte × Memory × Memory × Flash :=
  (s.events, s.cs, s.cursor, s.pct, s.wbuf, s.dbuf, s.flash)

/-- The clauses about where a command stands, which each primitive moves on. -/
structure At (i : Instr) (s : State) : Prop where
  pos : posOk i s = true
  cs : ∀ b, csAt i s.pos = some b → s.cs = b
  loop : loopOk i s
  held : heldOk i s

/-- What no primitive but the last one changes: CMD, the flags, the latches. -/
def commandPart (s : State) : Word × Bool × Bool × Bool × Cause × BitVec 4 × Byte × Addr × BitVec 16 :=
  (s.cmd, s.busy, s.done, s.err, s.cause, s.lOp, s.lByte, s.lAddr, s.lLen)

theorem Inv.sound {s : State} (h : Inv s) : Sound s := ⟨h.wire, h.cursor, h.pct, h.wbuf, h.dbuf, h.flash⟩

theorem Running.at {i : Instr} {s : State} (R : Running i s) : At i s := ⟨R.pos, R.cs, R.loop, R.held⟩

theorem latched_of_commandPart {s t : State} (h : commandPart t = commandPart s) : latched t = latched s := by
  simp only [commandPart, Prod.mk.injEq] at h
  obtain ⟨-, -, -, -, -, hop, hbyte, -, -⟩ := h
  rw [latched, hop, hbyte, latched]

theorem pos_ne_idle_of_posOk {i : Instr} {s : State} (h : posOk i s = true) : s.pos ≠ .idle := by
  intro hp
  cases i <;> simp [posOk, framePos, hp] at h

/-- A primitive that is not a command's last keeps the invariant when it stays sound, leaves the command's part alone,
gives STATE no other value than the markers do, and comes to the command's next position. -/
theorem Inv.goes_on {i : Instr} {s t : State} (h : Inv s) (hb : s.busy = true) (R : Running i s)
    (hc : commandPart t = commandPart s) (hp : t.phase = s.phase ∨ t.phase = .transfer ∨ t.phase = .finish)
    (S : Sound t) (A : At i t) : Inv t := by
  have hl := latched_of_commandPart hc
  simp only [commandPart, Prod.mk.injEq] at hc
  obtain ⟨hcmd, hbusy, hdone, herr, hcause, -⟩ := hc
  have hbt : t.busy = true := hbusy.trans hb
  have hphase : s.phase ≠ .idle := fun e => by simp [h.phase.1 e] at hb
  have hphase' : t.phase ≠ .idle := by rcases hp with e | e | e <;> simp [e, hphase]
  have hrun := h.running hb
  exact
    { outcome := by rw [hdone, herr]; exact h.outcome
      running := fun _ => by rw [hdone, herr]; exact hrun
      cause := by rw [herr, hcause]; exact h.cause
      phase := by simp [hphase', hbt]
      idle := by simp [pos_ne_idle_of_posOk A.pos, hbt]
      settled := by simp [hbt]
      command := fun _ => ⟨i, hl.trans R.latch, hcmd.trans R.word, A.pos, A.cs, A.loop, A.held⟩
      wire := S.wire
      cursor := S.cursor
      pct := S.pct
      wbuf := S.wbuf
      dbuf := S.dbuf
      flash := S.flash }

/-- With no command running the invariant is its clauses about the flags, about idleness, and `Sound`. -/
theorem Inv.of_idle {s : State} (hb : s.busy = false) (hf : ¬(s.done = true ∧ s.err = true))
    (hc : s.err = false ↔ s.cause = .none) (hphase : s.phase = .idle) (hpos : s.pos = .idle)
    (hs : s.sample = none ∧ s.sourced = none) (S : Sound s) : Inv s where
  outcome := hf
  running := by simp [hb]
  cause := hc
  phase := by simp [hphase, hb]
  idle := by simp [hpos, hb]
  settled := fun _ => hs
  command := by simp [hb]
  wire := S.wire
  cursor := S.cursor
  pct := S.pct
  wbuf := S.wbuf
  dbuf := S.dbuf
  flash := S.flash

/-! ### What keeps a state sound -/

theorem Sound.congr {s t : State} (S : Sound s) (h : soundPart t = soundPart s) : Sound t := by
  simp only [soundPart, Prod.mk.injEq] at h
  obtain ⟨he, hc, hcu, hp, hw, hd, hf⟩ := h
  constructor
  · rw [he, hc]; exact S.wire
  · rw [hcu]; exact S.cursor
  · rw [hp]; exact S.pct
  · rw [hw]; exact S.wbuf
  · rw [hd]; exact S.dbuf
  · rw [hf]; exact S.flash

theorem Sound.select {s : State} (S : Sound s) : Sound (select s) :=
  { S with
    wire := select_wire S.wire
    flash := by rw [select_flash]; split <;> simp [S.flash] }

theorem Sound.exchange {s : State} (S : Sound s) (tx : Byte) (hc : s.cs = true) : Sound (exchange tx s) :=
  { S with
    wire := by rw [exchange_cs, hc]; exact exchange_wire tx (hc ▸ S.wire)
    flash := by simp [S.flash] }

theorem Sound.deselect {s : State} (S : Sound s) (w : Bool) : Sound (deselect w s) :=
  { S with
    wire := deselect_wire w S.wire
    flash := by rw [deselect_flash]; split <;> simp [S.flash, Flash.released_wf] }

theorem wireStep_offWire {e : BusEvent} (he : onWire e = false) (o : Bool) : wireStep (some o) e = some o := by
  cases e with
  | select | exchange | deselect => simp at he
  | sourceRead | sinkWrite | progress => cases o <;> rfl

/-- An event that is not the SPI port's leaves the frames as they are (R85, R86). -/
theorem Sound.offWire {s t : State} (S : Sound s) (e : BusEvent) (he : onWire e = false)
    (h : soundPart t = soundPart { s with events := s.events ++ [e] }) : Sound t := by
  have hw : wireState (s.events ++ [e]) = some s.cs := by
    rw [wireState_snoc, S.wire, wireStep_offWire he]
  exact Sound.congr (s := { s with events := s.events ++ [e] }) { S with wire := hw } h

theorem Sound.setDbuf {s : State} (S : Sound s) {k : Nat} (hk : k < Config.pageSize) (v : Byte) :
    Sound (setDbuf k v s) :=
  { S with dbuf := Memory.wf_write v hk S.dbuf }

theorem Sound.setWbuf {s : State} (S : Sound s) {k : Nat} (hk : k < Config.chunkSize) (v : Byte) :
    Sound (setWbuf k v s) :=
  { S with wbuf := Memory.wf_write v hk S.wbuf }

theorem Sound.assignSourced {s : State} (S : Sound s) (k : Nat)
    (h : ∀ d, s.sourced = some d → k + d.length ≤ Config.chunkSize) : Sound (assignSourced k s) := by
  cases hd : s.sourced with
  | none => rw [assignSourced_none k hd]; exact S
  | some d =>
    rw [assignSourced_some k hd]
    exact { S with wbuf := Memory.wf_writeList d (h d hd) S.wbuf }

theorem toNat_cursor {c : Nat} (hc : c ≤ Config.totalSize) : (BitVec.ofNat 24 c).toNat = c := by
  rw [Config.totalSize] at hc
  rw [BitVec.toNat_ofNat]
  exact Nat.mod_eq_of_lt (by omega)

theorem Sound.setCursor {s : State} (S : Sound s) {c : Nat} (hc : c ≤ Config.totalSize) : Sound (setCursor c s) :=
  { S with cursor := by rw [setCursor_cursor, toNat_cursor hc]; exact hc }

theorem percent_le {c : Nat} (hc : c ≤ Config.totalSize) : (percent c).toNat ≤ 100 := by
  have : c * 100 / Config.totalSize ≤ 100 :=
    Nat.div_le_of_le_mul (Nat.mul_le_mul_right 100 hc)
  rw [percent, BitVec.toNat_ofNat]
  exact (Nat.mod_le _ _).trans this

theorem Sound.emitProgress {s : State} (S : Sound s) : Sound (emitProgress s) := by
  have hp : Sound { s with pct := percent s.cursor.toNat } := { S with pct := percent_le S.cursor }
  exact hp.offWire (.progress s.cursor.toNat Config.totalSize) rfl rfl

theorem Sound.sourceRead {s : State} (S : Sound s) (n : Nat) (ok : Bool) (d : List Byte) :
    Sound (sourceRead n ok d s) := S.offWire (.sourceRead n ok d) rfl rfl

theorem Sound.sinkWrite {s : State} (S : Sound s) (d : List Byte) (ok : Bool) : Sound (sinkWrite d ok s) :=
  S.offWire (.sinkWrite d ok) rfl rfl

/-! ### A command that ends -/

/-- `Finish()` keeps the invariant (R305). -/
theorem Inv.finish {i : Instr} {s : State} (h : Inv s) (hb : s.busy = true) (R : Running i s)
    (hp : s.pos = .finish) : Inv (finish s) := by
  obtain ⟨hd, he⟩ := h.running hb
  obtain ⟨hs, hd⟩ := R.held
  have hsample : s.sample = none := by
    by_contra hn
    simpa [hp, sampleWaits] using hs hn
  have hsourced : s.sourced = none := by
    by_contra hn
    obtain ⟨d, e⟩ := Option.ne_none_iff_exists'.1 hn
    simpa [hp] using hd d e
  exact .of_idle rfl (by simp [he]) h.cause rfl rfl ⟨hsample, hsourced⟩ (h.sound.congr rfl)

/-- `Fail(c)` keeps the invariant once nothing waits to be assigned (R306). -/
theorem Inv.fail {s : State} (h : Inv s) (hb : s.busy = true) {u : State}
    (hu : commandPart u = commandPart s) (hs : u.sample = none ∧ u.sourced = none) (S : Sound u) {c : Cause}
    (hc : c ≠ .none) : Inv (fail c u) := by
  simp only [commandPart, Prod.mk.injEq] at hu
  obtain ⟨-, -, hd, -⟩ := hu
  exact .of_idle rfl (by simp [hd, h.running hb]) (by simp [hc]) rfl rfl hs ((S.deselect true).congr rfl)

/-! ### Where a command stands -/

theorem heldOk_of_settled {i : Instr} {s : State} (h : s.sample = none ∧ s.sourced = none) : heldOk i s := by
  simp [heldOk, h]

/-- But for the step after an answered source read no source bytes wait. -/
theorem At.sourced_none {i : Instr} {s : State} (A : At i s) (hu : ¬(i = .upload ∧ s.pos = .select .pageWren))
    (hv : ¬(i = .verify ∧ s.pos = .compare)) : s.sourced = none := by
  by_contra hn
  obtain ⟨d, e⟩ := Option.ne_none_iff_exists'.1 hn
  rcases A.held.2 d e with ⟨rfl, hp, -⟩ | ⟨rfl, hp, -⟩
  · exact hu ⟨rfl, hp⟩
  · exact hv ⟨rfl, hp⟩

/-- Away from a poll and from the step after an answered source read nothing waits. -/
theorem At.settled {i : Instr} {s : State} (A : At i s) (hs : sampleWaits i s.pos = false)
    (hu : ¬(i = .upload ∧ s.pos = .select .pageWren)) (hv : ¬(i = .verify ∧ s.pos = .compare)) :
    s.sample = none ∧ s.sourced = none := by
  refine ⟨?_, A.sourced_none hu hv⟩
  by_contra hn
  simp [A.held.1 hn] at hs

theorem framePos_congr {f g : Frame} (h : f.size = g.size) (p : Pos) : framePos f p = framePos g p := by
  unfold framePos
  split <;> simp only [h]

/-- What the clauses about where a command stands read. -/
def atPart (s : State) : (BitVec 16 × Addr × Pos × Bool) × (Nat × Nat × Nat × Nat × Addr) × Option Byte ×
    Option (List Byte) :=
  ((s.lLen, s.lAddr, s.pos, s.cs), (s.chunkIx, s.pageIx, s.strideIx, s.byteIx, s.cursor), s.sample, s.sourced)

theorem At.congr {i : Instr} {s t : State} (A : At i s) (h : atPart t = atPart s) : At i t := by
  simp only [atPart, Prod.mk.injEq] at h
  obtain ⟨⟨hl, ha, hp, hc⟩, ⟨hx, hy, hz, hb, hcu⟩, hs, hd⟩ := h
  have hread : (readFrame t).size = (readFrame s).size := by rw [readFrame, hl, ha, readFrame]
  have hprog : (programFrame t).size = (programFrame s).size := by rw [programFrame, hl, ha]; rfl
  have hpos : posOk i t = posOk i s := by
    unfold posOk
    rw [hp, framePos_congr hread, framePos_congr hprog]
  have hloop : loopOk i t = loopOk i s := by
    unfold loopOk
    rw [hl, ha, hp, hx, hy, hz, hb, hcu]
  have hheld : heldOk i t = heldOk i s := by rw [heldOk, hp, hs, hd, heldOk]
  exact ⟨hpos.trans A.pos, by rw [hp, hc]; exact A.cs, hloop ▸ A.loop, hheld ▸ A.held⟩

/-- Chip select at a position that settles it. -/
theorem cs_of_csAt {i : Instr} {s : State} {c : Bool} (h : csAt i s.pos = some c) (hc : s.cs = c) :
    ∀ b, csAt i s.pos = some b → s.cs = b := fun b hb => by
  rw [h] at hb
  cases hb
  exact hc

/-- A position with chip select settled and nothing waiting. -/
theorem at_of_settled {i : Instr} {s : State} {c : Bool} (hp : posOk i s = true) (e : csAt i s.pos = some c)
    (hc : s.cs = c) (hl : loopOk i s) (hs : s.sample = none ∧ s.sourced = none) : At i s :=
  ⟨hp, cs_of_csAt e hc, hl, heldOk_of_settled hs⟩

/-- A position of a poll, where a sample may wait. -/
theorem at_of_sampling {i : Instr} {s : State} {c : Bool} (hp : posOk i s = true) (e : csAt i s.pos = some c)
    (hc : s.cs = c) (hl : loopOk i s) (hw : sampleWaits i s.pos = true) (hd : s.sourced = none) : At i s :=
  ⟨hp, cs_of_csAt e hc, hl, fun _ => hw, by simp [hd]⟩

/-! ### The bytes of a frame -/

/-- A state with the registers a response byte may go to (ID, SR, DBUF) as another state has them. -/
def withResponse (x s : State) : State :=
  { s with idMfr := x.idMfr, idType := x.idType, idCap := x.idCap, sr1 := x.sr1, sr2 := x.sr2, dbuf := x.dbuf }

/-- A response byte goes to ID, SR or DBUF and nowhere else (R127, R182 to R184, R191). -/
def RegisterKeep (keep : Nat → Byte → State → State) : Prop :=
  ∀ (j : Nat) (b : Byte) (s : State), ∃ x, keep j b s = withResponse x s

theorem keepNone_register : RegisterKeep keepNone := fun _ _ s => ⟨s, rfl⟩

theorem keepId_register : RegisterKeep keepId := fun j b s => ⟨keepId j b s, by
  unfold keepId
  split <;> rfl⟩

theorem keepSr1_register : RegisterKeep keepSr1 := fun j b s => ⟨keepSr1 j b s, rfl⟩

theorem keepSr2_register : RegisterKeep keepSr2 := fun j b s => ⟨keepSr2 j b s, rfl⟩

theorem keepDbuf_register : RegisterKeep keepDbuf := fun j b s => ⟨keepDbuf j b s, rfl⟩

/-- The phase after frame byte `k`: the opcode byte carries the marker (R180). -/
def bytePhase (marks : Bool) (k : Nat) (p : Phase) : Phase := if k = 0 then marked marks .transfer p else p

/-- A frame byte is the phase marker, an `Exchange`, a response byte to its register, and the next position. -/
theorem byteStep_eq {keep : Nat → Byte → State → State} (hk : RegisterKeep keep) (t : FrameTag) (marks : Bool)
    (f : Frame) (k : Nat) (s : State) :
    ∃ x, byteStep t marks f keep k s =
      setPos (nextByte f t k)
        (withResponse x (exchange (f.tx k) (setPhase (bytePhase marks k s.phase) s))) := by
  unfold byteStep bytePhase
  dsimp only
  split
  · exact ⟨_, rfl⟩
  · obtain ⟨x, hx⟩ := hk (k - f.sent) (rx (f.tx k) s)
      (exchange (f.tx k) (setPhase (if k = 0 then marked marks .transfer s.phase else s.phase) s))
    exact ⟨x, by rw [hx]⟩

/-- Response bytes below `n` keep a state sound. -/
def SoundKeep (n : Nat) (keep : Nat → Byte → State → State) : Prop :=
  ∀ (j : Nat) (b : Byte) (s : State), j < n → Sound s → Sound (keep j b s)

theorem keepNone_sound (n : Nat) : SoundKeep n keepNone := fun _ _ _ _ S => S

theorem keepId_sound (n : Nat) : SoundKeep n keepId := fun j b s _ S => by
  unfold keepId
  split <;> exact S.congr rfl

theorem keepSr1_sound (n : Nat) : SoundKeep n keepSr1 := fun _ _ _ _ S => S.congr rfl

theorem keepSr2_sound (n : Nat) : SoundKeep n keepSr2 := fun _ _ _ _ S => S.congr rfl

theorem keepDbuf_sound {n : Nat} (h : n ≤ Config.pageSize) : SoundKeep n keepDbuf := fun _ b _ hj S =>
  S.setDbuf (Nat.lt_of_lt_of_le hj h) b

theorem Sound.byteStep {f : Frame} {keep : Nat → Byte → State → State} (hk : SoundKeep f.respLen keep) {s : State}
    (S : Sound s) (hc : s.cs = true) (t : FrameTag) (marks : Bool) {k : Nat} (hs : k < f.size) :
    Sound (byteStep t marks f keep k s) := by
  have key (p : Phase) (q : Pos) : Sound (setPos q
      (if k < f.sent then Machine.exchange (f.tx k) (setPhase p s)
        else keep (k - f.sent) (rx (f.tx k) s) (Machine.exchange (f.tx k) (setPhase p s)))) := by
    have E : Sound (Machine.exchange (f.tx k) (setPhase p s)) :=
      Sound.exchange (s := setPhase p s) (S.congr rfl) _ hc
    split
    · exact E.congr rfl
    · refine (hk (k - f.sent) _ _ ?_ E).congr rfl
      rw [Frame.size] at hs
      omega
  exact key _ _

/-- The next position is another byte of the frame or its Deselect. -/
theorem nextByte_cases (f : Frame) (t : FrameTag) (k : Nat) :
    k + 1 < f.size ∧ nextByte f t k = .byte t (k + 1) ∨ f.size ≤ k + 1 ∧ nextByte f t k = .deselect t := by
  unfold nextByte
  split
  · exact .inl ⟨‹_›, rfl⟩
  · exact .inr ⟨by omega, rfl⟩

/-- A sample leads to the poll's Deselect, to its failure or to another sample. -/
theorem afterSample_cases (t : FrameTag) (limit : Word) (n : Nat) (b : Byte) :
    afterSample t limit n b = .deselect t ∨ afterSample t limit n b = .fail .unresponsive ∨
      afterSample t limit n b = .sample t := by
  unfold afterSample
  split_ifs
  · exact .inl rfl
  · exact .inr (.inl rfl)
  · exact .inr (.inr rfl)

/-! ### Primitives several commands share -/

section Shared

variable {i : Instr} {s : State} (h : Inv s) (hb : s.busy = true) (R : Running i s)

include h hb R

/-- `Select()` of a frame keeps the invariant where the command may stand at the frame's first byte. -/
theorem Inv.selectStep {f : FrameTag} (A : At i (setPos (.byte f 0) { s with cs := true })) :
    Inv (selectStep f s) := by
  refine h.goes_on hb R ?_ (.inl ?_) (h.sound.select.congr ?_) (A.congr ?_) <;>
    simp [Machine.selectStep, commandPart, soundPart, atPart]

/-- A frame byte keeps it where the command may stand at the next byte or at the Deselect. -/
theorem Inv.byteStep {f : Frame} {keep : Nat → Byte → State → State} {tag : FrameTag} {marks : Bool} {k : Nat}
    (hr : RegisterKeep keep) (hk : SoundKeep f.respLen keep) (hc : s.cs = true) (hs : k < f.size)
    (A : At i (setPos (nextByte f tag k) s)) : Inv (byteStep tag marks f keep k s) := by
  have S := h.sound.byteStep hk hc tag marks hs
  obtain ⟨x, e⟩ := byteStep_eq hr tag marks f k s
  rw [e] at S ⊢
  refine h.goes_on hb R ?_ ?_ S (A.congr ?_)
  · simp [withResponse, commandPart]
  · simp only [bytePhase, marked, withResponse, setPos_phase, exchange_phase, setPhase_phase]
    split_ifs <;> simp
  · simp [withResponse, atPart]

/-- `Deselect()` of a frame keeps it where the command may stand after the frame. -/
theorem Inv.deselectStep {marks : Bool} {after : Pos} (A : At i (setPos after { s with cs := false })) :
    Inv (deselectStep marks after s) := by
  refine h.goes_on hb R ?_ ?_ ((h.sound.deselect true).congr ?_) (A.congr ?_)
  · simp [Machine.deselectStep, commandPart]
  · cases marks <;> simp [Machine.deselectStep, marked]
  · simp [Machine.deselectStep, soundPart]
  · simp [Machine.deselectStep, atPart]

/-- A poll's opcode byte keeps it where the command may take samples (R220). -/
theorem Inv.pollOpcodeStep {f : FrameTag} {marks : Bool} (hc : s.cs = true)
    (A : At i (setPos (.sample f) { s with sample := none })) : Inv (pollOpcodeStep f marks s) := by
  refine h.goes_on hb R ?_ ?_ ((h.sound.exchange 0x05 hc).congr ?_) (A.congr ?_)
  · simp [Machine.pollOpcodeStep, commandPart]
  · cases marks <;> simp [Machine.pollOpcodeStep, marked]
  · simp [Machine.pollOpcodeStep, soundPart]
  · simp [Machine.pollOpcodeStep, atPart]

/-- A sample keeps it where the command may stand at the poll's Deselect, its failure and the next sample. -/
theorem Inv.sampleStep {f : FrameTag} (hc : s.cs = true)
    (A : ∀ p b, p = .deselect f ∨ p = .fail .unresponsive ∨ p = .sample f →
      At i (setPos p { s with sample := some b })) : Inv (sampleStep f s) := by
  have A' := A _ (rx Config.dummy s) (afterSample_cases f s.lLimit (sampleCount s + 1) (rx Config.dummy s))
  refine h.goes_on hb R ?_ (.inl ?_) ((h.sound.exchange Config.dummy hc).congr ?_) (A'.congr ?_) <;>
    simp [Machine.sampleStep, commandPart, soundPart, atPart]

/-- The Deselect of a poll, where its last sample is assigned. -/
theorem Inv.pollEndStep {marks : Bool} {after : Pos}
    (A : At i (setPos after { s with cs := false, sample := none })) : Inv (pollEndStep marks after s) := by
  have S : Sound (assignSample s) := h.sound.congr (by simp [soundPart])
  refine h.goes_on hb R ?_ ?_ ((S.deselect true).congr ?_) (A.congr ?_)
  · simp [Machine.pollEndStep, Machine.deselectStep, commandPart]
  · cases marks <;> simp [Machine.pollEndStep, Machine.deselectStep, marked]
  · simp [Machine.pollEndStep, Machine.deselectStep, soundPart]
  · simp [Machine.pollEndStep, Machine.deselectStep, atPart]

omit R in
/-- `Fail` after a poll, where the last sample is assigned (R306). -/
theorem Inv.pollFailStep {c : Cause} (hc : c ≠ .none) (hd : s.sourced = none) : Inv (pollFailStep c s) :=
  h.fail (u := assignSample s) hb (by simp [commandPart]) ⟨rfl, hd⟩ (h.sound.congr (by simp [soundPart])) hc

/-- A header byte of a sweep keeps it where the command may stand at the next byte or at the data (R252, R270). -/
theorem Inv.headerStep {k : Nat} (hc : s.cs = true) (A : At i (setPos (afterHeader k) s)) :
    Inv (headerStep k s) := by
  refine h.goes_on hb R ?_ (.inl ?_) ((h.sound.exchange (sweepFrame.tx k) hc).congr ?_) (A.congr ?_) <;>
    simp [Machine.headerStep, commandPart, soundPart, atPart]

/-- A data byte of a sweep keeps it where the command may stand with the byte index moved on. -/
theorem Inv.dataStep {n : Nat} {after : Pos} (hc : s.cs = true) (hk : s.byteIx < Config.chunkSize)
    (A : At i (setPos (if s.byteIx + 1 < n then .data else after) { s with byteIx := s.byteIx + 1 })) :
    Inv (dataStep n after s) := by
  have E : Sound (Machine.exchange Config.dummy s) := h.sound.exchange _ hc
  refine h.goes_on hb R ?_ (.inr (.inl ?_)) ((E.setWbuf hk (rx Config.dummy s)).congr ?_) (A.congr ?_) <;>
    simp [Machine.dataStep, commandPart, soundPart, atPart]

/-- The last Deselect of a sweep. -/
theorem Inv.sweepEndStep (A : At i (setPos .finish { s with cs := false })) : Inv (sweepEndStep s) := by
  refine h.goes_on hb R ?_ (.inr (.inr ?_)) ((h.sound.deselect true).congr ?_) (A.congr ?_) <;>
    simp [Machine.sweepEndStep, commandPart, soundPart, atPart]

/-- A turn in which STREAM has not answered (R86). -/
theorem Inv.streamWait : Inv (streamWait s) := by
  refine h.goes_on hb R ?_ (.inl ?_) (h.sound.congr ?_) (R.at.congr ?_) <;>
    simp [Machine.streamWait, commandPart, soundPart, atPart]

end Shared

/-! ### The commands of one frame -/

section FrameCommand

variable {i : Instr} {s t : State} {f : Frame} {keep : Nat → Byte → State → State}

theorem frameOf_register (h : frameOf i s = some (f, keep)) : RegisterKeep keep := by
  cases i <;> simp only [frameOf, Option.some.injEq, Prod.mk.injEq, reduceCtorEq] at h <;> rw [← h.2]
  · exact keepId_register
  · exact keepSr1_register
  · exact keepSr2_register
  · exact keepDbuf_register
  all_goals exact keepNone_register

theorem frameOf_sound (h : frameOf i s = some (f, keep)) (hl : loopOk i s) : SoundKeep f.respLen keep := by
  cases i <;> simp only [frameOf, Option.some.injEq, Prod.mk.injEq, reduceCtorEq] at h <;> rw [← h.2]
  · exact keepId_sound _
  · exact keepSr1_sound _
  · exact keepSr2_sound _
  · exact keepDbuf_sound (h.1 ▸ hl)
  all_goals exact keepNone_sound _

theorem posOk_frame (h : frameOf i s = some (f, keep)) (hl : t.lLen = s.lLen) (ha : t.lAddr = s.lAddr) :
    posOk i t = framePos f t.pos := by
  cases i <;> simp only [frameOf, Option.some.injEq, Prod.mk.injEq, reduceCtorEq] at h <;>
    obtain ⟨rfl, -⟩ := h
  case read => rw [posOk, readFrame, hl, ha, readFrame]
  case pp => exact framePos_congr (by rw [programFrame, hl, ha]; rfl) t.pos
  all_goals rfl

theorem loopOk_frame (h : frameOf i s = some (f, keep)) (hl : t.lLen = s.lLen) (ha : t.lAddr = s.lAddr) :
    loopOk i t ↔ loopOk i s := by
  cases i <;> simp only [frameOf, reduceCtorEq] at h <;> simp [loopOk, hl, ha]

/-- Chip select is active from after `Select()` to `Deselect()`. -/
def inFrame : Pos → Bool
  | .byte _ _ | .deselect _ => true
  | _ => false

theorem csAt_frame (h : frameOf i s = some (f, keep)) {p : Pos} (hp : framePos f p = true) :
    csAt i p = some (inFrame p) := by
  unfold framePos at hp
  split at hp
  case h_5 => cases hp
  all_goals cases i <;> simp only [frameOf, reduceCtorEq] at h <;> rfl

theorem sampleWaits_frame (h : frameOf i s = some (f, keep)) {p : Pos} (hp : framePos f p = true) :
    sampleWaits i p = false := by
  have hi : i ≠ .waitReady := by rintro rfl; cases h
  unfold framePos at hp
  split at hp
  case h_3 => simp [sampleWaits, hi]
  case h_5 => cases hp
  all_goals rfl

theorem at_frame (h : frameOf i s = some (f, keep)) (hc : commandPart t = commandPart s) (hl : loopOk i s)
    (hp : framePos f t.pos = true) (hcs : t.cs = inFrame t.pos) (hs : t.sample = none ∧ t.sourced = none) :
    At i t := by
  simp only [commandPart, Prod.mk.injEq] at hc
  obtain ⟨-, -, -, -, -, -, -, ha, hn⟩ := hc
  exact ⟨(posOk_frame h hn ha).trans hp, cs_of_csAt (csAt_frame h hp) hcs, (loopOk_frame h hn ha).2 hl,
    heldOk_of_settled hs⟩

theorem Frame.size_pos (f : Frame) : 0 < f.size := by
  unfold Frame.size Frame.sent Frame.header
  split <;> omega

/-- Every primitive of a command of one frame keeps the invariant (R180). -/
theorem seqFrame_keeps_inv (hf : frameOf i s = some (f, keep)) (h : Inv s) (hb : s.busy = true) (R : Running i s)
    (hx : seqFrame f keep s = .next t) : Inv t := by
  have S := h.sound
  have hpos : framePos f s.pos = true := (posOk_frame hf rfl rfl).symm.trans R.pos
  have hcs : s.cs = inFrame s.pos := R.cs _ (csAt_frame hf hpos)
  have hset : s.sample = none ∧ s.sourced = none :=
    R.at.settled (sampleWaits_frame hf hpos) (by rintro ⟨rfl, -⟩; cases hf) (by rintro ⟨rfl, -⟩; cases hf)
  unfold seqFrame at hx
  split at hx <;> cases hx
  case h_1 hp =>
    exact h.selectStep hb R (at_frame hf rfl R.loop (decide_eq_true f.size_pos) rfl hset)
  case h_2 k hp =>
    rw [hp] at hpos hcs
    refine h.byteStep hb R (frameOf_register hf) (frameOf_sound hf R.loop) hcs (of_decide_eq_true hpos) ?_
    rcases nextByte_cases f .own k with ⟨hk, e⟩ | ⟨-, e⟩ <;> rw [e]
    · exact at_frame hf rfl R.loop (decide_eq_true hk) hcs hset
    · exact at_frame hf rfl R.loop rfl hcs hset
  case h_3 hp =>
    exact h.deselectStep hb R (at_frame hf rfl R.loop rfl rfl hset)
  case h_4 hp => exact h.finish hb R hp

end FrameCommand

/-! ### The transport commands (40_transport.md) -/

theorem seqSelect_keeps_inv {s t : State} (h : Inv s) (hb : s.busy = true) (R : Running .select s)
    (hx : seqSelect s = .next t) : Inv t := by
  unfold seqSelect at hx
  split at hx <;> cases hx <;> rename_i hp
  · have hset := R.at.settled (by rw [hp]; rfl) (by simp) (by simp)
    have A : At .select (setPos .finish { s with cs := true }) := at_of_settled rfl rfl rfl trivial hset
    refine h.goes_on hb R ?_ (.inl ?_) (h.sound.select.congr ?_) (A.congr ?_) <;>
      simp [commandPart, soundPart, atPart]
  · exact h.finish hb R hp

theorem seqExchange_keeps_inv {b : Byte} {s t : State} (h : Inv s) (hb : s.busy = true)
    (R : Running (.exchange b) s) (hx : seqExchange b s = .next t) : Inv t := by
  unfold seqExchange at hx
  split at hx <;> cases hx <;> rename_i hp
  · have hset := R.at.settled (by rw [hp]; rfl) (by simp) (by simp)
    have hc : s.cs = true := R.cs true (by rw [hp]; rfl)
    have A : At (.exchange b) (setPos .finish s) := at_of_settled rfl rfl hc trivial hset
    refine h.goes_on hb R ?_ (.inl ?_) ((h.sound.exchange b hc).congr ?_) (A.congr ?_) <;>
      simp [commandPart, soundPart, atPart]
  · exact h.finish hb R hp

theorem seqDeselect_keeps_inv {s t : State} (h : Inv s) (hb : s.busy = true) (R : Running .deselect s)
    (hx : seqDeselect s = .next t) : Inv t := by
  unfold seqDeselect at hx
  split at hx <;> cases hx <;> rename_i hp
  · have hset := R.at.settled (by rw [hp]; rfl) (by simp) (by simp)
    have A : At .deselect (setPos .finish { s with cs := false }) := at_of_settled rfl rfl rfl trivial hset
    refine h.goes_on hb R ?_ (.inl ?_) ((h.sound.deselect true).congr ?_) (A.congr ?_) <;>
      simp [commandPart, soundPart, atPart]
  · exact h.finish hb R hp

/-! ### The geometry in numbers (R8, R10) -/

theorem totalSize_eq : Config.totalSize = 0x800000 := rfl
theorem chunkSize_eq : Config.chunkSize = 0x4000 := rfl
theorem halfSize_eq : Config.halfSize = 0x2000 := by decide
theorem numChunks_eq : Config.numChunks = 512 := by decide
theorem numStrides_eq : Config.numStrides = 1024 := by decide
theorem pagesPerChunk_eq : Config.pagesPerChunk = 64 := by decide

theorem chunkSize_pos : 0 < Config.chunkSize := by decide
theorem halfSize_pos : 0 < Config.halfSize := by decide
theorem pagesPerChunk_pos : 0 < Config.pagesPerChunk := by decide

theorem chunk_end_le {c : Nat} (hc : c < Config.numChunks) : (c + 1) * Config.chunkSize ≤ Config.totalSize := by
  rw [numChunks_eq] at hc
  rw [chunkSize_eq, totalSize_eq]
  omega

theorem last_chunk_end {c : Nat} (hc : c < Config.numChunks) (hl : Config.numChunks ≤ c + 1) :
    (c + 1) * Config.chunkSize = Config.totalSize := by
  rw [numChunks_eq] at hc hl
  rw [chunkSize_eq, totalSize_eq]
  omega

theorem stride_end_le {k : Nat} (hk : k < Config.numStrides) : (k + 1) * Config.halfSize ≤ Config.totalSize := by
  rw [numStrides_eq] at hk
  rw [halfSize_eq, totalSize_eq]
  omega

theorem last_stride_end {k : Nat} (hk : k < Config.numStrides) (hl : Config.numStrides ≤ k + 1) :
    (k + 1) * Config.halfSize = Config.totalSize := by
  rw [numStrides_eq] at hk hl
  rw [halfSize_eq, totalSize_eq]
  omega

/-! ### READ_ID (R240) and WAIT_READY (R221) -/

theorem seqReadId_keeps_inv {s t : State} (h : Inv s) (hb : s.busy = true) (R : Running .readId s)
    (hx : seqReadId s = .next t) : Inv t := by
  have hpos := R.pos
  have hset (hw : sampleWaits .readId s.pos = false) : s.sample = none ∧ s.sourced = none :=
    R.at.settled hw (by simp) (by simp)
  have hcs := R.cs
  unfold seqReadId at hx
  split at hx <;> cases hx <;> rename_i hp <;> rw [hp] at hset hcs
  case h_1 | h_4 | h_7 => exact h.selectStep hb R (at_of_settled rfl rfl rfl trivial (hset rfl))
  case h_3 | h_6 | h_9 => exact h.deselectStep hb R (at_of_settled rfl rfl rfl trivial (hset rfl))
  case h_10 => exact h.finish hb R hp
  case h_2 k =>
    have hk : k < (frameF1 0x9F 3).size := of_decide_eq_true (by rw [← hpos, posOk, hp]; rfl)
    refine h.byteStep hb R keepId_register (keepId_sound _) (hcs _ rfl) hk ?_
    rcases nextByte_cases (frameF1 0x9F 3) .ident k with ⟨hk, e⟩ | ⟨-, e⟩ <;> rw [e]
    · exact at_of_settled (decide_eq_true hk) rfl (hcs _ rfl) trivial (hset rfl)
    · exact at_of_settled rfl rfl (hcs _ rfl) trivial (hset rfl)
  case h_5 k =>
    have hk : k < (frameF1 0x05 1).size := of_decide_eq_true (by rw [← hpos, posOk, hp]; rfl)
    refine h.byteStep hb R keepSr1_register (keepSr1_sound _) (hcs _ rfl) hk ?_
    rcases nextByte_cases (frameF1 0x05 1) .status1 k with ⟨hk, e⟩ | ⟨-, e⟩ <;> rw [e]
    · exact at_of_settled (decide_eq_true hk) rfl (hcs _ rfl) trivial (hset rfl)
    · exact at_of_settled rfl rfl (hcs _ rfl) trivial (hset rfl)
  case h_8 k =>
    have hk : k < (frameF1 0x35 1).size := of_decide_eq_true (by rw [← hpos, posOk, hp]; rfl)
    refine h.byteStep hb R keepSr2_register (keepSr2_sound _) (hcs _ rfl) hk ?_
    rcases nextByte_cases (frameF1 0x35 1) .status2 k with ⟨hk, e⟩ | ⟨-, e⟩ <;> rw [e]
    · exact at_of_settled (decide_eq_true hk) rfl (hcs _ rfl) trivial (hset rfl)
    · exact at_of_settled rfl rfl (hcs _ rfl) trivial (hset rfl)

theorem seqWaitReady_keeps_inv {s t : State} (h : Inv s) (hb : s.busy = true) (R : Running .waitReady s)
    (hx : seqWaitReady s = .next t) : Inv t := by
  have hpos := R.pos
  have hsrc : s.sourced = none := R.at.sourced_none (by simp) (by simp)
  have hset (hw : sampleWaits .waitReady s.pos = false) : s.sample = none ∧ s.sourced = none :=
    R.at.settled hw (by simp) (by simp)
  have hcs := R.cs
  unfold seqWaitReady at hx
  split at hx <;> cases hx <;> rename_i hp <;> rw [hp] at hset hcs
  case h_1 => exact h.selectStep hb R (at_of_settled rfl rfl rfl trivial (hset rfl))
  case h_2 => exact h.pollOpcodeStep hb R (hcs _ rfl) (at_of_settled rfl rfl (hcs _ rfl) trivial ⟨rfl, hsrc⟩)
  case h_3 =>
    refine h.sampleStep hb R (hcs _ rfl) fun p b hp => ?_
    rcases hp with rfl | rfl | rfl <;> exact at_of_sampling rfl rfl (hcs _ rfl) trivial rfl hsrc
  case h_4 => exact h.pollEndStep hb R (at_of_settled rfl rfl rfl trivial ⟨rfl, hsrc⟩)
  case h_5 => exact h.finish hb R hp
  case h_6 c =>
    refine h.pollFailStep hb ?_ hsrc
    rintro rfl
    simp [posOk, hp] at hpos

/-! ### DUMP (R252) -/

theorem dumpSinkStep_cases (s : State) :
    dumpSinkStep s = streamWait s ∨ ∃ ok, dumpSinkStep s =
      setPos (if ok then .progress else .fail .snkRej) (sinkWrite (wbufSlice s 0 Config.chunkSize) ok s) := by
  unfold dumpSinkStep
  split
  · exact .inl rfl
  · exact .inr ⟨_, rfl⟩

theorem dumpNextChunk_cases (s : State) :
    s.chunkIx + 1 < Config.numChunks ∧ dumpNextChunk s = setPos .data (nextChunk s) ∨
      Config.numChunks ≤ s.chunkIx + 1 ∧ dumpNextChunk s = setPos (.deselect .own) s := by
  unfold dumpNextChunk
  split
  · exact .inl ⟨‹_›, rfl⟩
  · exact .inr ⟨Nat.le_of_not_lt ‹_›, rfl⟩

/-- A header byte leads to the next one or to the data. -/
theorem afterHeader_cases (k : Nat) :
    k + 1 < 4 ∧ afterHeader k = .byte .own (k + 1) ∨ 4 ≤ k + 1 ∧ afterHeader k = .data := by
  have h4 : sweepFrame.size = 4 := rfl
  unfold afterHeader
  rw [h4]
  split
  · exact .inl ⟨‹_›, rfl⟩
  · exact .inr ⟨Nat.le_of_not_lt ‹_›, rfl⟩

/-- The progress of a chunk: the cursor at its end, then the next chunk or the last Deselect. -/
theorem Inv.dumpProgressStep {s : State} (h : Inv s) (hb : s.busy = true) (R : Running .dump s)
    (hp : s.pos = .progress) : Inv (dumpProgressStep s) := by
  have hset : s.sample = none ∧ s.sourced = none := R.at.settled (by rw [hp]; rfl) (by simp) (by simp)
  have hcs : s.cs = true := R.cs _ (by rw [hp]; rfl)
  obtain ⟨hchunk, hcur⟩ := R.loop
  rw [hp] at hcur
  have hle := chunk_end_le hchunk
  have hlast := last_chunk_end hchunk
  have hend : s.cursor.toNat + Config.chunkSize = (s.chunkIx + 1) * Config.chunkSize := by rw [hcur, Nat.succ_mul]
  unfold Machine.dumpProgressStep
  rw [hend]
  generalize hc : (s.chunkIx + 1) * Config.chunkSize = c at hle hlast
  have S : Sound (emitProgress (setCursor c s)) := (h.sound.setCursor hle).emitProgress
  have hcur' := toNat_cursor hle
  rcases dumpNextChunk_cases (emitProgress (setCursor c s)) with ⟨hn, e⟩ | ⟨hn, e⟩ <;> rw [e]
  · have A : At .dump (setPos .data (nextChunk (setCursor c s))) :=
      at_of_settled rfl rfl hcs ⟨hn, chunkSize_pos, hcur'.trans hc.symm⟩ hset
    refine h.goes_on hb R ?_ (.inl ?_) (S.congr ?_) (A.congr ?_) <;> simp [commandPart, soundPart, atPart]
  · have A : At .dump (setPos (.deselect .own) (setCursor c s)) :=
      at_of_settled rfl rfl hcs ⟨hchunk, hcur'.trans (hlast hn)⟩ hset
    refine h.goes_on hb R ?_ (.inl ?_) (S.congr ?_) (A.congr ?_) <;> simp [commandPart, soundPart, atPart]

theorem seqDump_keeps_inv {s t : State} (h : Inv s) (hb : s.busy = true) (R : Running .dump s)
    (hx : seqDump s = .next t) : Inv t := by
  have hpos := R.pos
  have hset (hw : sampleWaits .dump s.pos = false) : s.sample = none ∧ s.sourced = none :=
    R.at.settled hw (by simp) (by simp)
  have hcs := R.cs
  obtain ⟨hchunk, hl⟩ := R.loop
  unfold seqDump at hx
  split at hx <;> cases hx <;> rename_i hp <;> rw [hp] at hset hcs hl <;> dsimp only at hl
  case h_1 => exact h.selectStep hb R (at_of_settled rfl rfl rfl ⟨hchunk, hl⟩ (hset rfl))
  case h_2 k =>
    obtain ⟨hbyte, hcur⟩ := hl
    refine h.headerStep hb R (hcs _ rfl) ?_
    rcases afterHeader_cases k with ⟨hk, e⟩ | ⟨-, e⟩ <;> rw [e]
    · exact at_of_settled (decide_eq_true hk) rfl (hcs _ rfl) ⟨hchunk, hbyte, hcur⟩ (hset rfl)
    · exact at_of_settled rfl rfl (hcs _ rfl) ⟨hchunk, hbyte ▸ chunkSize_pos, hcur⟩ (hset rfl)
  case h_3 =>
    obtain ⟨hbyte, hcur⟩ := hl
    refine h.dataStep hb R (hcs _ rfl) hbyte ?_
    split
    · exact at_of_settled rfl rfl (hcs _ rfl) ⟨hchunk, ‹_›, hcur⟩ (hset rfl)
    · exact at_of_settled rfl rfl (hcs _ rfl) ⟨hchunk, hcur⟩ (hset rfl)
  case h_4 =>
    rcases dumpSinkStep_cases s with e | ⟨ok, e⟩ <;> rw [e]
    · exact h.streamWait hb R
    · have A : At .dump (setPos (if ok then .progress else .fail .snkRej) s) := by
        cases ok <;> exact at_of_settled rfl rfl (hcs _ rfl) ⟨hchunk, hl⟩ (hset rfl)
      have S := h.sound.sinkWrite (wbufSlice s 0 Config.chunkSize) ok
      refine h.goes_on hb R ?_ (.inl ?_) (S.congr ?_) (A.congr ?_) <;>
        simp [commandPart, soundPart, atPart]
  case h_5 => exact h.dumpProgressStep hb R hp
  case h_6 => exact h.sweepEndStep hb R (at_of_settled rfl rfl rfl ⟨hchunk, hl⟩ (hset rfl))
  case h_7 => exact h.finish hb R hp
  case h_8 c =>
    have hc : c = .snkRej := by cases c <;> simp [posOk, hp] at hpos ⊢
    exact h.fail hb rfl (hset (by rw [hc]; rfl)) h.sound (by simp [hc])

/-! ### UPLOAD (R260) -/

theorem uploadSourceStep_cases (s : State) :
    uploadSourceStep s = streamWait s ∨
      uploadSourceStep s =
        setPos (.fail .srcShort) (sourceRead Config.chunkSize false [] (setPhase .transfer s)) ∨
      ∃ d, d.length = Config.chunkSize ∧ uploadSourceStep s =
        setPos (.select .pageWren)
          (keepSourced d (sourceRead Config.chunkSize true d (setPhase .transfer s))) := by
  unfold uploadSourceStep
  split
  · exact .inl rfl
  · exact .inr (.inl rfl)
  · exact .inr (.inr ⟨_, sourceReply_length ‹_›, rfl⟩)

theorem pageEndStep_cases (s : State) :
    s.pageIx + 1 < Config.pagesPerChunk ∧ pageEndStep s = nextPage (pollEndStep false (.select .pageWren) s) ∨
      pageEndStep s = pollEndStep false .progress s := by
  unfold pageEndStep
  split
  · exact .inl ⟨‹_›, rfl⟩
  · exact .inr rfl

theorem uploadNextChunk_cases (s : State) :
    s.chunkIx + 1 < Config.numChunks ∧ uploadNextChunk s = setPos .sourceRead (nextChunk s) ∨
      Config.numChunks ≤ s.chunkIx + 1 ∧ uploadNextChunk s = setPos .finish s := by
  unfold uploadNextChunk
  split
  · exact .inl ⟨‹_›, rfl⟩
  · exact .inr ⟨Nat.le_of_not_lt ‹_›, rfl⟩

/-- The loop clauses of UPLOAD before its `Finish()` (R251, R260). -/
theorem uploadLoop {s : State} (h : loopOk .upload s) (hp : s.pos ≠ .finish) :
    s.chunkIx < Config.numChunks ∧ s.pageIx < Config.pagesPerChunk ∧
      s.cursor.toNat = s.chunkIx * Config.chunkSize := by
  obtain ⟨hc, hpg, hl⟩ := h
  refine ⟨hc, hpg, ?_⟩
  split at hl
  · exact absurd ‹_› hp
  · exact hl

/-- The answer of the source keeps the invariant (R262). -/
theorem Inv.uploadSourceStep {s : State} (h : Inv s) (hb : s.busy = true) (R : Running .upload s)
    (hp : s.pos = .sourceRead) : Inv (uploadSourceStep s) := by
  obtain ⟨hchunk, hpage, hcur⟩ := uploadLoop R.loop (by simp [hp])
  have hset : s.sample = none ∧ s.sourced = none := R.at.settled (by rw [hp]; rfl) (by simp [hp]) (by simp)
  have hcs : s.cs = false := R.cs _ (by rw [hp]; rfl)
  rcases uploadSourceStep_cases s with e | e | ⟨d, hd, e⟩ <;> rw [e]
  · exact h.streamWait hb R
  · have A : At .upload (setPos (.fail .srcShort) s) := at_of_settled rfl rfl hcs ⟨hchunk, hpage, hcur⟩ hset
    refine h.goes_on hb R ?_ (.inr (.inl ?_)) ((h.sound.sourceRead Config.chunkSize false []).congr ?_)
      (A.congr ?_) <;> simp [commandPart, soundPart, atPart]
  · have A : At .upload (setPos (.select .pageWren) (keepSourced d s)) :=
      ⟨rfl, cs_of_csAt rfl hcs, ⟨hchunk, hpage, hcur⟩, fun hs => absurd hset.1 hs,
        fun d' hd' => .inl ⟨rfl, rfl, Option.some.inj hd' ▸ hd⟩⟩
    refine h.goes_on hb R ?_ (.inr (.inl ?_)) ((h.sound.sourceRead Config.chunkSize true d).congr ?_)
      (A.congr ?_) <;> simp [commandPart, soundPart, atPart]

/-- The `Select()` of a page's write-enable, with the chunk's bytes that wait (R21, R263). -/
theorem Inv.pageSelectStep {s : State} (h : Inv s) (hb : s.busy = true) (R : Running .upload s)
    (hp : s.pos = .select .pageWren) : Inv (pageSelectStep s) := by
  have hl := uploadLoop R.loop (by simp [hp])
  have hsample : s.sample = none := by
    by_contra hn
    simpa [hp, sampleWaits] using R.held.1 hn
  have S : Sound (assignSourced 0 s) := h.sound.assignSourced 0 fun d hd => by
    rcases R.held.2 d hd with ⟨-, -, hlen⟩ | ⟨hv, -⟩
    · rw [hlen, Nat.zero_add]
    · cases hv
  have A : At .upload (setPos (.byte .pageWren 0) { s with cs := true, sourced := none }) :=
    at_of_settled rfl rfl rfl hl ⟨hsample, rfl⟩
  refine h.goes_on hb R ?_ (.inl ?_) (S.select.congr ?_) (A.congr ?_) <;>
    simp [Machine.pageSelectStep, Machine.selectStep, commandPart, soundPart, atPart]

/-- The end of a page: the next page, or the chunk's progress (R264). -/
theorem Inv.pageEndStep {s : State} (h : Inv s) (hb : s.busy = true) (R : Running .upload s)
    (hp : s.pos = .deselect .pagePoll) : Inv (pageEndStep s) := by
  have hsrc : s.sourced = none := R.at.sourced_none (by simp [hp]) (by simp)
  obtain ⟨hchunk, hpage, hcur⟩ := uploadLoop R.loop (by simp [hp])
  have S : Sound (assignSample s) := h.sound.congr (by simp [soundPart])
  rcases pageEndStep_cases s with ⟨hn, e⟩ | e <;> rw [e]
  · have A : At .upload (setPos (.select .pageWren)
        { s with cs := false, sample := none, pageIx := s.pageIx + 1 }) :=
      at_of_settled rfl rfl rfl ⟨hchunk, hn, hcur⟩ ⟨rfl, hsrc⟩
    refine h.goes_on hb R ?_ (.inl ?_) ((S.deselect true).congr ?_) (A.congr ?_) <;>
      simp [Machine.pollEndStep, Machine.deselectStep, marked, commandPart, soundPart, atPart]
  · exact h.pollEndStep hb R (at_of_settled rfl rfl rfl ⟨hchunk, hpage, hcur⟩ ⟨rfl, hsrc⟩)

/-- The progress of a chunk: the cursor at its end, then the next chunk or `Finish()` (R260, R265). -/
theorem Inv.uploadProgressStep {s : State} (h : Inv s) (hb : s.busy = true) (R : Running .upload s)
    (hp : s.pos = .progress) : Inv (uploadProgressStep s) := by
  obtain ⟨hchunk, hpage, -⟩ := uploadLoop R.loop (by simp [hp])
  have hset : s.sample = none ∧ s.sourced = none := R.at.settled (by rw [hp]; rfl) (by simp [hp]) (by simp)
  have hcs : s.cs = false := R.cs _ (by rw [hp]; rfl)
  have hle := chunk_end_le hchunk
  have hlast := last_chunk_end hchunk
  have hend : s.chunkIx * Config.chunkSize + Config.chunkSize = (s.chunkIx + 1) * Config.chunkSize := by
    rw [Nat.succ_mul]
  unfold Machine.uploadProgressStep
  rw [hend]
  generalize hc : (s.chunkIx + 1) * Config.chunkSize = c at hle hlast
  have S : Sound (emitProgress (setCursor c s)) := (h.sound.setCursor hle).emitProgress
  have hcur' := toNat_cursor hle
  rcases uploadNextChunk_cases (emitProgress (setCursor c s)) with ⟨hn, e⟩ | ⟨hn, e⟩ <;> rw [e]
  · have A : At .upload (setPos .sourceRead (nextChunk (setCursor c s))) :=
      at_of_settled rfl rfl hcs ⟨hn, pagesPerChunk_pos, hcur'.trans hc.symm⟩ hset
    refine h.goes_on hb R ?_ (.inl ?_) (S.congr ?_) (A.congr ?_) <;> simp [commandPart, soundPart, atPart]
  · have A : At .upload (setPos .finish (setCursor c s)) :=
      at_of_settled rfl rfl hcs ⟨hchunk, hpage, hcur'.trans (hlast hn)⟩ hset
    refine h.goes_on hb R ?_ (.inl ?_) (S.congr ?_) (A.congr ?_) <;> simp [commandPart, soundPart, atPart]

theorem seqUpload_keeps_inv {s t : State} (h : Inv s) (hb : s.busy = true) (R : Running .upload s)
    (hx : seqUpload s = .next t) : Inv t := by
  have hpos := R.pos
  have hl := uploadLoop R.loop
  have hset (hw : sampleWaits .upload s.pos = false) (hp : s.pos ≠ .select .pageWren) :
      s.sample = none ∧ s.sourced = none := R.at.settled hw (by simp [hp]) (by simp)
  have hsrc (hp : s.pos ≠ .select .pageWren) : s.sourced = none := R.at.sourced_none (by simp [hp]) (by simp)
  have hcs := R.cs
  unfold seqUpload at hx
  split at hx <;> cases hx <;> rename_i hp <;> rw [hp] at hset hcs hl hsrc
  case h_1 | h_4 | h_7 | h_15 | h_18 =>
    exact h.selectStep hb R (at_of_settled rfl rfl rfl (hl (by simp)) (hset rfl (by simp)))
  case h_3 | h_6 | h_14 | h_17 =>
    exact h.deselectStep hb R (at_of_settled rfl rfl rfl (hl (by simp)) (hset rfl (by simp)))
  case h_2 k | h_5 k | h_13 k =>
    have hk : k = 0 := by cases k <;> simp [posOk, hp] at hpos ⊢
    subst hk
    exact h.byteStep hb R keepNone_register (keepNone_sound _) (hcs _ rfl) Nat.one_pos
      (at_of_settled rfl rfl (hcs _ rfl) (hl (by simp)) (hset rfl (by simp)))
  case h_16 k =>
    have hk : k < (pageFrame s).size := of_decide_eq_true (by rw [← hpos, posOk, hp]; rfl)
    refine h.byteStep hb R keepNone_register (keepNone_sound _) (hcs _ rfl) hk ?_
    rcases nextByte_cases (pageFrame s) .pageProg k with ⟨hk, e⟩ | ⟨-, e⟩ <;> rw [e]
    · exact at_of_settled (decide_eq_true hk) rfl (hcs _ rfl) (hl (by simp)) (hset rfl (by simp))
    · exact at_of_settled rfl rfl (hcs _ rfl) (hl (by simp)) (hset rfl (by simp))
  case h_8 | h_19 =>
    exact h.pollOpcodeStep hb R (hcs _ rfl)
      (at_of_settled rfl rfl (hcs _ rfl) (hl (by simp)) ⟨rfl, hsrc (by simp)⟩)
  case h_9 | h_20 =>
    refine h.sampleStep hb R (hcs _ rfl) fun p b hp => ?_
    rcases hp with rfl | rfl | rfl <;>
      exact at_of_sampling rfl rfl (hcs _ rfl) (hl (by simp)) rfl (hsrc (by simp))
  case h_10 => exact h.pollEndStep hb R (at_of_settled rfl rfl rfl (hl (by simp)) ⟨rfl, hsrc (by simp)⟩)
  case h_11 => exact h.uploadSourceStep hb R hp
  case h_12 => exact h.pageSelectStep hb R hp
  case h_21 => exact h.pageEndStep hb R hp
  case h_22 => exact h.uploadProgressStep hb R hp
  case h_23 => exact h.finish hb R hp
  case h_24 c =>
    refine h.pollFailStep hb ?_ (hsrc (by simp))
    rintro rfl
    simp [posOk, hp] at hpos

/-! ### VERIFY (R270) -/

theorem verifySourceStep_cases (s : State) :
    verifySourceStep s = streamWait s ∨
      verifySourceStep s = setPos (.fail .srcShort) (sourceRead Config.halfSize false [] s) ∨
      ∃ d, d.length = Config.halfSize ∧
        verifySourceStep s = setPos .compare (keepSourced d (sourceRead Config.halfSize true d s)) := by
  unfold verifySourceStep
  split
  · exact .inl rfl
  · exact .inr (.inl rfl)
  · exact .inr (.inr ⟨_, sourceReply_length ‹_›, rfl⟩)

theorem verifyNextStride_cases (s : State) :
    s.strideIx + 1 < Config.numStrides ∧ verifyNextStride s = setPos .data (nextStride s) ∨
      Config.numStrides ≤ s.strideIx + 1 ∧ verifyNextStride s = setPos (.deselect .own) s := by
  unfold verifyNextStride
  split
  · exact .inl ⟨‹_›, rfl⟩
  · exact .inr ⟨Nat.le_of_not_lt ‹_›, rfl⟩

theorem lt_of_firstMismatch {s : State} {i : Nat} (h : firstMismatch s = some i) : i < Config.halfSize := by
  unfold firstMismatch at h
  generalize Config.halfSize = n at h ⊢
  exact List.mem_range.1 (List.mem_of_find?_eq_some h)

/-- A comparison finds a mismatch, or moves the cursor to the stride's end and goes to progress or the next stride. -/
theorem verifyCompare_cases (s : State) :
    (∃ i, i < Config.halfSize ∧ verifyCompare s = setPos .mismatch (setByteIx i s)) ∨
      verifyCompare s = setPos .progress (setCursor ((s.strideIx + 1) * Config.halfSize) s) ∨
      verifyCompare s = verifyNextStride (setCursor ((s.strideIx + 1) * Config.halfSize) s) := by
  unfold verifyCompare
  rw [Nat.succ_mul]
  split
  · exact .inl ⟨_, lt_of_firstMismatch ‹_›, rfl⟩
  · dsimp only
    split
    · exact .inr (.inl rfl)
    · exact .inr (.inr rfl)

/-- From a stride's end, the cursor there, VERIFY goes on with the next stride or to the last Deselect. -/
theorem Inv.verifyNextStride {s u : State} (h : Inv s) (hb : s.busy = true) (R : Running .verify s)
    (hcmd : commandPart u = commandPart s) (hphase : u.phase = s.phase) (S : Sound u) (hcs : u.cs = true)
    (hset : u.sample = none ∧ u.sourced = none) (hstride : u.strideIx < Config.numStrides)
    (hcur : u.cursor.toNat = (u.strideIx + 1) * Config.halfSize) : Inv (verifyNextStride u) := by
  rcases verifyNextStride_cases u with ⟨hn, e⟩ | ⟨hn, e⟩ <;> rw [e]
  · exact h.goes_on hb R hcmd (.inl hphase) (S.congr rfl)
      (at_of_settled rfl rfl hcs ⟨hn, halfSize_pos, hcur⟩ hset)
  · exact h.goes_on hb R hcmd (.inl hphase) (S.congr rfl)
      (at_of_settled rfl rfl hcs ⟨hstride, hcur.trans (last_stride_end hstride hn)⟩ hset)

/-- The answer of the source keeps the invariant (R272). -/
theorem Inv.verifySourceStep {s : State} (h : Inv s) (hb : s.busy = true) (R : Running .verify s)
    (hp : s.pos = .sourceRead) : Inv (verifySourceStep s) := by
  have hset : s.sample = none ∧ s.sourced = none := R.at.settled (by rw [hp]; rfl) (by simp) (by simp [hp])
  have hcs : s.cs = true := R.cs _ (by rw [hp]; rfl)
  obtain ⟨hstride, hcur⟩ := R.loop
  rw [hp] at hcur
  rcases verifySourceStep_cases s with e | e | ⟨d, hd, e⟩ <;> rw [e]
  · exact h.streamWait hb R
  · have A : At .verify (setPos (.fail .srcShort) s) := at_of_settled rfl rfl hcs ⟨hstride, hcur⟩ hset
    refine h.goes_on hb R ?_ (.inl ?_) ((h.sound.sourceRead Config.halfSize false []).congr ?_) (A.congr ?_) <;>
      simp [commandPart, soundPart, atPart]
  · have A : At .verify (setPos .compare (keepSourced d s)) :=
      ⟨rfl, cs_of_csAt rfl hcs, ⟨hstride, hcur⟩, fun hs => absurd hset.1 hs,
        fun d' hd' => .inr ⟨rfl, rfl, Option.some.inj hd' ▸ hd⟩⟩
    refine h.goes_on hb R ?_ (.inl ?_) ((h.sound.sourceRead Config.halfSize true d).congr ?_) (A.congr ?_) <;>
      simp [commandPart, soundPart, atPart]

/-- `Compare()` keeps the invariant (R273). -/
theorem Inv.verifyCompareStep {s : State} (h : Inv s) (hb : s.busy = true) (R : Running .verify s)
    (hp : s.pos = .compare) : Inv (verifyCompareStep s) := by
  have hcs : s.cs = true := R.cs _ (by rw [hp]; rfl)
  obtain ⟨hstride, hcur⟩ := R.loop
  rw [hp] at hcur
  have hsample : s.sample = none := by
    by_contra hn
    simpa [hp, sampleWaits] using R.held.1 hn
  have S : Sound (assignSourced Config.halfSize s) := h.sound.assignSourced Config.halfSize fun d hd => by
    rcases R.held.2 d hd with ⟨hu, -⟩ | ⟨-, -, hlen⟩
    · cases hu
    · rw [hlen]; decide
  have hle := stride_end_le hstride
  unfold Machine.verifyCompareStep
  rcases verifyCompare_cases (assignSourced Config.halfSize s) with ⟨i, hi, e⟩ | e | e <;> rw [e]
  · have A : At .verify (setPos .mismatch { s with byteIx := i, sourced := none }) :=
      at_of_settled rfl rfl hcs ⟨hstride, hi, hcur⟩ ⟨hsample, rfl⟩
    refine h.goes_on hb R ?_ (.inl ?_) (S.congr ?_) (A.congr ?_) <;> simp [commandPart, soundPart, atPart]
  · rw [assignSourced_strideIx]
    generalize hc : (s.strideIx + 1) * Config.halfSize = c at hle
    have A : At .verify (setPos .progress (setCursor c { s with sourced := none })) :=
      at_of_settled rfl rfl hcs ⟨hstride, (toNat_cursor hle).trans hc.symm⟩ ⟨hsample, rfl⟩
    refine h.goes_on hb R ?_ (.inl ?_) ((S.setCursor hle).congr ?_) (A.congr ?_) <;>
      simp [commandPart, soundPart, atPart]
  · rw [assignSourced_strideIx]
    exact h.verifyNextStride hb R (by simp [commandPart]) (by simp) (S.setCursor hle) (by simp [hcs])
      (by simp [hsample]) (by simp [hstride]) (by simp [toNat_cursor hle])

theorem seqVerify_keeps_inv {s t : State} (h : Inv s) (hb : s.busy = true) (R : Running .verify s)
    (hx : seqVerify s = .next t) : Inv t := by
  have hpos := R.pos
  have hset (hw : sampleWaits .verify s.pos = false) (hp : s.pos ≠ .compare) : s.sample = none ∧ s.sourced = none :=
    R.at.settled hw (by simp) (by simp [hp])
  have hcs := R.cs
  obtain ⟨hstride, hl⟩ := R.loop
  unfold seqVerify at hx
  split at hx
  case h_11 => cases hx
  all_goals injection hx with hx; subst hx; rename_i hp; rw [hp] at hset hcs hl; dsimp only at hl
  case h_1 => exact h.selectStep hb R (at_of_settled rfl rfl rfl ⟨hstride, hl⟩ (hset rfl (by simp)))
  case h_2 k =>
    obtain ⟨hbyte, hcur⟩ := hl
    refine h.headerStep hb R (hcs _ rfl) ?_
    rcases afterHeader_cases k with ⟨hk, e⟩ | ⟨-, e⟩ <;> rw [e]
    · exact at_of_settled (decide_eq_true hk) rfl (hcs _ rfl) ⟨hstride, hbyte, hcur⟩ (hset rfl (by simp))
    · exact at_of_settled rfl rfl (hcs _ rfl) ⟨hstride, hbyte ▸ halfSize_pos, hcur⟩ (hset rfl (by simp))
  case h_3 =>
    obtain ⟨hbyte, hcur⟩ := hl
    refine h.dataStep hb R (hcs _ rfl) (hbyte.trans (by decide)) ?_
    split
    · exact at_of_settled rfl rfl (hcs _ rfl) ⟨hstride, ‹_›, hcur⟩ (hset rfl (by simp))
    · exact at_of_settled rfl rfl (hcs _ rfl) ⟨hstride, hcur⟩ (hset rfl (by simp))
  case h_4 => exact h.verifySourceStep hb R hp
  case h_5 => exact h.verifyCompareStep hb R hp
  case h_6 =>
    unfold verifyMismatchStep
    have hs := hset rfl (by simp)
    refine h.fail hb ?_ ?_ (h.sound.congr ?_) ?_ <;> simp [commandPart, soundPart, hs]
  case h_7 =>
    exact h.verifyNextStride hb R (by simp [commandPart]) (by simp) h.sound.emitProgress (hcs _ rfl)
      (hset rfl (by simp)) hstride hl
  case h_8 => exact h.sweepEndStep hb R (at_of_settled rfl rfl rfl ⟨hstride, hl⟩ (hset rfl (by simp)))
  case h_9 => exact h.finish hb R hp
  case h_10 c =>
    have hc : c = .srcShort := by cases c <;> simp [posOk, hp] at hpos ⊢
    exact h.fail hb rfl (hset (by rw [hc]; rfl) (by simp)) h.sound (by simp [hc])

/-- A primitive of a running command keeps the invariant. -/
theorem exec_busy_keeps_inv {i : Instr} {s t : State} (h : Inv s) (hb : s.busy = true) (R : Running i s)
    (hx : exec i s = .next t) : Inv t := by
  rw [exec_busy hb] at hx
  cases i with
  | select => exact seqSelect_keeps_inv h hb R hx
  | exchange b => exact seqExchange_keeps_inv h hb R hx
  | deselect => exact seqDeselect_keeps_inv h hb R hx
  | waitReady => exact seqWaitReady_keeps_inv h hb R hx
  | readId => exact seqReadId_keeps_inv h hb R hx
  | dump => exact seqDump_keeps_inv h hb R hx
  | upload => exact seqUpload_keeps_inv h hb R hx
  | verify => exact seqVerify_keeps_inv h hb R hx
  | rdid | rdsr1 | rdsr2 | read | wren | wrdi | ce | pp => exact seqFrame_keeps_inv rfl h hb R hx

/-! ### Acceptance and refusal (R302, R304) -/

theorem Inv.idle_pos {s : State} (h : Inv s) (hb : s.busy = false) : s.pos = .idle := h.idle.2 hb

theorem Inv.idle_phase {s : State} (h : Inv s) (hb : s.busy = false) : s.phase = .idle := h.phase.2 hb

/-- A refusal keeps the invariant, whatever its cause (R304). -/
theorem Inv.rejected {s : State} (h : Inv s) (hb : s.busy = false) (w : Word) {c : Cause} (hc : c ≠ .none) :
    Inv (reject c (recordCommand w s)) := by
  refine .of_idle ?_ ?_ ?_ ?_ ?_ ?_ (h.sound.congr ?_) <;>
    simp [hb, hc, h.idle_pos hb, h.idle_phase hb, h.settled hb, soundPart]

/-- No issue check gives the cause NONE (R303). -/
theorem refuseOf_ne_none {i : Instr} {s : State} {c : Cause} (h : refuseOf i s = some c) : c ≠ .none := by
  rintro rfl
  cases i <;> simp only [refuseOf, refuseNever, refuseExchange, refuseComposite, refuseRead, refuseProgram] at h <;>
    (repeat' split at h) <;> cases h

theorem initOf_sound {s : State} (S : Sound s) (i : Instr) : Sound (initOf i s) := by
  have hb : Sound (bulkInit s) :=
    Sound.congr (s := { s with cursor := 0, pct := 0 })
      { S with cursor := Nat.zero_le _, pct := Nat.zero_le _ } (by simp [soundPart])
  cases i
  case dump | upload => exact hb
  case verify => exact hb.congr rfl
  all_goals exact S

/-- The check on chip select passed, it is as the first primitive has it (R161 to R163). -/
theorem cs_of_accepted {i : Instr} {s : State} (hr : refuseOf i s = none) :
    ∀ b, csAt i (firstPos i) = some b → s.cs = b := by
  have hcomp (h : refuseComposite s = none) : s.cs = false := by simpa [refuseComposite] using h
  intro b hb
  cases i with
  | select | deselect => cases hb
  | exchange c => cases hb; simpa [refuseOf, refuseExchange] using hr
  | read => cases hb; cases hc : s.cs <;> simp [refuseOf, refuseRead, hc] at hr ⊢
  | pp => cases hb; cases hc : s.cs <;> simp [refuseOf, refuseProgram, hc] at hr ⊢
  | _ => cases hb; exact hcomp hr

/-- A command just accepted has its loops at their start and its operands in bounds (R190, R194, R250, R251). -/
theorem loopOk_of_accepted {i : Instr} {s : State} (hr : refuseOf i s = none) :
    loopOk i (accept i (firstPos i) (initOf i s)) := by
  cases i with
  | read =>
    simp only [refuseOf, refuseRead] at hr
    split_ifs at hr with _ hl
    exact Nat.le_of_not_lt hl
  | pp =>
    simp only [refuseOf, refuseProgram] at hr
    split_ifs at hr with _ hl
    exact Nat.le_of_not_lt fun h => hl (.inr h)
  | dump | upload | verify => simp [loopOk, initOf, firstPos, numChunks_eq, numStrides_eq, pagesPerChunk_pos]
  | _ => trivial

/-- A command's own part of acceptance sets cursor, progress, loop indices and mismatch registers alone (R250). -/
theorem initOf_eq (i : Instr) (s : State) : ∃ x : State, initOf i s = { s with
    cursor := x.cursor, pct := x.pct, chunkIx := x.chunkIx, pageIx := x.pageIx, strideIx := x.strideIx
    byteIx := x.byteIx, mmAddr := x.mmAddr, mmDev := x.mmDev, mmExp := x.mmExp } :=
  ⟨initOf i s, by cases i <;> rfl⟩

theorem firstPos_ne_idle (i : Instr) : firstPos i ≠ .idle := by cases i <;> simp [firstPos]

theorem latched_accept (i : Instr) (p : Pos) (s : State) : latched (accept i p s) = .ok i := by
  rw [← decodeFields_encodeFields i]
  cases i <;> rfl

theorem posOk_accept (i : Instr) (s : State) : posOk i (accept i (firstPos i) s) = true := by cases i <;> rfl

/-- An accepted command keeps the invariant: it stands at its first primitive (R302). -/
theorem Inv.accepted {i : Instr} {s : State} (h : Inv s) (hb : s.busy = false)
    (hr : refuseOf i (recordCommand (encode i) s) = none) :
    Inv (accept i (firstPos i) (initOf i (recordCommand (encode i) s))) := by
  have S : Sound (initOf i (recordCommand (encode i) s)) := initOf_sound (h.sound.congr (by simp [soundPart])) i
  have hcs := cs_of_accepted hr
  have hloop := loopOk_of_accepted hr
  have hs := h.settled hb
  have hl := latched_accept i (firstPos i) (initOf i (recordCommand (encode i) s))
  have hp := posOk_accept i (initOf i (recordCommand (encode i) s))
  obtain ⟨x, e⟩ := initOf_eq i (recordCommand (encode i) s)
  rw [e] at S hloop hl hp ⊢
  exact
    { outcome := by simp
      running := by simp
      cause := by simp
      phase := by simp
      idle := by simp [firstPos_ne_idle]
      settled := by simp
      command := fun _ => ⟨i, hl, rfl, hp, hcs, hloop, heldOk_of_settled hs⟩
      wire := S.wire
      cursor := S.cursor
      pct := S.pct
      wbuf := S.wbuf
      dbuf := S.dbuf
      flash := S.flash }

/-- The issue of a command keeps the invariant, accepted or refused. -/
theorem exec_idle_keeps_inv {i : Instr} {s t : State} (h : Inv s) (hb : s.busy = false) (hx : exec i s = .next t) :
    Inv t := by
  rw [exec_idle hb] at hx
  injection hx with hx
  subst hx
  cases hr : refuseOf i (recordCommand (encode i) s) with
  | some c => rw [issue_refused hr]; exact h.rejected hb _ (refuseOf_ne_none hr)
  | none => rw [issue_accepted hr]; exact h.accepted hb hr

/-! ### The moves of the host and of reset -/

/-- The clauses about the outcome flags (R38, R39). -/
structure FlagsAgree (s : State) : Prop where
  outcome : ¬(s.done = true ∧ s.err = true)
  running : s.busy = true → s.done = false ∧ s.err = false
  cause : s.err = false ↔ s.cause = .none

theorem Inv.flags {s : State} (h : Inv s) : FlagsAgree s := ⟨h.outcome, h.running, h.cause⟩

/-- What a move of the host leaves alone: CMD, BUSY, STATE and the latched operation. -/
def idlePart (s : State) : Word × Bool × Phase × BitVec 4 × Byte := (s.cmd, s.busy, s.phase, s.lOp, s.lByte)

/-- A move that leaves the running command where it stands keeps the invariant when the flags still agree. -/
theorem Inv.stays {s t : State} (h : Inv s) (hc : idlePart t = idlePart s) (ha : atPart t = atPart s)
    (F : FlagsAgree t) (S : Sound t) : Inv t := by
  have ha' := ha
  simp only [idlePart, Prod.mk.injEq] at hc
  obtain ⟨hcmd, hbusy, hphase, hop, hbyte⟩ := hc
  simp only [atPart, Prod.mk.injEq] at ha'
  obtain ⟨⟨-, -, hpos, -⟩, -, hsample, hsourced⟩ := ha'
  have hl : latched t = latched s := by rw [latched, hop, hbyte, latched]
  exact
    { outcome := F.outcome
      running := F.running
      cause := F.cause
      phase := by rw [hphase, hbusy]; exact h.phase
      idle := by rw [hpos, hbusy]; exact h.idle
      settled := by rw [hbusy, hsample, hsourced]; exact h.settled
      command := fun hb => by
        obtain ⟨i, R⟩ := h.command (hbusy ▸ hb)
        have A := R.at.congr ha
        exact ⟨i, hl.trans R.latch, hcmd.trans R.word, A.pos, A.cs, A.loop, A.held⟩
      wire := S.wire
      cursor := S.cursor
      pct := S.pct
      wbuf := S.wbuf
      dbuf := S.dbuf
      flash := S.flash }

theorem FlagsAgree.congr {s t : State} (F : FlagsAgree s)
    (h : (t.done, t.err, t.cause, t.busy) = (s.done, s.err, s.cause, s.busy)) : FlagsAgree t := by
  simp only [Prod.mk.injEq] at h
  obtain ⟨hd, he, hc, hb⟩ := h
  exact ⟨by rw [hd, he]; exact F.outcome, by rw [hb, hd, he]; exact F.running, by rw [he, hc]; exact F.cause⟩

/-- Flags cleared by a STATUS write still agree (R36). -/
theorem FlagsAgree.clearStatus {s : State} (F : FlagsAgree s) (w : Word) : FlagsAgree (clearStatus w s) where
  outcome := fun ⟨hd, he⟩ => F.outcome ⟨(Bool.and_eq_true_iff.1 hd).1, (Bool.and_eq_true_iff.1 he).1⟩
  running := fun hb => by simp [Machine.clearStatus, F.running hb]
  cause := by
    unfold Machine.clearStatus
    cases hw : w.getLsbD 2
    · simpa [hw] using F.cause
    · simp

theorem dbufWord_lt {off : BitVec 12} {j : Nat} (h : hostReg off = .dbuf j) : 4 * j + 3 < Config.pageSize := by
  unfold hostReg at h
  split at h
  case h_15 =>
    split_ifs at h with hn
    cases h
    rw [Config.pageSize]
    omega
  all_goals cases h

theorem Sound.setDbufWord {s : State} (S : Sound s) {j : Nat} (hj : 4 * j + 3 < Config.pageSize) (w : Word) :
    Sound (setDbufWord j w s) :=
  (((S.setDbuf (by omega) _).setDbuf (by omega) _).setDbuf (by omega) _).setDbuf hj _

/-- A host write of a register other than CMD keeps the invariant (R36, R55, R88, R89). -/
theorem Inv.writeReg {s : State} (h : Inv s) (off : BitVec 12) (w : Word) : Inv (writeReg (hostReg off) w s) := by
  unfold Machine.writeReg
  split
  case h_1 | h_2 | h_5 => exact h.stays rfl rfl (h.flags.congr rfl) (h.sound.congr rfl)
  case h_3 => exact h.stays rfl rfl (h.flags.clearStatus w) (h.sound.congr rfl)
  case h_4 => exact h.stays rfl rfl (h.flags.congr rfl) (h.sound.congr rfl)
  case h_6 j hj =>
    split
    · exact h
    · refine h.stays ?_ ?_ (h.flags.congr ?_) (h.sound.setDbufWord (dbufWord_lt hj) w) <;>
        simp [setDbufWord, idlePart, atPart]
  case h_7 => exact h

/-- A reset keeps the invariant (R60, R340, R341). -/
theorem Inv.resetStep {s : State} (h : Inv s) : Inv (resetStep s) := by
  have D := h.sound.deselect false
  refine .of_idle rfl (by simp [Machine.resetStep, State.reset]) (by simp [Machine.resetStep, State.reset]) rfl rfl
    ⟨rfl, rfl⟩ ⟨D.wire, Nat.zero_le _, Nat.zero_le _, rfl, rfl, D.flash⟩

/-! ### The invariant -/

/-- Taking a move from the state keeps the invariant. -/
theorem Inv.moveTaken {s : State} (h : Inv s) : Inv (moveTaken s) := by
  obtain ⟨ms, n, e⟩ := moveTaken_eq s
  rw [e]
  exact h.stays rfl rfl (h.flags.congr rfl) (h.sound.congr rfl)

/-- Every move of every agent keeps the invariant. -/
theorem moveStep_keeps_inv {s t : State} (h : Inv s) (m : MoveStep s t) : Inv t := by
  cases m with
  | primitive i t hb hl hx =>
    obtain ⟨j, R⟩ := h.command hb
    have hij : i = j := by rw [R.latch] at hl; exact (Except.ok.inj hl).symm
    subst hij
    exact exec_busy_keeps_inv h hb R hx
  | pass hb => exact h
  | read off => exact h.stays rfl rfl (h.flags.congr rfl) (h.sound.congr rfl)
  | drop hb => exact h.stays rfl rfl (h.flags.congr rfl) (h.sound.congr rfl)
  | issue i t hb hx => exact exec_idle_keeps_inv h hb hx
  | illegal w hb => exact h.rejected hb w Cause.noConfusion
  | write off w => exact h.writeReg off w
  | reset => exact h.resetStep

/-- Settles O16: each move of each agent keeps the invariant, and taking the move does. -/
theorem everyStepKeepsInvariant : Obligations.EveryStepKeepsInvariant :=
  fun _ _ h hx => moveStep_keeps_inv h.moveTaken (step_moveStep hx)

/-! ### STATE and the position (R41) -/

/-- What a primitive of command `i` does to STATE: it ends the command and leaves IDLE, or it leaves CMD, flags and
latches alone and STATE as the rule of the next position has it. -/
def Follows (i : Instr) (s t : State) : Prop :=
  t.busy = false ∧ t.phase = .idle ∨ commandPart t = commandPart s ∧ phaseRule i t

/-- What the rule of STATE reads. -/
def phasePart (s : State) : Phase × Pos × Nat × Nat × Nat := (s.phase, s.pos, s.chunkIx, s.strideIx, s.byteIx)

theorem phaseRule_congr {s t : State} (h : phasePart t = phasePart s) (i : Instr) :
    phaseRule i t = phaseRule i s := by
  simp only [phasePart, Prod.mk.injEq] at h
  obtain ⟨hph, hpos, hc, hs, hi⟩ := h
  unfold phaseRule
  rw [hph, hpos, hc, hs, hi]

/-- A primitive that waits for STREAM changes neither STATE nor the position. -/
theorem follows_streamWait {i : Instr} {s : State} (h : phaseRule i s) : Follows i s (streamWait s) :=
  .inr ⟨by simp [commandPart], (phaseRule_congr (by simp [phasePart]) i).mpr h⟩

/-- The phase after a frame byte. -/
theorem byteStep_phase {keep : Nat → Byte → State → State} (hk : RegisterKeep keep) (t : FrameTag) (marks : Bool)
    (f : Frame) (k : Nat) (s : State) : (byteStep t marks f keep k s).phase = bytePhase marks k s.phase := by
  obtain ⟨x, e⟩ := byteStep_eq hk t marks f k s
  rw [e]
  simp [withResponse]

theorem byteStep_pos (keep : Nat → Byte → State → State) (t : FrameTag) (marks : Bool)
    (f : Frame) (k : Nat) (s : State) : (byteStep t marks f keep k s).pos = nextByte f t k := rfl

theorem byteStep_commandPart {keep : Nat → Byte → State → State} (hk : RegisterKeep keep) (t : FrameTag)
    (marks : Bool) (f : Frame) (k : Nat) (s : State) :
    commandPart (byteStep t marks f keep k s) = commandPart s := by
  obtain ⟨x, e⟩ := byteStep_eq hk t marks f k s
  rw [e]
  simp [withResponse, commandPart]

theorem byteStep_chunkIx {keep : Nat → Byte → State → State} (hk : RegisterKeep keep) (t : FrameTag)
    (marks : Bool) (f : Frame) (k : Nat) (s : State) : (byteStep t marks f keep k s).chunkIx = s.chunkIx := by
  obtain ⟨x, e⟩ := byteStep_eq hk t marks f k s
  rw [e]
  simp [withResponse]

/-- The commands of one frame have one rule (R180). -/
theorem phaseRule_frame {i : Instr} {s : State} {f : Frame} {keep : Nat → Byte → State → State}
    (h : frameOf i s = some (f, keep)) (t : State) : phaseRule i t ↔ phaseRule .rdid t := by
  cases i <;> simp only [frameOf, reduceCtorEq] at h <;> rfl

theorem seqFrame_follows {i : Instr} {s t : State} {f : Frame} {keep : Nat → Byte → State → State}
    (hf : frameOf i s = some (f, keep)) (h : phaseRule i s) (hx : seqFrame f keep s = .next t) : Follows i s t := by
  rw [phaseRule_frame hf] at h
  rw [Follows, phaseRule_frame hf]
  unfold seqFrame at hx
  split at hx <;> cases hx <;> rename_i hp <;> simp only [phaseRule, hp] at h
  case h_1 => exact .inr ⟨by simp [selectStep, commandPart], by simpa [phaseRule, selectStep] using h⟩
  case h_2 k =>
    refine .inr ⟨byteStep_commandPart (frameOf_register hf) .own true f k s, ?_⟩
    have hphase : bytePhase true k s.phase = .transfer := by
      cases k with
      | zero => rfl
      | succ k => exact h
    rcases nextByte_cases f .own k with ⟨-, e⟩ | ⟨-, e⟩ <;>
      simp [phaseRule, byteStep_pos, e, byteStep_phase (frameOf_register hf), hphase]
  case h_3 => exact .inr ⟨by simp [deselectStep, commandPart], by simp [phaseRule, deselectStep, marked]⟩
  case h_4 => exact .inl ⟨rfl, rfl⟩

/-- The transport commands carry no marker (R160 to R163). -/
theorem seqSelect_follows {s t : State} (h : phaseRule .select s) (hx : seqSelect s = .next t) :
    Follows .select s t := by
  unfold seqSelect at hx
  split at hx <;> cases hx
  · exact .inr ⟨by simp [commandPart], h⟩
  · exact .inl ⟨rfl, rfl⟩

theorem seqExchange_follows {b : Byte} {s t : State} (h : phaseRule (.exchange b) s)
    (hx : seqExchange b s = .next t) : Follows (.exchange b) s t := by
  unfold seqExchange at hx
  split at hx <;> cases hx
  · exact .inr ⟨by simp [commandPart], by simpa [phaseRule] using h⟩
  · exact .inl ⟨rfl, rfl⟩

theorem seqDeselect_follows {s t : State} (h : phaseRule .deselect s) (hx : seqDeselect s = .next t) :
    Follows .deselect s t := by
  unfold seqDeselect at hx
  split at hx <;> cases hx
  · exact .inr ⟨by simp [commandPart], h⟩
  · exact .inl ⟨rfl, rfl⟩

/-- A frame byte inside READ_ID: TRANSFER from the opcode byte on (R240). -/
theorem readId_byte_follows {s : State} {keep : Nat → Byte → State → State} (hk : RegisterKeep keep) (f : Frame)
    {tag : FrameTag} {k : Nat} (hp : s.pos = .byte tag k) (h : phaseRule .readId s) :
    Follows .readId s (byteStep tag true f keep k s) := by
  refine .inr ⟨byteStep_commandPart hk tag true f k s, ?_⟩
  have hphase : bytePhase true k s.phase = .transfer := by
    cases k with
    | zero => rfl
    | succ k => cases tag <;> simpa [bytePhase, phaseRule, hp] using h
  rcases nextByte_cases f tag k with ⟨-, e⟩ | ⟨-, e⟩ <;> cases tag <;>
    simp [phaseRule, byteStep_pos, e, byteStep_phase hk, hphase]

theorem seqReadId_follows {s t : State} (h : phaseRule .readId s) (hx : seqReadId s = .next t) :
    Follows .readId s t := by
  unfold seqReadId at hx
  split at hx <;> cases hx <;> rename_i hp
  case h_1 | h_4 | h_7 =>
    exact .inr ⟨by simp [selectStep, commandPart], by simpa [phaseRule, selectStep, hp] using h⟩
  case h_2 => exact readId_byte_follows keepId_register _ hp h
  case h_5 => exact readId_byte_follows keepSr1_register _ hp h
  case h_8 => exact readId_byte_follows keepSr2_register _ hp h
  case h_3 | h_6 | h_9 =>
    exact .inr ⟨by simp [deselectStep, commandPart], by simp [phaseRule, deselectStep, marked]⟩
  case h_10 => exact .inl ⟨rfl, rfl⟩

theorem seqWaitReady_follows {s t : State} (h : phaseRule .waitReady s) (hx : seqWaitReady s = .next t) :
    Follows .waitReady s t := by
  unfold seqWaitReady at hx
  split at hx <;> cases hx <;> rename_i hp <;> simp only [phaseRule, hp] at h
  case h_1 => exact .inr ⟨by simp [selectStep, commandPart], by simpa [phaseRule, selectStep] using h⟩
  case h_2 => exact .inr ⟨by simp [pollOpcodeStep, commandPart], by simp [phaseRule, pollOpcodeStep, marked]⟩
  case h_3 =>
    refine .inr ⟨by simp [sampleStep, commandPart], ?_⟩
    rcases afterSample_cases .own s.lLimit (sampleCount s + 1) (rx Config.dummy s) with e | e | e <;>
      simp [phaseRule, sampleStep, e, h]
  case h_4 =>
    exact .inr ⟨by simp [pollEndStep, deselectStep, commandPart],
      by simp [phaseRule, pollEndStep, deselectStep, marked]⟩
  case h_5 | h_6 => exact .inl ⟨rfl, rfl⟩

theorem seqDump_follows {s t : State} (h : phaseRule .dump s) (hx : seqDump s = .next t) : Follows .dump s t := by
  unfold seqDump at hx
  split at hx <;> cases hx <;> rename_i hp <;> simp only [phaseRule, hp] at h
  case h_1 => exact .inr ⟨by simp [selectStep, commandPart], by simpa [phaseRule, selectStep] using h⟩
  case h_2 k =>
    refine .inr ⟨by simp [headerStep, commandPart], ?_⟩
    rcases afterHeader_cases k with ⟨-, e⟩ | ⟨-, e⟩ <;> simp [phaseRule, headerStep, e, h]
  case h_3 =>
    refine .inr ⟨by simp [dataStep, commandPart], ?_⟩
    by_cases hn : s.byteIx + 1 < Config.chunkSize <;> simp [phaseRule, dataStep, hn]
  case h_4 =>
    rcases dumpSinkStep_cases s with e | ⟨ok, e⟩ <;> rw [e]
    · exact follows_streamWait (by simpa [phaseRule, hp] using h)
    · refine .inr ⟨by simp [commandPart], ?_⟩
      cases ok <;> simp [phaseRule, h]
  case h_5 =>
    unfold dumpProgressStep
    rcases dumpNextChunk_cases (emitProgress (setCursor (s.cursor.toNat + Config.chunkSize) s)) with
      ⟨-, e⟩ | ⟨-, e⟩ <;> rw [e] <;> exact .inr ⟨by simp [commandPart], by simp [phaseRule, h]⟩
  case h_6 => exact .inr ⟨by simp [sweepEndStep, commandPart], by simp [phaseRule, sweepEndStep]⟩
  case h_7 | h_8 => exact .inl ⟨rfl, rfl⟩

theorem seqUpload_follows {s t : State} (h : phaseRule .upload s) (hx : seqUpload s = .next t) :
    Follows .upload s t := by
  unfold seqUpload at hx
  split at hx <;> cases hx <;> rename_i hp <;> simp only [phaseRule, hp] at h
  case h_1 | h_4 | h_7 | h_15 | h_18 =>
    exact .inr ⟨by simp [selectStep, commandPart], by simpa [phaseRule, selectStep] using h⟩
  case h_3 | h_6 | h_14 | h_17 =>
    exact .inr ⟨by simp [deselectStep, commandPart], by simpa [phaseRule, deselectStep, marked] using h⟩
  case h_2 k | h_5 k | h_13 k | h_16 k =>
    refine .inr ⟨byteStep_commandPart keepNone_register _ _ _ _ _, ?_⟩
    have hphase (f : FrameTag) (F : Frame) : (byteStep f false F keepNone k s).phase = s.phase := by
      rw [byteStep_phase keepNone_register]
      simp [bytePhase, marked]
    unfold phaseRule
    rw [byteStep_pos]
    unfold nextByte
    split_ifs <;> simpa [hphase, byteStep_chunkIx keepNone_register] using h
  case h_8 | h_19 =>
    exact .inr ⟨by simp [pollOpcodeStep, commandPart],
      by simpa [phaseRule, pollOpcodeStep, marked] using h⟩
  case h_9 =>
    refine .inr ⟨by simp [sampleStep, commandPart], ?_⟩
    rcases afterSample_cases .erasePoll s.lLimit (sampleCount s + 1) (rx Config.dummy s) with e | e | e <;>
      simp [phaseRule, sampleStep, e, h]
  case h_20 =>
    refine .inr ⟨by simp [sampleStep, commandPart], ?_⟩
    rcases afterSample_cases .pagePoll s.lLimit (sampleCount s + 1) (rx Config.dummy s) with e | e | e <;>
      simp [phaseRule, sampleStep, e, h]
  case h_10 =>
    exact .inr ⟨by simp [pollEndStep, deselectStep, commandPart],
      by simp [phaseRule, pollEndStep, deselectStep, marked, h]⟩
  case h_11 =>
    rcases uploadSourceStep_cases s with e | e | ⟨d, -, e⟩ <;> rw [e]
    · exact follows_streamWait (by simpa [phaseRule, hp] using h)
    all_goals exact .inr ⟨by simp [commandPart], by simp [phaseRule]⟩
  case h_12 =>
    exact .inr ⟨by simp [pageSelectStep, selectStep, commandPart],
      by simpa [phaseRule, pageSelectStep, selectStep] using h⟩
  case h_21 =>
    rcases pageEndStep_cases s with ⟨-, e⟩ | e <;> rw [e] <;>
      exact .inr ⟨by simp [pollEndStep, deselectStep, commandPart],
        by simpa [phaseRule, pollEndStep, deselectStep, marked] using h⟩
  case h_22 =>
    unfold uploadProgressStep
    rcases uploadNextChunk_cases (emitProgress (setCursor (s.chunkIx * Config.chunkSize + Config.chunkSize) s)) with
      ⟨-, e⟩ | ⟨-, e⟩ <;> rw [e] <;> exact .inr ⟨by simp [commandPart], by simp [phaseRule, h]⟩
  case h_23 | h_24 => exact .inl ⟨rfl, rfl⟩

theorem verifyNextStride_follows {s u : State} (hc : commandPart u = commandPart s) (h : u.phase = .transfer) :
    Follows .verify s (verifyNextStride u) := by
  rcases verifyNextStride_cases u with ⟨-, e⟩ | ⟨-, e⟩ <;> rw [e] <;> exact .inr ⟨hc, by simp [phaseRule, h]⟩

theorem seqVerify_follows {s t : State} (h : phaseRule .verify s) (hx : seqVerify s = .next t) :
    Follows .verify s t := by
  unfold seqVerify at hx
  split at hx
  case h_11 => cases hx
  all_goals injection hx with hx; subst hx; rename_i hp; simp only [phaseRule, hp] at h
  case h_1 => exact .inr ⟨by simp [selectStep, commandPart], by simpa [phaseRule, selectStep] using h⟩
  case h_2 k =>
    refine .inr ⟨by simp [headerStep, commandPart], ?_⟩
    rcases afterHeader_cases k with ⟨-, e⟩ | ⟨-, e⟩ <;> simp [phaseRule, headerStep, e, h]
  case h_3 =>
    refine .inr ⟨by simp [dataStep, commandPart], ?_⟩
    by_cases hn : s.byteIx + 1 < Config.halfSize <;> simp [phaseRule, dataStep, hn]
  case h_4 =>
    rcases verifySourceStep_cases s with e | e | ⟨d, -, e⟩ <;> rw [e]
    · exact follows_streamWait (by simpa [phaseRule, hp] using h)
    all_goals exact .inr ⟨by simp [commandPart], by simp [phaseRule, h]⟩
  case h_5 =>
    unfold verifyCompareStep
    rcases verifyCompare_cases (assignSourced Config.halfSize s) with ⟨i, -, e⟩ | e | e <;> rw [e]
    · exact .inr ⟨by simp [commandPart], by simp [phaseRule, h]⟩
    · exact .inr ⟨by simp [commandPart], by simp [phaseRule, h]⟩
    · exact verifyNextStride_follows (by simp [commandPart]) (by simp [h])
  case h_6 => exact .inl ⟨rfl, rfl⟩
  case h_7 => exact verifyNextStride_follows (by simp [commandPart]) (by simp [h])
  case h_8 => exact .inr ⟨by simp [sweepEndStep, commandPart], by simp [phaseRule, sweepEndStep]⟩
  case h_9 | h_10 => exact .inl ⟨rfl, rfl⟩

/-- A primitive of a running command moves STATE with the position. -/
theorem exec_busy_follows {i : Instr} {s t : State} (hb : s.busy = true) (h : phaseRule i s)
    (hx : exec i s = .next t) : Follows i s t := by
  rw [exec_busy hb] at hx
  cases i with
  | select => exact seqSelect_follows h hx
  | exchange b => exact seqExchange_follows h hx
  | deselect => exact seqDeselect_follows h hx
  | waitReady => exact seqWaitReady_follows h hx
  | readId => exact seqReadId_follows h hx
  | dump => exact seqDump_follows h hx
  | upload => exact seqUpload_follows h hx
  | verify => exact seqVerify_follows h hx
  | rdid | rdsr1 | rdsr2 | read | wren | wrdi | ce | pp => exact seqFrame_follows rfl h hx

/-- A command just accepted is at START, its loops at their start (R250, R302). -/
theorem phaseRule_of_accepted (i : Instr) (s : State) : phaseRule i (accept i (firstPos i) (initOf i s)) := by
  cases i <;> simp [phaseRule, firstPos, initOf]

theorem phaseFollows_of_idle {s : State} (hb : s.busy = false) (hp : s.phase = .idle) : PhaseFollows s :=
  ⟨fun _ => hp, fun h => by simp [hb] at h⟩

theorem phaseFollows_congr {s t : State} (h : PhaseFollows s) (hp : phasePart t = phasePart s)
    (hb : t.busy = s.busy) (hl : latched t = latched s) : PhaseFollows t := by
  have hr := phaseRule_congr hp
  simp only [phasePart, Prod.mk.injEq] at hp
  obtain ⟨hph, -⟩ := hp
  refine ⟨by rw [hb, hph]; exact h.1, fun hbt => ?_⟩
  obtain ⟨i, hi, hri⟩ := h.2 (hb ▸ hbt)
  exact ⟨i, hl.trans hi, (hr i).mpr hri⟩

theorem phaseFollows_writeReg {s : State} (h : PhaseFollows s) (r : HostReg) (w : Word) :
    PhaseFollows (writeReg r w s) := by
  unfold writeReg
  split
  case h_6 =>
    split
    · exact h
    · exact phaseFollows_congr h (by simp [phasePart, setDbufWord]) (by simp [setDbufWord])
        (by simp [latched, setDbufWord])
  case h_7 => exact h
  all_goals exact phaseFollows_congr h rfl rfl rfl

theorem moveStep_keeps_phaseFollows {s t : State} (h : PhaseFollows s) (m : MoveStep s t) : PhaseFollows t := by
  cases m with
  | primitive i t hb hl hx =>
    obtain ⟨j, hj, hr⟩ := h.2 hb
    have hij : i = j := by rw [hj] at hl; exact (Except.ok.inj hl).symm
    subst hij
    rcases exec_busy_follows hb hr hx with ⟨hbt, hpt⟩ | ⟨hc, hrt⟩
    · exact phaseFollows_of_idle hbt hpt
    · have hbt : t.busy = true := (congrArg (fun c => c.2.1) hc).trans hb
      exact ⟨fun e => by simp [hbt] at e, fun _ => ⟨i, (latched_of_commandPart hc).trans hl, hrt⟩⟩
  | pass hb => exact h
  | read off => exact phaseFollows_congr h rfl rfl rfl
  | drop hb => exact phaseFollows_congr h rfl rfl rfl
  | issue i t hb hx =>
    rw [exec_idle hb] at hx
    injection hx with hx
    subst hx
    cases hr : refuseOf i (recordCommand (encode i) s) with
    | some c =>
      rw [issue_refused hr]
      exact phaseFollows_of_idle hb (h.1 hb)
    | none =>
      rw [issue_accepted hr]
      exact ⟨nofun, fun _ => ⟨i, latched_accept _ _ _, phaseRule_of_accepted _ _⟩⟩
  | illegal w hb => exact phaseFollows_of_idle hb (h.1 hb)
  | write off w => exact phaseFollows_writeReg h _ w
  | reset => exact phaseFollows_of_idle rfl rfl

/-- Settles O18: reset leaves IDLE, and each move of each agent keeps STATE with the position. -/
theorem stateFollowsThePosition : Obligations.StateFollowsThePosition := by
  refine ⟨phaseFollows_of_idle rfl rfl, fun s t h hx => ?_⟩
  obtain ⟨ms, n, e⟩ := moveTaken_eq s
  have hm : PhaseFollows (moveTaken s) := by
    rw [e]
    exact phaseFollows_congr h rfl rfl rfl
  exact moveStep_keeps_phaseFollows hm (step_moveStep hx)

/-! ### A whole poll (R220)

The steps of PollReady from its `Select()`, for the commands that poll: WAIT_READY with the STATE markers, UPLOAD
without them. -/

theorem exchanged_append (a b : List Byte) (s : State) : exchanged (a ++ b) s = exchanged b (exchanged a s) := by
  induction a generalizing s with
  | nil => rw [List.nil_append]; congr 1; apply State.ext <;> simp [exchanged]
  | cons x a ih => rw [List.cons_append, exchanged_cons, exchanged_cons, ih]

theorem heardFrom_append (a b : List Byte) (s : State) :
    heardFrom s (a ++ b) = heardFrom s a ++ heardFrom (exchanged a s) b := by
  induction a generalizing s with
  | nil =>
    rw [List.nil_append, heardFrom_nil, List.nil_append]
    exact (heardFrom_congr (by simp [exchanged]) (by simp [exchanged]) (by simp [exchanged]) b).symm
  | cons x a ih => rw [List.cons_append, heardFrom_cons, heardFrom_cons, exchanged_cons, ih, List.cons_append]

/-- With no frame open, a frame's bytes are heard after its `Select()`. -/
theorem frameRx_eq {s : State} (hc : s.cs = false) (tx : List Byte) : frameRx tx s = heardFrom (select s) tx := by
  simp [frameRx, heardFrom, hc]

/-- The `Select()` and the opcode byte of a poll. -/
def pollBegun (t : FrameTag) (marks : Bool) (s : State) : State := pollOpcodeStep t marks (selectStep t s)

theorem heardFrom_pollBegun (t : FrameTag) (marks : Bool) (s : State) (l : List Byte) :
    heardFrom (pollBegun t marks s) l = heardFrom (exchange 0x05 (select s)) l := by
  apply heardFrom_congr <;> simp [pollBegun, pollOpcodeStep, selectStep, rx]

/-- The bytes heard after the opcode byte are the responses of the poll's frame. -/
theorem response_pollTx (t : FrameTag) (marks : Bool) {s : State} (hc : s.cs = false) (n k : Nat) :
    response (pollTx n) s (k + 1) = (heardFrom (pollBegun t marks s) (List.replicate n 0)).getD k 0 := by
  rw [response, frameRx_eq hc, pollTx, heardFrom_cons, List.getD_cons_succ, heardFrom_pollBegun]

theorem allBusy_iff (t : FrameTag) (marks : Bool) {s : State} (hc : s.cs = false) (n : Nat) :
    allBusy n s ↔ ∀ b ∈ heardFrom (pollBegun t marks s) (List.replicate n 0), sampleBusy b = true := by
  have hlen := heardFrom_length (pollBegun t marks s) (List.replicate n 0)
  rw [List.length_replicate] at hlen
  have hget (k : Nat) (hk : k < n) : response (pollTx n) s (k + 1) =
      (heardFrom (pollBegun t marks s) (List.replicate n 0))[k]'(hlen.symm ▸ hk) := by
    rw [response_pollTx t marks hc, List.getD_eq_getElem]
  constructor
  · intro h b hb
    obtain ⟨k, hk, rfl⟩ := List.mem_iff_getElem.1 hb
    rw [hlen] at hk
    rw [← hget k hk]
    exact h (k + 1) (by omega) hk
  · intro h k h1 hk
    obtain ⟨j, rfl⟩ : ∃ j, k = j + 1 := ⟨k - 1, by omega⟩
    rw [hget j hk]
    exact h _ (List.getElem_mem _)

section Poll

variable {i : Instr} {t : FrameTag} {marks : Bool} {s : State}

/-- The SEQ primitives of a poll are among the command's. -/
structure Polls (i : Instr) (t : FrameTag) (marks : Bool) : Prop where
  select : ∀ s, s.busy = true → s.pos = .select t → exec i s = .next (selectStep t s)
  opcode : ∀ s, s.busy = true → s.pos = .byte t 0 → exec i s = .next (pollOpcodeStep t marks s)
  sample : ∀ s, s.busy = true → s.pos = .sample t → exec i s = .next (sampleStep t s)

theorem waitReady_polls : Polls .waitReady .own true where
  select := fun s hb hp => by rw [exec_busy hb]; simp [seqOf, seqWaitReady, hp]
  opcode := fun s hb hp => by rw [exec_busy hb]; simp [seqOf, seqWaitReady, hp]
  sample := fun s hb hp => by rw [exec_busy hb]; simp [seqOf, seqWaitReady, hp]

theorem upload_pagePolls : Polls .upload .pagePoll false where
  select := fun s hb hp => by rw [exec_busy hb]; simp [seqOf, seqUpload, hp]
  opcode := fun s hb hp => by rw [exec_busy hb]; simp [seqOf, seqUpload, hp]
  sample := fun s hb hp => by rw [exec_busy hb]; simp [seqOf, seqUpload, hp]

theorem poll_begins (P : Polls i t marks) (hb : s.busy = true) (hp : s.pos = .select t) :
    execN i 2 s = .next (pollBegun t marks s) := by
  rw [execN_succ 1 (P.select s hb hp)]
  exact execN_succ 0 (P.opcode _ hb rfl)

/-- After any number of busy samples within the bound SEQ goes on sampling. -/
theorem poll_goes_on (P : Polls i t marks) (hb : s.busy = true) (hp : s.pos = .select t) (hc : s.cs = false)
    {n : Nat} (hl : s.lLimit = 0 ∨ n < s.lLimit.toNat) (h : allBusy n s) :
    execN i (2 + n) s = .next (polled n (pollBegun t marks s)) := by
  rw [execN_add n (poll_begins P hb hp)]
  refine poll_samples P.sample n _ hb rfl ((allBusy_iff t marks hc n).1 h) ?_
  simpa [pollBegun, pollOpcodeStep, selectStep, sampleCount] using hl

/-- The bytes of one more dummy exchange. -/
theorem heardFrom_replicate_succ (n : Nat) (u : State) : heardFrom u (List.replicate (n + 1) 0) =
    heardFrom u (List.replicate n 0) ++ [rx 0 (exchanged (List.replicate n 0) u)] := by
  rw [List.replicate_succ', heardFrom_append, heardFrom_cons, heardFrom_nil]

theorem exchanged_replicate_succ (n : Nat) (u : State) :
    exchanged (List.replicate (n + 1) 0) u = exchange 0 (exchanged (List.replicate n 0) u) := by
  rw [List.replicate_succ', exchanged_append, exchanged_cons]
  apply State.ext <;> simp [exchanged]

/-- The samples of a poll from its start: all but the last are counted and kept. -/
theorem polled_fresh (n : Nat) {u : State} (hs : u.sample = none) (hn : u.pollN = 0) (hc : u.pollCnt = 0) :
    polled n u =
      { exchanged (List.replicate n 0) u with
        pollN := n - 1
        pollCnt := saturate (n - 1)
        sr1 := ((heardFrom u (List.replicate n 0)).dropLast.getLast?).getD u.sr1
        sample := (heardFrom u (List.replicate n 0)).getLast? } := by
  have h0 : saturate 0 = 0 := rfl
  unfold polled
  simp only [hs, hn, hc, Option.toList_none, List.nil_append, heardFrom_length, List.length_replicate, Nat.zero_add]
  split
  · rw [Nat.sub_eq_zero_of_le ‹_›, h0]
  · rfl

/-- Once the last of `n` samples of a poll is assigned all are counted and SR.SR1 is the last (R220). -/
theorem assignSample_polled (n : Nat) {u : State} (hs : u.sample = none) (hn : u.pollN = 0) (hc : u.pollCnt = 0) :
    assignSample (polled n u) =
      { exchanged (List.replicate n 0) u with
        pollN := n
        pollCnt := saturate n
        sr1 := ((heardFrom u (List.replicate n 0)).getLast?).getD u.sr1
        sample := none } := by
  have hlen := heardFrom_length u (List.replicate n 0)
  rw [List.length_replicate] at hlen
  rw [polled_fresh n hs hn hc]
  generalize heardFrom u (List.replicate n 0) = l at hlen
  cases hl : l.getLast? with
  | none =>
    obtain rfl := List.getLast?_eq_none_iff.1 hl
    obtain rfl : n = 0 := hlen.symm
    rw [assignSample_none rfl]
    rfl
  | some b =>
    have hpos : n - 1 + 1 = n := by
      cases l with
      | nil => cases hl
      | cons x l => simp at hlen; omega
    rw [assignSample_some rfl]
    simp only [hpos]
    rfl

/-- One more sample after a run of them: its byte decides where the poll goes. -/
theorem sampleStep_polled (t : FrameTag) (n : Nat) {u : State} (hs : u.sample = none) (hn : u.pollN = 0)
    (hc : u.pollCnt = 0) :
    sampleStep t (polled n u) =
      setPos (afterSample t u.lLimit (n + 1) ((heardFrom u (List.replicate (n + 1) 0)).getD n 0))
        (polled (n + 1) u) := by
  have hlen := heardFrom_length u (List.replicate n 0)
  rw [List.length_replicate] at hlen
  have hb : (heardFrom u (List.replicate (n + 1) 0)).getD n 0 = rx 0 (exchanged (List.replicate n 0) u) := by
    rw [heardFrom_replicate_succ, List.getD_append_right _ _ _ _ hlen.le, hlen]
    simp
  have hrx : rx 0 (polled n u) = rx 0 (exchanged (List.replicate n 0) u) := rfl
  have hcount : sampleCount (polled n u) = n := by
    rw [← assignSample_pollN, assignSample_polled n hs hn hc]
  rw [hb, sampleStep, hcount, Config.dummy, hrx, assignSample_polled n hs hn hc, polled_fresh (n + 1) hs hn hc,
    heardFrom_replicate_succ, List.dropLast_concat, List.getLast?_concat, exchanged_replicate_succ]
  rfl

theorem pollBegun_fresh (t : FrameTag) (marks : Bool) (s : State) :
    (pollBegun t marks s).sample = none ∧ (pollBegun t marks s).pollN = 0 ∧ (pollBegun t marks s).pollCnt = 0 := by
  simp [pollBegun, pollOpcodeStep, selectStep]

@[simp] theorem pollBegun_lLimit (t : FrameTag) (marks : Bool) (s : State) :
    (pollBegun t marks s).lLimit = s.lLimit := by simp [pollBegun, pollOpcodeStep, selectStep]

@[simp] theorem pollBegun_busy (t : FrameTag) (marks : Bool) (s : State) :
    (pollBegun t marks s).busy = s.busy := by simp [pollBegun, pollOpcodeStep, selectStep]

@[simp] theorem polled_busy (n : Nat) (u : State) : (polled n u).busy = u.busy := rfl

/-- A poll of `n` samples and one more: where it stands after that one. -/
theorem poll_step (P : Polls i t marks) (hb : s.busy = true) (hp : s.pos = .select t) (hc : s.cs = false)
    {n : Nat} (hl : s.lLimit = 0 ∨ n < s.lLimit.toNat) (h : allBusy n s) :
    execN i (n + 3) s = .next
      (setPos (afterSample t s.lLimit (n + 1) (response (pollTx (n + 1)) s (n + 1)))
        (polled (n + 1) (pollBegun t marks s))) := by
  obtain ⟨hs, hn, hcnt⟩ := pollBegun_fresh t marks s
  have e := sampleStep_polled t n hs hn hcnt
  rw [← response_pollTx t marks hc, pollBegun_lLimit] at e
  have hpos : (polled n (pollBegun t marks s)).pos = .sample t := rfl
  rw [show n + 3 = 2 + n + 1 by omega, execN_add 1 (poll_goes_on P hb hp hc hl h), ← e]
  exact execN_succ 0 (P.sample _ (by simp [hb]) hpos)

/-- After `n` busy samples and a clear one the poll comes to its Deselect, whatever its bound (R220, R222). -/
theorem poll_ready (P : Polls i t marks) (hb : s.busy = true) (hp : s.pos = .select t) (hc : s.cs = false)
    {n : Nat} (hl : s.lLimit = 0 ∨ n < s.lLimit.toNat) (h : allBusy n s)
    (hr : (response (pollTx (n + 1)) s (n + 1)).getLsbD 0 = false) :
    execN i (n + 3) s = .next (setPos (.deselect t) (polled (n + 1) (pollBegun t marks s))) := by
  rw [poll_step P hb hp hc hl h, afterSample_clear hr]

/-- With a bound of `N` busy samples the poll comes to its failure (R222). -/
theorem poll_unresponsive (P : Polls i t marks) (hb : s.busy = true) (hp : s.pos = .select t) (hc : s.cs = false)
    (hl : s.lLimit ≠ 0) (h : allBusy s.lLimit.toNat s) :
    execN i (s.lLimit.toNat + 2) s =
      .next (setPos (.fail .unresponsive) (polled s.lLimit.toNat (pollBegun t marks s))) := by
  have h0 : s.lLimit.toNat ≠ 0 := fun e => hl (BitVec.eq_of_toNat_eq e)
  obtain ⟨n, hn⟩ : ∃ n, s.lLimit.toNat = n + 1 := ⟨s.lLimit.toNat - 1, by omega⟩
  rw [hn] at h ⊢
  have hbusy : sampleBusy (response (pollTx (n + 1)) s (n + 1)) = true := h (n + 1) (by omega) (Nat.le_refl _)
  have hprev : allBusy n s := by
    rw [allBusy_iff t marks hc] at h ⊢
    rw [heardFrom_replicate_succ] at h
    exact fun b hm => h b (List.mem_append_left _ hm)
  rw [poll_step P hb hp hc (.inr (by omega)) hprev, afterSample_bound hbusy hl (by omega)]

/-- A poll's frame closed, its samples all assigned (R220). -/
theorem poll_closed (t : FrameTag) (marks : Bool) {s : State} (hc : s.cs = false) {n : Nat} (h0 : 0 < n) :
    deselect true (assignSample (polled n (pollBegun t marks s))) =
      { sampled n s (framed (pollTx n) s) with
        pos := .sample t
        phase := marked marks .transfer s.phase } := by
  obtain ⟨hs, hn, hcnt⟩ := pollBegun_fresh t marks s
  obtain ⟨m, rfl⟩ : ∃ m, n = m + 1 := ⟨n - 1, by omega⟩
  have hlen := heardFrom_length (pollBegun t marks s) (List.replicate (m + 1) 0)
  rw [List.length_replicate] at hlen
  have hsr : ((heardFrom (pollBegun t marks s) (List.replicate (m + 1) 0)).getLast?).getD (pollBegun t marks s).sr1 =
      response (pollTx (m + 1)) s (m + 1) := by
    rw [response_pollTx t marks hc, List.getLast?_eq_getElem?, hlen, List.getD_eq_getElem?_getD, Nat.add_sub_cancel,
      List.getElem?_eq_getElem (by omega), Option.getD_some, Option.getD_some]
  rw [assignSample_polled _ hs hn hcnt, hsr, sampled, ← deselect_exchanged_select (pollTx (m + 1)) hc]
  unfold pollTx
  rw [exchanged_cons]
  apply State.ext <;> simp [exchanged, heardFrom_pollBegun] <;>
    simp [pollBegun, pollOpcodeStep, selectStep, rx, saturate]

end Poll

/-! ### WAIT_READY without a bound (R223) -/

/-- What is heard in a frame depends on the chip, on what it has seen and on the draws alone. -/
theorem response_congr {s t : State} (hf : t.flash = s.flash) (he : t.events = s.events) (hd : t.draws = s.draws)
    (tx : List Byte) (k : Nat) : response tx t k = response tx s k := by simp [response, frameRx, hf, he, hd]

theorem allBusy_congr {s t : State} (hf : t.flash = s.flash) (he : t.events = s.events) (hd : t.draws = s.draws)
    (n : Nat) : allBusy n t ↔ allBusy n s := by simp only [allBusy, response_congr hf he hd]

theorem toNat_saturate (n : Nat) : (saturate n).toNat = min n 0xFFFFFFFF := by
  rw [saturate, BitVec.toNat_ofNat]
  omega

/-- The last but one of the bytes heard in a poll begun from `s`: SR.SR1 while the last sample waits (R21, R220). -/
theorem penultimate_sample (t : FrameTag) (marks : Bool) {s : State} (hc : s.cs = false) (n : Nat) (b : Byte) :
    ((heardFrom (pollBegun t marks s) (List.replicate n 0)).dropLast.getLast?).getD b =
      if n ≤ 1 then b else response (pollTx n) s (n - 1) := by
  have hlen := heardFrom_length (pollBegun t marks s) (List.replicate n 0)
  rw [List.length_replicate] at hlen
  split
  · have hnil : (heardFrom (pollBegun t marks s) (List.replicate n 0)).dropLast = [] :=
      List.eq_nil_of_length_eq_zero (by rw [List.length_dropLast]; omega)
    rw [hnil]
    rfl
  · obtain ⟨m, rfl⟩ : ∃ m, n = m + 2 := ⟨n - 2, by omega⟩
    rw [show m + 2 - 1 = m + 1 from rfl, response_pollTx t marks hc, List.getLast?_eq_getElem?, List.length_dropLast,
      hlen, List.getElem?_dropLast, hlen, if_pos (by omega), List.getD_eq_getElem?_getD,
      List.getElem?_eq_getElem (by omega)]
    simp

/-- Settles O36: acceptance, then a poll that no sample and no bound ends (R220, R223). -/
theorem waitReadyHangs : Obligations.WaitReadyHangs := by
  intro n s hb hc hl hbusy
  have hr : refuseOf .waitReady (recordCommand (encode .waitReady) s) = none := by
    simp [refuseOf, refuseComposite, hc]
  have hx := exec_idle (i := .waitReady) hb
  rw [issue_accepted hr] at hx
  generalize hu : accept Instr.waitReady (firstPos .waitReady)
    (initOf .waitReady (recordCommand (encode .waitReady) s)) = u at hx
  have hlim : u.lLimit = 0 := by rw [← hu]; simp [initOf, hl]
  have hcs : u.cs = false := by rw [← hu]; simp [initOf, hc]
  have hflash : u.flash = s.flash := by rw [← hu]; simp [initOf]
  have hev : u.events = s.events := by rw [← hu]; simp [initOf]
  have hdr : u.draws = s.draws := by rw [← hu]; simp [initOf]
  obtain ⟨hs, hn, hcnt⟩ := pollBegun_fresh .own true u
  have hrun := poll_goes_on waitReady_polls (by rw [← hu]; rfl) (by rw [← hu]; rfl) hcs (.inl hlim)
    ((allBusy_congr hflash hev hdr n).2 hbusy)
  refine ⟨polled n (pollBegun .own true u), ?_, ?_⟩
  · rw [show 3 + n = 2 + n + 1 by omega, execN_succ _ hx, hrun]
  rw [polled_fresh n hs hn hcnt]
  refine ⟨by simp [exchanged, ← hu], by simp [exchanged, pollBegun, pollOpcodeStep, selectStep],
    by simp [exchanged, pollBegun, pollOpcodeStep, selectStep, marked], toNat_saturate _, ?_, ?_, ?_⟩
  · rw [penultimate_sample .own true hcs, response_congr hflash hev hdr]
    simp [pollBegun, pollOpcodeStep, selectStep, ← hu, initOf]
  all_goals simp [exchanged, pollBegun, pollOpcodeStep, selectStep, ← hu, initOf]

/-! ### Progress (R50) -/

theorem toNat_percent (c : Addr) : (percent c.toNat).toNat = c.toNat * 100 / 0x800000 := by
  have := c.isLt
  rw [percent, totalSize_eq, BitVec.toNat_ofNat]
  omega

/-- A state with what `EmitProgress` of `u` wrote: the cursor on the progress port, its percentage in PCT. -/
theorem progress_of_emitted {s u t : State} (hu : u.events = s.events) (he : t.events = (emitProgress u).events)
    (hc : t.cursor = u.cursor) (hp : t.pct = (emitProgress u).pct) :
    t.events = s.events ++ [.progress t.cursor.toNat 0x800000] ∧
      t.pct.toNat = t.cursor.toNat * 100 / 0x800000 := by
  rw [he, hc, hp, emitProgress_events, emitProgress_pct, hu, toNat_percent]
  exact ⟨rfl, rfl⟩

/-- Settles O48: each bulk command's step at its progress position emits what the cursor then is. -/
theorem progressWritesPercentage : Obligations.ProgressWritesPercentage := by
  intro i s hi hb hp
  rw [exec_busy hb]
  cases i <;> simp only [isBulk, Bool.false_eq_true] at hi
  case dump =>
    refine ⟨dumpProgressStep s, by simp [seqOf, seqDump, hp], ?_⟩
    unfold dumpProgressStep
    generalize hu : setCursor (s.cursor.toNat + Config.chunkSize) s = u
    have hev : u.events = s.events := by rw [← hu]; simp
    rcases dumpNextChunk_cases (emitProgress u) with ⟨-, e⟩ | ⟨-, e⟩ <;> rw [e] <;>
      exact progress_of_emitted hev (by simp) (by simp) (by simp)
  case upload =>
    refine ⟨uploadProgressStep s, by simp [seqOf, seqUpload, hp], ?_⟩
    unfold uploadProgressStep
    generalize hu : setCursor (s.chunkIx * Config.chunkSize + Config.chunkSize) s = u
    have hev : u.events = s.events := by rw [← hu]; simp
    rcases uploadNextChunk_cases (emitProgress u) with ⟨-, e⟩ | ⟨-, e⟩ <;> rw [e] <;>
      exact progress_of_emitted hev (by simp) (by simp) (by simp)
  case verify =>
    refine ⟨verifyNextStride (emitProgress s), by simp [seqOf, seqVerify, hp], ?_⟩
    rcases verifyNextStride_cases (emitProgress s) with ⟨-, e⟩ | ⟨-, e⟩ <;> rw [e] <;>
      exact progress_of_emitted rfl (by simp) (by simp) (by simp)

/-! ### A source that cannot give UPLOAD a chunk (R262) -/

/-- An error and a string too short are both a short read, used up by the request (R87). -/
theorem sourceReply_short {s : State} {a : SourceAnswer} {r : List SourceAnswer} {n : Nat} (h : s.source = a :: r)
    (ha : a = .error ∨ ∃ d, a = .bytes d ∧ d.length < n) :
    sourceReply s n = .short ∧ sourceRest s.source n = r := by
  rcases ha with rfl | ⟨d, rfl, hd⟩
  · simp [sourceReply, sourceRest, h]
  · simp [sourceReply, sourceRest, h, Nat.not_le.2 hd, Nat.not_lt.2 hd.le]

theorem exec_uploadFail {s : State} {c : Cause} (hb : s.busy = true) (hp : s.pos = .fail c) :
    exec .upload s = .next (pollFailStep c s) := by
  rw [exec_busy hb]
  simp [seqOf, seqUpload, hp]

/-- Settles O43: the short answer leads to `Fail(SRC_SHORT)` with no frame open (R87, R262). -/
theorem uploadSourceShort : Obligations.UploadSourceShort := by
  intro s a r hb hp hc hsample hsrc ha
  rw [← chunkSize_eq] at ha ⊢
  obtain ⟨hreply, hrest⟩ := sourceReply_short hsrc ha
  have h1 : exec .upload s = .next
      (setPos (.fail .srcShort) (sourceRead Config.chunkSize false [] (setPhase .transfer s))) := by
    rw [exec_busy hb]
    simp [seqOf, seqUpload, hp, uploadSourceStep, hreply]
  generalize hu : setPos (.fail .srcShort) (sourceRead Config.chunkSize false [] (setPhase .transfer s)) = u at h1
  have hub : u.busy = true := by rw [← hu]; simp [hb]
  have hup : u.pos = .fail .srcShort := by rw [← hu]; simp
  have hus : u.sample = none := by rw [← hu]; simp [hsample]
  have h2 : exec .upload u = .next (fail .srcShort u) := by
    rw [exec_uploadFail hub hup, pollFailStep, assignSample_none hus]
  refine ⟨fail .srcShort u, by rw [execN_succ 1 h1, execN_succ 0 h2]; rfl, ?_, fun hl => ?_⟩
  · rw [← hu]
    apply State.ext <;> simp [hc, hrest]
  · obtain ⟨-, -, hcur⟩ := uploadLoop hl (by simp [hp])
    rw [← hu]
    simpa using hcur

/-! ### Comparing (R272, R273) -/

theorem firstMismatch_none {s : State} (h : ∀ i, i < Config.halfSize → wbufAt s i = wbufAt s (Config.halfSize + i)) :
    firstMismatch s = none := by
  unfold firstMismatch
  generalize Config.halfSize = n at h ⊢
  simpa using h

theorem firstMismatch_some {s : State} {i : Nat} (hi : i < Config.halfSize)
    (h : wbufAt s i ≠ wbufAt s (Config.halfSize + i))
    (hlt : ∀ j, j < i → wbufAt s j = wbufAt s (Config.halfSize + j)) : firstMismatch s = some i := by
  unfold firstMismatch
  generalize Config.halfSize = n at hi h hlt ⊢
  rw [List.find?_range_eq_some]
  simp [hi, h]
  exact hlt

/-- Equal halves move the cursor to the stride's end; a progress event follows at a chunk's end only (R273). -/
theorem verifyCompare_equal {u : State} (hn : firstMismatch u = none) (hs : u.strideIx < Config.numStrides) :
    let c := (u.strideIx + 1) * Config.halfSize
    c % Config.chunkSize = 0 ∧ verifyCompare u = setPos .progress (setCursor c u) ∨
      c % Config.chunkSize ≠ 0 ∧ verifyCompare u = setPos .data (nextStride (setCursor c u)) := by
  intro c
  have hcur : (setCursor c u).cursor.toNat = c := toNat_cursor (stride_end_le hs)
  have e : verifyCompare u =
      if c % Config.chunkSize = 0 then setPos .progress (setCursor c u) else verifyNextStride (setCursor c u) := by
    unfold verifyCompare
    split
    · simp_all
    · dsimp only
      rw [← Nat.succ_mul, hcur]
  rw [e]
  split
  · exact .inl ⟨‹_›, rfl⟩
  · refine .inr ⟨‹_›, ?_⟩
    rcases verifyNextStride_cases (setCursor c u) with ⟨-, e⟩ | ⟨hlast, -⟩
    · exact e
    · have hend : c = Config.totalSize := last_stride_end hs hlast
      have hz : c % Config.chunkSize = 0 := by rw [hend]; decide
      exact absurd hz ‹_›

/-- Different halves leave the least index to the mismatch step (R275). -/
theorem verifyCompare_differ {u : State} {i : Nat} (h : firstMismatch u = some i) :
    verifyCompare u = setPos .mismatch (setByteIx i u) := by
  unfold verifyCompare
  split
  · rw [Option.some.inj (h.symm.trans ‹_›)]
  · exact absurd (h.symm.trans ‹_›) (by simp)

/-- Settles O47: the halves agree, or `List.find?` gives the least index (R272, R273, R275). -/
theorem compareFindsTheLeastIndex : Obligations.CompareFindsTheLeastIndex := by
  intro s hb hp hstride
  rw [← halfSize_eq, ← chunkSize_eq]
  rw [← numStrides_eq] at hstride
  dsimp only
  have hx : exec .verify s = .next (verifyCompare (assignSourced Config.halfSize s)) := by
    rw [exec_busy hb]
    simp [seqOf, seqVerify, hp, verifyCompareStep]
  rw [hx]
  refine ⟨fun heq => ⟨_, rfl, ?_⟩, fun i hi hne hlt => ?_⟩
  · have hcur := toNat_cursor (stride_end_le hstride)
    rw [← Nat.succ_mul]
    have hv := verifyCompare_equal (firstMismatch_none heq) hstride
    clear heq hx
    simp only [assignSourced_strideIx] at hv
    generalize (s.strideIx + 1) * Config.halfSize = c at hcur hv ⊢
    rcases hv with ⟨hm, e⟩ | ⟨hm, e⟩ <;> rw [e] <;> simp [hm, hcur]
  · rw [verifyCompare_differ (firstMismatch_some hi hne hlt)]
    rfl

/-! ### A page of UPLOAD (R263, R264) -/

/-- A whole frame without STATE markers whose received bytes are discarded, from the step of its `Select()` to the
position after it. `F` is the frame as the state gives it. -/
theorem frame_unmarked {i : Instr} {t : FrameTag} {after : Pos} {F : State → Frame}
    (hsel : ∀ (s : State) (p : Pos), F (setPos p (select s)) = F s)
    (hex : ∀ (s : State) (b : Byte) (p : Pos), F (setPos p (exchange b s)) = F s)
    (hph : ∀ (s : State) (p : Phase), F (setPhase p s) = F s)
    (hbyte : ∀ s k, s.busy = true → s.pos = .byte t k → exec i s = .next (byteStep t false (F s) keepNone k s))
    (hend : ∀ s, s.busy = true → s.pos = .deselect t → exec i s = .next (deselectStep false after s))
    {s u : State} (hs : exec i s = .next (selectStep t u)) (hb : u.busy = true) (hc : u.cs = false)
    (h0 : 0 < (F u).size) : execN i ((F u).size + 2) s = .next (setPos after (framed (F u).bytes u)) := by
  have hF : F (selectStep t u) = F u := hsel u _
  have hbytes := frame_bytes (s := selectStep t u) hex hph hbyte (by simp [selectStep, hb]) rfl (by rwa [hF])
  rw [hF] at hbytes
  generalize (F u).bytes = tx at hbytes ⊢
  have hlast := hend (setPos (.deselect t) (exchanged tx (setPhase (marked false .transfer (selectStep t u).phase)
    (selectStep t u)))) (by simp [exchanged, selectStep, hb]) rfl
  rw [execN_succ _ hs, execN_add 1 hbytes, execN_succ 0 hlast, execN, ← deselect_exchanged_select tx hc]
  apply congrArg
  apply State.ext <;> simp [deselectStep, exchanged, selectStep, marked, heardFrom]

theorem frameF3_size (op : Byte) (a : Addr) (n : Nat) (pl : Nat → Byte) : (frameF3 op a n pl).size = 4 + n := by
  simp [Frame.size, Frame.sent, Frame.header, frameF3]

/-- The bytes of a frame that sends an address and a payload (R127). -/
theorem bytes_frameF3 (op : Byte) (a : Addr) (n : Nat) (pl : Nat → Byte) :
    (frameF3 op a n pl).bytes =
      op :: addrByte a 1 :: addrByte a 2 :: addrByte a 3 :: (List.range n).map pl := by
  have htail : (List.range n).map ((frameF3 op a n pl).tx ∘ (4 + ·)) = (List.range n).map pl := by
    refine List.map_congr_left fun k hk => ?_
    simp [Frame.tx, Frame.sent, Frame.header, frameF3, List.mem_range.1 hk]
  rw [Frame.bytes, frameF3_size, List.range_add, List.map_append, List.map_map, htail]
  rfl

/-- The address bytes of the page at `a`, whose low byte is 0. -/
theorem addrByte_page {a : Nat} (h : a % 0x100 = 0) :
    addrByte (BitVec.ofNat 24 a) 1 = BitVec.ofNat 8 (a / 0x10000) ∧
      addrByte (BitVec.ofNat 24 a) 2 = BitVec.ofNat 8 (a / 0x100) ∧ addrByte (BitVec.ofNat 24 a) 3 = 0x00 := by
  refine ⟨?_, ?_, ?_⟩ <;> apply BitVec.eq_of_toNat_eq <;>
    simp [addrByte, BitVec.extractLsb'_toNat, Nat.shiftRight_eq_div_pow] <;> omega

/-- The page-program frame in numbers. -/
theorem pageFrame_bytes (s : State) :
    (pageFrame s).bytes =
      0x02 :: BitVec.ofNat 8 ((s.chunkIx * 0x4000 + s.pageIx * 0x100) / 0x10000) ::
        BitVec.ofNat 8 ((s.chunkIx * 0x4000 + s.pageIx * 0x100) / 0x100) :: 0x00 ::
          (List.range 256).map fun j => wbufAt s (s.pageIx * 256 + j) := by
  obtain ⟨h1, h2, h3⟩ := addrByte_page (a := s.chunkIx * 0x4000 + s.pageIx * 0x100) (by omega)
  rw [pageFrame, bytes_frameF3, pageAddr, chunkSize_eq, Config.pageSize, h1, h2, h3]

theorem pageFrame_congr {s t : State} (hw : t.wbuf = s.wbuf) (hr : t.ramDraw = s.ramDraw)
    (hc : t.chunkIx = s.chunkIx) (hp : t.pageIx = s.pageIx) : pageFrame t = pageFrame s := by
  simp only [pageFrame, pageAddr, hc, hp, wbufAt_congr hw hr]

theorem pageFrame_size (s : State) : (pageFrame s).size = 260 := frameF3_size ..

/-- The write-enable of a page, from its `Select()`. -/
theorem upload_pageWren {s : State} (hb : s.busy = true) (hp : s.pos = .select .pageWren) (hc : s.cs = false) :
    execN .upload 3 s = .next (setPos (.select .pageProg) (framed [0x06] (assignSourced 0 s))) :=
  frame_unmarked (t := .pageWren) (F := fun _ => frameF0 0x06) (fun _ _ => rfl) (fun _ _ _ => rfl) (fun _ _ => rfl)
    (fun u k hb hp => by rw [exec_busy hb]; simp [seqOf, seqUpload, hp])
    (fun u hb hp => by rw [exec_busy hb]; simp [seqOf, seqUpload, hp])
    (by rw [exec_busy hb]; simp [seqOf, seqUpload, hp, pageSelectStep])
    (u := assignSourced 0 s) (by simp [hb]) (by simp [hc]) (by decide)

/-- The page-program of a page, from its `Select()`. -/
theorem upload_pageProg {s : State} (hb : s.busy = true) (hp : s.pos = .select .pageProg) (hc : s.cs = false) :
    execN .upload 262 s = .next (setPos (.select .pagePoll) (framed (pageFrame s).bytes s)) :=
  frame_unmarked (t := .pageProg) (F := pageFrame) (fun _ _ => by apply pageFrame_congr <;> simp)
    (fun _ _ _ => by apply pageFrame_congr <;> simp) (fun _ _ => by apply pageFrame_congr <;> simp)
    (fun u k hb hp => by rw [exec_busy hb]; simp [seqOf, seqUpload, hp])
    (fun u hb hp => by rw [exec_busy hb]; simp [seqOf, seqUpload, hp])
    (by rw [exec_busy hb]; simp [seqOf, seqUpload, hp]) hb hc (by rw [pageFrame_size]; decide)

/-- A page's write-enable and page-program, up to its poll (R263). -/
theorem upload_page {s : State} (hb : s.busy = true) (hp : s.pos = .select .pageWren) (hc : s.cs = false) :
    execN .upload 265 s = .next (setPos (.select .pagePoll)
      (framed (pageFrame (assignSourced 0 s)).bytes (framed [0x06] (assignSourced 0 s)))) := by
  rw [show 265 = 3 + 262 from rfl, execN_add 262 (upload_pageWren hb hp hc), upload_pageProg]
  · rw [pageFrame_congr (s := assignSourced 0 s)] <;> rfl
  all_goals simp [framed, hb, hc]

/-- The Deselect of a page's poll: to the next page, or to the chunk's progress (R260, R264). -/
theorem pageEndStep_eq (s : State) :
    pageEndStep s =
      { deselect true (assignSample s) with
        pos := if s.pageIx + 1 < 64 then .select .pageWren else .progress
        pageIx := if s.pageIx + 1 < 64 then s.pageIx + 1 else s.pageIx } := by
  rw [pageEndStep, pagesPerChunk_eq]
  split <;> apply State.ext <;> simp [*, pollEndStep, deselectStep, marked]

theorem deselect_assignSample_setPos (p : Pos) (s : State) :
    deselect true (assignSample (setPos p s)) = setPos p (deselect true (assignSample s)) := rfl

theorem exec_pagePollEnd {s : State} (hb : s.busy = true) (hp : s.pos = .deselect .pagePoll) :
    exec .upload s = .next (pageEndStep s) := by
  rw [exec_busy hb]
  simp [seqOf, seqUpload, hp]

/-- A page's poll closed, its samples all assigned (R220). -/
theorem pagePoll_closed {s : State} (hc : s.cs = false) {n : Nat} (h0 : 0 < n) :
    deselect true (assignSample (polled n (pollBegun .pagePoll false (setPos (.select .pagePoll) s)))) =
      setPos (.sample .pagePoll) (sampled n s (framed (pollTx n) s)) := by
  rw [poll_closed _ _ (by simpa using hc) h0]
  rfl

section PagePoll

variable {s : State} (hb : s.busy = true) (hc : s.cs = false)

include hb hc

/-- A page's poll with a clear sample after `n` busy ones, from its `Select()` (R264). -/
theorem upload_pagePoll_ready {n : Nat} (hl : s.lLimit = 0 ∨ n < s.lLimit.toNat) (h : allBusy n s)
    (hr : (response (pollTx (n + 1)) s (n + 1)).getLsbD 0 = false) :
    execN .upload (n + 4) (setPos (.select .pagePoll) s) = .next
      { sampled (n + 1) s (framed (pollTx (n + 1)) s) with
        pos := if s.pageIx + 1 < 64 then .select .pageWren else .progress
        pageIx := if s.pageIx + 1 < 64 then s.pageIx + 1 else s.pageIx } := by
  have hpoll := poll_ready (s := setPos (.select .pagePoll) s) upload_pagePolls hb rfl hc hl h hr
  have hclosed := pagePoll_closed hc (Nat.succ_pos n)
  have hpage : (polled (n + 1) (pollBegun .pagePoll false (setPos (.select .pagePoll) s))).pageIx = s.pageIx := by
    simp [polled, exchanged, pollBegun, pollOpcodeStep, selectStep]
  rw [execN_add 1 hpoll, execN_succ 0 (exec_pagePollEnd (by simp [hb]) rfl), execN, pageEndStep_eq,
    deselect_assignSample_setPos, hclosed, setPos_pageIx, hpage]
  rfl

/-- A page's poll that reaches its bound, and its failure (R264). -/
theorem upload_pagePoll_unresponsive (hl : s.lLimit ≠ 0) (h : allBusy s.lLimit.toNat s) :
    execN .upload (s.lLimit.toNat + 3) (setPos (.select .pagePoll) s) = .next
      { sampled s.lLimit.toNat s (framed (pollTx s.lLimit.toNat) s) with
        err := true
        cause := .unresponsive
        busy := false
        phase := .idle
        pos := .idle } := by
  have hpoll := poll_unresponsive (s := setPos (.select .pagePoll) s) upload_pagePolls hb rfl hc hl h
  have h0 : 0 < s.lLimit.toNat := Nat.pos_of_ne_zero fun e => hl (BitVec.eq_of_toNat_eq e)
  have hclosed := pagePoll_closed hc h0
  rw [setPos_lLimit] at hpoll
  generalize s.lLimit.toNat = n at hpoll hclosed ⊢
  rw [execN_add 1 hpoll, execN_succ 0 (exec_uploadFail (by simp [hb]) rfl), execN, pollFailStep, fail,
    deselect_assignSample_setPos, hclosed]
  rfl

end PagePoll

/-- Settles O41: the two frames, then a poll that comes to its end or to its bound (R263, R264). -/
theorem uploadWritesAPage : Obligations.UploadWritesAPage := by
  intro s hb hp hc u a tx s₂
  have hpage : execN .upload 265 s = .next (setPos (.select .pagePoll) s₂) := by
    rw [upload_page hb hp hc, pageFrame_bytes]
    rfl
  have hb₂ : s₂.busy = true := hb
  have hc₂ : s₂.cs = false := hc
  have hl₂ : s₂.lLimit = s.lLimit := rfl
  have hp₂ : s₂.pageIx = s.pageIx := rfl
  have hcur : s₂.cursor = s.cursor := rfl
  clear_value s₂
  rw [← hl₂, ← hp₂]
  refine ⟨fun n hl h hr => ?_, fun hl h => ⟨_, ?_, rfl, fun hloop => ?_⟩⟩
  · rw [show n + 269 = 265 + (n + 4) by omega, execN_add _ hpage, upload_pagePoll_ready hb₂ hc₂ hl h hr]
  · rw [Nat.add_comm _ 268, show 268 = 265 + 3 from rfl, Nat.add_assoc, Nat.add_comm 3, execN_add _ hpage,
      upload_pagePoll_unresponsive hb₂ hc₂ hl h]
  · obtain ⟨-, -, hloopcur⟩ := uploadLoop hloop (by simp [hp])
    rw [← chunkSize_eq, ← hloopcur, ← hcur]
    rfl

end Sys2Proof.Machine
end

section
/-! PROOFS. The statements of the state (10_state.md): reset values, host accesses, who writes which register, what a
running command reads, and STATE and CS through the commands of one frame. -/

namespace Sys2Proof.Machine

open Sys2Proof.Claims

/-! ### Reset values (R60) -/

/-- Settles O13: the fields of the reset state, register by register. -/
theorem resetValues : Obligations.ResetValues := by
  refine ⟨fun off hoff => ?_, rfl, rfl, rfl, rfl, rfl, rfl, fun _ => rfl, fun _ => rfl⟩
  have hbuf : ¬(0x100 ≤ off ∧ off ≤ 0x1FC) := by omega
  simp [regNumber, hbuf, State.reset, statusNumber, bit, causeNumber, phaseNumber]

/-- Settles O15: after reset no command runs, and every clause is about empty memories and cleared flags. -/
theorem resetMeetsInvariant : Obligations.ResetMeetsInvariant :=
  .of_idle rfl nofun ⟨fun _ => rfl, fun _ => rfl⟩ rfl rfl ⟨rfl, rfl⟩
    ⟨rfl, Nat.zero_le _, Nat.zero_le _, rfl, rfl, rfl⟩

/-! ### Register words in numbers (R33 to R51, R89) -/

/-- Fields put side by side, as a number. -/
theorem toNat_append_eq_add {m n : Nat} (x : BitVec m) (y : BitVec n) :
    (x ++ y).toNat = x.toNat * 2 ^ n + y.toNat := by
  rw [BitVec.toNat_append, ← Nat.shiftLeft_add_eq_or_of_lt y.isLt, Nat.shiftLeft_eq]

theorem toNat_ofBool_eq_bit (b : Bool) : (BitVec.ofBool b).toNat = bit b := by cases b <;> rfl

theorem toNat_phaseCode (p : Phase) : (phaseCode p).toNat = phaseNumber p := by cases p <;> rfl

theorem toNat_causeCode (c : Cause) : (causeCode c).toNat = causeNumber c := by cases c <;> rfl

theorem toNat_packWord (b3 b2 b1 b0 : Byte) :
    (packWord b3 b2 b1 b0).toNat =
      b0.toNat + 0x100 * b1.toNat + 0x10000 * b2.toNat + 0x1000000 * b3.toNat := by
  simp only [packWord, toNat_append_eq_add]
  omega

theorem toNat_statusWord (s : State) : (statusWord s).toNat = statusNumber s := by
  simp only [statusWord, statusNumber, toNat_append_eq_add, toNat_ofBool_eq_bit, toNat_phaseCode, toNat_causeCode,
    BitVec.ofNat_eq_ofNat, BitVec.toNat_ofNat]
  omega

theorem toNat_irqEnWord (s : State) :
    (irqEnWord s).toNat = 2 * bit s.doneIe + 4 * bit s.errIe + 16 * bit s.rejIe := by
  simp only [irqEnWord, toNat_append_eq_add, toNat_ofBool_eq_bit, BitVec.ofNat_eq_ofNat, BitVec.toNat_ofNat]
  omega

/-- A register narrower than a word reads with zeros above it (R59). -/
theorem toNat_setWidth_word {n : Nat} (x : BitVec n) (h : n ≤ 32) : (x.setWidth 32).toNat = x.toNat := by
  rw [BitVec.toNat_setWidth]
  exact Nat.mod_eq_of_lt (x.isLt.trans_le (Nat.pow_le_pow_right (by decide) h))

/-- The word at an aligned offset is the register map's number there (R88). -/
theorem toNat_regWord (s : State) {off : BitVec 12} (h4 : off.toNat % 4 = 0) :
    (regWord s (hostReg off)).toNat = regNumber s off.toNat := by
  unfold hostReg
  generalize off.toNat = n at h4 ⊢
  split
  case h_1 | h_13 | h_14 => rfl
  case h_2 | h_3 | h_8 | h_9 | h_10 | h_12 => exact toNat_setWidth_word _ (by decide)
  case h_4 => exact toNat_statusWord s
  case h_5 => exact toNat_irqEnWord s
  case h_6 =>
    simp [regWord, regNumber, idWord, toNat_packWord]
    omega
  case h_7 =>
    simp [regWord, regNumber, srWord, toNat_packWord]
    omega
  case h_11 =>
    simp [regWord, regNumber, mmDataWord, toNat_packWord]
    omega
  case h_15 =>
    by_cases hd : 0x100 ≤ n ∧ n < 0x200
    · obtain ⟨j, rfl⟩ : ∃ j, n = 0x100 + 4 * j := ⟨(n - 0x100) / 4, by omega⟩
      have hj : (0x100 + 4 * j - 0x100) / 4 = j := by omega
      have hne (k : Nat) (hk : k < 0x100) : ¬(0x100 + 4 * j = k) := by omega
      have hle : 0x100 + 4 * j ≤ 0x1FC := by omega
      rw [if_pos hd, hj]
      simp [regWord, regNumber, toNat_packWord, hne, hle]
    · have hb : ¬(0x100 ≤ n ∧ n ≤ 0x1FC) := by omega
      rw [if_neg hd]
      simp_all [regWord, regNumber]

/-- An aligned word access is what the interface admits (R90). -/
theorem gate_aligned {off : BitVec 12} (h4 : off.toNat % 4 = 0) (f : Fetched) : gate .word off f = f := by
  simp [gate, h4]

/-- Settles O55: the read's word is the register's, and the state keeps it in `rdata` alone. -/
theorem hostReadReturnsRegister : Obligations.HostReadReturnsRegister := by
  intro s ms off hm h4
  refine ⟨hostRead off (setMoves ms s), ?_, rfl, toNat_regWord (setMoves ms s) h4⟩
  rw [step_of_move hm, fetchMove, gate_aligned h4]
  rfl

/-! ### Host writes (R34 to R36, R44, R51, R59) -/

/-- Bit `k` of a word in numbers. -/
theorem getLsbD_eq_decide (w : Word) (k : Nat) : w.getLsbD k = decide (w.toNat / 2 ^ k % 2 = 1) :=
  Nat.testBit_eq_decide_div_mod_eq

/-- A write of STATUS clears what its 1s name (R36). -/
theorem clearStatus_eq_regWritten (w : Word) (s : State) : clearStatus w s = regWritten 0x00C w s := by
  apply State.ext <;>
    simp [clearStatus, regWritten, getLsbD_eq_decide, -BitVec.getLsbD_eq_getElem, Bool.and_comm]

theorem setIrqEn_eq_regWritten (w : Word) (s : State) : setIrqEn w s = regWritten 0x010 w s := by
  simp [regWritten, setIrqEn, getLsbD_eq_decide, -BitVec.getLsbD_eq_getElem]

/-- A write at an offset that is neither CMD's nor DBUF's does what the register map says (R88). -/
theorem writeReg_eq_regWritten {off : BitVec 12} (hd : ¬(0x100 ≤ off.toNat ∧ off.toNat < 0x200))
    (w : Word) (s : State) : writeReg (hostReg off) w s = regWritten off.toNat w s := by
  unfold hostReg
  generalize off.toNat = n at hd ⊢
  split
  case h_4 => exact clearStatus_eq_regWritten w s
  case h_5 => exact setIrqEn_eq_regWritten w s
  case h_15 =>
    rw [if_neg hd]
    simp_all [writeReg, regWritten]
  all_goals simp [writeReg, regWritten, ← BitVec.ofNat_toNat]

theorem hostReg_eq_cmd {off : BitVec 12} (h : hostReg off = .cmd) : off = 0 := by
  unfold hostReg at h
  split at h
  case h_1 h0 => exact BitVec.eq_of_toNat_eq h0
  case h_15 => split_ifs at h
  all_goals cases h

/-- Settles O56: the write takes effect by the register map, and CMD stands at offset 0 alone. -/
theorem hostWriteStoresFields : Obligations.HostWriteStoresFields := by
  intro s ms off w hm h4 h0 hd
  have hcmd : hostReg off ≠ .cmd := fun h => h0 (by rw [hostReg_eq_cmd h]; rfl)
  rw [step_of_move hm, fetchMove, gate_aligned h4, if_neg hcmd, ← writeReg_eq_regWritten (by omega)]
  rfl

/-! ### The command of a word (R121, R124, R130) -/

/-- A word is its fields put together again (R121). -/
theorem fieldsWord_wordFields (w : Word) : fieldsWord (wordFields w) = w := by
  apply BitVec.eq_of_toNat_eq
  have := w.isLt
  simp only [fieldsWord, wordFields, BitVec.toNat_append, BitVec.extractLsb'_toNat, Nat.shiftRight_eq_div_pow]
  rw [← Nat.shiftLeft_add_eq_or_of_lt (by omega), ← Nat.shiftLeft_add_eq_or_of_lt (by omega)]
  omega

theorem encodeFields_of_decodeFrame {b : Byte} {i : Instr} (h : decodeFrame b = .ok i) :
    encodeFields i = ⟨0, 0x0, b⟩ := by
  have hb {k : Nat} (hk : b.toNat = k) : b = BitVec.ofNat 8 k := by rw [← hk, BitVec.ofNat_toNat, BitVec.setWidth_eq]
  unfold decodeFrame at h
  split at h <;> cases h <;> rename_i hk <;> rw [hb hk] <;> rfl

theorem eq_of_decodePlain {b : Byte} {i j : Instr} (h : decodePlain i b = .ok j) : b = 0 ∧ i = j := by
  unfold decodePlain at h
  split_ifs at h
  cases h
  exact ⟨‹_›, rfl⟩

/-- The fields a command decodes from are those it encodes to. -/
theorem encodeFields_of_decodeFields {f : CmdWord} {i : Instr} (h : decodeFields f = .ok i) :
    encodeFields i = f := by
  obtain ⟨rsv, op, b⟩ := f
  have hop {k : Nat} (hk : op.toNat = k) : op = BitVec.ofNat 4 k := by
    rw [← hk, BitVec.ofNat_toNat, BitVec.setWidth_eq]
  unfold decodeFields at h
  dsimp only at h
  split_ifs at h with hrsv
  obtain rfl : rsv = 0 := not_not.1 hrsv
  split at h <;> try rw [hop ‹_›]
  case h_1 => exact encodeFields_of_decodeFrame h
  case h_3 => cases h; rfl
  case h_10 => cases h
  all_goals obtain ⟨rfl, rfl⟩ := eq_of_decodePlain h; rfl

/-- A legal word is the word of the command it decodes to. -/
theorem eq_encode_of_decode {w : Word} {i : Instr} (h : decode w = .ok i) : w = encode i := by
  rw [encode, encodeFields_of_decodeFields h, fieldsWord_wordFields]

theorem hostReg_eq_status {off : BitVec 12} (h : hostReg off = .status) : off = 0x00C := by
  unfold hostReg at h
  split at h
  case h_4 h0 => exact BitVec.eq_of_toNat_eq h0
  case h_15 => split_ifs at h
  all_goals cases h

theorem hostReg_eq_dbuf {off : BitVec 12} {j : Nat} (h : hostReg off = .dbuf j) :
    0x100 ≤ off.toNat ∧ off.toNat < 0x200 := by
  unfold hostReg at h
  split at h
  case h_15 => split_ifs at h; assumption
  all_goals cases h

/-! ### The step of a named move (R22, R95) -/

/-- What move `m` does in a state from which it has just been taken: `MoveStep`, with the move that asks for it. -/
inductive Moved (m : Move) (s : State) : State → Prop where
  | primitive (i : Instr) (t : State) (hm : m = .seq) (hb : s.busy = true) (hl : latched s = .ok i)
    (hx : exec i s = .next t) : Moved m s t
  | pass (hm : m = .seq) (hb : s.busy = false) : Moved m s s
  | read (off : BitVec 12) (hm : m = .hostRead .word off) : Moved m s (hostRead off s)
  | drop (w : Word) (hm : m = .hostWrite .word 0x000 w) (hb : s.busy = true) : Moved m s (dropCommand s)
  | issue (i : Instr) (t : State) (hm : m = .hostWrite .word 0x000 (encode i)) (hb : s.busy = false)
    (hx : exec i s = .next t) : Moved m s t
  | illegal (w : Word) (hm : m = .hostWrite .word 0x000 w) (hb : s.busy = false) : Moved m s (issueIllegal w s)
  | write (off : BitVec 12) (w : Word) (hm : m = .hostWrite .word off w) (h4 : off.toNat % 4 = 0) :
    Moved m s (writeReg (hostReg off) w s)
  | reset (hm : m = .rst) : Moved m s (resetStep s)

/-- A host access that has a next state is 32 bits wide and aligned (R90). -/
theorem admitted_of_gate {width : AccessWidth} {off : BitVec 12} {f : Fetched} {t : State}
    (h : runFetched (gate width off f) = .next t) :
    width = .word ∧ off.toNat % 4 = 0 ∧ runFetched f = .next t := by
  have hf := runFetched_gate h
  unfold gate at h
  split_ifs at h with hw h4
  · cases h
  · cases h
  · exact ⟨not_not.1 hw, not_not.1 h4, hf⟩

theorem moved_of_fetchSeq {s t : State} (h : runFetched (fetchSeq s) = .next t) : Moved .seq s t := by
  unfold fetchSeq at h
  split at h
  · split at h
    · exact .primitive _ _ rfl ‹_› ‹_› h
    · cases h
  · cases h
    exact .pass rfl (Bool.eq_false_iff.2 ‹_›)

theorem moved_of_fetchCommand {w : Word} {s t : State} (h : runFetched (fetchCommand w s) = .next t) :
    Moved (.hostWrite .word 0x000 w) s t := by
  unfold fetchCommand at h
  split at h
  · cases h
    exact .drop w rfl ‹_›
  · have hb : s.busy = false := Bool.eq_false_iff.2 ‹_›
    split at h
    · rename_i i hd
      exact .issue i t (by rw [eq_encode_of_decode hd]) hb h
    · cases h
      exact .illegal w rfl hb

/-- Every step with a next state is one of these, from the state with the move taken. -/
theorem moved_of_step {s t : State} (h : step s = .next t) : Moved (nextMove s) (moveTaken s) t := by
  unfold step fetch fetchMove at h
  split at h
  · rename_i hm
    exact hm ▸ moved_of_fetchSeq h
  · rename_i width off hm
    obtain ⟨rfl, -, hx⟩ := admitted_of_gate h
    cases hx
    exact .read off hm
  · rename_i width off w hm
    obtain ⟨rfl, h4, hx⟩ := admitted_of_gate h
    split at hx
    · rename_i hcmd
      rw [hm, hostReg_eq_cmd hcmd]
      exact moved_of_fetchCommand hx
    · cases hx
      exact .write off w hm h4
  · cases h
    exact .reset ‹_›

/-! ### Every admitted move has a next state (R90, R301) -/

/-- At a position of its own a running command has a next primitive (R40). -/
theorem seqOf_progress {i : Instr} {s : State} (h : posOk i s = true) : ∃ t, seqOf i s = .next t := by
  have frame {f : Frame} (keep : Nat → Byte → State → State) (hp : framePos f s.pos = true) :
      ∃ t, seqFrame f keep s = .next t := by
    unfold framePos at hp
    split at hp
    case h_5 => cases hp
    all_goals exact ⟨_, by simp only [seqFrame, *]; rfl⟩
  cases i with
  | rdid | rdsr1 | rdsr2 | read | wren | wrdi | ce | pp => exact frame _ h
  | select | exchange _ | deselect =>
    simp only [posOk, Bool.or_eq_true, beq_iff_eq] at h
    rcases h with h | h <;> exact ⟨_, by simp only [seqOf, seqSelect, seqExchange, seqDeselect, h]; rfl⟩
  | waitReady | readId | dump | upload | verify =>
    unfold posOk at h
    dsimp only at h
    split at h <;> try exact absurd h Bool.false_ne_true
    all_goals exact ⟨_, by simp only [seqOf, seqWaitReady, seqReadId, seqDump, seqUpload, seqVerify, *]; rfl⟩

/-- A drawn host access is aligned (R90). -/
theorem admissible_admitted (m : Move) : admissible (admitted m) = true := by
  have h4 (off : BitVec 12) : (off &&& 0xFFC).toNat % 4 = 0 := by
    rw [BitVec.toNat_and]
    exact (Nat.and_mod_two_pow (n := 2)).trans (Nat.and_zero _)
  cases m with
  | hostRead _ off | hostWrite _ off _ =>
    simpa only [admitted, admissible, beq_self_eq_true, Bool.true_and, beq_iff_eq] using h4 off
  | seq | rst => rfl

theorem admissible_nextMove {s : State} (h : s.moves = [] ∨ admissible (nextMove s) = true) :
    admissible (nextMove s) = true := by
  rcases h with h | h
  · rw [nextMove, h]
    exact admissible_admitted _
  · exact h

/-- A write of CMD always has a next state (R302). -/
theorem fetchCommand_progress (w : Word) (s : State) : ∃ t, runFetched (fetchCommand w s) = .next t := by
  unfold fetchCommand
  cases hb : s.busy with
  | true => exact ⟨_, rfl⟩
  | false =>
    cases decode w with
    | ok i => exact ⟨_, exec_idle hb⟩
    | error e => exact ⟨_, rfl⟩

/-- An admitted move fetches a command that runs, or an outcome that is a next state. -/
theorem fetchMove_progress {m : Move} {s : State} (h : Inv s) (hm : admissible m = true) :
    ∃ t, runFetched (fetchMove m s) = .next t := by
  cases m with
  | seq =>
    unfold fetchMove fetchSeq
    cases hb : s.busy with
    | false => exact ⟨s, rfl⟩
    | true =>
      obtain ⟨i, R⟩ := h.command hb
      obtain ⟨t, ht⟩ := seqOf_progress R.pos
      exact ⟨t, by simp [R.latch, runFetched, exec_busy hb, ht]⟩
  | hostRead width off =>
    simp only [admissible, Bool.and_eq_true, beq_iff_eq] at hm
    obtain ⟨rfl, h4⟩ := hm
    exact ⟨hostRead off s, by rw [fetchMove, gate_aligned h4]; rfl⟩
  | hostWrite width off w =>
    simp only [admissible, Bool.and_eq_true, beq_iff_eq] at hm
    obtain ⟨rfl, h4⟩ := hm
    rw [fetchMove, gate_aligned h4]
    split
    · exact fetchCommand_progress w s
    · exact ⟨_, rfl⟩
  | rst => exact ⟨_, rfl⟩

/-- Settles O17: under the invariant SEQ stands at a position of the latched command, and no other move can fail. -/
theorem everyAdmittedMoveSteps : Obligations.EveryAdmittedMoveSteps :=
  fun _ h hm => fetchMove_progress h.moveTaken (admissible_nextMove hm)

/-! ### Who writes which register (R43, R45 to R52) -/

/-- The registers and buffers whose writers the rules name, with CMD_REJ. -/
inductive Reg where
  | cmdRej | id | sr1 | sr2 | rxdata | cursor | mm | pct | pollCnt | dbuf | wbuf

/-- A register holds in `t` what it holds in `s`. -/
def Kept (s t : State) : Reg → Prop
  | .cmdRej => t.cmdRej = s.cmdRej
  | .id => t.idMfr = s.idMfr ∧ t.idType = s.idType ∧ t.idCap = s.idCap
  | .sr1 => t.sr1 = s.sr1
  | .sr2 => t.sr2 = s.sr2
  | .rxdata => t.rxdata = s.rxdata
  | .cursor => t.cursor = s.cursor
  | .mm => t.mmAddr = s.mmAddr ∧ t.mmDev = s.mmDev ∧ t.mmExp = s.mmExp
  | .pct => t.pct = s.pct
  | .pollCnt => t.pollCnt = s.pollCnt
  | .dbuf => t.dbuf = s.dbuf
  | .wbuf => t.wbuf = s.wbuf

/-- From `s` to `t` only the registers `ws` may have been written. -/
def Writes (ws : List Reg) (s t : State) : Prop := ∀ r, r ∈ ws ∨ Kept s t r

theorem Kept.trans {s t u : State} {r : Reg} (h : Kept s t r) (h' : Kept t u r) : Kept s u r := by
  cases r <;> simp_all [Kept]

theorem Writes.refl {ws : List Reg} (s : State) : Writes ws s s := fun r => .inr (by cases r <;> simp [Kept])

theorem Writes.mono {ws vs : List Reg} {s t : State} (h : Writes ws s t) (hv : ws ⊆ vs) : Writes vs s t :=
  fun r => (h r).imp_left (hv ·)

theorem Writes.trans {ws : List Reg} {s t u : State} (h : Writes ws s t) (h' : Writes ws t u) : Writes ws s u :=
  fun r => (h r).elim .inl fun k => (h' r).imp_right k.trans

/-- A register not among them is kept. -/
theorem Writes.kept {ws : List Reg} {s t : State} {r : Reg} (h : Writes ws s t) (hr : r ∉ ws) : Kept s t r :=
  (h r).resolve_left hr

/-! The shared steps. -/

theorem selectStep_writes {ws : List Reg} (t : FrameTag) (s : State) : Writes ws s (selectStep t s) := fun r => by
  cases r <;> simp [Kept, selectStep]

theorem deselectStep_writes {ws : List Reg} (marks : Bool) (after : Pos) (s : State) :
    Writes ws s (deselectStep marks after s) := fun r => by cases r <;> simp [Kept, deselectStep]

theorem finish_writes {ws : List Reg} (s : State) : Writes ws s (finish s) := fun r => by cases r <;> simp [Kept]

theorem fail_writes {ws : List Reg} (c : Cause) (s : State) : Writes ws s (fail c s) := fun r => by
  cases r <;> simp [Kept]

theorem streamWait_writes {ws : List Reg} (s : State) : Writes ws s (streamWait s) := fun r => by
  cases r <;> simp [Kept, streamWait]

theorem headerStep_writes {ws : List Reg} (k : Nat) (s : State) : Writes ws s (headerStep k s) := fun r => by
  cases r <;> simp [Kept, headerStep]

theorem dataStep_writes (n : Nat) (after : Pos) (s : State) : Writes [.wbuf] s (dataStep n after s) := fun r => by
  cases r <;> simp [Kept, dataStep]

theorem sweepEndStep_writes {ws : List Reg} (s : State) : Writes ws s (sweepEndStep s) := fun r => by
  cases r <;> simp [Kept, sweepEndStep]

theorem byteStep_writes {ws : List Reg} {keep : Nat → Byte → State → State} (hk : ∀ j b u, Writes ws u (keep j b u))
    (t : FrameTag) (marks : Bool) (f : Frame) (k : Nat) (s : State) : Writes ws s (byteStep t marks f keep k s) := by
  have key (p : Phase) (q : Pos) : Writes ws s (setPos q
      (if k < f.sent then exchange (f.tx k) (setPhase p s)
        else keep (k - f.sent) (rx (f.tx k) s) (exchange (f.tx k) (setPhase p s)))) := by
    have hx : Writes ws s (exchange (f.tx k) (setPhase p s)) := fun r => by cases r <;> simp [Kept]
    have hp (u : State) : Writes ws u (setPos q u) := fun r => by cases r <;> simp [Kept]
    split
    · exact hx.trans (hp _)
    · exact (hx.trans (hk _ _ _)).trans (hp _)
  exact key _ _

theorem keepNone_writes {ws : List Reg} (j : Nat) (b : Byte) (s : State) : Writes ws s (keepNone j b s) := .refl s

theorem keepId_writes (j : Nat) (b : Byte) (s : State) : Writes [.id] s (keepId j b s) := fun r => by
  unfold keepId
  split <;> cases r <;> simp [Kept]

theorem keepSr1_writes (j : Nat) (b : Byte) (s : State) : Writes [.sr1] s (keepSr1 j b s) := fun r => by
  cases r <;> simp [Kept, keepSr1]

theorem keepSr2_writes (j : Nat) (b : Byte) (s : State) : Writes [.sr2] s (keepSr2 j b s) := fun r => by
  cases r <;> simp [Kept, keepSr2]

theorem keepDbuf_writes (j : Nat) (b : Byte) (s : State) : Writes [.dbuf] s (keepDbuf j b s) := fun r => by
  cases r <;> simp [Kept, keepDbuf]

theorem pollOpcodeStep_writes (t : FrameTag) (marks : Bool) (s : State) :
    Writes [.sr1, .pollCnt] s (pollOpcodeStep t marks s) := fun r => by cases r <;> simp [Kept, pollOpcodeStep]

theorem sampleStep_writes (t : FrameTag) (s : State) : Writes [.sr1, .pollCnt] s (sampleStep t s) := fun r => by
  cases r <;> simp [Kept, sampleStep]

theorem pollEndStep_writes (marks : Bool) (after : Pos) (s : State) :
    Writes [.sr1, .pollCnt] s (pollEndStep marks after s) := fun r => by
  cases r <;> simp [Kept, pollEndStep, deselectStep]

theorem pollFailStep_writes (c : Cause) (s : State) : Writes [.sr1, .pollCnt] s (pollFailStep c s) := fun r => by
  cases r <;> simp [Kept, pollFailStep]

/-! The steps of the bulk commands. -/

theorem dumpSinkStep_writes {ws : List Reg} (s : State) : Writes ws s (dumpSinkStep s) := by
  rcases dumpSinkStep_cases s with e | ⟨ok, e⟩ <;> rw [e]
  · exact streamWait_writes s
  · exact fun r => by cases r <;> simp [Kept]

theorem dumpProgressStep_writes (s : State) : Writes [.cursor, .pct] s (dumpProgressStep s) := fun r => by
  unfold dumpProgressStep
  rcases dumpNextChunk_cases (emitProgress (setCursor (s.cursor.toNat + Config.chunkSize) s)) with
    ⟨-, e⟩ | ⟨-, e⟩ <;> rw [e] <;> cases r <;> simp [Kept]

theorem uploadSourceStep_writes {ws : List Reg} (s : State) : Writes ws s (uploadSourceStep s) := by
  rcases uploadSourceStep_cases s with e | e | ⟨d, -, e⟩ <;> rw [e]
  · exact streamWait_writes s
  all_goals exact fun r => by cases r <;> simp [Kept]

theorem pageSelectStep_writes (s : State) : Writes [.wbuf] s (pageSelectStep s) := fun r => by
  cases r <;> simp [Kept, pageSelectStep, selectStep]

theorem pageEndStep_writes (s : State) : Writes [.sr1, .pollCnt] s (pageEndStep s) := by
  rcases pageEndStep_cases s with ⟨-, e⟩ | e <;> rw [e]
  · exact (pollEndStep_writes false (.select .pageWren) s).trans fun r => by cases r <;> simp [Kept]
  · exact pollEndStep_writes false .progress s

theorem uploadProgressStep_writes (s : State) : Writes [.cursor, .pct] s (uploadProgressStep s) := fun r => by
  unfold uploadProgressStep
  rcases uploadNextChunk_cases (emitProgress (setCursor (s.chunkIx * Config.chunkSize + Config.chunkSize) s)) with
    ⟨-, e⟩ | ⟨-, e⟩ <;> rw [e] <;> cases r <;> simp [Kept]

theorem verifySourceStep_writes {ws : List Reg} (s : State) : Writes ws s (verifySourceStep s) := by
  rcases verifySourceStep_cases s with e | e | ⟨d, -, e⟩ <;> rw [e]
  · exact streamWait_writes s
  all_goals exact fun r => by cases r <;> simp [Kept]

theorem verifyNextStride_writes {ws : List Reg} (s : State) : Writes ws s (verifyNextStride s) := fun r => by
  rcases verifyNextStride_cases s with ⟨-, e⟩ | ⟨-, e⟩ <;> rw [e] <;> cases r <;> simp [Kept]

theorem verifyCompareStep_writes (s : State) : Writes [.cursor, .wbuf] s (verifyCompareStep s) := by
  have hs : Writes [.cursor, .wbuf] s (assignSourced Config.halfSize s) := fun r => by cases r <;> simp [Kept]
  have hc (c : Nat) (u : State) : Writes [.cursor, .wbuf] u (setCursor c u) := fun r => by cases r <;> simp [Kept]
  refine hs.trans ?_
  unfold verifyCompareStep
  generalize assignSourced Config.halfSize s = u
  rcases verifyCompare_cases u with ⟨i, -, e⟩ | e | e <;> rw [e]
  · exact fun r => by cases r <;> simp [Kept]
  · exact (hc ((u.strideIx + 1) * Config.halfSize) u).trans fun r => by cases r <;> simp [Kept]
  · exact (hc _ u).trans (verifyNextStride_writes _)

theorem verifyMismatchStep_writes (s : State) : Writes [.mm] s (verifyMismatchStep s) := fun r => by
  cases r <;> simp [Kept, verifyMismatchStep]

theorem emitProgress_writes (s : State) : Writes [.pct] s (emitProgress s) := fun r => by cases r <;> simp [Kept]

/-! The primitives of a command. -/

/-- The registers a command's primitives may write. -/
def writesOf : Instr → List Reg
  | .rdid => [.id]
  | .rdsr1 => [.sr1]
  | .rdsr2 => [.sr2]
  | .read => [.dbuf]
  | .exchange _ => [.rxdata]
  | .waitReady => [.sr1, .pollCnt]
  | .readId => [.id, .sr1, .sr2]
  | .dump => [.cursor, .pct, .wbuf]
  | .upload => [.sr1, .pollCnt, .cursor, .pct, .wbuf]
  | .verify => [.mm, .cursor, .pct, .wbuf]
  | _ => []

section Registers

variable {s t : State}

theorem seqFrame_writes {ws : List Reg} {f : Frame} {keep : Nat → Byte → State → State}
    (hk : ∀ j b u, Writes ws u (keep j b u)) (hx : seqFrame f keep s = .next t) : Writes ws s t := by
  unfold seqFrame at hx
  split at hx <;> cases hx
  case h_1 => exact selectStep_writes _ s
  case h_2 => exact byteStep_writes hk _ _ f _ s
  case h_3 => exact deselectStep_writes _ _ s
  case h_4 => exact finish_writes s

theorem seqSelect_writes {ws : List Reg} (hx : seqSelect s = .next t) : Writes ws s t := by
  unfold seqSelect at hx
  split at hx <;> cases hx
  · exact fun r => by cases r <;> simp [Kept]
  · exact finish_writes s

theorem seqDeselect_writes {ws : List Reg} (hx : seqDeselect s = .next t) : Writes ws s t := by
  unfold seqDeselect at hx
  split at hx <;> cases hx
  · exact fun r => by cases r <;> simp [Kept]
  · exact finish_writes s

theorem seqExchange_writes {b : Byte} (hx : seqExchange b s = .next t) : Writes [.rxdata] s t := by
  unfold seqExchange at hx
  split at hx <;> cases hx
  · exact fun r => by cases r <;> simp [Kept]
  · exact finish_writes s

theorem seqWaitReady_writes (hx : seqWaitReady s = .next t) : Writes [.sr1, .pollCnt] s t := by
  unfold seqWaitReady at hx
  split at hx <;> cases hx
  case h_1 => exact selectStep_writes _ s
  case h_2 => exact pollOpcodeStep_writes _ _ s
  case h_3 => exact sampleStep_writes _ s
  case h_4 => exact pollEndStep_writes _ _ s
  case h_5 => exact finish_writes s
  case h_6 => exact pollFailStep_writes _ s

theorem seqReadId_writes (hx : seqReadId s = .next t) : Writes [.id, .sr1, .sr2] s t := by
  unfold seqReadId at hx
  split at hx <;> cases hx
  case h_1 | h_4 | h_7 => exact selectStep_writes _ s
  case h_2 => exact (byteStep_writes keepId_writes _ _ _ _ s).mono (by simp)
  case h_5 => exact (byteStep_writes keepSr1_writes _ _ _ _ s).mono (by simp)
  case h_8 => exact (byteStep_writes keepSr2_writes _ _ _ _ s).mono (by simp)
  case h_3 | h_6 | h_9 => exact deselectStep_writes _ _ s
  case h_10 => exact finish_writes s

/-- DUMP moves the cursor at its progress step alone (R252). -/
theorem seqDump_writes (hx : seqDump s = .next t) :
    Writes [.wbuf] s t ∨ s.pos = .progress ∧ t = dumpProgressStep s := by
  unfold seqDump at hx
  split at hx <;> cases hx
  case h_1 => exact .inl (selectStep_writes _ s)
  case h_2 => exact .inl (headerStep_writes _ s)
  case h_3 => exact .inl (dataStep_writes _ _ s)
  case h_4 => exact .inl (dumpSinkStep_writes s)
  case h_5 hp => exact .inr ⟨hp, rfl⟩
  case h_6 => exact .inl (sweepEndStep_writes s)
  case h_7 => exact .inl (finish_writes s)
  case h_8 => exact .inl (fail_writes _ s)

/-- UPLOAD moves the cursor at its progress step alone (R260). -/
theorem seqUpload_writes (hx : seqUpload s = .next t) :
    Writes [.sr1, .pollCnt, .wbuf] s t ∨ s.pos = .progress ∧ t = uploadProgressStep s := by
  unfold seqUpload at hx
  split at hx <;> cases hx
  case h_1 | h_4 | h_7 | h_15 | h_18 => exact .inl (selectStep_writes _ s)
  case h_2 | h_5 | h_13 | h_16 => exact .inl (byteStep_writes keepNone_writes _ _ _ _ s)
  case h_3 | h_6 | h_14 | h_17 => exact .inl (deselectStep_writes _ _ s)
  case h_8 | h_19 => exact .inl ((pollOpcodeStep_writes _ _ s).mono (by simp))
  case h_9 | h_20 => exact .inl ((sampleStep_writes _ s).mono (by simp))
  case h_10 => exact .inl ((pollEndStep_writes _ _ s).mono (by simp))
  case h_11 => exact .inl (uploadSourceStep_writes s)
  case h_12 => exact .inl ((pageSelectStep_writes s).mono (by simp))
  case h_21 => exact .inl ((pageEndStep_writes s).mono (by simp))
  case h_22 hp => exact .inr ⟨hp, rfl⟩
  case h_23 => exact .inl (finish_writes s)
  case h_24 => exact .inl ((pollFailStep_writes _ s).mono (by simp))

/-- VERIFY moves the cursor at its comparison alone (R270). -/
theorem seqVerify_writes (hx : seqVerify s = .next t) :
    Writes [.mm, .pct, .wbuf] s t ∨ s.pos = .compare ∧ t = verifyCompareStep s := by
  unfold seqVerify at hx
  split at hx
  case h_11 => cases hx
  all_goals injection hx with hx; subst hx
  case h_1 => exact .inl (selectStep_writes _ s)
  case h_2 => exact .inl (headerStep_writes _ s)
  case h_3 => exact .inl ((dataStep_writes _ _ s).mono (by simp))
  case h_4 => exact .inl (verifySourceStep_writes s)
  case h_5 hp => exact .inr ⟨hp, rfl⟩
  case h_6 => exact .inl ((verifyMismatchStep_writes s).mono (by simp))
  case h_7 => exact .inl (((emitProgress_writes s).mono (by simp)).trans (verifyNextStride_writes _))
  case h_8 => exact .inl (sweepEndStep_writes s)
  case h_9 => exact .inl (finish_writes s)
  case h_10 => exact .inl (fail_writes _ s)

/-- A primitive of a running command writes that command's registers alone. -/
theorem exec_busy_writes {i : Instr} (hb : s.busy = true) (hx : exec i s = .next t) : Writes (writesOf i) s t := by
  rw [exec_busy hb] at hx
  cases i with
  | rdid => exact seqFrame_writes keepId_writes hx
  | rdsr1 => exact seqFrame_writes keepSr1_writes hx
  | rdsr2 => exact seqFrame_writes keepSr2_writes hx
  | read => exact seqFrame_writes keepDbuf_writes hx
  | wren | wrdi | ce | pp => exact seqFrame_writes keepNone_writes hx
  | select => exact seqSelect_writes hx
  | exchange b => exact seqExchange_writes hx
  | deselect => exact seqDeselect_writes hx
  | waitReady => exact seqWaitReady_writes hx
  | readId => exact seqReadId_writes hx
  | dump =>
    rcases seqDump_writes hx with h | ⟨-, rfl⟩
    · exact h.mono (by simp [writesOf])
    · exact (dumpProgressStep_writes s).mono (by simp [writesOf])
  | upload =>
    rcases seqUpload_writes hx with h | ⟨-, rfl⟩
    · exact h.mono (by simp [writesOf])
    · exact (uploadProgressStep_writes s).mono (by simp [writesOf])
  | verify =>
    rcases seqVerify_writes hx with h | ⟨-, e⟩
    · exact h.mono (by simp [writesOf])
    · rw [e]
      exact (verifyCompareStep_writes s).mono (by simp [writesOf])

/-! The issue of a command, and the moves of the host. -/

/-- The registers a command's acceptance clears (R49, R250). -/
def clearedBy : Instr → List Reg
  | .dump | .upload => [.cursor, .pct]
  | .verify => [.mm, .cursor, .pct]
  | _ => []

theorem initOf_writes (i : Instr) (s : State) : Writes (clearedBy i) s (initOf i s) := by
  cases i with
  | dump | upload | verify => exact fun r => by cases r <;> simp [Kept, clearedBy, initOf]
  | _ => exact .refl s

/-- Acceptance clears a bulk command's registers; a refusal writes none (R304). -/
theorem exec_idle_writes {i : Instr} (hb : s.busy = false) (hx : exec i s = .next t) : Writes (clearedBy i) s t := by
  have hw (w : Word) (u : State) : Writes (clearedBy i) u (recordCommand w u) := fun r => by cases r <;> simp [Kept]
  rw [exec_idle hb] at hx
  injection hx with hx
  subst hx
  cases hr : refuseOf i (recordCommand (encode i) s) with
  | some c =>
    rw [issue_refused hr]
    exact (hw (encode i) s).trans fun r => by cases r <;> simp [Kept]
  | none =>
    rw [issue_accepted hr]
    exact ((hw (encode i) s).trans (initOf_writes i _)).trans fun r => by cases r <;> simp [Kept]

theorem issueIllegal_writes (w : Word) (s : State) : Writes [] s (issueIllegal w s) := fun r => by
  cases r <;> simp [Kept, issueIllegal]

theorem dropCommand_writes (s : State) : Writes [.cmdRej] s (dropCommand s) := fun r => by
  cases r <;> simp [Kept]

theorem hostRead_writes (off : BitVec 12) (s : State) : Writes [] s (hostRead off s) := fun r => by
  cases r <;> simp [Kept, hostRead]

theorem moveTaken_writes (s : State) : Writes [] s (moveTaken s) := fun r => by
  obtain ⟨ms, n, e⟩ := moveTaken_eq s
  rw [e]
  cases r <;> simp [Kept]

theorem latched_moveTaken (s : State) : latched (moveTaken s) = latched s := by
  obtain ⟨ms, n, e⟩ := moveTaken_eq s
  rw [e, latched, latched]

@[simp] theorem moveTaken_busy (s : State) : (moveTaken s).busy = s.busy := by
  obtain ⟨ms, n, e⟩ := moveTaken_eq s
  rw [e]

@[simp] theorem moveTaken_cursor (s : State) : (moveTaken s).cursor = s.cursor := by
  obtain ⟨ms, n, e⟩ := moveTaken_eq s
  rw [e]

theorem clearStatus_cmdRej (w : Word) (s : State) : (clearStatus w s).cmdRej = (s.cmdRej && !w.getLsbD 4) := rfl

/-- A STATUS write reaches CMD_REJ by bit 4 alone (R36, R43). -/
theorem clearStatus_writes (w : Word) (s : State) :
    Writes (if w.getLsbD 4 = true then [.cmdRej] else []) s (clearStatus w s) := fun r => by
  cases r with
  | cmdRej =>
    rw [Kept, clearStatus_cmdRej]
    split_ifs with hw
    · exact .inl (List.mem_singleton.2 rfl)
    · rw [Bool.eq_false_iff.2 hw, Bool.not_false, Bool.and_true]
      exact .inr rfl
  | _ => exact .inr (by simp [Kept, clearStatus])

theorem setIrqEn_writes (w : Word) (s : State) : Writes [] s (setIrqEn w s) := fun r => by
  cases r <;> simp [Kept, setIrqEn]

theorem setDbufWord_writes (j : Nat) (w : Word) (s : State) : Writes [.dbuf] s (setDbufWord j w s) := fun r => by
  cases r <;> simp [Kept, setDbufWord]

/-- A host write of a register but CMD writes, of these, CMD_REJ by STATUS bit 4 and DBUF while BUSY = 0
(R36, R43, R89). -/
theorem writeReg_writes {off : BitVec 12} (h4 : off.toNat % 4 = 0) (w : Word) {r : Reg}
    (h : ¬Kept s (writeReg (hostReg off) w s) r) :
    (r = .cmdRej ∧ off = 0x00C ∧ w.getLsbD 4 = true) ∨
      (r = .dbuf ∧ s.busy = false ∧ 0x100 ≤ off.toNat ∧ off.toNat ≤ 0x1FC) := by
  have mem {ws : List Reg} (hw : Writes ws s (writeReg (hostReg off) w s)) : r ∈ ws := (hw r).resolve_right h
  clear h
  unfold writeReg at mem
  split at mem
  case h_3 hs =>
    have hr := mem (clearStatus_writes w s)
    split_ifs at hr with hw
    · exact .inl ⟨List.mem_singleton.1 hr, hostReg_eq_status hs, hw⟩
    · exact absurd hr List.not_mem_nil
  case h_6 j hj =>
    obtain ⟨hlo, hhi⟩ := hostReg_eq_dbuf hj
    split_ifs at mem with hb
    · exact absurd (mem (.refl s)) List.not_mem_nil
    · obtain rfl := List.mem_singleton.1 (mem (setDbufWord_writes j w s))
      exact .inr ⟨rfl, Bool.eq_false_iff.2 hb, hlo, by omega⟩
  case h_7 => exact absurd (mem (.refl s)) List.not_mem_nil
  case h_4 => exact absurd (mem (setIrqEn_writes w s)) List.not_mem_nil
  all_goals exact absurd (mem fun r => .inr (by cases r <;> simp [Kept])) List.not_mem_nil

/-- Why a step from `s` to `t` wrote a register. -/
inductive Writer (s t : State) : Reg → Prop where
  /-- A primitive of the running command. -/
  | primitive (r : Reg) (i : Instr) (hr : r ∈ writesOf i) (hm : nextMove s = .seq) (hb : s.busy = true)
    (hl : latched s = .ok i) (hx : exec i (moveTaken s) = .next t) : Writer s t r
  /-- The issue of a command. -/
  | issue (r : Reg) (i : Instr) (hr : r ∈ clearedBy i) (hm : nextMove s = .hostWrite .word 0x000 (encode i))
    (hb : s.busy = false) (hx : exec i (moveTaken s) = .next t) : Writer s t r
  /-- CMD written while a command runs. -/
  | drop (w : Word) (hm : nextMove s = .hostWrite .word 0x000 w) (hb : s.busy = true) (ht : t.cmdRej = true) :
    Writer s t .cmdRej
  /-- A 1 written to STATUS bit 4. -/
  | clear (w : Word) (hm : nextMove s = .hostWrite .word 0x00C w) (hw : w.getLsbD 4 = true)
    (ht : t.cmdRej = false) : Writer s t .cmdRej
  /-- A word of DBUF written. -/
  | dbuf (off : BitVec 12) (w : Word) (hm : nextMove s = .hostWrite .word off w) (hb : s.busy = false)
    (hlo : 0x100 ≤ off.toNat) (hhi : off.toNat ≤ 0x1FC) : Writer s t .dbuf
  /-- Reset. -/
  | reset (r : Reg) (hm : nextMove s = .rst) (ht : t = resetStep (moveTaken s)) : Writer s t r

/-- A register a step does not keep has a writer. -/
theorem writer_of_step (hx : step s = .next t) {r : Reg} (h : ¬Kept s t r) : Writer s t r := by
  have hk : ¬Kept (moveTaken s) t r := fun k => h (((moveTaken_writes s).kept List.not_mem_nil).trans k)
  have mem {ws : List Reg} (hw : Writes ws (moveTaken s) t) : r ∈ ws := (hw r).resolve_right hk
  cases moved_of_step hx with
  | primitive i _ hm hb hl hx =>
    exact .primitive r i (mem (exec_busy_writes hb hx)) hm (by simpa using hb) (by rwa [latched_moveTaken] at hl) hx
  | pass => exact absurd (mem (.refl _)) List.not_mem_nil
  | read off => exact absurd (mem (hostRead_writes _ _)) List.not_mem_nil
  | drop w hm hb =>
    obtain rfl := List.mem_singleton.1 (mem (dropCommand_writes _))
    exact .drop w hm (by simpa using hb) rfl
  | issue i _ hm hb hx => exact .issue r i (mem (exec_idle_writes hb hx)) hm (by simpa using hb) hx
  | illegal w => exact absurd (mem (issueIllegal_writes _ _)) List.not_mem_nil
  | write off w hm h4 =>
    rcases writeReg_writes h4 w hk with ⟨rfl, rfl, hw⟩ | ⟨rfl, hb, hlo, hhi⟩
    · have ht : (clearStatus w (moveTaken s)).cmdRej = false := by
        rw [clearStatus_cmdRej, hw, Bool.not_true, Bool.and_false]
      exact .clear w hm hw ht
    · exact .dbuf off w hm (by simpa using hb) hlo hhi
  | reset hm => exact .reset r hm rfl

/-- The writer of a register that the host cannot write is a command, outside reset. -/
theorem Writer.command {r : Reg} (W : Writer s t r) (hm : nextMove s ≠ .rst) (hc : r ≠ .cmdRej) (hd : r ≠ .dbuf) :
    (∃ i, r ∈ writesOf i ∧ nextMove s = .seq ∧ s.busy = true ∧ latched s = .ok i) ∨
      ∃ i, r ∈ clearedBy i ∧ s.busy = false ∧ nextMove s = .hostWrite .word 0x000 (encode i) := by
  cases W with
  | primitive _ i hr hm hb hl => exact .inl ⟨i, hr, hm, hb, hl⟩
  | issue _ i hr hm hb => exact .inr ⟨i, hr, hb, hm⟩
  | drop | clear => exact absurd rfl hc
  | dbuf => exact absurd rfl hd
  | reset _ h => exact absurd h hm

end Registers

/-- The commands whose primitives may write a register: `writesOf`, read from the register's side. -/
def WrittenBy (i : Instr) : Reg → Prop
  | .cmdRej => False
  | .id => i ∈ [.rdid, .readId]
  | .sr1 => i ∈ [.rdsr1, .readId, .waitReady, .upload]
  | .sr2 => i ∈ [.rdsr2, .readId]
  | .rxdata => ∃ b, i = .exchange b
  | .cursor | .pct | .wbuf => i ∈ [.dump, .upload, .verify]
  | .mm => i ∈ [.verify]
  | .pollCnt => i ∈ [.waitReady, .upload]
  | .dbuf => i ∈ [.read]

theorem writtenBy_of_mem {i : Instr} {r : Reg} (h : r ∈ writesOf i) : WrittenBy i r := by
  cases i <;> cases r <;> simp [writesOf] at h <;> simp [WrittenBy]

/-- The commands whose acceptance clears a register. -/
def ClearedBy (i : Instr) : Reg → Prop
  | .cursor | .pct => isBulk i = true
  | .mm => i = .verify
  | _ => False

theorem clearedBy_of_mem {i : Instr} {r : Reg} (h : r ∈ clearedBy i) : ClearedBy i r := by
  cases i <;> cases r <;> simp [clearedBy] at h <;> simp [ClearedBy, isBulk]

/-- Settles O51: each register's writer is a primitive or an acceptance of the commands that `WrittenBy` and
`ClearedBy` list, or the host for DBUF. -/
theorem registerWriters : Obligations.RegisterWriters := by
  intro s t hx hrst
  have writer {r : Reg} (h : ¬Kept s t r) (hc : r ≠ .cmdRej) (hd : r ≠ .dbuf) :
      (∃ i, WrittenBy i r ∧ nextMove s = .seq ∧ s.busy = true ∧ latched s = .ok i) ∨
        ∃ i, ClearedBy i r ∧ s.busy = false ∧ nextMove s = .hostWrite .word 0x000 (encode i) :=
    ((writer_of_step hx h).command hrst hc hd).imp (fun ⟨i, hi, W⟩ => ⟨i, writtenBy_of_mem hi, W⟩)
      fun ⟨i, hi, W⟩ => ⟨i, clearedBy_of_mem hi, W⟩
  have runs {r : Reg} {is : List Instr} (h : ¬Kept s t r) (hc : r ≠ .cmdRej) (hd : r ≠ .dbuf)
      (his : ∀ i, WrittenBy i r → i ∈ is) :
      seqRuns is s ∨ ∃ i, ClearedBy i r ∧ s.busy = false ∧ nextMove s = .hostWrite .word 0x000 (encode i) :=
    (writer h hc hd).imp_left fun ⟨i, hi, hm, hb, hl⟩ => ⟨hm, hb, i, his i hi, hl⟩
  refine ⟨fun h => ?_, fun h => ?_, fun h => ?_, fun h => ?_, fun h => ?_, fun h => ?_, fun h => ?_, fun h => ?_,
    fun h => ?_⟩
  case refine_1 =>
    have hk : ¬Kept s t .id := fun ⟨h1, h2, h3⟩ => by simp [h1, h2, h3] at h
    exact (runs hk nofun nofun fun _ => id).resolve_right fun ⟨_, hi, _⟩ => hi
  case refine_2 =>
    exact (runs (r := .sr1) h nofun nofun fun _ => id).resolve_right fun ⟨_, hi, _⟩ => hi
  case refine_3 =>
    exact (runs (r := .sr2) h nofun nofun fun _ => id).resolve_right fun ⟨_, hi, _⟩ => hi
  case refine_4 =>
    obtain ⟨i, ⟨b, rfl⟩, hm, hb, hl⟩ := (writer (r := .rxdata) h nofun nofun).resolve_right fun ⟨_, hi, _⟩ => hi
    exact ⟨b, hm, hb, _, List.mem_singleton.2 rfl, hl⟩
  case refine_5 =>
    exact (runs (r := .pollCnt) h nofun nofun fun _ => id).resolve_right fun ⟨_, hi, _⟩ => hi
  case refine_6 =>
    have hk : ¬Kept s t .mm := fun ⟨h1, h2, h3⟩ => by simp [h1, h2, h3] at h
    refine (runs hk nofun nofun fun _ => id).imp_right ?_
    rintro ⟨_, rfl, hb, hm⟩
    exact ⟨hb, hm⟩
  case refine_7 =>
    refine (runs (r := .pct) h nofun nofun fun _ => id).imp_right ?_
    rintro ⟨i, hi, hb, hm⟩
    exact ⟨hb, i, hi, hm⟩
  case refine_8 =>
    cases writer_of_step (r := .dbuf) hx h with
    | primitive _ i hr hm hb hl => exact .inl ⟨hm, hb, i, writtenBy_of_mem hr, hl⟩
    | issue _ i hr => exact (clearedBy_of_mem hr).elim
    | dbuf off w hm hb hlo hhi => exact .inr ⟨hb, off, w, hm, hlo, hhi⟩
    | reset _ hm => exact absurd hm hrst
  case refine_9 =>
    exact (runs (r := .wbuf) h nofun nofun fun _ => id).resolve_right fun ⟨_, hi, _⟩ => hi

/-- Settles O11: the drop of a CMD write sets the flag; of the writers of CMD_REJ only that one sets it, and only a
STATUS write and reset clear it. -/
theorem cmdRejRule : Obligations.CmdRejRule := by
  refine ⟨fun s ms w hm hb => ?_, fun s t hx => ⟨fun hs ht => ?_, fun hs ht => ?_⟩⟩
  · have hg : fetchMove (.hostWrite .word 0x000 w) (setMoves ms s) = fetchCommand w (setMoves ms s) := rfl
    rw [step_of_move hm, hg]
    simp [fetchCommand, hb, runFetched, dropCommand]
  · have W : Writer s t .cmdRej := writer_of_step hx (by simp [Kept, hs, ht])
    cases W with
    | primitive _ i hr => exact (writtenBy_of_mem hr).elim
    | issue _ i hr => exact (clearedBy_of_mem hr).elim
    | drop w hm hb => exact ⟨hb, w, hm⟩
    | clear w hm hw h0 => simp [h0] at ht
    | reset _ hm h0 => simp [h0, resetStep, State.reset] at ht
  · have W : Writer s t .cmdRej := writer_of_step hx (by simp [Kept, hs, ht])
    cases W with
    | primitive _ i hr => exact (writtenBy_of_mem hr).elim
    | issue _ i hr => exact (clearedBy_of_mem hr).elim
    | drop w hm hb h1 => simp [h1] at ht
    | clear w hm hw => exact .inr ⟨w, hm, hw⟩
    | reset _ hm => exact .inl hm

/-! ### CURSOR (R48, R251) -/

section Cursor

variable {s t : State}

theorem dumpProgressStep_cursor (s : State) :
    (dumpProgressStep s).cursor = BitVec.ofNat 24 (s.cursor.toNat + Config.chunkSize) := by
  unfold dumpProgressStep
  rcases dumpNextChunk_cases (emitProgress (setCursor (s.cursor.toNat + Config.chunkSize) s)) with
    ⟨-, e⟩ | ⟨-, e⟩ <;> rw [e] <;> simp

theorem uploadProgressStep_cursor (s : State) :
    (uploadProgressStep s).cursor = BitVec.ofNat 24 (s.chunkIx * Config.chunkSize + Config.chunkSize) := by
  unfold uploadProgressStep
  rcases uploadNextChunk_cases (emitProgress (setCursor (s.chunkIx * Config.chunkSize + Config.chunkSize) s)) with
    ⟨-, e⟩ | ⟨-, e⟩ <;> rw [e] <;> simp

theorem verifyNextStride_cursor (s : State) : (verifyNextStride s).cursor = s.cursor :=
  (verifyNextStride_writes s).kept (ws := []) (r := .cursor) List.not_mem_nil

/-- A comparison leaves the cursor or moves it to the stride's end (R273). -/
theorem verifyCompareStep_cursor (s : State) :
    (verifyCompareStep s).cursor = s.cursor ∨
      (verifyCompareStep s).cursor = BitVec.ofNat 24 ((s.strideIx + 1) * Config.halfSize) := by
  unfold verifyCompareStep
  rcases verifyCompare_cases (assignSourced Config.halfSize s) with ⟨i, -, e⟩ | e | e <;> rw [e]
  · exact .inl (by simp)
  · exact .inr (by simp)
  · rw [verifyNextStride_cursor]
    exact .inr (by simp)

/-- DUMP moves the cursor by a chunk (R252). -/
theorem seqDump_cursor (R : Running .dump s) (hx : seqDump s = .next t) (h : t.cursor ≠ s.cursor) :
    t.cursor.toNat = s.cursor.toNat + Config.chunkSize := by
  rcases seqDump_writes hx with hw | ⟨hp, rfl⟩
  · exact absurd (hw.kept (r := .cursor) (by simp)) h
  · obtain ⟨hchunk, hcur⟩ := R.loop
    rw [hp] at hcur
    rw [dumpProgressStep_cursor]
    refine toNat_cursor ?_
    rw [hcur, ← Nat.succ_mul]
    exact chunk_end_le hchunk

/-- UPLOAD moves the cursor by a chunk (R260). -/
theorem seqUpload_cursor (R : Running .upload s) (hx : seqUpload s = .next t) (h : t.cursor ≠ s.cursor) :
    t.cursor.toNat = s.cursor.toNat + Config.chunkSize := by
  rcases seqUpload_writes hx with hw | ⟨hp, rfl⟩
  · exact absurd (hw.kept (r := .cursor) (by simp)) h
  · obtain ⟨hchunk, -, hcur⟩ := uploadLoop R.loop (by simp [hp])
    rw [uploadProgressStep_cursor, hcur]
    refine toNat_cursor ?_
    rw [← Nat.succ_mul]
    exact chunk_end_le hchunk

/-- VERIFY moves the cursor by half a chunk (R273). -/
theorem seqVerify_cursor (R : Running .verify s) (hx : seqVerify s = .next t) (h : t.cursor ≠ s.cursor) :
    t.cursor.toNat = s.cursor.toNat + Config.halfSize := by
  rcases seqVerify_writes hx with hw | ⟨hp, e⟩
  · exact absurd (hw.kept (r := .cursor) (by simp)) h
  · rw [e] at h ⊢
    obtain ⟨hstride, hcur⟩ := R.loop
    rw [hp] at hcur
    rw [(verifyCompareStep_cursor s).resolve_left h, toNat_cursor (stride_end_le hstride), hcur, Nat.succ_mul]

/-- The acceptance of a bulk command clears the cursor; a refusal leaves it (R250, R304). -/
theorem exec_idle_cursor {i : Instr} (hb : s.busy = false) (hx : exec i s = .next t) (hi : .cursor ∈ clearedBy i)
    (h : t.cursor ≠ s.cursor) : t.cursor = 0 := by
  rw [exec_idle hb] at hx
  injection hx with hx
  subst hx
  cases hr : refuseOf i (recordCommand (encode i) s) with
  | some c =>
    rw [issue_refused hr] at h
    simp at h
  | none =>
    rw [issue_accepted hr, accept_cursor]
    cases i <;> simp [clearedBy] at hi <;> simp [initOf]

end Cursor

/-- Settles O50: of the writers of CURSOR the primitives move it by the loop's step, and acceptance clears it. -/
theorem cursorMovesByChunks : Obligations.CursorMovesByChunks := by
  intro s t h hx hne
  have hle : t.cursor.toNat ≤ 0x800000 := (everyStepKeepsInvariant s t h hx).cursor
  have hne' : t.cursor ≠ (moveTaken s).cursor := by rwa [moveTaken_cursor]
  cases writer_of_step (r := .cursor) hx hne with
  | primitive _ i hr hm hb hl hx =>
    have hbu : (moveTaken s).busy = true := by rwa [moveTaken_busy]
    obtain ⟨j, R⟩ := h.moveTaken.command hbu
    obtain rfl : j = i := Except.ok.inj (R.latch.symm.trans ((latched_moveTaken s).trans hl))
    rw [exec_busy hbu] at hx
    rw [← moveTaken_cursor s]
    right; right
    cases j <;> simp only [writesOf, List.mem_cons, List.not_mem_nil, reduceCtorEq, or_false, or_self] at hr
    case dump => exact .inl ⟨⟨hm, hb, _, by simp, hl⟩, seqDump_cursor R hx hne', hle⟩
    case upload => exact .inl ⟨⟨hm, hb, _, by simp, hl⟩, seqUpload_cursor R hx hne', hle⟩
    case verify => exact .inr ⟨⟨hm, hb, _, by simp, hl⟩, seqVerify_cursor R hx hne', hle⟩
  | issue _ i hr hm hb hx =>
    exact .inr (.inl ⟨exec_idle_cursor (by rwa [moveTaken_busy]) hx hr hne', hb, i, clearedBy_of_mem hr, hm⟩)
  | reset _ hm => exact .inl hm

/-! ### A running command reads the latches (R55) -/

/-- An operation that neither reads ADDR, LEN and POLL_LIMIT nor writes them. -/
def IgnoresOperands (f : State → State) : Prop :=
  ∀ (a : Addr) (n : BitVec 16) (l : Word) (s : State), f (withOperands a n l s) = withOperands a n l (f s)

theorem keepNone_ignores (j : Nat) (b : Byte) : IgnoresOperands (keepNone j b) := fun _ _ _ _ => rfl

theorem keepId_ignores (j : Nat) (b : Byte) : IgnoresOperands (keepId j b) := fun a n l s => by
  unfold keepId
  split <;> rfl

theorem keepSr1_ignores (j : Nat) (b : Byte) : IgnoresOperands (keepSr1 j b) := fun _ _ _ _ => rfl

theorem keepSr2_ignores (j : Nat) (b : Byte) : IgnoresOperands (keepSr2 j b) := fun _ _ _ _ => rfl

theorem keepDbuf_ignores (j : Nat) (b : Byte) : IgnoresOperands (keepDbuf j b) := fun _ _ _ _ => rfl

theorem byteStep_ignores {keep : Nat → Byte → State → State} (hk : ∀ j b, IgnoresOperands (keep j b))
    (t : FrameTag) (marks : Bool) (f : Frame) (k : Nat) : IgnoresOperands (byteStep t marks f keep k) :=
  fun a n l s => by
    unfold byteStep
    dsimp only
    split
    · rfl
    · exact congrArg (setPos (nextByte f t k)) (hk (k - f.sent) (rx (f.tx k) s) a n l
        (exchange (f.tx k) (setPhase (if k = 0 then marked marks .transfer s.phase else s.phase) s)))

theorem dumpSinkStep_ignores : IgnoresOperands dumpSinkStep := fun a n l s => by
  have hr (d : List Byte) : sinkReply d (withOperands a n l s) = sinkReply d s := rfl
  have hw (k m : Nat) : wbufSlice (withOperands a n l s) k m = wbufSlice s k m := rfl
  unfold dumpSinkStep
  rw [hw, hr]
  split <;> rfl

theorem dumpNextChunk_ignores : IgnoresOperands dumpNextChunk := fun a n l s => by
  have hc : (withOperands a n l s).chunkIx = s.chunkIx := rfl
  unfold dumpNextChunk
  rw [hc]
  split <;> rfl

theorem dumpProgressStep_ignores : IgnoresOperands dumpProgressStep := fun a n l s =>
  dumpNextChunk_ignores a n l (emitProgress (setCursor (s.cursor.toNat + Config.chunkSize) s))

theorem uploadSourceStep_ignores : IgnoresOperands uploadSourceStep := fun a n l s => by
  have hr (m : Nat) : sourceReply (withOperands a n l s) m = sourceReply s m := rfl
  unfold uploadSourceStep
  rw [hr]
  split <;> rfl

theorem pageEndStep_ignores : IgnoresOperands pageEndStep := fun a n l s => by
  have hp : (withOperands a n l s).pageIx = s.pageIx := rfl
  unfold pageEndStep
  rw [hp]
  split <;> rfl

theorem uploadNextChunk_ignores : IgnoresOperands uploadNextChunk := fun a n l s => by
  have hc : (withOperands a n l s).chunkIx = s.chunkIx := rfl
  unfold uploadNextChunk
  rw [hc]
  split <;> rfl

theorem uploadProgressStep_ignores : IgnoresOperands uploadProgressStep := fun a n l s =>
  uploadNextChunk_ignores a n l (emitProgress (setCursor (s.chunkIx * Config.chunkSize + Config.chunkSize) s))

theorem verifySourceStep_ignores : IgnoresOperands verifySourceStep := fun a n l s => by
  have hr (m : Nat) : sourceReply (withOperands a n l s) m = sourceReply s m := rfl
  unfold verifySourceStep
  rw [hr]
  split <;> rfl

theorem verifyNextStride_ignores : IgnoresOperands verifyNextStride := fun a n l s => by
  have hc : (withOperands a n l s).strideIx = s.strideIx := rfl
  unfold verifyNextStride
  rw [hc]
  split <;> rfl

theorem verifyCompare_ignores : IgnoresOperands verifyCompare := fun a n l s => by
  have hm : firstMismatch (withOperands a n l s) = firstMismatch s := by
    simp only [firstMismatch, wbufAt_congr (s := s) (t := withOperands a n l s) rfl rfl]
  have hx : (withOperands a n l s).strideIx = s.strideIx := rfl
  have hc (c : Nat) : setCursor c (withOperands a n l s) = withOperands a n l (setCursor c s) := rfl
  have hcur (u : State) : (withOperands a n l u).cursor = u.cursor := rfl
  unfold verifyCompare
  rw [hm, hx]
  split
  · rfl
  · dsimp only
    rw [hc, hcur, verifyNextStride_ignores]
    split <;> rfl

theorem verifyCompareStep_ignores : IgnoresOperands verifyCompareStep := fun a n l s =>
  verifyCompare_ignores a n l (assignSourced Config.halfSize s)

section Operands

variable (a : Addr) (n : BitVec 16) (l : Word)

theorem seqFrame_withOperands {keep : Nat → Byte → State → State}
    (hk : ∀ j b, IgnoresOperands (keep j b)) (f : Frame) (s : State) :
    seqFrame f keep (withOperands a n l s) = mapNext (withOperands a n l) (seqFrame f keep s) := by
  have hp : (withOperands a n l s).pos = s.pos := rfl
  unfold seqFrame
  rw [hp]
  split
  case h_2 => exact congrArg _ (byteStep_ignores hk _ _ f _ a n l s)
  all_goals rfl

theorem seqReadId_withOperands (s : State) :
    seqReadId (withOperands a n l s) = mapNext (withOperands a n l) (seqReadId s) := by
  have hp : (withOperands a n l s).pos = s.pos := rfl
  unfold seqReadId
  rw [hp]
  split
  case h_2 => exact congrArg _ (byteStep_ignores keepId_ignores _ _ _ _ a n l s)
  case h_5 => exact congrArg _ (byteStep_ignores keepSr1_ignores _ _ _ _ a n l s)
  case h_8 => exact congrArg _ (byteStep_ignores keepSr2_ignores _ _ _ _ a n l s)
  all_goals rfl

theorem seqWaitReady_withOperands (s : State) :
    seqWaitReady (withOperands a n l s) = mapNext (withOperands a n l) (seqWaitReady s) := by
  have hp : (withOperands a n l s).pos = s.pos := rfl
  unfold seqWaitReady
  rw [hp]
  split <;> rfl

theorem seqDump_withOperands (s : State) :
    seqDump (withOperands a n l s) = mapNext (withOperands a n l) (seqDump s) := by
  have hp : (withOperands a n l s).pos = s.pos := rfl
  unfold seqDump
  rw [hp]
  split
  case h_4 => exact congrArg _ (dumpSinkStep_ignores a n l s)
  case h_5 => exact congrArg _ (dumpProgressStep_ignores a n l s)
  all_goals rfl

theorem seqUpload_withOperands (s : State) :
    seqUpload (withOperands a n l s) = mapNext (withOperands a n l) (seqUpload s) := by
  have hp : (withOperands a n l s).pos = s.pos := rfl
  have hf : pageFrame (withOperands a n l s) = pageFrame s := rfl
  unfold seqUpload
  rw [hp]
  split
  case h_2 | h_5 | h_13 => exact congrArg _ (byteStep_ignores keepNone_ignores _ _ _ _ a n l s)
  case h_16 =>
    rw [hf]
    exact congrArg _ (byteStep_ignores keepNone_ignores _ _ _ _ a n l s)
  case h_11 => exact congrArg _ (uploadSourceStep_ignores a n l s)
  case h_21 => exact congrArg _ (pageEndStep_ignores a n l s)
  case h_22 => exact congrArg _ (uploadProgressStep_ignores a n l s)
  all_goals rfl

theorem seqVerify_withOperands (s : State) :
    seqVerify (withOperands a n l s) = mapNext (withOperands a n l) (seqVerify s) := by
  have hp : (withOperands a n l s).pos = s.pos := rfl
  unfold seqVerify
  rw [hp]
  split
  case h_4 => exact congrArg _ (verifySourceStep_ignores a n l s)
  case h_5 => exact congrArg _ (verifyCompareStep_ignores a n l s)
  case h_7 => exact congrArg _ (verifyNextStride_ignores a n l (emitProgress s))
  all_goals rfl

theorem seqOf_withOperands (i : Instr) (s : State) :
    seqOf i (withOperands a n l s) = mapNext (withOperands a n l) (seqOf i s) := by
  have hp : (withOperands a n l s).pos = s.pos := rfl
  cases i with
  | rdid => exact seqFrame_withOperands a n l keepId_ignores _ s
  | rdsr1 => exact seqFrame_withOperands a n l keepSr1_ignores _ s
  | rdsr2 => exact seqFrame_withOperands a n l keepSr2_ignores _ s
  | read => exact seqFrame_withOperands a n l keepDbuf_ignores (readFrame s) s
  | wren | wrdi | ce => exact seqFrame_withOperands a n l keepNone_ignores _ s
  | pp => exact seqFrame_withOperands a n l keepNone_ignores (programFrame s) s
  | select | exchange b | deselect =>
    simp only [seqOf, seqSelect, seqExchange, seqDeselect, hp]
    split <;> rfl
  | waitReady => exact seqWaitReady_withOperands a n l s
  | readId => exact seqReadId_withOperands a n l s
  | dump => exact seqDump_withOperands a n l s
  | upload => exact seqUpload_withOperands a n l s
  | verify => exact seqVerify_withOperands a n l s

end Operands

/-- Settles O53: no primitive of any command reads ADDR, LEN or POLL_LIMIT. -/
theorem runningCommandReadsLatches : Obligations.RunningCommandReadsLatches := by
  intro i s a n l hb
  rw [exec_busy hb, exec_busy (s := withOperands a n l s) hb, seqOf_withOperands]

/-! ### The issue checks (R303) -/

/-- The checks of a command are those of R302's list. -/
theorem refuseOf_eq_issueCause (i : Instr) (s : State) : refuseOf i s = issueCause i s := by
  have hlow : (s.addr.extractLsb' 0 8).toNat = s.addr.toNat % 256 := by
    simp [BitVec.extractLsb'_toNat]
  cases i with
  | read =>
    have h256 : Config.pageSize = 256 := rfl
    simp [refuseOf, refuseRead, issueCause, isTransport, h256]
  | pp => simp [refuseOf, refuseProgram, issueCause, isTransport, Config.pageSize, hlow]
  | exchange b => cases hc : s.cs <;> simp [refuseOf, refuseExchange, issueCause, isTransport, hc]
  | _ => simp [refuseOf, refuseNever, refuseComposite, issueCause, isTransport]

theorem cs_of_issueCause {i : Instr} {s : State} (hi : isTransport i = false) (h : issueCause i s = none) :
    s.cs = false := by
  by_contra hc
  rw [issueCause, if_pos ⟨hi, Bool.eq_true_of_not_eq_false hc⟩] at h
  cases h

/-! ### STATE and CS through the steps of a frame (R41, R180) -/

/-- Where a running command stands, with STATE and CS; `len` is L_LEN, which the length of its frame reads. -/
structure Stands (len : BitVec 16) (p : Pos) (ph : Phase) (c : Bool) (s : State) : Prop where
  busy : s.busy = true
  len : s.lLen = len
  pos : s.pos = p
  phase : s.phase = ph
  cs : s.cs = c

/-- After `k` steps of command `i` from `s` it stands there. -/
def Reaches (i : Instr) (s : State) (len : BitVec 16) (k : Nat) (p : Pos) (ph : Phase) (c : Bool) : Prop :=
  ∃ t, execN i k s = .next t ∧ Stands len p ph c t

section Reach

variable {i : Instr} {s : State} {len : BitVec 16} {k : Nat} {p q : Pos} {ph ph' : Phase} {c c' : Bool}

theorem Reaches.state (h : Reaches i s len k p ph c) :
    ∃ t, execN i k s = .next t ∧ t.phase = ph ∧ t.busy = true ∧ t.cs = c := by
  obtain ⟨t, hx, S⟩ := h
  exact ⟨t, hx, S.phase, S.busy, S.cs⟩

/-- One more step. -/
theorem execN_snoc {t u : State} (h : execN i k s = .next t) (hx : exec i t = .next u) :
    execN i (k + 1) s = .next u := by
  rw [execN_add 1 h]
  exact execN_succ 0 hx

theorem Reaches.step (h : Reaches i s len k p ph c)
    (hs : ∀ u, Stands len p ph c u → ∃ v, exec i u = .next v ∧ Stands len q ph' c' v) :
    Reaches i s len (k + 1) q ph' c' := by
  obtain ⟨t, ht, S⟩ := h
  obtain ⟨v, hv, S'⟩ := hs t S
  exact ⟨v, execN_snoc ht hv, S'⟩

/-- An accepted command stands at its first primitive, STATE = START (R302). -/
theorem reaches_accepted (hb : s.busy = false) (h : issueCause i s = none) :
    Reaches i s s.len 1 (firstPos i) .start s.cs := by
  have hr : refuseOf i (recordCommand (encode i) s) = none := by
    rw [refuseOf_eq_issueCause]
    exact h
  have hx := exec_idle (i := i) hb
  rw [issue_accepted hr] at hx
  obtain ⟨x, e⟩ := initOf_eq i (recordCommand (encode i) s)
  rw [e] at hx
  exact ⟨_, execN_succ 0 hx, rfl, rfl, rfl, rfl, rfl⟩

/-- `Finish()` of a command that stands there (R305). -/
theorem Reaches.finish (h : Reaches i s len k .finish ph c)
    (hf : ∀ u, u.busy = true → u.pos = .finish → exec i u = .next (Machine.finish u)) :
    ∃ t, execN i (k + 1) s = .next t ∧ t.phase = .idle ∧ t.busy = false ∧ t.cs = c ∧ t.done = true := by
  obtain ⟨t, ht, S⟩ := h
  exact ⟨_, execN_snoc ht (hf t S.busy S.pos), rfl, rfl, S.cs, rfl⟩

end Reach

/-- The SEQ primitives of a SendFrame of `n` bytes with its STATE markers are among the command's (R180). -/
structure SendsFrame (i : Instr) (len : BitVec 16) (t : FrameTag) (n : Nat) (after : Pos) : Prop where
  pos : 0 < n
  select : ∀ s, s.busy = true → s.lLen = len → s.pos = .select t → exec i s = .next (selectStep t s)
  byte : ∀ s k, s.busy = true → s.lLen = len → s.pos = .byte t k →
    ∃ f keep, RegisterKeep keep ∧ f.size = n ∧ exec i s = .next (byteStep t true f keep k s)
  deselect : ∀ s, s.busy = true → s.lLen = len → s.pos = .deselect t → exec i s = .next (deselectStep true after s)

section SendFrame

variable {i : Instr} {s : State} {len : BitVec 16} {k n : Nat} {t : FrameTag} {after : Pos} {ph : Phase}

/-- A frame byte leads to the next one or to the Deselect, STATE = TRANSFER from the opcode byte on. -/
theorem SendsFrame.byte_stands (F : SendsFrame i len t n after) {j : Nat} (h0 : 0 < j → ph = .transfer) {u : State}
    (S : Stands len (.byte t j) ph true u) :
    ∃ v, exec i u = .next v ∧ Stands len (if j + 1 < n then .byte t (j + 1) else .deselect t) .transfer true v := by
  obtain ⟨f, keep, hk, rfl, hx⟩ := F.byte u j S.busy S.len S.pos
  have hphase : bytePhase true j u.phase = .transfer := by
    rcases Nat.eq_zero_or_pos j with rfl | hj
    · rfl
    · rw [bytePhase, if_neg (Nat.ne_of_gt hj), S.phase, h0 hj]
  obtain ⟨x, e⟩ := byteStep_eq hk t true f j u
  rw [e, hphase] at hx
  exact ⟨_, hx, S.busy, S.len, rfl, rfl, S.cs⟩

/-- A frame from its `Select()`: STATE and CS at the first byte, after each byte, and after the Deselect. -/
theorem SendsFrame.run (F : SendsFrame i len t n after) (h : Reaches i s len k (.select t) ph false) :
    Reaches i s len (k + 1) (.byte t 0) ph true ∧
      (∀ j, 1 ≤ j → j ≤ n →
        Reaches i s len (k + 1 + j) (if j < n then .byte t j else .deselect t) .transfer true) ∧
      Reaches i s len (k + 2 + n) after .finish false := by
  have hsel : Reaches i s len (k + 1) (.byte t 0) ph true :=
    h.step fun u S => ⟨_, F.select u S.busy S.len S.pos, S.busy, S.len, rfl, S.phase, rfl⟩
  have hbytes : ∀ j, 1 ≤ j → j ≤ n →
      Reaches i s len (k + 1 + j) (if j < n then .byte t j else .deselect t) .transfer true := by
    intro j h1
    induction j, h1 using Nat.le_induction with
    | base => exact fun _ => hsel.step fun u S => F.byte_stands (j := 0) nofun S
    | succ j hj ih =>
      intro hn
      have hprev := ih (by omega)
      rw [if_pos (by omega)] at hprev
      exact hprev.step fun u S => F.byte_stands (fun _ => rfl) S
  have hlast := hbytes n F.pos le_rfl
  rw [if_neg (Nat.lt_irrefl n), Nat.add_right_comm] at hlast
  refine ⟨hsel, hbytes, ?_⟩
  rw [Nat.add_right_comm]
  exact hlast.step fun u S => ⟨_, F.deselect u S.busy S.len S.pos, S.busy, S.len, rfl, rfl, rfl⟩

end SendFrame

/-! The single-frame commands. -/

theorem frameF2_size (op : Byte) (a : Addr) (k : Nat) : (frameF2 op a k).size = 4 + k := by
  simp [Frame.size, Frame.sent, Frame.header, frameF2]

/-- The length of a command's frame on MOSI is that of its SendFrame, which reads L_LEN (R127). -/
theorem frameOf_of_frameTx {i : Instr} {s u : State} {tx : List Byte} (h : frameTx i s = some tx)
    (hl : u.lLen = s.len) : ∃ f keep, frameOf i u = some (f, keep) ∧ f.size = tx.length := by
  cases i <;> simp only [frameTx, Option.some.injEq, reduceCtorEq] at h <;> subst h <;> refine ⟨_, _, rfl, ?_⟩
  case read => simp [readFrame, frameF2_size, hl, addrBytes]; omega
  case pp => simp [programFrame, frameF3_size, hl, addrBytes]; omega
  all_goals rfl

/-- A primitive of a single-frame command is one of its SendFrame or `Finish()` (R180). -/
theorem exec_frame {i : Instr} {u : State} {f : Frame} {keep : Nat → Byte → State → State} (hb : u.busy = true)
    (hf : frameOf i u = some (f, keep)) : exec i u = seqFrame f keep u := by
  rw [exec_busy hb]
  cases i <;> simp only [frameOf, Option.some.injEq, Prod.mk.injEq, reduceCtorEq] at hf <;>
    obtain ⟨rfl, rfl⟩ := hf <;> rfl

theorem frameTx_sends {i : Instr} {s : State} {tx : List Byte} (h : frameTx i s = some tx) :
    SendsFrame i s.len .own tx.length .finish where
  pos := by
    obtain ⟨f, -, -, hs⟩ := frameOf_of_frameTx (u := { s with lLen := s.len }) h rfl
    exact hs ▸ f.size_pos
  select := fun u hb hl hp => by
    obtain ⟨f, keep, hf, -⟩ := frameOf_of_frameTx h hl
    rw [exec_frame hb hf]
    simp only [seqFrame, hp]
  byte := fun u k hb hl hp => by
    obtain ⟨f, keep, hf, hs⟩ := frameOf_of_frameTx h hl
    refine ⟨f, keep, frameOf_register hf, hs, ?_⟩
    rw [exec_frame hb hf]
    simp only [seqFrame, hp]
  deselect := fun u hb hl hp => by
    obtain ⟨f, keep, hf, -⟩ := frameOf_of_frameTx h hl
    rw [exec_frame hb hf]
    simp only [seqFrame, hp]

/-- Every command's `Finish()` (R305). -/
theorem exec_finish {i : Instr} {s : State} (hb : s.busy = true) (hp : s.pos = .finish) :
    exec i s = .next (finish s) := by
  rw [exec_busy hb]
  cases i <;> simp only [seqOf, frameOf, seqFrame, seqSelect, seqExchange, seqDeselect, seqWaitReady, seqReadId,
    seqDump, seqUpload, seqVerify, hp]

theorem frameTx_first {i : Instr} {s : State} {tx : List Byte} (h : frameTx i s = some tx) :
    firstPos i = .select .own ∧ isTransport i = false := by
  cases i <;> simp only [frameTx, reduceCtorEq] at h <;> exact ⟨rfl, rfl⟩

/-- STATE and CS through an accepted FRAME-class command (R41, R180, R197). -/
theorem frame_phases {i : Instr} {s : State} {tx : List Byte} (htx : frameTx i s = some tx) (hb : s.busy = false)
    (hi : issueCause i s = none) :
    (∃ t, execN i 1 s = .next t ∧ t.phase = .start ∧ t.busy = true ∧ t.cs = false) ∧
    (∃ t, execN i 2 s = .next t ∧ t.phase = .start ∧ t.busy = true ∧ t.cs = true) ∧
    (∀ j, 1 ≤ j → j ≤ tx.length →
      ∃ t, execN i (2 + j) s = .next t ∧ t.phase = .transfer ∧ t.busy = true ∧ t.cs = true) ∧
    (∃ t, execN i (3 + tx.length) s = .next t ∧ t.phase = .finish ∧ t.busy = true ∧ t.cs = false) ∧
    ∃ t, execN i (4 + tx.length) s = .next t ∧ t.phase = .idle ∧ t.busy = false ∧ t.cs = false ∧
      t.done = true := by
  obtain ⟨hfirst, htr⟩ := frameTx_first htx
  have h1 := reaches_accepted hb hi
  rw [hfirst, cs_of_issueCause htr hi] at h1
  obtain ⟨h2, hbytes, hlast⟩ := (frameTx_sends htx).run h1
  have hend := hlast.finish fun _ => exec_finish
  rw [Nat.add_right_comm] at hend
  exact ⟨h1.state, h2.state, fun j hj hn => (hbytes j hj hn).state, hlast.state, hend⟩

/-! READ_ID. -/

theorem readId_sends_ident (len : BitVec 16) : SendsFrame .readId len .ident 4 (.select .status1) where
  pos := by decide
  select := fun u hb _ hp => by rw [exec_busy hb]; simp only [seqOf, seqReadId, hp]
  byte := fun u k hb _ hp =>
    ⟨frameF1 0x9F 3, keepId, keepId_register, rfl, by rw [exec_busy hb]; simp only [seqOf, seqReadId, hp]⟩
  deselect := fun u hb _ hp => by rw [exec_busy hb]; simp only [seqOf, seqReadId, hp]

theorem readId_sends_status1 (len : BitVec 16) : SendsFrame .readId len .status1 2 (.select .status2) where
  pos := by decide
  select := fun u hb _ hp => by rw [exec_busy hb]; simp only [seqOf, seqReadId, hp]
  byte := fun u k hb _ hp =>
    ⟨frameF1 0x05 1, keepSr1, keepSr1_register, rfl, by rw [exec_busy hb]; simp only [seqOf, seqReadId, hp]⟩
  deselect := fun u hb _ hp => by rw [exec_busy hb]; simp only [seqOf, seqReadId, hp]

theorem readId_sends_status2 (len : BitVec 16) : SendsFrame .readId len .status2 2 .finish where
  pos := by decide
  select := fun u hb _ hp => by rw [exec_busy hb]; simp only [seqOf, seqReadId, hp]
  byte := fun u k hb _ hp =>
    ⟨frameF1 0x35 1, keepSr2, keepSr2_register, rfl, by rw [exec_busy hb]; simp only [seqOf, seqReadId, hp]⟩
  deselect := fun u hb _ hp => by rw [exec_busy hb]; simp only [seqOf, seqReadId, hp]

/-- STATE and CS through an accepted READ_ID (R41, R240; log 11). -/
theorem readId_phases {s : State} (hb : s.busy = false) (hc : s.cs = false) :
    (∀ (k : Nat) (p : Phase) (c : Bool),
      (k, p, c) ∈ [(1, .start, false), (2, .start, true), (3, .transfer, true), (4, .transfer, true),
        (5, .transfer, true), (6, .transfer, true), (7, .finish, false), (8, .finish, true),
        (9, .transfer, true), (10, .transfer, true), (11, .finish, false), (12, .finish, true),
        (13, .transfer, true), (14, .transfer, true), (15, .finish, false)] →
      ∃ t, execN .readId k s = .next t ∧ t.phase = p ∧ t.cs = c ∧ t.busy = true) ∧
    ∃ t, execN .readId 16 s = .next t ∧ t.phase = .idle ∧ t.cs = false ∧ t.busy = false ∧ t.done = true := by
  have h1 := reaches_accepted (i := .readId) hb (by simp [issueCause, isTransport, hc])
  rw [hc] at h1
  obtain ⟨h2, hident, h7⟩ := (readId_sends_ident s.len).run h1
  obtain ⟨h8, hstatus1, h11⟩ := (readId_sends_status1 s.len).run h7
  obtain ⟨h12, hstatus2, h15⟩ := (readId_sends_status2 s.len).run h11
  have state {k : Nat} {q : Pos} {p : Phase} {c : Bool} (h : Reaches .readId s s.len k q p c) :
      ∃ t, execN .readId k s = .next t ∧ t.phase = p ∧ t.cs = c ∧ t.busy = true := by
    obtain ⟨t, hx, hp, hb, hc⟩ := h.state
    exact ⟨t, hx, hp, hc, hb⟩
  constructor
  · intro k p c hmem
    simp only [List.mem_cons, List.not_mem_nil, or_false, Prod.mk.injEq] at hmem
    rcases hmem with ⟨rfl, rfl, rfl⟩ | ⟨rfl, rfl, rfl⟩ | ⟨rfl, rfl, rfl⟩ | ⟨rfl, rfl, rfl⟩ | ⟨rfl, rfl, rfl⟩ |
      ⟨rfl, rfl, rfl⟩ | ⟨rfl, rfl, rfl⟩ | ⟨rfl, rfl, rfl⟩ | ⟨rfl, rfl, rfl⟩ | ⟨rfl, rfl, rfl⟩ | ⟨rfl, rfl, rfl⟩ |
      ⟨rfl, rfl, rfl⟩ | ⟨rfl, rfl, rfl⟩ | ⟨rfl, rfl, rfl⟩ | ⟨rfl, rfl, rfl⟩
    · exact state h1
    · exact state h2
    · exact state (hident 1 (by decide) (by decide))
    · exact state (hident 2 (by decide) (by decide))
    · exact state (hident 3 (by decide) (by decide))
    · exact state (hident 4 (by decide) (by decide))
    · exact state h7
    · exact state h8
    · exact state (hstatus1 1 (by decide) (by decide))
    · exact state (hstatus1 2 (by decide) (by decide))
    · exact state h11
    · exact state h12
    · exact state (hstatus2 1 (by decide) (by decide))
    · exact state (hstatus2 2 (by decide) (by decide))
    · exact state h15
  · obtain ⟨t, hx, hp, hb, hc, hd⟩ := h15.finish fun _ => exec_finish
    exact ⟨t, hx, hp, hc, hb, hd⟩

/-! WAIT_READY. -/

/-- Fewer samples of a poll whose samples are all busy are busy too. -/
theorem allBusy_mono {s : State} (hc : s.cs = false) {m n : Nat} (hm : m ≤ n) (h : allBusy n s) : allBusy m s := by
  rw [allBusy_iff .own true hc] at h ⊢
  obtain ⟨d, rfl⟩ := Nat.exists_eq_add_of_le hm
  rw [List.replicate_add, heardFrom_append] at h
  exact fun b hb => h b (List.mem_append_left _ hb)

/-- An accepted WAIT_READY: its poll begins with the limit latched and the chip as it was (R221, R302). -/
theorem waitReady_accepted {s : State} (hb : s.busy = false) (hc : s.cs = false) :
    ∃ u, exec .waitReady s = .next u ∧ Stands s.len (.select .own) .start false u ∧ u.lLimit = s.pollLimit ∧
      u.flash = s.flash ∧ u.events = s.events ∧ u.draws = s.draws := by
  have hr : refuseOf .waitReady (recordCommand (encode .waitReady) s) = none := by
    simp [refuseOf, refuseComposite, hc]
  have hx := exec_idle (i := .waitReady) hb
  rw [issue_accepted hr] at hx
  exact ⟨_, hx, ⟨rfl, rfl, rfl, rfl, hc⟩, rfl, rfl, rfl, rfl⟩

/-- While a poll with the STATE markers takes samples STATE is TRANSFER and the frame is open (R220). -/
theorem polled_stands {len : BitVec 16} {q : Pos} {ph : Phase} {c : Bool} (m : Nat) (p : Pos) {u : State}
    (S : Stands len q ph c u) : Stands len p .transfer true (setPos p (polled m (pollBegun .own true u))) := by
  constructor <;> simp [polled, exchanged, pollBegun, pollOpcodeStep, selectStep, marked, S.busy, S.len]

theorem exec_waitReadyEnd {s : State} (hb : s.busy = true) (hp : s.pos = .deselect .own) :
    exec .waitReady s = .next (pollEndStep true .finish s) := by
  rw [exec_busy hb]
  simp only [seqOf, seqWaitReady, hp]

/-- STATE and CS through an accepted WAIT_READY (R41, R220, R221; log 15). -/
theorem waitReady_phases {n : Nat} {s : State} (hb : s.busy = false) (hc : s.cs = false)
    (hl : s.pollLimit = 0 ∨ n ≤ s.pollLimit.toNat) (h : allBusy n s) :
    (∃ t, execN .waitReady 1 s = .next t ∧ t.phase = .start ∧ t.busy = true ∧ t.cs = false) ∧
    (∃ t, execN .waitReady 2 s = .next t ∧ t.phase = .start ∧ t.busy = true ∧ t.cs = true) ∧
    (∀ j, j ≤ n → ∃ t, execN .waitReady (3 + j) s = .next t ∧ t.phase = .transfer ∧ t.busy = true ∧ t.cs = true) ∧
    (s.pollLimit = 0 ∨ n < s.pollLimit.toNat →
      (response (pollTx (n + 1)) s (n + 1)).getLsbD 0 = false →
      (∃ t, execN .waitReady (n + 4) s = .next t ∧ t.phase = .transfer ∧ t.busy = true ∧ t.cs = true) ∧
      (∃ t, execN .waitReady (n + 5) s = .next t ∧ t.phase = .finish ∧ t.busy = true ∧ t.cs = false) ∧
      ∃ t, execN .waitReady (n + 6) s = .next t ∧ t.phase = .idle ∧ t.busy = false ∧ t.cs = false ∧
        t.done = true) := by
  obtain ⟨u, hx, S, hlim, hflash, hev, hdr⟩ := waitReady_accepted hb hc
  rw [← response_congr hflash hev hdr]
  rw [← allBusy_congr hflash hev hdr] at h
  rw [← hlim] at hl ⊢
  have h1 : Reaches .waitReady s s.len 1 (.select .own) .start false := ⟨u, execN_succ 0 hx, S⟩
  have h2 : Reaches .waitReady s s.len 2 (.byte .own 0) .start true :=
    h1.step fun v S => ⟨_, waitReady_polls.select v S.busy S.pos, S.busy, S.len, rfl, S.phase, rfl⟩
  have h3 : Reaches .waitReady s s.len 3 (.sample .own) .transfer true :=
    h2.step fun v S => ⟨_, waitReady_polls.opcode v S.busy S.pos, S.busy, S.len, rfl, rfl, S.cs⟩
  refine ⟨h1.state, h2.state, fun j hj => ?_, fun hlt hr => ?_⟩
  · cases j with
    | zero => exact h3.state
    | succ m =>
      have hstep := poll_step waitReady_polls S.busy S.pos S.cs (n := m) (hl.imp_right (by omega))
        (allBusy_mono S.cs (by omega) h)
      have hrun : Reaches .waitReady s s.len (m + 3 + 1) _ .transfer true :=
        ⟨_, (execN_succ _ hx).trans hstep, polled_stands (m + 1) _ S⟩
      rw [show 3 + (m + 1) = m + 3 + 1 by omega]
      exact hrun.state
  · have hready := poll_ready waitReady_polls S.busy S.pos S.cs hlt h hr
    have h4 : Reaches .waitReady s s.len (n + 3 + 1) (.deselect .own) .transfer true :=
      ⟨_, (execN_succ _ hx).trans hready, polled_stands (n + 1) _ S⟩
    have h5 : Reaches .waitReady s s.len (n + 3 + 1 + 1) .finish .finish false :=
      h4.step fun v S => ⟨_, exec_waitReadyEnd S.busy S.pos, S.busy, S.len, rfl, rfl, rfl⟩
    exact ⟨h4.state, h5.state, h5.finish fun _ => exec_finish⟩

/-- Settles O33: a SendFrame with its markers, three of them, and a poll. -/
theorem singleFramePhases : Obligations.SingleFramePhases :=
  ⟨fun _ _ _ htx hb hi => frame_phases htx hb hi, fun _ hb hc => readId_phases hb hc,
    fun _ _ hb hc hl h => waitReady_phases hb hc hl h⟩

end Sys2Proof.Machine
end

section
/-! PROOFS. The statements of the interfaces (20_memory.md): refused and free moves, host writes while a command runs,
DBUF, what a step adds to the event history, VERIFY's short source, and the reference chip FREF. -/

namespace Sys2Proof.Machine

/-! ### Moves that are not named, and moves that are not admitted (R90, R95) -/

/-- Settles O6: a drawn move is taken as a named one is, with one draw more. -/
theorem unnamedMoveIsFree : Obligations.UnnamedMoveIsFree := by
  intro s hm
  generalize ht : { s with moves := [admitted (Config.nextMove s.draws)], draws := s.draws + 1 } = t
  have hnamed : t.moves = [admitted (Config.nextMove s.draws)] := by rw [← ht]
  have htaken : moveTaken s = setMoves [] t := by
    rw [← ht]
    apply State.ext <;> simp [moveTaken, hm]
  have hnext : nextMove s = admitted (Config.nextMove s.draws) := by rw [nextMove, hm]
  rw [step_of_move hnamed, step, fetch, hnext, htaken]

theorem gate_narrow {width : AccessWidth} (h : width ≠ .word) (off : BitVec 12) (f : Fetched) :
    gate width off f = .stop (.refused .hostAccessNarrow) := if_pos h

theorem gate_misaligned {off : BitVec 12} (h : off.toNat % 4 ≠ 0) (f : Fetched) :
    gate .word off f = .stop (.refused .hostAccessMisaligned) := by simp [gate, h]

/-- A host access asks for nothing but what passes the gate of its width and offset. -/
theorem step_of_hostAccess {s : State} {ms : List Move} {width : AccessWidth} {off : BitVec 12} {w : Word}
    (h : s.moves = .hostRead width off :: ms ∨ s.moves = .hostWrite width off w :: ms) :
    ∃ f, step s = runFetched (gate width off f) := by
  rcases h with h | h <;> exact ⟨_, step_of_move h⟩

/-- Settles O12: the gate refuses the access, narrow before misaligned. -/
theorem otherHostAccessesRefused : Obligations.OtherHostAccessesRefused := by
  intro s ms width off w hm
  obtain ⟨f, hf⟩ := step_of_hostAccess hm
  rw [hf]
  refine ⟨fun hw => ?_, ?_⟩
  · rw [gate_narrow hw]
    rfl
  · rintro rfl h4
    rw [gate_misaligned h4]
    rfl

/-! ### Host writes while a command runs (R55, R89, R99) -/

/-- `s` with the fields a host write reaches while a command runs as `t` has them: ADDR, LEN, POLL_LIMIT, IRQ_EN and
the flags of STATUS with CAUSE. -/
def withHostFields (t s : State) : State :=
  { s with
    addr := t.addr, len := t.len, pollLimit := t.pollLimit, doneIe := t.doneIe, errIe := t.errIe, rejIe := t.rejIe
    done := t.done, err := t.err, cause := t.cause, cmdRej := t.cmdRej }

theorem writeReg_busy_frame {s : State} (hb : s.busy = true) (r : HostReg) (w : Word) :
    writeReg r w s = withHostFields (writeReg r w s) s := by
  cases r with
  | dbuf j =>
    have hsame : writeReg (.dbuf j) w s = s := if_pos hb
    rw [hsame]
    rfl
  | _ => rfl

/-- Settles O54: a CMD write is dropped, and any other write reaches the host's fields alone. -/
theorem hostWriteLeavesTheCommand : Obligations.HostWriteLeavesTheCommand := by
  intro s ms off w hb h4 hm
  have hbusy : (setMoves ms s).busy = true := hb
  rw [step_of_move hm, fetchMove, gate_aligned h4]
  by_cases hcmd : hostReg off = .cmd
  · refine ⟨dropCommand (setMoves ms s), ?_, rfl⟩
    rw [if_pos hcmd, fetchCommand, if_pos hbusy]
    rfl
  · rw [if_neg hcmd]
    exact ⟨_, rfl, writeReg_busy_frame hbusy (hostReg off) w⟩

/-! ### DBUF words (R89) -/

/-- Word `j` of DBUF stands at offset 0x100 + 4j, an aligned one. -/
theorem toNat_dbufOffset {j : Nat} (h : j < 64) : (BitVec.ofNat 12 (0x100 + 4 * j)).toNat = 0x100 + 4 * j := by
  rw [BitVec.toNat_ofNat]
  omega

theorem dbufOffset_aligned {j : Nat} (h : j < 64) : (BitVec.ofNat 12 (0x100 + 4 * j)).toNat % 4 = 0 := by
  rw [toNat_dbufOffset h]
  omega

theorem hostReg_dbufOffset {j : Nat} (h : j < 64) : hostReg (BitVec.ofNat 12 (0x100 + 4 * j)) = .dbuf j := by
  unfold hostReg
  rw [toNat_dbufOffset h]
  split
  case h_15 =>
    rw [if_pos (by omega)]
    congr 1
    omega
  all_goals omega

/-- Byte `k` of a word in numbers (R83). -/
theorem wordByte_eq_ofNat (w : Word) (k : Nat) : wordByte w k = BitVec.ofNat 8 (w.toNat / 0x100 ^ k) := by
  apply BitVec.eq_of_toNat_eq
  rw [wordByte, BitVec.extractLsb'_toNat, Nat.shiftRight_eq_div_pow, BitVec.toNat_ofNat, Nat.pow_mul]

/-- A word written to DBUF sets its four bytes, the low one first, and no other (R83, R89). -/
theorem dbufAt_setDbufWord (j : Nat) (w : Word) (s : State) (x : Nat) :
    dbufAt (setDbufWord j w s) x =
      if 4 * j ≤ x ∧ x < 4 * j + 4 then wordByte w (x - 4 * j) else dbufAt s x := by
  simp only [setDbufWord, dbufAt_setDbuf]
  by_cases hx : 4 * j ≤ x ∧ x < 4 * j + 4
  · obtain ⟨k, rfl⟩ := Nat.exists_eq_add_of_le hx.1
    have hk : k < 4 := by omega
    rw [if_pos hx, Nat.add_sub_cancel_left]
    interval_cases k <;> simp
  · rw [if_neg hx, if_neg (by omega), if_neg (by omega), if_neg (by omega), if_neg (by omega)]

/-- A word of DBUF written while BUSY = 0 changes DBUF alone. -/
theorem setDbufWord_eq (j : Nat) (w : Word) (s : State) :
    setDbufWord j w s = { s with dbuf := (setDbufWord j w s).dbuf } := by
  apply State.ext <;> simp [setDbufWord]

/-- A write of DBUF's word `j` is a register write that BUSY = 1 makes void. -/
theorem step_dbufWrite {s : State} {ms : List Move} {j : Nat} {w : Word} (hj : j < 64)
    (hm : s.moves = .hostWrite .word (BitVec.ofNat 12 (0x100 + 4 * j)) w :: ms) :
    step s = .next (if s.busy then setMoves ms s else setDbufWord j w (setMoves ms s)) := by
  rw [step_of_move hm, fetchMove, gate_aligned (dbufOffset_aligned hj), hostReg_dbufOffset hj, if_neg nofun]
  rfl

/-- Settles O57: DBUF's word stands at its offset, its read packs the four bytes and its write sets them. -/
theorem dbufAccess : Obligations.DbufAccess := by
  intro s ms j w hj
  refine ⟨fun hm => ?_, fun hm => ⟨fun hb => ?_, fun hb => ?_⟩⟩
  · rw [step_of_move hm, fetchMove, gate_aligned (dbufOffset_aligned hj), hostRead, hostReg_dbufOffset hj]
    rfl
  · refine ⟨setDbufWord j w (setMoves ms s), ?_, setDbufWord_eq j w _, fun k hk => ?_, fun x hx => ?_⟩
    · rw [step_dbufWrite hj hm, hb, if_neg Bool.false_ne_true]
    · rw [dbufAt_setDbufWord, if_pos (by omega), Nat.add_sub_cancel_left, wordByte_eq_ofNat]
    · rw [dbufAt_setDbufWord, if_neg (by omega)]
      rfl
  · rw [step_dbufWrite hj hm, if_pos hb]

/-! ### What a step adds to the event history (R85, R91, R344, R345) -/

/-- A history that has grown by one event at most, and by no release without the bus-idle wait. -/
inductive Grown (l : List BusEvent) : List BusEvent → Prop where
  | silent : Grown l l
  | event (e : BusEvent) (he : e ≠ .deselect false) : Grown l (l ++ [e])

/-- What has been added, as a list. -/
theorem Grown.suffix {l l' : List BusEvent} (h : Grown l l') :
    ∃ m, l' = l ++ m ∧ m.length ≤ 1 ∧ .deselect false ∉ m := by
  cases h with
  | silent => exact ⟨[], by simp, by simp, by simp⟩
  | event e he => exact ⟨[e], rfl, by simp, by simpa using he.symm⟩

section Growth

variable (s : State)

/-! The port primitives. A step that adds to them a position, a phase or a register has the same history. -/

theorem select_grown : Grown s.events (select s).events := by
  rw [select_events]
  split
  · exact .silent
  · exact .event _ nofun

theorem exchange_grown (tx : Byte) : Grown s.events (exchange tx s).events := .event _ nofun

theorem deselect_grown : Grown s.events (deselect true s).events := by
  rw [deselect_events]
  split
  · exact .event _ nofun
  · exact .silent

theorem sourceRead_grown (n : Nat) (ok : Bool) (d : List Byte) : Grown s.events (sourceRead n ok d s).events :=
  .event _ nofun

theorem sinkWrite_grown (d : List Byte) (ok : Bool) : Grown s.events (sinkWrite d ok s).events := .event _ nofun

theorem emitProgress_grown : Grown s.events (emitProgress s).events := .event _ nofun

/-! The steps of frames and sweeps. -/

theorem byteStep_grown {keep : Nat → Byte → State → State} (hk : RegisterKeep keep) (t : FrameTag) (marks : Bool)
    (f : Frame) (k : Nat) : Grown s.events (byteStep t marks f keep k s).events := by
  obtain ⟨x, e⟩ := byteStep_eq hk t marks f k s
  rw [e]
  exact exchange_grown _ (f.tx k)

theorem dumpSinkStep_grown : Grown s.events (dumpSinkStep s).events := by
  rcases dumpSinkStep_cases s with e | ⟨ok, e⟩ <;> rw [e]
  · exact .silent
  · exact sinkWrite_grown s _ ok

theorem dumpProgressStep_grown : Grown s.events (dumpProgressStep s).events := by
  unfold dumpProgressStep
  generalize hu : setCursor (s.cursor.toNat + Config.chunkSize) s = u
  have hev : u.events = s.events := by rw [← hu, setCursor_events]
  rcases dumpNextChunk_cases (emitProgress u) with ⟨-, e⟩ | ⟨-, e⟩ <;> rw [e, ← hev] <;>
    exact emitProgress_grown u

theorem uploadSourceStep_grown : Grown s.events (uploadSourceStep s).events := by
  rcases uploadSourceStep_cases s with e | e | ⟨d, -, e⟩ <;> rw [e]
  · exact .silent
  · exact sourceRead_grown (setPhase .transfer s) _ false []
  · exact sourceRead_grown (setPhase .transfer s) _ true d

theorem pageEndStep_grown : Grown s.events (pageEndStep s).events := by
  rcases pageEndStep_cases s with ⟨-, e⟩ | e <;> rw [e] <;> exact deselect_grown (assignSample s)

theorem uploadProgressStep_grown : Grown s.events (uploadProgressStep s).events := by
  unfold uploadProgressStep
  generalize hu : setCursor (s.chunkIx * Config.chunkSize + Config.chunkSize) s = u
  have hev : u.events = s.events := by rw [← hu, setCursor_events]
  rcases uploadNextChunk_cases (emitProgress u) with ⟨-, e⟩ | ⟨-, e⟩ <;> rw [e, ← hev] <;>
    exact emitProgress_grown u

theorem verifySourceStep_grown : Grown s.events (verifySourceStep s).events := by
  rcases verifySourceStep_cases s with e | e | ⟨d, -, e⟩ <;> rw [e]
  · exact .silent
  · exact sourceRead_grown s _ false []
  · exact sourceRead_grown s _ true d

theorem verifyNextStride_events : (verifyNextStride s).events = s.events := by
  rcases verifyNextStride_cases s with ⟨-, e⟩ | ⟨-, e⟩ <;> rw [e] <;> simp

/-- `Compare()` has no port activity (R273). -/
theorem verifyCompareStep_events : (verifyCompareStep s).events = s.events := by
  unfold verifyCompareStep
  have hev : (assignSourced Config.halfSize s).events = s.events := assignSourced_events ..
  generalize assignSourced Config.halfSize s = u at hev ⊢
  rcases verifyCompare_cases u with ⟨i, -, e⟩ | e | e <;> rw [e]
  · exact hev
  · exact hev
  · rw [verifyNextStride_events, setCursor_events, hev]

end Growth

/-! The primitives of a command. -/

section Primitives

variable {s t : State}

theorem seqFrame_grown {f : Frame} {keep : Nat → Byte → State → State} (hk : RegisterKeep keep)
    (hx : seqFrame f keep s = .next t) : Grown s.events t.events := by
  unfold seqFrame at hx
  split at hx <;> cases hx
  case h_1 => exact select_grown s
  case h_2 => exact byteStep_grown s hk _ _ f _
  case h_3 => exact deselect_grown s
  case h_4 => exact .silent

theorem seqSelect_grown (hx : seqSelect s = .next t) : Grown s.events t.events := by
  unfold seqSelect at hx
  split at hx <;> cases hx
  · exact select_grown s
  · exact .silent

theorem seqExchange_grown {b : Byte} (hx : seqExchange b s = .next t) : Grown s.events t.events := by
  unfold seqExchange at hx
  split at hx <;> cases hx
  · exact exchange_grown s b
  · exact .silent

theorem seqDeselect_grown (hx : seqDeselect s = .next t) : Grown s.events t.events := by
  unfold seqDeselect at hx
  split at hx <;> cases hx
  · exact deselect_grown s
  · exact .silent

theorem seqWaitReady_grown (hx : seqWaitReady s = .next t) : Grown s.events t.events := by
  unfold seqWaitReady at hx
  split at hx <;> cases hx
  case h_1 => exact select_grown s
  case h_2 => exact exchange_grown (setPhase _ s) 0x05
  case h_3 => exact exchange_grown (assignSample s) Config.dummy
  case h_4 | h_6 => exact deselect_grown (assignSample s)
  case h_5 => exact .silent

theorem seqReadId_grown (hx : seqReadId s = .next t) : Grown s.events t.events := by
  unfold seqReadId at hx
  split at hx <;> cases hx
  case h_1 | h_4 | h_7 => exact select_grown s
  case h_2 => exact byteStep_grown s keepId_register _ _ _ _
  case h_5 => exact byteStep_grown s keepSr1_register _ _ _ _
  case h_8 => exact byteStep_grown s keepSr2_register _ _ _ _
  case h_3 | h_6 | h_9 => exact deselect_grown s
  case h_10 => exact .silent

theorem seqDump_grown (hx : seqDump s = .next t) : Grown s.events t.events := by
  unfold seqDump at hx
  split at hx <;> cases hx
  case h_1 => exact select_grown s
  case h_2 => exact exchange_grown s _
  case h_3 => exact exchange_grown (setPhase .transfer s) Config.dummy
  case h_4 => exact dumpSinkStep_grown s
  case h_5 => exact dumpProgressStep_grown s
  case h_6 | h_8 => exact deselect_grown s
  case h_7 => exact .silent

theorem seqUpload_grown (hx : seqUpload s = .next t) : Grown s.events t.events := by
  unfold seqUpload at hx
  split at hx <;> cases hx
  case h_1 | h_4 | h_7 | h_15 | h_18 => exact select_grown s
  case h_2 | h_5 | h_13 | h_16 => exact byteStep_grown s keepNone_register _ _ _ _
  case h_3 | h_6 | h_14 | h_17 => exact deselect_grown s
  case h_8 | h_19 => exact exchange_grown (setPhase _ s) 0x05
  case h_9 | h_20 => exact exchange_grown (assignSample s) Config.dummy
  case h_10 | h_24 => exact deselect_grown (assignSample s)
  case h_11 => exact uploadSourceStep_grown s
  case h_12 => exact select_grown (assignSourced 0 s)
  case h_21 => exact pageEndStep_grown s
  case h_22 => exact uploadProgressStep_grown s
  case h_23 => exact .silent

theorem seqVerify_grown (hx : seqVerify s = .next t) : Grown s.events t.events := by
  unfold seqVerify at hx
  split at hx
  case h_11 => cases hx
  all_goals injection hx with hx; subst hx
  case h_1 => exact select_grown s
  case h_2 => exact exchange_grown s _
  case h_3 => exact exchange_grown (setPhase .transfer s) Config.dummy
  case h_4 => exact verifySourceStep_grown s
  case h_5 =>
    rw [verifyCompareStep_events]
    exact .silent
  case h_7 =>
    rw [verifyNextStride_events]
    exact emitProgress_grown s
  case h_6 | h_8 | h_10 => exact deselect_grown s
  case h_9 => exact .silent

/-- A primitive of a running command adds one event at most. -/
theorem exec_busy_grown {i : Instr} (hb : s.busy = true) (hx : exec i s = .next t) : Grown s.events t.events := by
  rw [exec_busy hb] at hx
  cases i with
  | rdid => exact seqFrame_grown keepId_register hx
  | rdsr1 => exact seqFrame_grown keepSr1_register hx
  | rdsr2 => exact seqFrame_grown keepSr2_register hx
  | read => exact seqFrame_grown keepDbuf_register hx
  | wren | wrdi | ce | pp => exact seqFrame_grown keepNone_register hx
  | select => exact seqSelect_grown hx
  | exchange b => exact seqExchange_grown hx
  | deselect => exact seqDeselect_grown hx
  | waitReady => exact seqWaitReady_grown hx
  | readId => exact seqReadId_grown hx
  | dump => exact seqDump_grown hx
  | upload => exact seqUpload_grown hx
  | verify => exact seqVerify_grown hx

/-! The issue of a command, the host's other moves and reset. -/

/-- An issue, accepted or refused, has no port activity (R302, R304). -/
theorem exec_idle_events {i : Instr} (hb : s.busy = false) (hx : exec i s = .next t) : t.events = s.events := by
  rw [exec_idle hb] at hx
  injection hx with hx
  subst hx
  cases hr : refuseOf i (recordCommand (encode i) s) with
  | some c => rw [issue_refused hr, reject_events, recordCommand_events]
  | none =>
    obtain ⟨x, e⟩ := initOf_eq i (recordCommand (encode i) s)
    rw [issue_accepted hr, e]
    rfl

theorem writeReg_events (r : HostReg) (w : Word) (s : State) : (writeReg r w s).events = s.events := by
  cases r with
  | dbuf j =>
    rw [writeReg]
    split
    · rfl
    · rw [setDbufWord_eq]
  | _ => rfl

theorem moveTaken_events (s : State) : (moveTaken s).events = s.events := by
  obtain ⟨ms, n, e⟩ := moveTaken_eq s
  rw [e]

/-- Reset releases an open frame, and that is all it adds to the history (R341). -/
theorem resetStep_events_suffix (s : State) : ∃ m, (resetStep s).events = s.events ++ m ∧ m.length ≤ 1 := by
  have hev : (resetStep s).events = (deselect false s).events := by rw [resetStep]
  rw [hev, deselect_events]
  split
  · exact ⟨_, rfl, Nat.le_refl 1⟩
  · exact ⟨[], (List.append_nil _).symm, Nat.zero_le 1⟩

/-- A move of the host adds nothing to the history, and SEQ's adds what a primitive does. -/
theorem Moved.grown {m : Move} (h : Moved m s t) (hrst : m ≠ .rst) :
    Grown s.events t.events ∧ (m ≠ .seq → t.events = s.events) := by
  have silent (he : t.events = s.events) : Grown s.events t.events ∧ (m ≠ .seq → t.events = s.events) :=
    ⟨he ▸ .silent, fun _ => he⟩
  cases h with
  | primitive i _ hm hb _ hx => exact ⟨exec_busy_grown hb hx, fun hn => absurd hm hn⟩
  | issue i _ _ hb hx => exact silent (exec_idle_events hb hx)
  | write off w => exact silent (writeReg_events _ w s)
  | pass | read | drop | illegal => exact silent rfl
  | reset hm => exact absurd hm hrst

end Primitives

/-- Settles O52: SEQ's primitives add one event at most, the host's moves none, and reset its own release. -/
theorem oneEventPerStep : Obligations.OneEventPerStep := by
  intro s t hx
  have M := moved_of_step hx
  rw [← moveTaken_events s]
  by_cases hrst : nextMove s = .rst
  · rw [hrst] at M ⊢
    cases M with
    | reset =>
      obtain ⟨l, he, hl⟩ := resetStep_events_suffix (moveTaken s)
      exact ⟨l, he, hl, fun _ h => absurd rfl h, fun h => absurd rfl h⟩
    | _ => contradiction
  · obtain ⟨hgrown, hhost⟩ := M.grown hrst
    obtain ⟨l, he, hl, hwait⟩ := hgrown.suffix
    refine ⟨l, he, hl, fun hseq _ => ?_, fun _ => hwait⟩
    exact List.append_right_eq_self.1 (he.symm.trans (hhost hseq))

/-! ### A source that cannot give VERIFY a half (R87, R272) -/

/-- Settles O46: the short answer leads to `Fail(SRC_SHORT)`, which releases the read frame. -/
theorem verifySourceShort : Obligations.VerifySourceShort := by
  intro s a r hb hp hc hsrc ha
  rw [← halfSize_eq] at ha ⊢
  obtain ⟨hreply, hrest⟩ := sourceReply_short hsrc ha
  have h1 : exec .verify s = .next (setPos (.fail .srcShort) (sourceRead Config.halfSize false [] s)) := by
    rw [exec_busy hb]
    simp [seqOf, seqVerify, hp, verifySourceStep, hreply]
  generalize hu : setPos (.fail .srcShort) (sourceRead Config.halfSize false [] s) = u at h1
  have hub : u.busy = true := by rw [← hu]; simp [hb]
  have hup : u.pos = .fail .srcShort := by rw [← hu]; simp
  have h2 : exec .verify u = .next (fail .srcShort u) := by
    rw [exec_busy hub]
    simp [seqOf, seqVerify, hup]
  refine ⟨fail .srcShort u, by rw [execN_succ 1 h1, execN_succ 0 h2]; rfl, ?_, fun hl => ?_⟩
  · rw [← hu]
    apply State.ext <;> simp [hc, hrest]
  · obtain ⟨-, hcur⟩ := hl
    rw [hp] at hcur
    rw [← hu]
    simpa using hcur

/-! ### FREF at a release (R107 to R110) -/

theorem Fref.released_of_busy {c : Fref} (h : c.busy ≠ 0) : c.released = { c with frame := [] } := if_pos h

/-- What a chip-erase that FREF takes leaves: nothing listed, and a busy period begun (R108). -/
theorem Fref.released_erase {c : Fref} (hb : c.busy = 0) (hw : c.wel = true) (hf : c.frame = [0xC7]) :
    c.released = Fref.startBusy { c with frame := [], mem := [] } c.erasePolls := by
  simp [Fref.released, Fref.writable, hb, hw, hf]

/-- An array with nothing listed reads as erased everywhere (R112). -/
theorem Fref.byteAt_erased {c : Fref} (h : c.mem = []) (x : Nat) : c.byteAt x = 0xFF := by
  rw [Fref.byteAt, h]
  rfl

theorem Fref.startBusy_wel {c : Fref} (h : c.wel = true) (polls : Nat) :
    (c.startBusy polls).wel = decide (polls ≠ 0) := by
  by_cases hp : polls = 0 <;> simp [Fref.startBusy, hp, h]

/-- Settles O59: one case per frame of one byte. -/
theorem frefTakesWriteFrames : Obligations.FrefTakesWriteFrames := by
  intro c
  refine ⟨Fref.released_of_busy, fun hb => ⟨fun hf => ?_, fun hf => ?_, fun hf hw => ?_, fun hf hw => ?_⟩⟩
  · simp [Fref.released, hb, hf]
  · simp [Fref.released, hb, hf]
  · simp [Fref.released, Fref.writable, hb, hf, hw]
  · rw [Fref.released_erase hb hw hf]
    exact ⟨Fref.byteAt_erased rfl, rfl, Fref.startBusy_wel hw _⟩

/-! ### FREF's page-program (R109) -/

/-- A byte of FREF's array (R112). -/
def frefRead (m : Memory) (x : Nat) : Byte := (Memory.read (some frefErased) m x).getD frefErased

theorem Fref.byteAt_of_lt {c : Fref} {x : Nat} (h : x < Config.totalSize) : c.byteAt x = frefRead c.mem x := by
  rw [Fref.byteAt, Nat.mod_eq_of_lt h, frefRead]

theorem frefRead_write {n : Nat} {m : Memory} (h : Memory.wf (some frefErased) n m = true) (x y : Nat) (v : Byte) :
    frefRead (Memory.write (some frefErased) m x v) y = if y = x then v else frefRead m y := by
  unfold frefRead
  split
  · rename_i hy
    rw [hy, Memory.read_write_self x v h, Option.getD_some]
  · rw [Memory.read_write_other _ _ _ ‹_›]

/-- Inside its page a payload ANDs each of its bytes into its place and leaves every other byte (R109). -/
theorem frefRead_programBytes (ds : List Byte) {m : Memory} {a : Nat} (j : Nat) (ha : a < Config.totalSize)
    (hpage : a % 256 + j + ds.length ≤ 256) (h : Memory.wf (some frefErased) Config.totalSize m = true) (x : Nat) :
    frefRead (programBytes m a j ds) x =
      if a + j ≤ x ∧ x < a + j + ds.length then frefRead m x &&& ds.getD (x - (a + j)) 0 else frefRead m x := by
  induction ds generalizing m j with
  | nil => rw [programBytes, if_neg (by rw [List.length_nil]; omega)]
  | cons d ds ih =>
    rw [List.length_cons] at hpage ⊢
    have hplace : a / 256 * 256 + (a % 256 + j) % 256 = a + j := by omega
    have hin : a + j < Config.totalSize := by
      rw [totalSize_eq] at ha ⊢
      omega
    rw [programBytes, hplace, ih (j + 1) (by omega) (Memory.wf_write _ hin h), frefRead_write h]
    by_cases hx : x = a + j
    · subst hx
      rw [if_neg (by omega), if_pos rfl, if_pos (by omega), Nat.sub_self]
      rfl
    · by_cases hr : a + (j + 1) ≤ x ∧ x < a + (j + 1) + ds.length
      · have hsub : x - (a + j) = x - (a + (j + 1)) + 1 := by omega
        rw [if_pos hr, if_neg hx, if_pos (by omega), hsub, List.getD_cons_succ]
      · rw [if_neg hr, if_neg hx, if_neg (by omega)]

/-- What a page-program that FREF takes leaves: the payload in the array, and a busy period begun (R109). -/
theorem Fref.released_program {c : Fref} {a2 a1 a0 : Byte} {ds : List Byte} (hb : c.busy = 0) (hw : c.wel = true)
    (hf : c.frame = 0x02 :: a2 :: a1 :: a0 :: ds) :
    c.released =
      Fref.startBusy
        { c with
          frame := []
          mem := programBytes c.mem ((packAddr a2 a1 a0).toNat % Config.totalSize) 0 ds }
        c.progPolls := by
  simp [Fref.released, Fref.writable, frameAddr, hb, hw, hf]

theorem toNat_packAddr (b2 b1 b0 : Byte) :
    (packAddr b2 b1 b0).toNat = b2.toNat * 0x10000 + b1.toNat * 0x100 + b0.toNat := by
  simp only [packAddr, toNat_append_eq_add]
  omega

/-- Settles O60: the payload lies in one page, so each byte has one place. -/
theorem frefProgramClearsBits : Obligations.FrefProgramClearsBits := by
  intro c a2 a1 a0 ds x hwf hb hw hf hlen hx a
  have ha : (packAddr a2 a1 a0).toNat % Config.totalSize = a := by rw [toNat_packAddr, totalSize_eq]
  have ha' : a < Config.totalSize := ha ▸ Nat.mod_lt _ (by decide)
  have hpage : a % 256 + 0 + ds.length ≤ 256 := by omega
  clear_value a
  rw [← totalSize_eq] at hwf hx
  have hread := frefRead_programBytes ds 0 ha' hpage hwf x
  rw [Nat.add_zero] at hread
  rw [Fref.released_program hb hw hf, ha, Fref.byteAt_of_lt hx, Fref.byteAt_of_lt hx]
  exact ⟨hread, rfl, Fref.startBusy_wel hw _⟩

end Sys2Proof.Machine
end

section
/-! PROOFS. The statements of the encoding (30_encoding.md): decoding and encoding are inverse, a word is illegal by
R125's four items alone and a host write of one is refused, and the words of R133. -/

namespace Sys2Proof.Machine

open Sys2Proof.Claims

/-! ### Decoding and encoding (R121, R122, R124, R130) -/

/-- The word of a command decodes to it. -/
theorem decode_encode (i : Instr) : decode (encode i) = .ok i := by
  rw [decode, encode, wordFields_fieldsWord, decodeFields_encodeFields]

/-- Settles O1: a word that decodes is its fields put together again, and those are the command's. -/
theorem decodeInvertsEncode : Obligations.DecodeInvertsEncode :=
  fun _ i => ⟨eq_encode_of_decode, fun h => h ▸ decode_encode i⟩

/-! ### Illegal words (R125) -/

theorem wordFields_rsv_toNat (w : Word) : (wordFields w).rsv.toNat = w.toNat / 0x1000 := by
  have := w.isLt
  simp only [wordFields, BitVec.extractLsb'_toNat, Nat.shiftRight_eq_div_pow]
  omega

theorem wordFields_op_toNat (w : Word) : (wordFields w).op.toNat = w.toNat / 0x100 % 0x10 := by
  simp [wordFields, BitVec.extractLsb'_toNat, Nat.shiftRight_eq_div_pow]

theorem wordFields_byte_toNat (w : Word) : (wordFields w).byte.toNat = w.toNat % 0x100 := by
  simp [wordFields, BitVec.extractLsb'_toNat]

/-- Item 4: FRAME takes the eight flash opcodes alone. -/
theorem decodeFrame_error_iff (b : Byte) :
    (∃ e, decodeFrame b = .error e) ↔ b.toNat ∉ [0x9F, 0x05, 0x35, 0x03, 0x06, 0x04, 0xC7, 0x02] := by
  unfold decodeFrame
  split
  case h_9 => simp_all
  all_goals rename_i hb; simp [hb]

/-- Item 3: the other commands but EXCHANGE take BYTE = 0 alone. -/
theorem decodePlain_error_iff (i : Instr) (b : Byte) : (∃ e, decodePlain i b = .error e) ↔ b.toNat ≠ 0 := by
  unfold decodePlain
  split <;> simp_all [BitVec.toNat_eq]

/-- The fields that decode to no command are those one of R125's items holds of. -/
theorem decodeFields_error_iff (f : CmdWord) :
    (∃ e, decodeFields f = .error e) ↔
      f.rsv.toNat ≠ 0 ∨ (f.op.toNat = 6 ∨ f.op.toNat = 7 ∨ 0xB ≤ f.op.toNat) ∨
        (f.op.toNat ≠ 0 ∧ f.op.toNat ≠ 2 ∧ f.byte.toNat ≠ 0) ∨
        (f.op.toNat = 0 ∧ f.byte.toNat ∉ [0x9F, 0x05, 0x35, 0x03, 0x06, 0x04, 0xC7, 0x02]) := by
  have hrsv : f.rsv ≠ 0 ↔ f.rsv.toNat ≠ 0 := BitVec.toNat_ne_iff_ne.symm
  have hop := f.op.isLt
  unfold decodeFields
  split
  case isTrue h => simp [hrsv.1 h]
  case isFalse h =>
    rw [hrsv, not_not] at h
    split
    case h_1 hk => simp [h, hk, decodeFrame_error_iff]
    case h_3 hk => simp [h, hk]
    case h_10 =>
      refine iff_of_true ⟨_, rfl⟩ (.inr (.inl ?_))
      simp only [imp_false] at *
      omega
    all_goals rename_i hk; simp [h, hk, decodePlain_error_iff]

/-- A host write of an illegal word, with no command running, ends in its refusal (R302). -/
theorem step_of_illegal_word {s : State} {ms : List Move} {w : Word} {e : Illegal} (hd : decode w = .error e)
    (hm : s.moves = .hostWrite .word 0x000 w :: ms) (hb : s.busy = false) :
    step s = .next (rejected w .illegal (setMoves ms s)) := by
  have hx : step s = runFetched (fetchCommand w (setMoves ms s)) := step_of_move hm
  have hf : fetchCommand w (setMoves ms s) = .stop (.next (issueIllegal w (setMoves ms s))) := by
    simp [fetchCommand, hb, hd]
  rw [hx, hf]
  rfl

/-- Settles O2: the items of R125 in the fields of the word, and the refusal of a word that decodes to none. -/
theorem illegalWordsRefused : Obligations.IllegalWordsRefused := by
  intro w rsv op b illegal
  have hi : illegal ↔ ∃ e, decode w = .error e := by
    rw [decode, decodeFields_error_iff, wordFields_rsv_toNat, wordFields_op_toNat, wordFields_byte_toNat]
  refine ⟨hi, fun s ms hw hm hb => ?_⟩
  obtain ⟨e, hd⟩ := hi.1 hw
  exact step_of_illegal_word hd hm hb

/-! ### The command words (R133) -/

theorem encode_exchange (b : Byte) : encode (.exchange b) = 0x00000200 + b.setWidth 32 := by
  have := b.isLt
  apply BitVec.eq_of_toNat_eq
  simp only [encode, encodeFields, fieldsWord, toNat_append_eq_add, BitVec.toNat_add, BitVec.toNat_setWidth,
    BitVec.ofNat_eq_ofNat, BitVec.toNat_ofNat]
  omega

/-- Settles O3: the words are the encoder's, and each decodes to the command it encodes. -/
theorem commandWordValues : Obligations.CommandWordValues := by
  have hdec {w : Word} {i : Instr} (h : encode i = w) : decode w = .ok i ∧ encode i = w :=
    ⟨h ▸ decode_encode i, h⟩
  refine ⟨fun p hp => hdec ?_, fun b => hdec (encode_exchange b), rfl⟩
  revert p
  decide

end Sys2Proof.Machine
end

section
/-! PROOFS. The statements of the transport commands (40_transport.md): the whole effect of SELECT, EXCHANGE and
DESELECT, what is refused while a raw frame is open, and the frame they put on the wire together. -/

namespace Sys2Proof.Machine

open Sys2Proof.Claims

/-! ### Issue, in the terms of the statements (R302 to R304) -/

theorem accept_eq_accepted (i : Instr) (s : State) :
    accept i (firstPos i) (initOf i (recordCommand (encode i) s)) = accepted i s := by
  have hfields : wordFields (encode i) = encodeFields i := wordFields_fieldsWord _
  have hop : (encode i).extractLsb' 8 4 = (encodeFields i).op := congrArg CmdWord.op hfields
  have hbyte : (encode i).extractLsb' 0 8 = (encodeFields i).byte := congrArg CmdWord.byte hfields
  unfold accepted
  rw [hop, hbyte]
  cases i <;> rfl

/-- A command that fails no check is accepted (R302). -/
theorem exec_accepted {i : Instr} {s : State} (hb : s.busy = false) (h : issueCause i s = none) :
    exec i s = .next (accepted i s) := by
  have hr : refuseOf i (recordCommand (encode i) s) = none := (refuseOf_eq_issueCause i _).trans h
  rw [exec_idle hb, issue_accepted hr, accept_eq_accepted]

/-- A command that fails a check is refused with its cause (R304). -/
theorem exec_rejected {i : Instr} {s : State} {c : Cause} (hb : s.busy = false) (h : issueCause i s = some c) :
    exec i s = .next (rejected (encode i) c s) := by
  have hr : refuseOf i (recordCommand (encode i) s) = some c := (refuseOf_eq_issueCause i _).trans h
  rw [exec_idle hb, issue_refused hr]
  rfl

/-- A transport command fails no check, but EXCHANGE with no device selected (R160, R162, R163). -/
theorem issueCause_transport {i : Instr} {s : State} (ht : isTransport i = true)
    (hc : ∀ b, i = .exchange b → s.cs = true) : issueCause i s = none := by
  cases i with
  | exchange b => simp [issueCause, isTransport, hc b rfl]
  | select | deselect => simp [issueCause, isTransport]
  | _ => cases ht

/-- Settles O25: with CS = 1 the check of R161 is the first that fails, and a transport command has none that does. -/
theorem rawFrameShutsOutComposites : Obligations.RawFrameShutsOutComposites := by
  intro i s hb hc
  split
  case isTrue ht => exact exec_accepted hb (issueCause_transport ht fun _ _ => hc)
  case isFalse ht => exact exec_rejected hb (by simp [issueCause, ht, hc])

/-! ### A transport command in its three steps (R160, R162, R163) -/

/-- The one SPI primitive of a transport command. -/
def transported (i : Instr) (s : State) : State :=
  match i with
  | .select => select s
  | .exchange b => keepRxdata (rx b s) (exchange b s)
  | .deselect => deselect true s
  | _ => s

section Transport

variable {i : Instr} {s : State}

theorem exec_transported (ht : isTransport i = true) (hb : s.busy = true) (hp : s.pos = firstPos i) :
    exec i s = .next (setPos .finish (transported i s)) := by
  rw [exec_busy hb]
  cases i with
  | select => simp only [seqOf, seqSelect, hp, firstPos, transported]
  | exchange b => simp only [seqOf, seqExchange, hp, firstPos, transported]
  | deselect => simp only [seqOf, seqDeselect, hp, firstPos, transported]
  | _ => cases ht

theorem transported_busy (i : Instr) (s : State) : (transported i s).busy = s.busy := by cases i <;> rfl

/-- Acceptance touches nothing that the primitive reads or writes. -/
theorem finish_transported (ht : isTransport i = true) :
    finish (setPos .finish (transported i (accepted i s))) = finished i (transported i s) := by
  cases i with
  | select | exchange | deselect => rfl
  | _ => cases ht

/-- The two steps in between: acceptance, then the primitive. -/
theorem transport_running (ht : isTransport i = true) (hb : s.busy = false) (h : issueCause i s = none) :
    execN i 1 s = .next (accepted i s) ∧ execN i 2 s = .next (setPos .finish (transported i (accepted i s))) := by
  have h1 : execN i 1 s = .next (accepted i s) := execN_succ 0 (exec_accepted hb h)
  exact ⟨h1, execN_snoc h1 (exec_transported ht rfl rfl)⟩

/-- The whole command: its primitive, acceptance and `Finish()`. -/
theorem transport_runs (ht : isTransport i = true) (hb : s.busy = false) (h : issueCause i s = none) :
    execN i 3 s = .next (finished i (transported i s)) := by
  obtain ⟨-, h2⟩ := transport_running ht hb h
  rw [← finish_transported ht]
  exact execN_snoc h2 (exec_finish (transported_busy i _) rfl)

end Transport

theorem select_runs {s : State} (hb : s.busy = false) :
    execN .select 3 s = .next (finished .select (select s)) :=
  transport_runs rfl hb (issueCause_transport rfl nofun)

theorem exchange_runs {s : State} (b : Byte) (hb : s.busy = false) (hc : s.cs = true) :
    execN (.exchange b) 3 s = .next (finished (.exchange b) (keepRxdata (rx b s) (exchange b s))) :=
  transport_runs rfl hb (issueCause_transport rfl fun _ _ => hc)

theorem deselect_runs {s : State} (hb : s.busy = false) :
    execN .deselect 3 s = .next (finished .deselect (deselect true s)) :=
  transport_runs rfl hb (issueCause_transport rfl nofun)

/-- Settles O22: acceptance, `Select()` and `Finish()`, the first two with BUSY = 1 (R160). -/
theorem selectAsserts : Obligations.SelectAsserts := by
  refine ⟨rfl, fun s hb => ⟨fun k hk => ?_, select_runs hb⟩, _, select_runs rfl, by decide⟩
  obtain ⟨h1, h2⟩ := transport_running (i := .select) rfl hb (issueCause_transport rfl nofun)
  rcases hk with rfl | rfl
  · exact ⟨_, h1, rfl⟩
  · exact ⟨_, h2, rfl⟩

/-- Settles O23: acceptance, `Exchange(b)` and `Finish()`, or the refusal of R162. -/
theorem exchangeMovesOneByte : Obligations.ExchangeMovesOneByte :=
  fun b _ hb => ⟨exchange_runs b hb, fun hc => exec_rejected hb (by simp [issueCause, isTransport, hc])⟩

/-- Settles O24: acceptance, `Deselect()` and `Finish()`, whatever CS was (R163). -/
theorem deselectReleases : Obligations.DeselectReleases := fun _ hb => deselect_runs hb

/-! ### A raw frame (R164) -/

theorem runEach_cons {n : Nat} {i : Instr} {s t : State} (is : List Instr) (h : execN i n s = .next t) :
    runEach n (i :: is) s = runEach n is t := by simp only [runEach, h]

/-- Commands after commands. -/
theorem runEach_append {n : Nat} {is : List Instr} {s t : State} (js : List Instr) (h : runEach n is s = .next t) :
    runEach n (is ++ js) s = runEach n js t := by
  induction is generalizing s with
  | nil => cases h; rfl
  | cons i is ih =>
    simp only [runEach, List.cons_append] at h ⊢
    split at h
    · exact ih h
    all_goals cases h

/-- What EXCHANGE commands of the bytes `bs` leave in an open raw frame: their bytes on the wire, the last byte heard
in RXDATA, the frame still open. -/
structure RawSent (bs : List Byte) (s t : State) : Prop where
  events : t.events = (exchanged bs s).events
  flash : t.flash = (exchanged bs s).flash
  rxdata : t.rxdata = ((heardFrom s bs).getLast?).getD s.rxdata
  cs : t.cs = true
  busy : t.busy = false

/-- The first EXCHANGE sends the first byte and keeps the byte heard; the others follow from there. -/
theorem RawSent.cons {b : Byte} {bs : List Byte} {s t : State}
    (h : RawSent bs (finished (.exchange b) (keepRxdata (rx b s) (exchange b s))) t) : RawSent (b :: bs) s t where
  events := by rw [exchanged_cons]; exact h.events
  flash := by rw [exchanged_cons]; exact h.flash
  rxdata := by
    rw [heardFrom_cons, List.getLast?_cons, Option.getD_some]
    exact h.rxdata
  cs := h.cs
  busy := h.busy

/-- A release then closes the frame as it closes the one of a run of `Exchange` steps. -/
theorem RawSent.deselect {bs : List Byte} {s t : State} (h : RawSent bs s t) (hc : s.cs = true) :
    (deselect true t).events = (deselect true (exchanged bs s)).events ∧
      (deselect true t).flash = (deselect true (exchanged bs s)).flash := by
  have hcs : (exchanged bs s).cs = t.cs := hc.trans h.cs.symm
  simp only [deselect_events, deselect_flash, hcs, h.events, h.flash, and_self]

theorem exchanges_run (bs : List Byte) {s : State} (hb : s.busy = false) (hc : s.cs = true) :
    ∃ t, runEach 3 (bs.map .exchange) s = .next t ∧ RawSent bs s t := by
  induction bs generalizing s with
  | nil => exact ⟨s, rfl, by simp [exchanged], rfl, rfl, hc, hb⟩
  | cons b bs ih =>
    obtain ⟨t, hx, S⟩ := ih (s := finished (.exchange b) (keepRxdata (rx b s) (exchange b s))) rfl hc
    exact ⟨t, (runEach_cons _ (exchange_runs b hb hc)).trans hx, S.cons⟩

/-- Settles O26: SELECT opens the frame, the EXCHANGE commands send its bytes one by one, DESELECT closes it. -/
theorem rawFrameIsItsBytes : Obligations.RawFrameIsItsBytes := by
  intro bs s hb hc
  obtain ⟨t, hx, S⟩ := exchanges_run bs (s := finished .select (select s)) rfl rfl
  have hopen : runEach 3 (.select :: bs.map .exchange) s = .next t := (runEach_cons _ (select_runs hb)).trans hx
  have hframe : deselect true (exchanged bs (select s)) = framed bs s := deselect_exchanged_select bs hc
  have hheard : heardFrom (select s) bs = frameRx bs s := by simp [heardFrom, frameRx, hc]
  obtain ⟨hevents, hflash⟩ := S.deselect rfl
  refine ⟨finished .deselect (deselect true t), ?_, ?_, ?_, ?_, rfl, rfl, rfl⟩
  · rw [runEach_append _ hopen, runEach_cons _ (deselect_runs S.busy)]
    rfl
  · exact hevents.trans (congrArg State.events hframe)
  · exact hflash.trans (congrArg State.flash hframe)
  · rw [← hheard]
    exact S.rxdata

end Sys2Proof.Machine
end

section
/-! PROOFS. The statements of the single-frame commands (41_command_codec.md): the whole effect of a SendFrame, that
of each FRAME-class command, which is one SendFrame and `Finish()`, and the length checks of READ and PP. -/

namespace Sys2Proof.Machine

open Sys2Proof.Claims

/-! ### The response bytes of a frame (R180) -/

/-- A response byte reads and writes no register but ID, SR and DBUF, so it may be kept before or after any change of
the others (R182 to R184, R191). -/
def ResponseOnly (keep : Nat → Byte → State → State) : Prop :=
  ∀ (j : Nat) (b : Byte) (x s : State), keep j b (withResponse x s) = withResponse (keep j b x) s

theorem keepId_responseOnly : ResponseOnly keepId := fun j b x s => by
  unfold keepId
  split <;> rfl

/-- What the bytes heard from byte `k` of a frame on leave in the registers, the frame's first response being byte
`sent`. -/
def keepResponses (keep : Nat → Byte → State → State) (sent : Nat) : Nat → List Byte → State → State
  | _, [], s => s
  | k, b :: bs, s => keepResponses keep sent (k + 1) bs (if k < sent then s else keep (k - sent) b s)

theorem keepResponses_withResponse {keep : Nat → Byte → State → State} (hk : ResponseOnly keep) (sent k : Nat)
    (bs : List Byte) (x s : State) :
    keepResponses keep sent k bs (withResponse x s) = withResponse (keepResponses keep sent k bs x) s := by
  induction bs generalizing k x with
  | nil => rfl
  | cons b bs ih =>
    simp only [keepResponses]
    split
    · exact ih ..
    · rw [hk, ih]

/-- The response bytes kept depend on the response registers alone. -/
theorem withResponse_keepResponses {keep : Nat → Byte → State → State} (hk : ResponseOnly keep) {sent k : Nat}
    {bs : List Byte} {x v : State} (h : withResponse x v = v) (s : State) :
    withResponse (keepResponses keep sent k bs v) s = withResponse (keepResponses keep sent k bs x) s := by
  rw [← h, keepResponses_withResponse hk]
  rfl

@[simp] theorem keepResponses_keepNone (sent k : Nat) (bs : List Byte) (s : State) :
    keepResponses keepNone sent k bs s = s := by
  induction bs generalizing k with
  | nil => rfl
  | cons b bs ih => simp only [keepResponses, keepNone, ite_self, ih]

/-- READ's responses go to DBUF alone (R191). -/
theorem keepResponses_keepDbuf (sent k : Nat) (bs : List Byte) (s : State) :
    keepResponses keepDbuf sent k bs s = { s with dbuf := (keepResponses keepDbuf sent k bs s).dbuf } := by
  induction bs generalizing k s with
  | nil => rfl
  | cons b bs ih =>
    rw [keepResponses, ih]
    split <;> rfl

/-- Byte `sent + j` of the frame stands in DBUF[j], where it is among those heard (R191). -/
theorem dbufAt_keepResponses (sent k : Nat) (bs : List Byte) (s : State) (j : Nat) :
    dbufAt (keepResponses keepDbuf sent k bs s) j =
      if k ≤ sent + j ∧ sent + j < k + bs.length then bs.getD (sent + j - k) 0 else dbufAt s j := by
  induction bs generalizing k s with
  | nil => rw [keepResponses, if_neg (by rw [List.length_nil]; omega)]
  | cons b bs ih =>
    have hfirst : dbufAt (if k < sent then s else keepDbuf (k - sent) b s) j =
        if sent + j = k then b else dbufAt s j := by
      split
      · rw [if_neg (by omega)]
      · rw [keepDbuf, dbufAt_setDbuf]
        exact if_congr (by omega) rfl rfl
    rw [keepResponses, ih, hfirst, List.length_cons]
    by_cases hj : sent + j = k
    · simp [hj]
    · by_cases hin : k + 1 ≤ sent + j ∧ sent + j < k + 1 + bs.length
      · rw [if_pos hin, if_pos (by omega), show sent + j - k = sent + j - (k + 1) + 1 by omega, List.getD_cons_succ]
      · rw [if_neg hin, if_neg hj, if_neg (by omega)]

/-- The bytes `tx` sent from byte `k` of frame `f` on, STATE = TRANSFER, the response bytes among those heard kept. -/
def bytesSent (f : Frame) (keep : Nat → Byte → State → State) (k : Nat) (tx : List Byte) (s : State) : State :=
  setPhase .transfer (withResponse (keepResponses keep f.sent k (heardFrom s tx) s) (exchanged tx s))

section BytesSent

variable {keep : Nat → Byte → State → State} (hk : ResponseOnly keep) (f : Frame) (k : Nat)

include hk

theorem bytesSent_setPos (tx : List Byte) (p : Pos) (s : State) :
    bytesSent f keep k tx (setPos p s) = setPos p (bytesSent f keep k tx s) := by
  rw [bytesSent, withResponse_keepResponses hk (x := s) rfl]
  rfl

theorem bytesSent_cons (b : Byte) (tx : List Byte) (s : State) :
    bytesSent f keep k (b :: tx) s = bytesSent f keep (k + 1) tx (bytesSent f keep k [b] s) := by
  have hheard : heardFrom (bytesSent f keep k [b] s) tx = heardFrom (exchange b s) tx := heardFrom_congr rfl rfl rfl tx
  rw [bytesSent, bytesSent, hheard, exchanged_cons, heardFrom_cons, keepResponses,
    withResponse_keepResponses hk (v := bytesSent f keep k [b] s)
      (x := if k < f.sent then s else keep (k - f.sent) (rx b s) s) rfl]
  rfl

/-- A frame byte with its STATE marker. -/
theorem byteStep_marked (t : FrameTag) {s : State} (hph : 0 < k → s.phase = .transfer) :
    byteStep t true f keep k s = setPos (nextByte f t k) (bytesSent f keep k [f.tx k] s) := by
  have hmark : (if k = 0 then marked true .transfer s.phase else s.phase) = .transfer := by
    split
    · rfl
    · exact hph (by omega)
  rw [byteStep, hmark, bytesSent, heardFrom_cons, heardFrom_nil, keepResponses, keepResponses]
  split
  · rfl
  · have hkeep := hk (k - f.sent) (rx (f.tx k) s) s (exchange (f.tx k) (setPhase .transfer s))
    exact congrArg (setPos _) hkeep

end BytesSent

/-! ### A whole SendFrame (R180) -/

/-- The SEQ primitives of a SendFrame with its STATE markers are the command's in every state with `P`: frame `f`, its
response bytes to `keep`, then position `after`. The frame's steps keep `P`, which says which frame that is. -/
structure SendsKeeping (i : Instr) (t : FrameTag) (f : Frame) (keep : Nat → Byte → State → State) (after : Pos)
    (P : State → Prop) : Prop where
  responseOnly : ResponseOnly keep
  select : ∀ s, P s → s.busy = true → s.pos = .select t → exec i s = .next (selectStep t s)
  byte : ∀ s k, P s → s.busy = true → s.pos = .byte t k → exec i s = .next (byteStep t true f keep k s)
  deselect : ∀ s, P s → s.busy = true → s.pos = .deselect t → exec i s = .next (deselectStep true after s)
  after_select : ∀ s, P s → P (selectStep t s)
  after_byte : ∀ s k, P s → P (byteStep t true f keep k s)

section SendsKeeping

variable {i : Instr} {t : FrameTag} {f : Frame} {keep : Nat → Byte → State → State} {after : Pos} {P : State → Prop}
  (F : SendsKeeping i t f keep after P)

include F

/-- From byte `k` to the last byte of the frame, up to its Deselect. -/
theorem SendsKeeping.bytes_from {m k : Nat} {s : State} (hP : P s) (hb : s.busy = true) (hp : s.pos = .byte t k)
    (hph : 0 < k → s.phase = .transfer) (hm : 0 < m) (hs : k + m = f.size) :
    execN i m s = .next (setPos (.deselect t) (bytesSent f keep k ((List.range' k m).map f.tx) s)) ∧
      P (setPos (.deselect t) (bytesSent f keep k ((List.range' k m).map f.tx) s)) := by
  have hk := F.responseOnly
  induction m generalizing k s with
  | zero => cases hm
  | succ m ih =>
    have hx := F.byte s k hP hb hp
    have hP' := F.after_byte s k hP
    rw [byteStep_marked hk f k t hph] at hx hP'
    rw [List.range'_succ, List.map_cons, execN_succ m hx]
    rcases nextByte_cases f t k with ⟨hlt, e⟩ | ⟨hle, e⟩ <;> rw [e] at hP' ⊢
    · have hrest := ih hP' hb rfl (fun _ => rfl) (by omega) (by omega)
      rwa [bytesSent_setPos hk, ← bytesSent_cons hk] at hrest
    · obtain rfl : m = 0 := by omega
      exact ⟨rfl, hP'⟩

/-- A whole SendFrame, from its `Select()` to the position after it: the frame on the wire, its response bytes kept. -/
theorem SendsKeeping.whole {s : State} (hP : P s) (hb : s.busy = true) (hp : s.pos = .select t) (hc : s.cs = false) :
    execN i (f.size + 2) s = .next (setPos after (setPhase .finish
      (withResponse (keepResponses keep f.sent 0 (frameRx f.bytes s) s) (framed f.bytes s)))) := by
  have hsel := F.select s hP hb hp
  obtain ⟨hbytes, hP'⟩ := F.bytes_from (m := f.size) (k := 0) (F.after_select s hP) hb rfl nofun f.size_pos
    (Nat.zero_add _)
  have hend := F.deselect _ hP' hb rfl
  rw [execN_succ _ hsel, execN_add 1 hbytes, execN_succ 0 hend, execN, frameRx_eq hc,
    ← deselect_exchanged_select f.bytes hc, ← List.range_eq_range', ← Frame.bytes, bytesSent,
    withResponse_keepResponses F.responseOnly (v := selectStep t s) (x := s) rfl]
  rfl

end SendsKeeping

/-! ### A FRAME-class command (R180, R197) -/

section FrameCommand

variable {i : Instr} {s : State} {f : Frame} {keep : Nat → Byte → State → State}

theorem frameOf_responseOnly (h : frameOf i s = some (f, keep)) : ResponseOnly keep := by
  cases i <;> simp only [frameOf, Option.some.injEq, Prod.mk.injEq, reduceCtorEq] at h <;> rw [← h.2]
  case rdid => exact keepId_responseOnly
  all_goals exact fun _ _ _ _ => rfl

theorem frameOf_selectStep (i : Instr) (t : FrameTag) (s : State) : frameOf i (selectStep t s) = frameOf i s := by
  cases i <;> rfl

/-- No byte of a frame changes the latches that READ's frame reads, nor the DBUF that PP sends (R55, R191, R195). -/
theorem frameOf_byteStep (h : frameOf i s = some (f, keep)) (t : FrameTag) (k : Nat) :
    frameOf i (byteStep t true f keep k s) = some (f, keep) := by
  rw [← h]
  cases i <;> simp only [frameOf, Option.some.injEq, Prod.mk.injEq, reduceCtorEq, and_true] at h ⊢
  case read | pp =>
    obtain ⟨rfl, rfl⟩ := h
    rw [byteStep]
    split <;> rfl

/-- The one SendFrame of a FRAME-class command. -/
theorem frameOf_sends (h : frameOf i s = some (f, keep)) :
    SendsKeeping i .own f keep .finish (fun u => frameOf i u = some (f, keep)) where
  responseOnly := frameOf_responseOnly h
  select := fun u hf hb hp => by
    rw [exec_frame hb hf]
    simp only [seqFrame, hp]
  byte := fun u k hf hb hp => by
    rw [exec_frame hb hf]
    simp only [seqFrame, hp]
  deselect := fun u hf hb hp => by
    rw [exec_frame hb hf]
    simp only [seqFrame, hp]
  after_select := fun u hf => (frameOf_selectStep i .own u).trans hf
  after_byte := fun _ k hf => frameOf_byteStep hf .own k

theorem frameOf_first (h : frameOf i s = some (f, keep)) : firstPos i = .select .own ∧ initOf i = id := by
  cases i <;> simp only [frameOf, reduceCtorEq] at h <;> exact ⟨rfl, rfl⟩

theorem accepted_eq_accept (hi : initOf i = id) (s : State) :
    accepted i s = accept i (firstPos i) (recordCommand (encode i) s) := by
  rw [← accept_eq_accepted, hi, id]

/-- A whole FRAME-class command: acceptance, one frame with its response bytes kept, `Finish()`. -/
theorem frame_runs (hb : s.busy = false) (hc : s.cs = false) (h : issueCause i s = none)
    (hf : frameOf i (accepted i s) = some (f, keep)) :
    execN i (f.size + 4) s =
      .next (withResponse (keepResponses keep f.sent 0 (frameRx f.bytes s) s) (finished i (framed f.bytes s))) := by
  obtain ⟨hfirst, hinit⟩ := frameOf_first hf
  have hacc := accepted_eq_accept hinit
  have hwhole := (frameOf_sends hf).whole hf rfl hfirst (by rw [hacc]; exact hc)
  rw [execN_succ _ (exec_accepted hb h), execN_add 1 hwhole, execN_succ 0 (exec_finish rfl rfl), execN, finished, hacc,
    hacc, withResponse_keepResponses (frameOf_responseOnly hf) (x := s) rfl]
  rfl

/-- Such a command that keeps no response writes STATUS alone, but for what acceptance writes. -/
theorem frame_runs_keepNone (hb : s.busy = false) (hc : s.cs = false) (h : issueCause i s = none)
    (hf : frameOf i (accepted i s) = some (f, keepNone)) :
    execN i (f.size + 4) s = .next (finished i (framed f.bytes s)) := by
  obtain ⟨-, hinit⟩ := frameOf_first hf
  rw [frame_runs hb hc h hf, keepResponses_keepNone, finished, accepted_eq_accept hinit]
  rfl

end FrameCommand

/-- Settles O27: of the four bytes of the frame the last three are responses, kept in ID (R182). -/
theorem rdidKeepsIdentity : Obligations.RdidKeepsIdentity := by
  intro s hb hc
  have hcheck : issueCause .rdid s = none := by simp [issueCause, hc]
  exact frame_runs (f := frameF1 0x9F 3) (keep := keepId) hb hc hcheck rfl

/-- Settles O28: the second byte of each frame is its response, kept in its half of SR (R183, R184). -/
theorem statusReadsKeepTheByte : Obligations.StatusReadsKeepTheByte := by
  intro s hb hc
  have hcheck1 : issueCause .rdsr1 s = none := by simp [issueCause, hc]
  have hcheck2 : issueCause .rdsr2 s = none := by simp [issueCause, hc]
  exact ⟨frame_runs (f := frameF1 0x05 1) (keep := keepSr1) hb hc hcheck1 rfl,
    frame_runs (f := frameF1 0x35 1) (keep := keepSr2) hb hc hcheck2 rfl⟩

/-- Settles O29: a frame of one byte has no response (R185, R186, R187). -/
theorem opcodeOnlyFrames : Obligations.OpcodeOnlyFrames := by
  intro i op s hi hb hc
  have hrun (hf : frameOf i (accepted i s) = some (frameF0 op, keepNone)) (h : issueCause i s = none) :
      execN i 5 s = .next (finished i (framed [op] s)) := frame_runs_keepNone hb hc h hf
  simp only [List.mem_cons, Prod.mk.injEq, List.not_mem_nil, or_false] at hi
  obtain ⟨rfl, rfl⟩ | ⟨rfl, rfl⟩ | ⟨rfl, rfl⟩ := hi
  all_goals exact hrun rfl (by simp [issueCause, hc])

/-- The three address bytes of a frame, high to low (R128). -/
theorem addrBytes_eq (a : Addr) : addrBytes a = [addrByte a 1, addrByte a 2, addrByte a 3] := by
  simp only [addrBytes, List.cons.injEq, and_true]
  refine ⟨?_, ?_, ?_⟩ <;> apply BitVec.eq_of_toNat_eq <;>
    simp [addrByte, BitVec.extractLsb'_toNat, Nat.shiftRight_eq_div_pow]

/-- On MOSI a frame that listens is one that sends dummy bytes (R12, R127). -/
theorem bytes_frameF2 (op : Byte) (a : Addr) (n : Nat) :
    (frameF2 op a n).bytes = op :: addrBytes a ++ List.replicate n 0 := by
  have htx : (frameF2 op a n).tx = (frameF3 op a n fun _ => Config.dummy).tx := by
    funext k
    simp [Frame.tx, Frame.sent, Frame.header, frameF2, frameF3]
  rw [Frame.bytes, frameF2_size, htx, ← frameF3_size op a n fun _ => Config.dummy, ← Frame.bytes, bytes_frameF3,
    addrBytes_eq, List.map_const', List.length_range]
  rfl

/-- Settles O31: PP keeps no byte heard, and acceptance leaves the DBUF that its frame sends (R195). -/
theorem pageProgramSendsDbuf : Obligations.PageProgramSendsDbuf := by
  intro s hb hc hpage n
  have hlen : s.len.toNat ≤ 256 := by omega
  have hcheck : issueCause .pp s = none := by simp [issueCause, hc, hlen, hpage]
  have hrun := frame_runs_keepNone (i := .pp) (f := frameF3 0x02 s.addr n (dbufAt s)) hb hc hcheck rfl
  rw [bytes_frameF3, frameF3_size] at hrun
  rw [addrBytes_eq, show 8 + n = 4 + n + 4 by omega]
  exact hrun

/-- Settles O30: the header is four bytes, so response byte `j` is byte `4 + j` of the frame (R191). -/
theorem readFillsDbuf : Obligations.ReadFillsDbuf := by
  intro s hb hc hlen n tx
  have hcheck : issueCause .read s = none := by simpa [issueCause, hc] using hlen
  have hrun := frame_runs (i := .read) (f := frameF2 0x03 s.addr n) hb hc hcheck rfl
  have hsent : (frameF2 0x03 s.addr n).sent = 4 := rfl
  have hrx : (frameRx tx s).length = 4 + n := by simp [frameRx, tx, addrBytes]; omega
  rw [bytes_frameF2, frameF2_size, hsent, keepResponses_keepDbuf] at hrun
  refine ⟨{ finished .read (framed tx s) with dbuf := (keepResponses keepDbuf 4 0 (frameRx tx s) s).dbuf }, ?_, rfl,
    fun k => ?_⟩
  · rw [show 8 + n = 4 + n + 4 by omega]
    exact hrun
  · have hk := dbufAt_keepResponses 4 0 (frameRx tx s) s k
    rw [keepResponses_keepDbuf, hrx] at hk
    exact hk.trans (if_congr (by omega) rfl rfl)

/-- Settles O32: with CS = 0 the length is the one check READ and PP may fail (R190, R194). -/
theorem lengthChecks : Obligations.LengthChecks := by
  intro s hb hc
  constructor <;> split
  case left.isTrue h | right.isTrue h => exact exec_rejected hb (by simp [issueCause, hc, h])
  case left.isFalse h | right.isFalse h => exact exec_accepted hb (by simp [issueCause, hc, h])

end Sys2Proof.Machine
end

section
/-! PROOFS. The statements of WAIT_READY (42_status_poll.md) that end it: the poll that finds the chip ready, and the
poll that reaches its bound. -/

namespace Sys2Proof.Machine

open Sys2Proof.Claims

theorem exec_waitReadyFail {s : State} {c : Cause} (hb : s.busy = true) (hp : s.pos = .fail c) :
    exec .waitReady s = .next (pollFailStep c s) := by
  rw [exec_busy hb]
  simp only [seqOf, seqWaitReady, hp]

/-- Acceptance changes nothing that a chip's samples depend on (R302). -/
theorem allBusy_accepted {n : Nat} {s : State} (h : allBusy n s) : allBusy n (accepted .waitReady s) :=
  (allBusy_congr rfl rfl rfl n).2 h

/-- With no raw frame open WAIT_READY is accepted (R161, R302). -/
theorem exec_waitReady_accepted {s : State} (hb : s.busy = false) (hc : s.cs = false) :
    exec .waitReady s = .next (accepted .waitReady s) := exec_accepted hb (by simp [issueCause, hc])

/-- The whole poll of an accepted WAIT_READY, its frame closed and its samples assigned (R220). -/
theorem waitReadyPoll_closed {s : State} (hc : s.cs = false) {n : Nat} (h0 : 0 < n) :
    deselect true (assignSample (polled n (pollBegun .own true (accepted .waitReady s)))) =
      setPos (.sample .own) (setPhase .transfer (sampled n s (accepted .waitReady (framed (pollTx n) s)))) :=
  poll_closed .own true (s := accepted .waitReady s) hc h0

/-- Settles O34: acceptance, a poll that a clear sample ends, its Deselect, then `Finish()` (R220, R221). -/
theorem waitReadyEndsWhenReady : Obligations.WaitReadyEndsWhenReady := by
  intro n s hb hc hl h hr
  have hpoll := poll_ready (s := accepted .waitReady s) waitReady_polls rfl rfl hc hl (allBusy_accepted h) hr
  have hclosed := waitReadyPoll_closed hc n.succ_pos
  rw [show n + 6 = n + 3 + 2 + 1 from rfl, execN_succ _ (exec_waitReady_accepted hb hc), execN_add 2 hpoll,
    execN_succ 1 (exec_waitReadyEnd rfl rfl), execN_succ 0 (exec_finish rfl rfl), execN, pollEndStep, deselectStep,
    deselect_assignSample_setPos, hclosed]
  rfl

/-- Settles O35: acceptance, a poll that its bound ends, then `Fail(UNRESPONSIVE)`, which closes the frame (R222,
R306). -/
theorem waitReadyUnresponsive : Obligations.WaitReadyUnresponsive := by
  intro s hb hc hl n h
  have hlimit : (accepted .waitReady s).lLimit.toNat = n := rfl
  have h0 : 0 < n := Nat.pos_of_ne_zero fun e => hl (BitVec.eq_of_toNat_eq e)
  have hpoll := poll_unresponsive (s := accepted .waitReady s) waitReady_polls rfl rfl hc hl (allBusy_accepted h)
  have hclosed := waitReadyPoll_closed hc h0
  rw [hlimit] at hpoll
  rw [show n + 4 = n + 2 + 1 + 1 from rfl, execN_succ _ (exec_waitReady_accepted hb hc), execN_add 1 hpoll,
    execN_succ 0 (exec_waitReadyFail rfl rfl), execN, pollFailStep, fail, deselect_assignSample_setPos, hclosed]
  rfl

end Sys2Proof.Machine
end

section
/-! PROOFS. The statement of READ_ID (43_identification.md): acceptance, three SendFrames one after another,
`Finish()`. -/

namespace Sys2Proof.Machine

open Sys2Proof.Claims

/-- The SendFrames of READ_ID, with what becomes of their response bytes and the position after them (R240). -/
def readIdFrame : FrameTag → Option (Frame × (Nat → Byte → State → State) × Pos)
  | .ident => some (frameF1 0x9F 3, keepId, .select .status1)
  | .status1 => some (frameF1 0x05 1, keepSr1, .select .status2)
  | .status2 => some (frameF1 0x35 1, keepSr2, .finish)
  | _ => none

section ReadIdFrame

variable {t : FrameTag} {f : Frame} {keep : Nat → Byte → State → State} {after : Pos}

theorem readIdFrame_responseOnly (h : readIdFrame t = some (f, keep, after)) : ResponseOnly keep := by
  cases t <;> simp only [readIdFrame, Option.some.injEq, Prod.mk.injEq, reduceCtorEq] at h <;>
    obtain ⟨-, rfl, -⟩ := h
  case ident => exact keepId_responseOnly
  case status1 | status2 => exact fun _ _ _ _ => rfl

/-- What `seqReadId` says of each frame, in the terms of SendFrame (R180, R240). -/
theorem readIdFrame_sends (h : readIdFrame t = some (f, keep, after)) :
    SendsKeeping .readId t f keep after fun _ => True := by
  refine ⟨readIdFrame_responseOnly h, fun s _ hb hp => ?_, fun s k _ hb hp => ?_, fun s _ hb hp => ?_,
    fun _ _ => trivial, fun _ _ _ => trivial⟩
  all_goals
    rw [exec_busy hb]
    cases t <;> simp only [readIdFrame, Option.some.injEq, Prod.mk.injEq, reduceCtorEq] at h <;>
      obtain ⟨rfl, rfl, rfl⟩ := h <;> simp only [seqOf, seqReadId, hp]

/-- The state after a whole SendFrame: the frame on the wire, its response bytes kept (R180). -/
def frameKept (f : Frame) (keep : Nat → Byte → State → State) (s : State) : State :=
  setPhase .finish (withResponse (keepResponses keep f.sent 0 (frameRx f.bytes s) s) (framed f.bytes s))

/-- READ_ID goes on from the end of a SendFrame with the rest of its steps (R240). -/
theorem readIdFrame_runs (h : readIdFrame t = some (f, keep, after)) {s : State} (n : Nat) (hb : s.busy = true)
    (hp : s.pos = .select t) (hc : s.cs = false) :
    execN .readId (f.size + 2 + n) s = execN .readId n (setPos after (frameKept f keep s)) :=
  execN_add n ((readIdFrame_sends h).whole trivial hb hp hc)

end ReadIdFrame

/-- Settles O37: acceptance, the three SendFrames of 6, 4 and 4 steps, each from the chip and the history that the one
before it left, and `Finish()` (R180, R240). Acceptance writes nothing a frame depends on, and no frame writes what an
earlier one kept, so the state at the end is the one stated. -/
theorem readIdThreeFrames : Obligations.ReadIdThreeFrames := by
  intro s hb hc tx s₁ s₂
  have hcheck : issueCause .readId s = none := by simp [issueCause, isTransport, hc]
  let a := accepted .readId s
  let u₁ := setPos (.select .status1) (frameKept (frameF1 0x9F 3) keepId a)
  let u₂ := setPos (.select .status2) (frameKept (frameF1 0x05 1) keepSr1 u₁)
  let u₃ := setPos .finish (frameKept (frameF1 0x35 1) keepSr2 u₂)
  calc execN .readId 16 s
      = execN .readId 15 a := execN_succ 15 (exec_accepted hb hcheck)
    _ = execN .readId 9 u₁ := readIdFrame_runs (t := .ident) rfl 9 rfl rfl hc
    _ = execN .readId 5 u₂ := readIdFrame_runs (t := .status1) rfl 5 rfl rfl hc
    _ = execN .readId 1 u₃ := readIdFrame_runs (t := .status2) rfl 1 rfl rfl hc
    _ = .next (finish u₃) := execN_succ 0 (exec_finish rfl rfl)
    _ = _ := rfl

end Sys2Proof.Machine
end

section
/-! PROOFS. The statements of the bulk commands (44_bulk_transfer.md), what they share: what a history shows of the
SPI port and of the other ports, the bytes a sweep hears, and the frame that a sweep is. -/

namespace Sys2Proof.Machine

open Sys2Proof.Claims

/-! ### The ports other than SPI (R86, R32) -/

/-- The stream and progress events of a history, in order (log 19). -/
def offWire (l : List BusEvent) : List BusEvent := l.filter fun e => !onWire e

@[simp] theorem offWire_append (l m : List BusEvent) : offWire (l ++ m) = offWire l ++ offWire m :=
  List.filter_append ..

@[simp] theorem offWire_cons (e : BusEvent) (l : List BusEvent) :
    offWire (e :: l) = if onWire e then offWire l else e :: offWire l := by
  cases h : onWire e <;> simp [offWire, h]

@[simp] theorem offWire_nil : offWire [] = [] := rfl

@[simp] theorem offWire_exchanges (tx r : List Byte) : offWire (List.zipWith .exchange tx r) = [] := by
  induction tx generalizing r with
  | nil => rfl
  | cons x tx ih => cases r <;> simp [ih]

@[simp] theorem offWire_frameEvents (tx r : List Byte) : offWire (frameEvents tx r) = [] := by simp [frameEvents]

@[simp] theorem chipSaw_frameEvents (tx r : List Byte) : chipSaw (frameEvents tx r) = frameEvents tx r := by
  simp [frameEvents]

theorem offWire_select (s : State) : offWire (select s).events = offWire s.events := by
  rw [select_events]
  split <;> simp

theorem offWire_deselect (w : Bool) (s : State) : offWire (deselect w s).events = offWire s.events := by
  rw [deselect_events]
  split <;> simp

theorem sinkWrites_append (l m : List BusEvent) : sinkWrites (l ++ m) = sinkWrites l ++ sinkWrites m :=
  List.filterMap_append ..

theorem progressEvents_append (l m : List BusEvent) :
    progressEvents (l ++ m) = progressEvents l ++ progressEvents m := List.filterMap_append ..

theorem sourceReads_append (l m : List BusEvent) : sourceReads (l ++ m) = sourceReads l ++ sourceReads m :=
  List.filterMap_append ..

theorem sinkWrites_offWire (l : List BusEvent) : sinkWrites (offWire l) = sinkWrites l := by
  induction l with
  | nil => rfl
  | cons e l ih => cases e <;> simp_all [sinkWrites]

theorem progressEvents_offWire (l : List BusEvent) : progressEvents (offWire l) = progressEvents l := by
  induction l with
  | nil => rfl
  | cons e l ih => cases e <;> simp_all [progressEvents]

theorem sourceReads_offWire (l : List BusEvent) : sourceReads (offWire l) = sourceReads l := by
  induction l with
  | nil => rfl
  | cons e l ih => cases e <;> simp_all [sourceReads]

/-- What a history that grew off the wire by `m` shows of the streams and of progress. -/
theorem ports_grown {l l' m : List BusEvent} (h : offWire l' = offWire l ++ m) :
    sinkWrites l' = sinkWrites l ++ sinkWrites m ∧ progressEvents l' = progressEvents l ++ progressEvents m ∧
      sourceReads l' = sourceReads l ++ sourceReads m := by
  rw [← sinkWrites_offWire l', ← progressEvents_offWire l', ← sourceReads_offWire l', h, ← sinkWrites_offWire l,
    ← progressEvents_offWire l, ← sourceReads_offWire l]
  exact ⟨sinkWrites_append .., progressEvents_append .., sourceReads_append ..⟩

/-- A history that did not grow off the wire shows the same. -/
theorem ports_same {l l' : List BusEvent} (h : offWire l' = offWire l) :
    sinkWrites l' = sinkWrites l ∧ progressEvents l' = progressEvents l ∧ sourceReads l' = sourceReads l := by
  simpa [sinkWrites, progressEvents, sourceReads] using ports_grown (m := []) (h.trans (List.append_nil _).symm)

/-- One more progress event of a sweep (R254, R265, R275). -/
theorem sweepProgress_succ (n : Nat) : sweepProgress (n + 1) = sweepProgress n ++ [((n + 1) * 0x4000, 0x800000)] := by
  rw [sweepProgress, List.range_succ, List.map_append]
  rfl

/-! ### Pieces of the bytes transferred -/

theorem piece_append_left {d : List Byte} {n k : Nat} (x : List Byte) (h : (k + 1) * n ≤ d.length) :
    piece (d ++ x) n k = piece d n k := by
  rw [Nat.succ_mul] at h
  rw [piece, piece, List.drop_append_of_le_length (by omega), List.take_append_of_le_length (by simp; omega)]

/-- The piece after `c` whole ones. -/
theorem piece_append_right {d x : List Byte} {n c : Nat} (hd : d.length = c * n) (hx : x.length = n) :
    piece (d ++ x) n c = x := by
  rw [piece, ← hd, List.drop_left, ← hx, List.take_length]

/-! ### The bytes heard in a run (R84) -/

/-- From `s` to `t` the bytes `tx` went out and `rx` came in, and nothing else crossed the SPI port. A chip that has
settled on enough bytes answered them in order (log 4). -/
structure Heard (tx rx : List Byte) (s t : State) : Prop where
  length : rx.length = tx.length
  wire : chipSaw t.events = chipSaw s.events ++ List.zipWith .exchange tx rx
  settled : ∀ bs, s.flash = .oracle bs → tx.length ≤ bs.length →
    rx = bs.take tx.length ∧ t.flash = .oracle (bs.drop tx.length)

/-- A run that adds the exchanges of `tx` to what the chip saw. -/
theorem Heard.of_exchanged {tx : List Byte} {s t : State}
    (he : chipSaw t.events = chipSaw s.events ++ List.zipWith .exchange tx (heardFrom s tx))
    (hf : t.flash = tx.foldl Flash.clocked s.flash) : Heard tx (heardFrom s tx) s t where
  length := heardFrom_length s tx
  wire := he
  settled := fun bs h hl => ⟨by rw [heardFrom, h, heard_oracle _ _ _ _ hl], by rw [hf, h, clocked_oracle]⟩

/-- A run of `n` dummy bytes, whatever it adds off the wire (R12). -/
theorem Heard.of_nextBytes {n : Nat} {m : List BusEvent} {s t : State}
    (he : t.events = s.events ++ (List.zipWith .exchange (List.replicate n 0) (nextBytes n s) ++ m))
    (hm : chipSaw m = []) (hf : t.flash = (List.replicate n (0 : Byte)).foldl Flash.clocked s.flash) :
    Heard (List.replicate n 0) (nextBytes n s) s t := by
  refine Heard.of_exchanged ?_ hf
  rw [he, chipSaw_append, chipSaw_append, hm, List.append_nil, chipSaw_exchanges, nextBytes]

theorem Heard.refl (s : State) : Heard [] [] s s := ⟨rfl, by simp, fun _ h _ => ⟨rfl, h⟩⟩

theorem Heard.trans {tx rx tx' rx' : List Byte} {s t u : State} (h : Heard tx rx s t) (h' : Heard tx' rx' t u) :
    Heard (tx ++ tx') (rx ++ rx') s u where
  length := by simp [h.length, h'.length]
  wire := by rw [h'.wire, h.wire, List.append_assoc, List.zipWith_append h.length.symm]
  settled := fun bs hs hl => by
    rw [List.length_append] at hl ⊢
    obtain ⟨hr, ht⟩ := h.settled bs hs (by omega)
    obtain ⟨hr', hu⟩ := h'.settled _ ht (by rw [List.length_drop]; omega)
    exact ⟨by rw [hr, hr', List.take_add], by rw [hu, List.drop_drop]⟩

/-- What an oracle has settled on stays through `Select()`. -/
theorem select_oracle {s : State} {bs : List Byte} (h : s.flash = .oracle bs) : (select s).flash = .oracle bs := by
  rw [select_flash, h]
  split <;> rfl

/-- The dummy bytes of `c` rounds of `k` and of one more. -/
theorem replicate_succ_mul (c n k : Nat) (hn : n = k) :
    List.replicate ((c + 1) * k) (0 : Byte) = List.replicate (c * k) 0 ++ List.replicate n 0 := by
  rw [hn, ← List.replicate_add, Nat.succ_mul]

/-- The bytes between `Select()` and `Deselect()` are one frame on the wire (R85). -/
theorem Heard.framed {tx rx : List Byte} {s t : State} (h : Heard tx rx (select s) t) (hs : s.cs = false)
    (ht : t.cs = true) : chipSaw (deselect true t).events = chipSaw s.events ++ frameEvents tx rx := by
  simp [ht, h.wire, hs, frameEvents]

/-! ### The frame of a sweep (R252, R270) -/

/-- The SEQ primitives of a sweep's frame are among the command's. -/
structure Sweeps (i : Instr) : Prop where
  select : ∀ s, s.busy = true → s.pos = .select .own → exec i s = .next (selectStep .own s)
  header : ∀ s k, s.busy = true → s.pos = .byte .own k → exec i s = .next (headerStep k s)
  close : ∀ s, s.busy = true → s.pos = .deselect .own → exec i s = .next (sweepEndStep s)

theorem dump_sweeps : Sweeps .dump where
  select := fun s hb hp => by rw [exec_busy hb]; simp [seqOf, seqDump, hp]
  header := fun s k hb hp => by rw [exec_busy hb]; simp [seqOf, seqDump, hp]
  close := fun s hb hp => by rw [exec_busy hb]; simp [seqOf, seqDump, hp]

theorem verify_sweeps : Sweeps .verify where
  select := fun s hb hp => by rw [exec_busy hb]; simp [seqOf, seqVerify, hp]
  header := fun s k hb hp => by rw [exec_busy hb]; simp [seqOf, seqVerify, hp]
  close := fun s hb hp => by rw [exec_busy hb]; simp [seqOf, seqVerify, hp]

/-- A sweep at its data loop: the frame opened and its header sent. -/
def sweepOpened (s : State) : State := setPos .data (exchanged sweepHeader (Machine.select s))

theorem offWire_sweepOpened (s : State) : offWire (sweepOpened s).events = offWire s.events := by
  rw [← offWire_select s]
  simp [sweepOpened, exchanged, -select_events]

theorem sweepOpened_heard (s : State) :
    Heard sweepHeader (heardFrom (select s) sweepHeader) (select s) (sweepOpened s) :=
  Heard.of_exchanged (by simp [sweepOpened, exchanged]) rfl

section Sweeps

variable {i : Instr} (W : Sweeps i) {s : State} (hb : s.busy = true)

include W hb

/-- The header from byte `k` on, up to the data loop. -/
theorem sweep_header {k m : Nat} (hp : s.pos = .byte .own k) (hm : 0 < m) (hk : k + m = 4) :
    execN i m s = .next (setPos .data (exchanged (sweepHeader.drop k) s)) := by
  induction m generalizing k s with
  | zero => cases hm
  | succ m ih =>
    have htx : sweepHeader.drop k = sweepFrame.tx k :: sweepHeader.drop (k + 1) := by
      obtain rfl | rfl | rfl | rfl : k = 0 ∨ k = 1 ∨ k = 2 ∨ k = 3 := by omega
      all_goals rfl
    rw [execN_succ m (W.header s k hb hp), htx, exchanged_cons]
    rcases afterHeader_cases k with ⟨hlt, e⟩ | ⟨hlast, e⟩
    · rw [ih (s := headerStep k s) hb e (by omega) (by omega)]
      rfl
    · obtain rfl : m = 0 := by omega
      obtain rfl : k = 3 := by omega
      rw [execN, headerStep, e]
      congr 1
      apply State.ext <;> simp [exchanged, sweepHeader]

theorem sweep_opens (hp : s.pos = .select .own) : execN i 5 s = .next (sweepOpened s) := by
  rw [execN_succ 4 (W.select s hb hp), sweep_header W (s := selectStep .own s) hb rfl (by omega) rfl]
  rfl

/-- The sweep's `Deselect()` and `Finish()`. -/
theorem sweep_closes (hp : s.pos = .deselect .own) : execN i 2 s = .next (finish (sweepEndStep s)) := by
  rw [execN_succ 1 (W.close s hb hp), execN_succ 0 (exec_finish (by simp [sweepEndStep, hb]) rfl), execN]

end Sweeps

/-- With no raw frame open a bulk command is accepted (R161, R302). -/
theorem exec_bulk_accepted {i : Instr} {s : State} (hi : isBulk i = true) (hb : s.busy = false) (hc : s.cs = false) :
    exec i s = .next (accepted i s) := by
  refine exec_accepted hb ?_
  cases i <;> simp only [isBulk, Bool.false_eq_true] at hi <;> simp [issueCause, hc]

end Sys2Proof.Machine
end

section
/-! PROOFS. The statements of DUMP (R252 to R255): the rounds of its loop, then the whole command where the sink takes
every chunk and where it refuses one. -/

namespace Sys2Proof.Machine

open Sys2Proof.Claims

/-! ### The rounds of DUMP (R252, R254) -/

/-- `s` with what DUMP's loop writes taken from `x`. -/
def withDump (x s : State) : State :=
  { s with
    phase := x.phase
    pos := x.pos
    chunkIx := x.chunkIx
    pageIx := x.pageIx
    byteIx := x.byteIx
    cursor := x.cursor
    pct := x.pct
    wbuf := x.wbuf
    events := x.events
    flash := x.flash
    draws := x.draws
    sink := x.sink }

/-- What DUMP's chunk `k` of the bytes `d` shows on the stream and progress ports (R252, R254). -/
def dumpPorts (d : List Byte) (k : Nat) : List BusEvent :=
  [.sinkWrite (piece d 0x4000 k) true, .progress ((k + 1) * 0x4000) 0x800000]

/-- `c` rounds of DUMP lead from `s` to `t`, the bytes `d` heard. -/
structure Dumped (c : Nat) (d : List Byte) (s t : State) : Prop where
  heard : Heard (List.replicate (c * 0x4000) 0) d s t
  ports : offWire t.events = offWire s.events ++ (List.range c).flatMap (dumpPorts d)
  last : ∀ k, c = k + 1 → ∀ j, wbufAt t j = if j < 0x4000 then (piece d 0x4000 k).getD j 0 else wbufAt s j
  above : ∀ j, 0x4000 ≤ j → wbufAt t j = wbufAt s j
  cursor : t.cursor = BitVec.ofNat 24 (c * 0x4000)
  pct : t.pct = BitVec.ofNat 8 (c * 100 / 512)
  pageIx : t.pageIx = 0
  next : c < 512 → AtChunk c t
  done : c = 512 → t.pos = .deselect .own
  frame : t = withDump t s

theorem Dumped.length {c : Nat} {d : List Byte} {s t : State} (D : Dumped c d s t) : d.length = c * 0x4000 := by
  rw [D.heard.length, List.length_replicate]

theorem Dumped.refl {s : State} (A : AtChunk 0 s) (hp : s.pct = 0) (hg : s.pageIx = 0) : Dumped 0 [] s s where
  heard := by simpa using Heard.refl s
  ports := by simp
  last := nofun
  above := fun _ _ => rfl
  cursor := A.cursor
  pct := hp
  pageIx := hg
  next := fun _ => A
  done := nofun
  frame := rfl

/-- Chunks already transferred are not changed by later bytes. -/
theorem flatMap_dumpPorts_append {c : Nat} {d : List Byte} (x : List Byte) (h : d.length = c * 0x4000) :
    (List.range c).flatMap (dumpPorts (d ++ x)) = (List.range c).flatMap (dumpPorts d) :=
  List.flatMap_congr fun k hk => by
    have := List.mem_range.1 hk
    rw [dumpPorts, dumpPorts, piece_append_left x (by omega)]

/-- One more round (R252, R254). -/
theorem Dumped.round {c : Nat} {d : List Byte} {s t : State} {r : List Bool} (D : Dumped c d s t) (hc : c < 512)
    (hs : t.sink = true :: r) :
    ∃ u x, execN .dump 0x4002 t = .next u ∧ Dumped (c + 1) (d ++ x) s u ∧ u.sink = r := by
  obtain ⟨n, hn⟩ : ∃ n, n = 0x4000 := ⟨_, rfl⟩
  obtain ⟨u, hx, hw, hu⟩ := dump_round (D.next hc) r hs n hn
  have hlen : (nextBytes n t).length = 0x4000 := by rw [nextBytes, heardFrom_length, List.length_replicate, hn]
  have hpiece : piece (d ++ nextBytes n t) 0x4000 c = nextBytes n t := piece_append_right D.length hlen
  have hheard : Heard (List.replicate n 0) (nextBytes n t) t u :=
    .of_nextBytes (congrArg State.events hu) rfl (congrArg State.flash hu)
  refine ⟨u, nextBytes n t, by rw [← hx, hn], ?_, by rw [hu]⟩
  constructor
  case heard => rw [replicate_succ_mul c n _ hn]; exact D.heard.trans hheard
  case ports =>
    rw [List.range_succ, List.flatMap_append, flatMap_dumpPorts_append _ D.length, ← List.append_assoc, ← D.ports, hu]
    simp [dumpPorts, hpiece]
  case last =>
    rintro k hk j
    obtain rfl : k = c := by omega
    rw [hpiece, hw, hn]
    split
    · rfl
    · exact D.above j (by omega)
  case above => exact fun j hj => by rw [hw, if_neg (by omega), D.above j hj]
  case cursor => rw [hu]
  case pct => rw [hu]
  case pageIx => rw [hu]; simp [D.pageIx]
  case next =>
    intro hlt
    refine ⟨?_, ?_, ?_, ?_, hlt, ?_⟩ <;> rw [hu]
    · exact (D.next hc).busy
    all_goals simp [hlt]
  case done => intro he; rw [hu]; simp [he]
  case frame =>
    calc u = withDump u t := by rw [hu]; rfl
      _ = withDump u s := by rw [D.frame]; rfl

/-- As many rounds as the sink takes chunks (R252). -/
theorem dump_rounds {s : State} (A : AtChunk 0 s) (hp : s.pct = 0) (hg : s.pageIx = 0) (c : Nat) (hc : c ≤ 512)
    (r : List Bool) (hs : s.sink = List.replicate c true ++ r) :
    ∃ t d, execN .dump (c * 0x4002) s = .next t ∧ Dumped c d s t ∧ t.sink = r := by
  induction c generalizing r with
  | zero => exact ⟨s, [], by rw [Nat.zero_mul]; rfl, Dumped.refl A hp hg, hs⟩
  | succ c ih =>
    rw [List.replicate_succ', List.append_assoc] at hs
    obtain ⟨t, d, hx, D, ht⟩ := ih (by omega) _ hs
    obtain ⟨u, x, hx', D', hu⟩ := D.round hc ht
    exact ⟨u, d ++ x, by rw [Nat.succ_mul, execN_add _ hx, hx'], D', hu⟩

/-! ### What the rounds show on the ports -/

theorem sinkWrites_dumpPorts (d : List Byte) (c : Nat) :
    sinkWrites ((List.range c).flatMap (dumpPorts d)) =
      (List.range c).map fun k => (piece d 0x4000 k, true) := by
  induction c with
  | zero => rfl
  | succ c ih =>
    rw [List.range_succ, List.flatMap_append, List.flatMap_singleton, sinkWrites_append, ih, List.map_append]
    rfl

theorem progressEvents_dumpPorts (d : List Byte) (c : Nat) :
    progressEvents ((List.range c).flatMap (dumpPorts d)) = sweepProgress c := by
  induction c with
  | zero => rfl
  | succ c ih =>
    rw [List.range_succ, List.flatMap_append, List.flatMap_singleton, progressEvents_append, ih, sweepProgress_succ]
    rfl

theorem sourceReads_dumpPorts (d : List Byte) (c : Nat) : sourceReads ((List.range c).flatMap (dumpPorts d)) = [] := by
  induction c with
  | zero => rfl
  | succ c ih =>
    rw [List.range_succ, List.flatMap_append, List.flatMap_singleton, sourceReads_append, ih]
    rfl

/-! ### DUMP as a whole -/

/-- DUMP at its data loop: accepted, its frame opened and its header sent. -/
def dumpOpened (s : State) : State := sweepOpened (accepted .dump s)

/-- DUMP up to the end of `c` rounds, and the bytes heard in its frame by then. -/
theorem dump_runs {s : State} (hb : s.busy = false) (hc : s.cs = false) (c : Nat) (hle : c ≤ 512) (r : List Bool)
    (hs : s.sink = List.replicate c true ++ r) :
    ∃ t d, execN .dump (6 + c * 0x4002) s = .next t ∧ Dumped c d (dumpOpened s) t ∧ t.sink = r := by
  have h6 : execN .dump 6 s = .next (dumpOpened s) := by
    rw [execN_succ 5 (exec_bulk_accepted rfl hb hc), sweep_opens dump_sweeps rfl rfl]
    rfl
  have A : AtChunk 0 (dumpOpened s) := ⟨rfl, rfl, rfl, rfl, by omega, rfl⟩
  obtain ⟨t, d, hx, D, ht⟩ := dump_rounds A rfl rfl c hle r hs
  exact ⟨t, d, by rw [execN_add _ h6, hx], D, ht⟩

/-- The bytes a sweep of DUMP hears, its header among them. -/
theorem dump_heard {tx d : List Byte} {s t : State} (h : Heard tx d (dumpOpened s) t) :
    Heard (sweepHeader ++ tx) (heardFrom (select (accepted .dump s)) sweepHeader ++ d)
      (select (accepted .dump s)) t := (sweepOpened_heard _).trans h

/-- What `c` rounds of DUMP show on the stream and progress ports (R252, R254). -/
theorem Dumped.shows {c : Nat} {d : List Byte} {s t : State} (D : Dumped c d (dumpOpened s) t) :
    sinkWrites t.events = sinkWrites s.events ++ ((List.range c).map fun k => (piece d 0x4000 k, true)) ∧
      progressEvents t.events = progressEvents s.events ++ sweepProgress c ∧
      sourceReads t.events = sourceReads s.events := by
  have hstart : offWire (dumpOpened s).events = offWire s.events := offWire_sweepOpened _
  obtain ⟨hsinks, hprogress, hreads⟩ := ports_grown (hstart ▸ D.ports)
  rw [sinkWrites_dumpPorts] at hsinks
  rw [progressEvents_dumpPorts] at hprogress
  rw [sourceReads_dumpPorts, List.append_nil] at hreads
  exact ⟨hsinks, hprogress, hreads⟩

/-- Settles O38: acceptance and the header, 512 rounds, `Deselect()` and `Finish()` (R252, R254, R255). -/
theorem dumpStreamsTheDevice : Obligations.DumpStreamsTheDevice := by
  intro s r hb hc hs
  obtain ⟨v, d, hx, D, hsink⟩ := dump_runs hb hc 512 (Nat.le_refl _) r hs
  have hcs : v.cs = true := by rw [D.frame]; rfl
  have hbusy : v.busy = true := by rw [D.frame]; rfl
  have hend : execN .dump 8389640 s = .next (finish (sweepEndStep v)) :=
    (execN_add 2 hx).trans (sweep_closes dump_sweeps hbusy (D.done rfl))
  have H := dump_heard D.heard
  have hn : 512 * 0x4000 = 0x800000 := rfl
  have hlen := D.length
  rw [hn] at H hlen
  obtain ⟨hsinks, hprogress, hreads⟩ := D.shows
  obtain ⟨gsinks, gprogress, greads⟩ := ports_same (l := v.events) (l' := (finish (sweepEndStep v)).events)
    (offWire_deselect true v)
  rw [← gsinks] at hsinks
  rw [← gprogress] at hprogress
  rw [← greads] at hreads
  have hframe : finish (sweepEndStep v) = finish (sweepEndStep (withDump v (dumpOpened s))) :=
    congrArg (fun u => finish (sweepEndStep u)) D.frame
  refine ⟨_, heardFrom (select (accepted .dump s)) sweepHeader, d, hend, heardFrom_length .., hlen, H.framed hc hcs,
    hsinks, hprogress, hreads, fun bs hbs hl => ?_, fun j => D.last 511 rfl j, ?_⟩
  · have hfit : (sweepHeader ++ List.replicate 0x800000 (0 : Byte)).length = 0x800004 := by
      rw [List.length_append, List.length_replicate]
      rfl
    rw [← hfit] at hl ⊢
    exact (H.settled bs (select_oracle hbs) hl).1
  · have hcursor : v.cursor = 0x800000 := D.cursor
    have hpct : v.pct = 100 := D.pct
    have hevents := congrArg State.events hframe
    have hflash := congrArg State.flash hframe
    refine hframe.trans ?_
    apply State.ext
    case events => exact hevents.symm
    case flash => exact hflash.symm
    case cs => exact hc.symm
    case cursor => exact hcursor
    case pct => exact hpct
    case pageIx => exact D.pageIx
    case sink => exact hsink
    all_goals rfl

theorem exec_dumpFail {s : State} {c : Cause} (hb : s.busy = true) (hp : s.pos = .fail c) :
    exec .dump s = .next (fail c s) := by
  rw [exec_busy hb]
  simp [seqOf, seqDump, hp]

/-- The sink's answers to `c` chunks taken and one refused. -/
theorem sinkWrites_refused {c : Nat} {d x : List Byte} (hd : d.length = c * 0x4000) (hx : x.length = 0x4000) :
    ((List.range c).map fun k => (piece d 0x4000 k, true)) ++ [(x, false)] =
      (List.range (c + 1)).map fun k => (piece (d ++ x) 0x4000 k, decide (k < c)) := by
  rw [List.range_succ, List.map_append, List.map_singleton, piece_append_right hd hx, decide_eq_false (Nat.lt_irrefl c)]
  refine congrArg (· ++ _) (List.map_congr_left fun k hk => ?_)
  have hlt := List.mem_range.1 hk
  rw [piece_append_left x (by omega), decide_eq_true hlt]

/-- Chunk `c` refused: from `t`, which ended the rounds before it, to `u`; `d` are all the bytes heard since `s`, `x`
those of the chunk (R253). -/
structure Refused (c : Nat) (d x : List Byte) (s t u : State) : Prop where
  heard : Heard (List.replicate ((c + 1) * 0x4000) 0) d s u
  length : x.length = 0x4000
  ports : offWire u.events = offWire t.events ++ [.sinkWrite x false]
  cursor : u.cursor = t.cursor
  pct : u.pct = t.pct
  pageIx : u.pageIx = t.pageIx
  pos : u.pos = .fail .snkRej
  frame : u = withDump u s

theorem Dumped.refused {c : Nat} {d : List Byte} {s t : State} {r : List Bool} (D : Dumped c d s t) (hc : c < 512)
    (hs : t.sink = false :: r) :
    ∃ u x, execN .dump 0x4001 t = .next u ∧ Refused c (d ++ x) x s t u ∧ u.sink = r := by
  obtain ⟨n, hn⟩ : ∃ n, n = 0x4000 := ⟨_, rfl⟩
  obtain ⟨u, hx, -, hu⟩ := dump_chunk (D.next hc) false r hs n hn
  have hlen : (nextBytes n t).length = 0x4000 := by rw [nextBytes, heardFrom_length, List.length_replicate, hn]
  have hheard : Heard (List.replicate n 0) (nextBytes n t) t u :=
    .of_nextBytes (congrArg State.events hu) rfl (congrArg State.flash hu)
  refine ⟨u, nextBytes n t, by rw [← hx, hn], ?_, by rw [hu]⟩
  constructor
  case heard => rw [replicate_succ_mul c n _ hn]; exact D.heard.trans hheard
  case length => exact hlen
  case frame =>
    calc u = withDump u t := by rw [hu]; rfl
      _ = withDump u s := by rw [D.frame]; rfl
  case ports => rw [hu]; simp
  all_goals rw [hu]
  rfl

/-- Settles O39: acceptance and the header, `c` rounds, the refused chunk, and `Fail(SNK_REJ)` (R253). -/
theorem dumpSinkRejection : Obligations.DumpSinkRejection := by
  intro c s r hlt hb hc hs
  obtain ⟨v, d, hx, D, hsink⟩ := dump_runs hb hc c hlt.le _ hs
  obtain ⟨u, x, hx', R, husink⟩ := D.refused hlt hsink
  have hcs : u.cs = true := by rw [R.frame]; rfl
  have hbusy : u.busy = true := by rw [R.frame]; rfl
  have hend : execN .dump (6 + (c + 1) * 0x4002) s = .next (fail .snkRej u) := by
    rw [show 6 + (c + 1) * 0x4002 = 6 + c * 0x4002 + (0x4001 + 1) by omega, execN_add _ hx, execN_add _ hx',
      execN_succ 0 (exec_dumpFail hbusy R.pos), execN]
  obtain ⟨hsinks, hprogress, -⟩ := D.shows
  obtain ⟨gsinks, gprogress, -⟩ := ports_grown (l' := (fail .snkRej u).events) ((offWire_deselect true u).trans R.ports)
  rw [hsinks, List.append_assoc, show sinkWrites [.sinkWrite x false] = [(x, false)] from rfl,
    sinkWrites_refused D.length R.length] at gsinks
  rw [hprogress, show progressEvents [.sinkWrite x false] = [] from rfl, List.append_nil] at gprogress
  have hfail : fail .snkRej u = fail .snkRej (withDump u (dumpOpened s)) := congrArg (fail .snkRej) R.frame
  refine ⟨_, heardFrom (select (accepted .dump s)) sweepHeader, d ++ x, hend, heardFrom_length .., ?_,
    (dump_heard R.heard).framed hc hcs, gsinks, gprogress, ?_⟩
  · rw [List.length_append, D.length, R.length, Nat.succ_mul]
  · have hevents := congrArg State.events hfail
    have hflash := congrArg State.flash hfail
    refine hfail.trans ?_
    apply State.ext
    case events => exact hevents.symm
    case flash => exact hflash.symm
    case cs => exact hc.symm
    case cursor => exact R.cursor.trans D.cursor
    case pct => exact R.pct.trans D.pct
    case pageIx => exact R.pageIx.trans D.pageIx
    case sink => exact husink
    all_goals rfl

end Sys2Proof.Machine
end

section
/-! PROOFS. The statement of UPLOAD's erase phase (R261): two frames of one byte and a poll, each a frame of its own. -/

namespace Sys2Proof.Machine

open Sys2Proof.Claims

theorem upload_erasePolls : Polls .upload .erasePoll false where
  select := fun s hb hp => by rw [exec_busy hb]; simp [seqOf, seqUpload, hp]
  opcode := fun s hb hp => by rw [exec_busy hb]; simp [seqOf, seqUpload, hp]
  sample := fun s hb hp => by rw [exec_busy hb]; simp [seqOf, seqUpload, hp]

section Erase

variable {s : State} (hb : s.busy = true) (hc : s.cs = false)

include hb hc

/-- The write-enable of the erase, from its `Select()`. -/
theorem upload_eraseWren (hp : s.pos = .select .eraseWren) :
    execN .upload 3 s = .next (setPos (.select .eraseCe) (framed [0x06] s)) :=
  frame_unmarked (t := .eraseWren) (F := fun _ => frameF0 0x06) (fun _ _ => rfl) (fun _ _ _ => rfl) (fun _ _ => rfl)
    (fun u k hb hp => by rw [exec_busy hb]; simp [seqOf, seqUpload, hp])
    (fun u hb hp => by rw [exec_busy hb]; simp [seqOf, seqUpload, hp])
    (by rw [exec_busy hb]; simp [seqOf, seqUpload, hp]) hb hc (by decide)

/-- The chip-erase, from its `Select()`. -/
theorem upload_eraseCe (hp : s.pos = .select .eraseCe) :
    execN .upload 3 s = .next (setPos (.select .erasePoll) (framed [0xC7] s)) :=
  frame_unmarked (t := .eraseCe) (F := fun _ => frameF0 0xC7) (fun _ _ => rfl) (fun _ _ _ => rfl) (fun _ _ => rfl)
    (fun u k hb hp => by rw [exec_busy hb]; simp [seqOf, seqUpload, hp])
    (fun u hb hp => by rw [exec_busy hb]; simp [seqOf, seqUpload, hp])
    (by rw [exec_busy hb]; simp [seqOf, seqUpload, hp]) hb hc (by decide)

end Erase

/-- The chip and the wire after UPLOAD's first two frames. -/
def erased (s : State) : State := framed [0xC7] (framed [0x06] s)

/-- UPLOAD at the `Select()` of its erase poll. -/
def eraseSent (s : State) : State := setPos (.select .erasePoll) (accepted .upload (erased s))

/-- Acceptance and the two frames before the erase poll (R261). -/
theorem upload_erases {s : State} (hb : s.busy = false) (hc : s.cs = false) :
    execN .upload 7 s = .next (eraseSent s) := by
  calc execN .upload 7 s
      = execN .upload 6 (accepted .upload s) := execN_succ 6 (exec_bulk_accepted rfl hb hc)
    _ = execN .upload 3 (setPos (.select .eraseCe) (framed [0x06] (accepted .upload s))) :=
      execN_add 3 (upload_eraseWren (s := accepted .upload s) rfl hc rfl)
    _ = .next (eraseSent s) :=
      upload_eraseCe (s := setPos (.select .eraseCe) (framed [0x06] (accepted .upload s))) rfl hc rfl

/-- Without its STATE marker a poll's end is its assignments and its release (R250). -/
theorem pollEndStep_unmarked (after : Pos) (s : State) :
    pollEndStep false after s = setPos after (deselect true (assignSample s)) := by
  apply State.ext <;> simp [pollEndStep, deselectStep, marked]

theorem exec_erasePollEnd {s : State} (hb : s.busy = true) (hp : s.pos = .deselect .erasePoll) :
    exec .upload s = .next (pollEndStep false .sourceRead s) := by
  rw [exec_busy hb]
  simp [seqOf, seqUpload, hp]

/-- The erase poll closed, its samples all assigned (R220); STATE is still START (R260). -/
theorem erasePoll_closed {s : State} (hc : s.cs = false) {n : Nat} (h0 : 0 < n) :
    deselect true (assignSample (polled n (pollBegun .erasePoll false (eraseSent s)))) =
      setPos (.sample .erasePoll) (sampled n (erased s) (accepted .upload (framed (pollTx n) (erased s)))) := by
  rw [poll_closed _ _ (s := eraseSent s) hc h0]
  rfl

/-- UPLOAD's erase with a clear sample after `n` busy ones (R261). -/
theorem upload_erase_ready {s : State} (hb : s.busy = false) (hc : s.cs = false) {n : Nat}
    (hl : s.pollLimit = 0 ∨ n < s.pollLimit.toNat) (h : allBusy n (erased s))
    (hr : (response (pollTx (n + 1)) (erased s) (n + 1)).getLsbD 0 = false) :
    execN .upload (n + 11) s = .next
      (setPos .sourceRead (sampled (n + 1) (erased s) (accepted .upload (framed (pollTx (n + 1)) (erased s))))) := by
  have hpoll := poll_ready (s := eraseSent s) upload_erasePolls rfl rfl hc hl
    ((allBusy_congr rfl rfl rfl n).2 h) hr
  rw [show n + 11 = 7 + (n + 3 + 1) by omega, execN_add _ (upload_erases hb hc), execN_add 1 hpoll,
    execN_succ 0 (exec_erasePollEnd rfl rfl), execN, pollEndStep_unmarked, deselect_assignSample_setPos,
    erasePoll_closed hc (Nat.succ_pos n)]
  rfl

/-- Settles O40: acceptance, the two frames, then a poll that comes to its end or to its bound (R261). -/
theorem uploadErasesFirst : Obligations.UploadErasesFirst := by
  intro s hb hc s₂
  refine ⟨fun n hl h hr => upload_erase_ready hb hc hl h hr, fun hl h => ?_⟩
  have hpoll := poll_unresponsive (s := eraseSent s) upload_erasePolls rfl rfl hc hl ((allBusy_congr rfl rfl rfl _).2 h)
  have h0 : 0 < s.pollLimit.toNat := Nat.pos_of_ne_zero fun e => hl (BitVec.eq_of_toNat_eq e)
  have hlimit : (eraseSent s).lLimit = s.pollLimit := rfl
  rw [hlimit] at hpoll
  rw [Nat.add_comm _ 10, show 10 = 7 + 3 from rfl, Nat.add_assoc, execN_add _ (upload_erases hb hc),
    show 3 + s.pollLimit.toNat = s.pollLimit.toNat + 2 + 1 by omega, execN_add 1 hpoll,
    execN_succ 0 (exec_uploadFail rfl rfl), execN, pollFailStep, fail, deselect_assignSample_setPos,
    erasePoll_closed hc h0]
  rfl

end Sys2Proof.Machine
end

section
/-! PROOFS. The statements of VERIFY (R270 to R276): one stride, the strides that agree one after another, then the
whole command where device and source are equal and where they first differ. -/

namespace Sys2Proof.Machine

open Sys2Proof.Claims

/-! ### One stride (R270, R272, R273) -/

/-- VERIFY about to read stride `k` (R270). -/
structure AtStride (k : Nat) (s : State) : Prop where
  busy : s.busy = true
  pos : s.pos = .data
  byteIx : s.byteIx = 0
  strideIx : s.strideIx = k
  lt : k < 1024

theorem verify_data (s : State) (hb : s.busy = true) (hp : s.pos = .data) :
    exec .verify s = .next (dataStep Config.halfSize .sourceRead s) := by
  rw [exec_busy hb]
  simp [seqOf, seqVerify, hp]

theorem exec_compare {s : State} (hb : s.busy = true) (hp : s.pos = .compare) :
    exec .verify s = .next (verifyCompare (assignSourced Config.halfSize s)) := by
  rw [exec_busy hb]
  simp [seqOf, seqVerify, hp, verifyCompareStep]

/-- A stride of the device and of the source read, up to `Compare()`: both halves stand in WBUF once the source's
bytes, which wait, are assigned (R21, R272). -/
theorem verify_stride {k : Nat} {s : State} (A : AtStride k s) {e : List Byte} {r : List SourceAnswer}
    (hs : s.source = .bytes e :: r) (n : Nat) (hn : n = 0x2000) (hle : n ≤ e.length) :
    ∃ t, execN .verify (n + 1) s = .next t ∧
      (∀ j, wbufAt (assignSourced n t) j =
        if j < n then (nextBytes n s).getD j 0 else if j < n + n then (e.take n).getD (j - n) 0 else wbufAt s j) ∧
      t = { s with
            phase := .transfer
            byteIx := n
            pos := .compare
            sourced := some (e.take n)
            wbuf := t.wbuf
            events := s.events ++
              (List.zipWith .exchange (List.replicate n 0) (nextBytes n s) ++ [.sourceRead n true (e.take n)])
            flash := (List.replicate n (0 : Byte)).foldl Flash.clocked s.flash
            source := sourceRest s.source n
            draws := s.draws + n + 1 } := by
  have hh : Config.halfSize = n := halfSize_eq.trans hn.symm
  obtain ⟨t, h1, h2, h3⟩ := data_loop verify_data n s A.busy A.pos (by omega) (by rw [A.byteIx]; omega)
  have hpos : t.pos = .sourceRead := by rw [h2]; simp [swept, A.byteIx, hh]
  have hb : t.busy = true := by rw [h2]; exact A.busy
  have hsrc : t.source = s.source := by rw [h2]; rfl
  have hreply : sourceReply t n = .data (e.take n) := sourceReply_of_bytes (hsrc.trans hs) hle
  have hx : exec .verify t = .next (setPos .compare (keepSourced (e.take n) (sourceRead n true (e.take n) t))) := by
    rw [exec_busy hb]
    simp [seqOf, seqVerify, hpos, verifySourceStep, hh, hreply]
  refine ⟨_, by rw [execN_add 1 h1, execN_succ 0 hx]; rfl, fun j => ?_, ?_⟩
  · have hw : wbufAt t j = if j < n then (nextBytes n s).getD j 0 else wbufAt s j := by
      rw [h3, A.byteIx]
      simp [nextBytes]
    rw [wbufAt_assignSourced n j rfl, List.length_take_of_le hle]
    by_cases hj : n ≤ j ∧ j < n + n
    · rw [if_pos hj, if_neg (by omega), if_pos hj.2]
    · rw [if_neg hj]
      refine Eq.trans (wbufAt_congr rfl rfl j) (hw.trans ?_)
      split
      · rfl
      · rw [if_neg (by omega)]
  · apply State.ext <;> simp [hsrc] <;> rw [h2] <;> simp [swept, exchanged, nextBytes, A.byteIx]

/-- The next stride, or the end of the sweep, in numbers (R270). -/
theorem verifyNextStride_eq (s : State) :
    verifyNextStride s =
      { s with
        pos := if s.strideIx + 1 < 1024 then .data else .deselect .own
        strideIx := if s.strideIx + 1 < 1024 then s.strideIx + 1 else s.strideIx
        byteIx := if s.strideIx + 1 < 1024 then 0 else s.byteIx } := by
  rw [verifyNextStride, numStrides_eq]
  split <;> apply State.ext <;> simp

/-- `Compare()` of equal halves and, at a chunk's end, the progress event after it (R273, R275). -/
theorem verify_agrees {k : Nat} {t : State} (hb : t.busy = true) (hp : t.pos = .compare) (hk : t.strideIx = k)
    (hlt : k < 1024) (heq : firstMismatch (assignSourced Config.halfSize t) = none) :
    execN .verify (1 + k % 2) t = .next (verifyNextStride
      (if k % 2 = 1 then emitProgress (setCursor ((k + 1) * 0x2000) (assignSourced Config.halfSize t))
        else setCursor ((k + 1) * 0x2000) (assignSourced Config.halfSize t))) := by
  have hx := exec_compare hb hp
  have hcases := verifyCompare_equal heq (by rw [numStrides_eq, assignSourced_strideIx]; omega)
  have hstride : (assignSourced Config.halfSize t).strideIx = k := hk
  have hbusy : (assignSourced Config.halfSize t).busy = true := hb
  have hmul : (k + 1) * Config.halfSize = (k + 1) * 0x2000 := congrArg _ halfSize_eq
  dsimp only at hcases
  rw [hstride, hmul, chunkSize_eq] at hcases
  have hparity : (k + 1) * 0x2000 % 0x4000 = 0 ↔ k % 2 = 1 := by omega
  generalize (k + 1) * 0x2000 = c, assignSourced Config.halfSize t = v at *
  rcases hcases with ⟨hz, e⟩ | ⟨hz, e⟩ <;> rw [e] at hx
  · have hodd : k % 2 = 1 := hparity.1 hz
    have hprogress : exec .verify (setPos .progress (setCursor c v)) =
        .next (verifyNextStride (emitProgress (setPos .progress (setCursor c v)))) := by
      rw [exec_busy (by simpa using hbusy)]
      simp [seqOf, seqVerify]
    rw [hodd, if_pos rfl, execN_succ 1 hx, execN_succ 0 hprogress, execN, verifyNextStride_eq, verifyNextStride_eq]
    rfl
  · have heven : k % 2 = 0 := by have := mt hparity.2 hz; omega
    rw [heven, if_neg (by omega), execN_succ 0 hx, execN, verifyNextStride_eq, setCursor_strideIx, hstride,
      if_pos (by omega), if_pos (by omega), if_pos (by omega), ← hstride]
    rfl

/-- Stride `k` read, found equal, and its progress emitted where it ends a chunk (R270 to R275). -/
theorem verify_round {k : Nat} {s : State} (A : AtStride k s) {e : List Byte} {r : List SourceAnswer}
    (hs : s.source = .bytes e :: r) (n : Nat) (hn : n = 0x2000) (hle : n ≤ e.length)
    (heq : nextBytes n s = e.take n) :
    ∃ t, execN .verify (n + 2 + k % 2) s = .next t ∧
      (∀ j, wbufAt t j = if j < 0x4000 then (nextBytes n s).getD (j % 0x2000) 0 else wbufAt s j) ∧
      t = { s with
            phase := .transfer
            byteIx := if k + 1 < 1024 then 0 else n
            pos := if k + 1 < 1024 then .data else .deselect .own
            strideIx := if k + 1 < 1024 then k + 1 else k
            cursor := BitVec.ofNat 24 ((k + 1) * 0x2000)
            pct := if k % 2 = 1 then BitVec.ofNat 8 ((k + 1) / 2 * 100 / 512) else s.pct
            sourced := none
            wbuf := t.wbuf
            events := s.events ++
              (List.zipWith .exchange (List.replicate n 0) (nextBytes n s) ++
                .sourceRead n true (e.take n) ::
                  (if k % 2 = 1 then [.progress ((k + 1) * 0x2000) 0x800000] else []))
            flash := (List.replicate n (0 : Byte)).foldl Flash.clocked s.flash
            source := sourceRest s.source n
            draws := s.draws + n + 1 } := by
  have hh : Config.halfSize = n := halfSize_eq.trans hn.symm
  have hlt := A.lt
  obtain ⟨t, hx, hw, ht⟩ := verify_stride A hs n hn hle
  have hmatch : firstMismatch (assignSourced Config.halfSize t) = none := by
    refine firstMismatch_none fun i hi => ?_
    rw [hh] at hi ⊢
    rw [hw, hw, if_pos hi, if_neg (by omega), if_pos (by omega), heq, Nat.add_sub_cancel_left]
  have hend := verify_agrees (k := k) (by rw [ht]; exact A.busy) (by rw [ht]) (by rw [ht]; exact A.strideIx) hlt hmatch
  rw [hh] at hend
  refine ⟨_, by rw [show n + 2 + k % 2 = n + 1 + (1 + k % 2) by omega, execN_add _ hx, hend], fun j => ?_, ?_⟩
  · have hkeep : wbufAt (verifyNextStride (if k % 2 = 1 then
        emitProgress (setCursor ((k + 1) * 0x2000) (assignSourced n t))
        else setCursor ((k + 1) * 0x2000) (assignSourced n t))) j = wbufAt (assignSourced n t) j := by
      rw [verifyNextStride_eq]
      split <;> rfl
    rw [hkeep, hw, ← heq]
    by_cases hj : j < n
    · rw [if_pos hj, if_pos (by omega), Nat.mod_eq_of_lt (by omega)]
    · rw [if_neg hj]
      by_cases hj' : j < n + n
      · rw [if_pos hj', if_pos (by omega), show j % 0x2000 = j - n by omega]
      · rw [if_neg hj', if_neg (by omega)]
  · have hc : (BitVec.ofNat 24 ((k + 1) * 0x2000)).toNat = (k + 1) * 0x2000 :=
      toNat_cursor (by rw [totalSize_eq]; omega)
    have hpct (hodd : k % 2 = 1) : percent ((k + 1) * 0x2000) = BitVec.ofNat 8 ((k + 1) / 2 * 100 / 512) := by
      rw [percent, totalSize_eq]
      exact congrArg (BitVec.ofNat 8) (by omega)
    have hstride : t.strideIx = k := by rw [ht]; exact A.strideIx
    rw [verifyNextStride_eq]
    generalize (k + 1) * 0x2000 = c at hc hpct ⊢
    split
    · apply State.ext <;> simp [hstride, hc, hpct ‹_›, totalSize_eq] <;> rw [ht] <;> simp
    · apply State.ext <;> simp [hstride] <;> rw [ht] <;> simp

/-- Stride `k` read and found different, first at byte `i`: SEQ comes to the mismatch's step (R273, R274). -/
theorem verify_differs {k i : Nat} {s : State} (A : AtStride k s) {e : List Byte} {r : List SourceAnswer}
    (hs : s.source = .bytes e :: r) (n : Nat) (hn : n = 0x2000) (hle : n ≤ e.length) (hi : i < n)
    (hne : (nextBytes n s).getD i 0 ≠ (e.take n).getD i 0)
    (hlt : ∀ j, j < i → (nextBytes n s).getD j 0 = (e.take n).getD j 0) :
    ∃ t, execN .verify (n + 2) s = .next t ∧ wbufAt t i = (nextBytes n s).getD i 0 ∧
      wbufAt t (n + i) = (e.take n).getD i 0 ∧
      t = { s with
            phase := .transfer
            byteIx := i
            pos := .mismatch
            sourced := none
            wbuf := t.wbuf
            events := s.events ++
              (List.zipWith .exchange (List.replicate n 0) (nextBytes n s) ++ [.sourceRead n true (e.take n)])
            flash := (List.replicate n (0 : Byte)).foldl Flash.clocked s.flash
            source := sourceRest s.source n
            draws := s.draws + n + 1 } := by
  have hh : Config.halfSize = n := halfSize_eq.trans hn.symm
  obtain ⟨t, hx, hw, ht⟩ := verify_stride A hs n hn hle
  have hdev (j : Nat) (hj : j < n) : wbufAt (assignSourced n t) j = (nextBytes n s).getD j 0 := by
    rw [hw, if_pos hj]
  have hexp (j : Nat) (hj : j < n) : wbufAt (assignSourced n t) (n + j) = (e.take n).getD j 0 := by
    rw [hw, if_neg (by omega), if_pos (by omega), Nat.add_sub_cancel_left]
  have hmatch : firstMismatch (assignSourced Config.halfSize t) = some i := by
    refine firstMismatch_some (hh.symm ▸ hi) ?_ fun j hj => ?_ <;> rw [hh]
    · rwa [hdev i hi, hexp i hi]
    · rw [hdev j (by omega), hexp j (by omega), hlt j hj]
  have hcmp := exec_compare (s := t) (by rw [ht]; exact A.busy) (by rw [ht])
  rw [verifyCompare_differ hmatch, hh] at hcmp
  refine ⟨setPos .mismatch (setByteIx i (assignSourced n t)), ?_, hdev i hi, hexp i hi, ?_⟩
  · rw [show n + 2 = n + 1 + 1 from rfl, execN_add _ hx, execN_succ 0 hcmp, execN]
  apply State.ext <;> simp <;> rw [ht] <;> rfl

/-! ### The strides that agree (R270, R275) -/

/-- `s` with what VERIFY's loop writes taken from `x`. -/
def withVerify (x s : State) : State :=
  { s with
    phase := x.phase
    pos := x.pos
    strideIx := x.strideIx
    byteIx := x.byteIx
    cursor := x.cursor
    pct := x.pct
    sourced := x.sourced
    wbuf := x.wbuf
    events := x.events
    flash := x.flash
    source := x.source
    draws := x.draws }

/-- What VERIFY's stride `k` shows on the stream and progress ports, the source's bytes being `e` (R272, R275). -/
def verifyPorts (e : List Byte) (k : Nat) : List BusEvent :=
  .sourceRead 0x2000 true (piece e 0x2000 k) :: if k % 2 = 1 then [.progress ((k + 1) * 0x2000) 0x800000] else []

/-- A device that has settled on `d` and a source with `e`, each the whole device, before a sweep (logs 4, 5). -/
structure Compared (d e rest : List Byte) (r : List SourceAnswer) (s : State) : Prop where
  device : d.length = 0x800000
  expected : e.length = 0x800000
  flash : s.flash = .oracle (d ++ rest)
  source : s.source = .bytes e :: r

/-- `k` strides of VERIFY that agree lead from `s` to `t`. -/
structure Agreed (k : Nat) (d e : List Byte) (r : List SourceAnswer) (s t : State) : Prop where
  heard : Heard (List.replicate (k * 0x2000) 0) (d.take (k * 0x2000)) s t
  ports : offWire t.events = offWire s.events ++ (List.range k).flatMap (verifyPorts e)
  last : ∀ q, k = q + 1 → ∀ j,
    wbufAt t j = if j < 0x4000 then (piece d 0x2000 q).getD (j % 0x2000) 0 else wbufAt s j
  above : ∀ j, 0x4000 ≤ j → wbufAt t j = wbufAt s j
  cursor : t.cursor = BitVec.ofNat 24 (k * 0x2000)
  pct : t.pct = BitVec.ofNat 8 (k / 2 * 100 / 512)
  sourced : k ≠ 0 → t.sourced = none
  source : t.source = if k < 1024 then .bytes (e.drop (k * 0x2000)) :: r else r
  next : k < 1024 → AtStride k t
  done : k = 1024 → t.pos = .deselect .own
  frame : t = withVerify t s

/-- The first bytes of a list, one piece after another. -/
theorem take_succ_piece (d : List Byte) (n k : Nat) : d.take ((k + 1) * n) = d.take (k * n) ++ piece d n k := by
  rw [Nat.succ_mul, List.take_add, piece]

section Strides

variable {d e rest : List Byte} {r : List SourceAnswer} {s t : State} {k : Nat}

theorem Agreed.refl (C : Compared d e rest r s) (A : AtStride 0 s) (hc : s.cursor = 0) (hp : s.pct = 0) :
    Agreed 0 d e r s s where
  heard := by simpa using Heard.refl s
  ports := by simp
  last := nofun
  above := fun _ _ => rfl
  cursor := hc
  pct := hp
  sourced := fun h => absurd rfl h
  source := by simpa using C.source
  next := fun _ => A
  done := nofun
  frame := rfl

/-- The bytes the device gives to stride `k`, and what it has left. -/
theorem Agreed.settled (D : Agreed k d e r s t) (C : Compared d e rest r s) (hk : k < 1024) {n : Nat}
    (hn : n = 0x2000) : nextBytes n t = piece d 0x2000 k := by
  have hdev := C.device
  obtain ⟨-, hflash⟩ := D.heard.settled _ C.flash (by rw [List.length_replicate, List.length_append]; omega)
  rw [List.length_replicate] at hflash
  rw [nextBytes, heardFrom, hflash, heard_oracle, List.length_replicate, hn, ← piece_append_left rest (by omega), piece]
  rw [List.length_replicate, List.length_drop, List.length_append]
  omega

/-- One more stride that agrees. -/
theorem Agreed.round (D : Agreed k d e r s t) (C : Compared d e rest r s) (hk : k < 1024)
    (heq : piece d 0x2000 k = piece e 0x2000 k) :
    ∃ u, execN .verify (0x2002 + k % 2) t = .next u ∧ Agreed (k + 1) d e r s u := by
  obtain ⟨n, hn⟩ : ∃ n, n = 0x2000 := ⟨_, rfl⟩
  have hexp := C.expected
  have hsrc := D.source
  rw [if_pos hk] at hsrc
  have hleft : (e.drop (k * 0x2000)).length = 0x800000 - k * 0x2000 := by rw [List.length_drop, hexp]
  have hbytes := D.settled C hk hn
  have hpiece : (e.drop (k * 0x2000)).take n = piece e 0x2000 k := by rw [hn, piece]
  obtain ⟨u, hx, hw, hu⟩ := verify_round (D.next hk) hsrc n hn (by omega) (by rw [hpiece, hbytes, heq])
  have hheard : Heard (List.replicate n 0) (piece d 0x2000 k) t u :=
    hbytes ▸ .of_nextBytes (congrArg State.events hu) (by split <;> rfl) (congrArg State.flash hu)
  refine ⟨u, by rw [← hx, hn], ?_⟩
  constructor
  case heard => rw [replicate_succ_mul k n _ hn, take_succ_piece]; exact D.heard.trans hheard
  case ports =>
    rw [List.range_succ, List.flatMap_append, ← List.append_assoc, ← D.ports, hu]
    rw [← hn] at hpiece
    simp only [List.flatMap_singleton, verifyPorts, ← hn, ← hpiece]
    split <;> simp
  case last =>
    rintro q hq j
    obtain rfl : q = k := by omega
    rw [hw, hbytes]
    split
    · rfl
    · exact D.above j (by omega)
  case above => exact fun j hj => by rw [hw, if_neg (by omega), D.above j hj]
  case cursor => rw [hu]
  case pct =>
    rw [hu]
    dsimp only
    split
    · rfl
    · rw [D.pct, show (k + 1) / 2 = k / 2 by omega]
  case sourced => exact fun _ => by rw [hu]
  case source =>
    rw [hu, hsrc]
    simp only [sourceRest, hleft, List.drop_drop]
    rw [hn, Nat.succ_mul]
    exact if_congr (by omega) rfl rfl
  case next =>
    intro hlt
    refine ⟨?_, ?_, ?_, ?_, hlt⟩ <;> rw [hu]
    · exact (D.next hk).busy
    all_goals simp [hlt]
  case done => intro he; rw [hu]; simp [he]
  case frame =>
    calc u = withVerify u t := by rw [hu]; rfl
      _ = withVerify u s := by rw [D.frame]; rfl

/-- As many strides as agree (R270). -/
theorem verify_strides (C : Compared d e rest r s) (A : AtStride 0 s) (hc : s.cursor = 0) (hp : s.pct = 0) (m : Nat)
    (hm : m ≤ 1024) (heq : ∀ k, k < m → piece d 0x2000 k = piece e 0x2000 k) :
    ∃ t, execN .verify (m * 0x2002 + m / 2) s = .next t ∧ Agreed m d e r s t := by
  induction m with
  | zero => exact ⟨s, rfl, Agreed.refl C A hc hp⟩
  | succ m ih =>
    obtain ⟨t, hx, D⟩ := ih (by omega) fun k hk => heq k (by omega)
    obtain ⟨u, hx', D'⟩ := D.round C (by omega) (heq m (by omega))
    refine ⟨u, ?_, D'⟩
    rw [show (m + 1) * 0x2002 + (m + 1) / 2 = m * 0x2002 + m / 2 + (0x2002 + m % 2) by omega, execN_add _ hx, hx']

end Strides

/-! ### What the strides show on the ports -/

theorem sourceReads_verifyPorts (e : List Byte) (k : Nat) :
    sourceReads ((List.range k).flatMap (verifyPorts e)) = List.replicate k (0x2000, true) := by
  have hone (k : Nat) : sourceReads (verifyPorts e k) = [(0x2000, true)] := by
    unfold verifyPorts
    split <;> rfl
  induction k with
  | zero => rfl
  | succ k ih =>
    rw [List.range_succ, List.flatMap_append, List.flatMap_singleton, sourceReads_append, ih, hone,
      List.replicate_succ']

theorem progressEvents_verifyPorts (e : List Byte) (k : Nat) :
    progressEvents ((List.range k).flatMap (verifyPorts e)) = sweepProgress (k / 2) := by
  have hone (k : Nat) : progressEvents (verifyPorts e k) =
      if k % 2 = 1 then [((k + 1) * 0x2000, 0x800000)] else [] := by
    unfold verifyPorts
    split <;> rfl
  induction k with
  | zero => rfl
  | succ k ih =>
    rw [List.range_succ, List.flatMap_append, List.flatMap_singleton, progressEvents_append, ih, hone]
    split
    · rw [show (k + 1) / 2 = k / 2 + 1 by omega, sweepProgress_succ,
        show (k / 2 + 1) * 0x4000 = (k + 1) * 0x2000 by omega]
    · rw [List.append_nil, show (k + 1) / 2 = k / 2 by omega]

/-! ### VERIFY as a whole -/

/-- VERIFY at its data loop: accepted, its frame opened and its header sent. -/
def verifyOpened (s : State) : State := sweepOpened (accepted .verify s)

/-- The device and the source of a VERIFY, `h` the bytes the device gives to the header. -/
structure Verifies (h d e rest : List Byte) (r : List SourceAnswer) (s : State) : Prop where
  busy : s.busy = false
  cs : s.cs = false
  header : h.length = 4
  device : d.length = 0x800000
  expected : e.length = 0x800000
  flash : s.flash = .oracle (h ++ d ++ rest)
  source : s.source = .bytes e :: r

section Verifies

variable {h d e rest : List Byte} {r : List SourceAnswer} {s : State} (V : Verifies h d e rest r s)

include V

/-- The header hears the device's first four bytes; the sweep's are those after them. -/
theorem verify_header :
    Heard sweepHeader h (select (accepted .verify s)) (verifyOpened s) ∧
      (verifyOpened s).flash = .oracle (d ++ rest) := by
  have H := sweepOpened_heard (accepted .verify s)
  have hlen : sweepHeader.length = h.length := V.header.symm
  have hfit : sweepHeader.length ≤ (h ++ (d ++ rest)).length := by
    rw [hlen, List.length_append]
    exact Nat.le_add_right ..
  have hflash : (select (accepted .verify s)).flash = .oracle (h ++ (d ++ rest)) :=
    select_oracle (V.flash.trans (congrArg _ (List.append_assoc ..)))
  obtain ⟨hh, hf⟩ := H.settled _ hflash hfit
  rw [hlen, List.take_left] at hh
  rw [hlen, List.drop_left] at hf
  exact ⟨hh ▸ H, hf⟩

/-- VERIFY up to the end of the `m` strides that agree, and the bytes heard in its frame by then. -/
theorem verify_runs (m : Nat) (hm : m ≤ 1024) (heq : ∀ k, k < m → piece d 0x2000 k = piece e 0x2000 k) :
    ∃ t, execN .verify (6 + (m * 0x2002 + m / 2)) s = .next t ∧ Agreed m d e r (verifyOpened s) t := by
  have h6 : execN .verify 6 s = .next (verifyOpened s) := by
    rw [execN_succ 5 (exec_bulk_accepted rfl V.busy V.cs), sweep_opens verify_sweeps rfl rfl]
    rfl
  obtain ⟨-, hflash⟩ := verify_header V
  obtain ⟨t, hx, D⟩ := verify_strides (s := verifyOpened s) ⟨V.device, V.expected, hflash, V.source⟩
    ⟨rfl, rfl, rfl, rfl, by omega⟩ rfl rfl m hm heq
  exact ⟨t, by rw [execN_add _ h6, hx], D⟩

end Verifies

/-- What `k` strides of VERIFY that agree show on the stream and progress ports (R272, R275). -/
theorem Agreed.shows {k : Nat} {d e : List Byte} {r : List SourceAnswer} {s t : State}
    (D : Agreed k d e r (verifyOpened s) t) :
    sourceReads t.events = sourceReads s.events ++ List.replicate k (0x2000, true) ∧
      progressEvents t.events = progressEvents s.events ++ sweepProgress (k / 2) := by
  have hstart : offWire (verifyOpened s).events = offWire s.events := offWire_sweepOpened _
  obtain ⟨-, hprogress, hreads⟩ := ports_grown (hstart ▸ D.ports)
  rw [progressEvents_verifyPorts] at hprogress
  rw [sourceReads_verifyPorts] at hreads
  exact ⟨hreads, hprogress⟩

/-- Settles O44: acceptance and the header, 1024 strides that agree, `Deselect()` and `Finish()` (R270, R276). -/
theorem verifyOfEqualDataSucceeds : Obligations.VerifyOfEqualDataSucceeds := by
  intro s h d rest r hb hc hh hd hf hs
  have V : Verifies h d d rest r s := ⟨hb, hc, hh, hd, hd, hf, hs⟩
  obtain ⟨hheader, hflash⟩ := verify_header V
  obtain ⟨v, hx, D⟩ := verify_runs V 1024 (Nat.le_refl _) fun _ _ => rfl
  have hcs : v.cs = true := by rw [D.frame]; rfl
  have hbusy : v.busy = true := by rw [D.frame]; rfl
  have hend : execN .verify 8391176 s = .next (finish (sweepEndStep v)) :=
    (execN_add 2 hx).trans (sweep_closes verify_sweeps hbusy (D.done rfl))
  have H := D.heard
  rw [show 1024 * 0x2000 = 0x800000 from rfl, ← hd, List.take_length] at H
  obtain ⟨-, hleft⟩ := H.settled _ hflash (by rw [List.length_replicate, List.length_append]; omega)
  rw [List.length_replicate, List.drop_left] at hleft
  obtain ⟨hreads, hprogress⟩ := D.shows
  obtain ⟨-, gprogress, greads⟩ := ports_same (l := v.events) (l' := (finish (sweepEndStep v)).events)
    (offWire_deselect true v)
  rw [← gprogress] at hprogress
  rw [← greads] at hreads
  have hframe : finish (sweepEndStep v) = finish (sweepEndStep (withVerify v (verifyOpened s))) :=
    congrArg (fun u => finish (sweepEndStep u)) D.frame
  rw [hd] at H
  refine ⟨_, hend, (hheader.trans H).framed hc hcs, hreads, hprogress, ?_, ?_, ?_, fun j => D.last 1023 rfl j, ?_⟩
  · rw [hframe]; rfl
  · rw [hframe]; rfl
  · rw [hframe]; rfl
  · have hevents := congrArg State.events hframe
    refine hframe.trans ?_
    apply State.ext
    case events => exact hevents.symm
    case flash => exact (congrArg Flash.released hleft :)
    case cs => exact hc.symm
    case cursor => exact D.cursor
    case pct => exact D.pct
    case sourced => exact D.sourced (by omega)
    case source => exact D.source
    all_goals rfl

/-! ### The first difference (R274) -/

/-- The mismatch's step: the registers written and `Fail(MISMATCH)` (R274). -/
theorem exec_mismatch {s : State} (hb : s.busy = true) (hp : s.pos = .mismatch) :
    exec .verify s = .next (fail .mismatch (recordMismatch (s.strideIx * 0x2000 + s.byteIx) (wbufAt s s.byteIx)
      (wbufAt s (0x2000 + s.byteIx)) s)) := by
  rw [exec_busy hb, ← halfSize_eq]
  simp [seqOf, seqVerify, hp, verifyMismatchStep]

/-- Byte `j` of piece `k`. -/
theorem piece_getD {d : List Byte} {n k j : Nat} (hj : j < n) : (piece d n k).getD j 0 = d.getD (k * n + j) 0 := by
  simp [piece, List.getD_eq_getElem?_getD, hj]

/-- Lists that agree up to the end of piece `k` have it in common. -/
theorem piece_congr {d e : List Byte} {n k : Nat} (hd : (k + 1) * n ≤ d.length) (he : (k + 1) * n ≤ e.length)
    (h : ∀ x, x < (k + 1) * n → d.getD x 0 = e.getD x 0) : piece d n k = piece e n k := by
  rw [Nat.succ_mul] at hd he h
  have hl : (piece d n k).length = n := by rw [piece, List.length_take, List.length_drop]; omega
  have hl' : (piece e n k).length = n := by rw [piece, List.length_take, List.length_drop]; omega
  refine List.ext_getElem (hl.trans hl'.symm) fun j hj hj' => ?_
  rw [← List.getD_eq_getElem _ 0 hj, ← List.getD_eq_getElem _ 0 hj', piece_getD (by omega), piece_getD (by omega)]
  exact h _ (by omega)

/-- Stride `k` differs first at its byte `i`: from `t`, which ended the strides before it, to `u`, where the mismatch's
step is next (R273, R274). -/
structure Differs (k i : Nat) (d e : List Byte) (s t u : State) : Prop where
  heard : Heard (List.replicate ((k + 1) * 0x2000) 0) (d.take ((k + 1) * 0x2000)) s u
  ports : offWire u.events = offWire t.events ++ [.sourceRead 0x2000 true (piece e 0x2000 k)]
  device : wbufAt u i = d.getD (k * 0x2000 + i) 0
  expected : wbufAt u (0x2000 + i) = e.getD (k * 0x2000 + i) 0
  cursor : u.cursor = t.cursor
  pct : u.pct = t.pct
  pos : u.pos = .mismatch
  strideIx : u.strideIx = k
  byteIx : u.byteIx = i
  sourced : u.sourced = none
  frame : u = withVerify u s

theorem Agreed.differs {d e rest : List Byte} {r : List SourceAnswer} {s t : State} {k i : Nat}
    (D : Agreed k d e r s t) (C : Compared d e rest r s) (hk : k < 1024) (hi : i < 0x2000)
    (hne : d.getD (k * 0x2000 + i) 0 ≠ e.getD (k * 0x2000 + i) 0)
    (hlt : ∀ j, j < i → d.getD (k * 0x2000 + j) 0 = e.getD (k * 0x2000 + j) 0) :
    ∃ u, execN .verify 0x2002 t = .next u ∧ Differs k i d e s t u := by
  obtain ⟨n, hn⟩ : ∃ n, n = 0x2000 := ⟨_, rfl⟩
  have hlen := C.expected
  have hsrc := D.source
  rw [if_pos hk] at hsrc
  have hdev : nextBytes n t = piece d 0x2000 k := D.settled C hk hn
  have hexp : (e.drop (k * 0x2000)).take n = piece e 0x2000 k := by rw [hn, piece]
  obtain ⟨u, hx, hwd, hwe, hu⟩ := verify_differs (D.next hk) hsrc n hn (by rw [List.length_drop]; omega) (i := i)
    (by omega) (by rwa [hdev, hexp, piece_getD hi, piece_getD hi])
    (fun j hj => by rw [hdev, hexp, piece_getD (by omega), piece_getD (by omega), hlt j hj])
  have hheard : Heard (List.replicate n 0) (piece d 0x2000 k) t u :=
    hdev ▸ .of_nextBytes (congrArg State.events hu) rfl (congrArg State.flash hu)
  refine ⟨u, by rw [← hx, hn], ?_⟩
  constructor
  case heard => rw [replicate_succ_mul k n _ hn, take_succ_piece]; exact D.heard.trans hheard
  case ports =>
    rw [hu, hexp, hn.symm]
    simp
  case device => rw [hwd, hdev, piece_getD hi]
  case expected => rw [← hn, hwe, hexp, piece_getD hi, hn]
  case strideIx => rw [hu]; exact (D.next hk).strideIx
  case frame =>
    calc u = withVerify u t := by rw [hu]; rfl
      _ = withVerify u s := by rw [D.frame]; rfl
  all_goals rw [hu]

/-- Settles O45: acceptance and the header, the strides before that of `k`, then a stride whose first difference is
`k`'s, and the mismatch (R270 to R275). -/
theorem verifyReportsFirstDifference : Obligations.VerifyReportsFirstDifference := by
  intro s k h d e rest r hb hc hh hd he hf hs hk hsame hne n
  have V : Verifies h d e rest r s := ⟨hb, hc, hh, hd, he, hf, hs⟩
  have hkn : n * 0x2000 + k % 0x2000 = k := by omega
  have hn : n < 1024 := by omega
  clear_value n
  obtain ⟨hheader, hflash⟩ := verify_header V
  obtain ⟨v, hx, D⟩ := verify_runs V n hn.le fun q hq =>
    piece_congr (by omega) (by omega) fun x hx => hsame x (by omega)
  obtain ⟨u, hx', M⟩ := D.differs ⟨hd, he, hflash, hs⟩ hn (i := k % 0x2000) (by omega) (by rwa [hkn])
    fun j hj => hsame _ (by omega)
  have hcs : u.cs = true := by rw [M.frame]; rfl
  have hbusy : u.busy = true := by rw [M.frame]; rfl
  have hlast := exec_mismatch hbusy M.pos
  rw [M.byteIx, M.strideIx, M.device, M.expected, hkn] at hlast
  have hend : execN .verify (6 + n * 0x2002 + n / 2 + 0x2003) s =
      .next (fail .mismatch (recordMismatch k (d.getD k 0) (e.getD k 0) u)) := by
    rw [show 6 + n * 0x2002 + n / 2 + 0x2003 = 6 + (n * 0x2002 + n / 2) + (0x2002 + 1) by omega, execN_add _ hx,
      execN_add _ hx', execN_succ 0 hlast, execN]
  obtain ⟨hreads, hprogress⟩ := D.shows
  obtain ⟨-, gprogress, greads⟩ := ports_grown ((offWire_deselect true u).trans M.ports)
  rw [hreads, List.append_assoc] at greads
  rw [hprogress, show progressEvents [.sourceRead 0x2000 true (piece e 0x2000 n)] = [] from rfl, List.append_nil]
    at gprogress
  have hfail : fail .mismatch (recordMismatch k (d.getD k 0) (e.getD k 0) u) =
      fail .mismatch (recordMismatch k (d.getD k 0) (e.getD k 0) (withVerify u (verifyOpened s))) :=
    congrArg (fun x => fail .mismatch (recordMismatch k (d.getD k 0) (e.getD k 0) x)) M.frame
  have hevents := congrArg State.events hfail
  have hflashes := congrArg State.flash hfail
  refine ⟨_, hend, (hheader.trans M.heard).framed hc hcs, ?_, gprogress, ?_⟩
  · rw [List.replicate_succ']
    exact greads
  · refine hfail.trans ?_
    apply State.ext
    case events => exact hevents.symm
    case flash => exact hflashes.symm
    case cs => exact hc.symm
    case cursor => exact M.cursor.trans D.cursor
    case pct => exact M.pct.trans D.pct
    case strideIx => exact M.strideIx
    case byteIx => exact M.byteIx
    case sourced => exact M.sourced
    all_goals rfl

end Sys2Proof.Machine
end

section
/-! PROOFS. The statement of UPLOAD as a whole (R260 to R266), on a chip that shows no busy bit: one page, the pages of
a chunk, the chunks one after another, and the command from its acceptance. -/

namespace Sys2Proof.Machine

open Sys2Proof.Claims

/-! ### What a history put on MOSI -/

theorem sent_append (l m : List BusEvent) : sent (l ++ m) = sent l ++ sent m := by
  simp [sent]

/-- A stream or progress event puts nothing on MOSI. -/
theorem sent_offWire {e : BusEvent} (he : onWire e = false) : sent [e] = [] := by
  simp [sent, he]

theorem sent_exchanges {tx r : List Byte} (h : r.length = tx.length) :
    sent (List.zipWith .exchange tx r) = List.zipWith .exchange tx (List.replicate tx.length 0) := by
  induction tx generalizing r with
  | nil => rfl
  | cons x tx ih =>
    cases r with
    | nil => cases h
    | cons y r =>
      rw [List.length_cons, List.replicate_succ, List.zipWith_cons_cons, List.zipWith_cons_cons,
        ← ih (Nat.succ.inj h)]
      rfl

/-- A whole frame puts its bytes on MOSI. -/
theorem sent_framed (tx : List Byte) (s : State) :
    sent (framed tx s).events = sent s.events ++ sentFrames [tx] := by
  have hrx : (frameRx tx s).length = tx.length := heard_length ..
  rw [framed, sent_append, frameEvents, sent_append, ← List.singleton_append, sent_append, sent_exchanges hrx,
    sentFrames, List.flatMap_singleton]
  rfl

theorem sentFrames_append (a b : List (List Byte)) : sentFrames (a ++ b) = sentFrames a ++ sentFrames b :=
  List.flatMap_append

theorem offWire_framed (tx : List Byte) (s : State) : offWire (framed tx s).events = offWire s.events := by
  simp [framed]

/-! ### What a frame changes -/

/-- `s` with the history, the chip and the draws of `x`. -/
def withWire (x s : State) : State := { s with events := x.events, flash := x.flash, draws := x.draws }

theorem framed_wired {tx : List Byte} {x s : State} (h : x = withWire x s) :
    framed tx x = withWire (framed tx x) s := by
  conv_lhs => rw [framed, h]
  rfl

/-! ### One page (R263, R264) -/

/-- No byte has the busy bit (R13). -/
def Quiet (bs : List Byte) : Prop := ∀ b ∈ bs, b.getLsbD 0 = false

theorem Quiet.drop {bs : List Byte} (h : Quiet bs) (n : Nat) : Quiet (bs.drop n) :=
  fun b hb => h b (List.mem_of_mem_drop hb)

theorem Quiet.getD {bs : List Byte} (h : Quiet bs) (k : Nat) : (bs.getD k 0).getLsbD 0 = false := by
  by_cases hk : k < bs.length
  · rw [List.getD_eq_getElem _ 0 hk]
    exact h _ (List.getElem_mem hk)
  · rw [List.getD_eq_default _ _ (by omega)]
    rfl

/-- On a quiet chip the first sample of a poll is clear (R220). -/
theorem poll_quiet {s : State} {bs : List Byte} (hf : s.flash = .oracle bs) (hq : Quiet bs) (hl : 2 ≤ bs.length) :
    (response (pollTx 1) s 1).getLsbD 0 = false := by
  rw [response_oracle hf (by simpa [pollTx] using hl) (by simp [pollTx])]
  exact hq.getD 1

/-- A piece that lies in the list is whole. -/
theorem piece_length {d : List Byte} {n k : Nat} (h : (k + 1) * n ≤ d.length) : (piece d n k).length = n := by
  rw [Nat.succ_mul] at h
  rw [piece, List.length_take, List.length_drop]
  omega

/-- The bytes of a page, in WBUF and in the source (R263). -/
theorem page_payload {c p : Nat} {d : List Byte} {u : State} (hd : d.length = 0x800000) (hc : c < 512) (hp : p < 64)
    (hw : ∀ j, j < 0x4000 → wbufAt u j = (piece d 0x4000 c).getD j 0) :
    (List.range 256).map (fun j => wbufAt u (p * 256 + j)) = piece d 256 (c * 64 + p) := by
  have hlen : (piece d 256 (c * 64 + p)).length = 256 := piece_length (by omega)
  refine wbufSlice_eq (k := p * 256) hlen fun j hj => ?_
  rw [hw _ (by omega), piece_getD (by omega), piece_getD hj]
  exact congrArg (d.getD · 0) (by omega)

/-- The page-program frame of page `k` of the device, the source's bytes being `d` (R263). -/
def programTx (d : List Byte) (k : Nat) : List Byte :=
  0x02 :: BitVec.ofNat 8 (k / 256) :: BitVec.ofNat 8 k :: 0x00 :: piece d 256 k

/-- UPLOAD about to write page `p` of chunk `c` (R263). -/
structure AtPage (c p : Nat) (s : State) : Prop where
  busy : s.busy = true
  pos : s.pos = .select .pageWren
  cs : s.cs = false
  chunkIx : s.chunkIx = c
  pageIx : s.pageIx = p

theorem pageFrame_programTx {c p : Nat} {d : List Byte} {u : State} (hd : d.length = 0x800000) (hc : c < 512)
    (hp : p < 64) (hcx : u.chunkIx = c) (hpx : u.pageIx = p)
    (hw : ∀ j, j < 0x4000 → wbufAt u j = (piece d 0x4000 c).getD j 0) :
    (pageFrame u).bytes = programTx d (c * 64 + p) := by
  rw [pageFrame_bytes, hcx, hpx, page_payload hd hc hp hw, programTx,
    show (c * 0x4000 + p * 0x100) / 0x10000 = (c * 64 + p) / 256 by omega,
    show (c * 0x4000 + p * 0x100) / 0x100 = c * 64 + p by omega]

/-- A page's write-enable and page-program sent (R263). -/
def pageSent (d : List Byte) (k : Nat) (s : State) : State :=
  framed (programTx d k) (framed [0x06] (assignSourced 0 s))

/-- The page's poll over as well, its one sample clear (R264). -/
def pageWritten (d : List Byte) (c p : Nat) (s : State) : State :=
  { assignSourced 0 s with
    pos := if p + 1 < 64 then .select .pageWren else .progress
    pageIx := if p + 1 < 64 then p + 1 else p
    sr1 := response (pollTx 1) (pageSent d (c * 64 + p) s) 1
    pollN := 1
    pollCnt := 1
    sample := none
    events := (framed (pollTx 1) (pageSent d (c * 64 + p) s)).events
    flash := (framed (pollTx 1) (pageSent d (c * 64 + p) s)).flash
    draws := (framed (pollTx 1) (pageSent d (c * 64 + p) s)).draws }

theorem programTx_length {d : List Byte} {k : Nat} (h : (k + 1) * 256 ≤ d.length) : (programTx d k).length = 260 := by
  simp [programTx, piece_length h]

theorem pageSent_flash {d bs : List Byte} {k : Nat} {s : State} (hf : s.flash = .oracle bs)
    (h : (k + 1) * 256 ≤ d.length) : (pageSent d k s).flash = .oracle (bs.drop 261) := by
  have hwren : (framed [0x06] (assignSourced 0 s)).flash = .oracle (bs.drop 1) := framed_oracle [0x06] hf
  rw [pageSent, framed_oracle _ hwren, programTx_length h, List.drop_drop]

/-- One page, on a quiet chip (R263, R264). -/
theorem upload_writes_page {c p : Nat} {d bs : List Byte} {s : State} (A : AtPage c p s) (hc : c < 512) (hp : p < 64)
    (hd : d.length = 0x800000) (hf : s.flash = .oracle bs) (hq : Quiet bs) (hl : 263 ≤ bs.length)
    (hw : ∀ j, j < 0x4000 → wbufAt (assignSourced 0 s) j = (piece d 0x4000 c).getD j 0) :
    execN .upload 269 s = .next (pageWritten d c p s) := by
  have hpage := upload_page A.busy A.pos A.cs
  rw [pageFrame_programTx (u := assignSourced 0 s) hd hc hp A.chunkIx A.pageIx hw] at hpage
  have hclear := poll_quiet (pageSent_flash (d := d) (k := c * 64 + p) hf (by omega)) (hq.drop 261)
    (by rw [List.length_drop]; omega)
  have hlimit (l : Word) : l = 0 ∨ 0 < l.toNat := (Nat.eq_zero_or_pos l.toNat).imp_left BitVec.eq_of_toNat_eq
  have hpoll := upload_pagePoll_ready (s := pageSent d (c * 64 + p) s) A.busy A.cs (n := 0) (hlimit _)
    (fun k h1 h0 => absurd h1 (by omega)) hclear
  have hpx : (pageSent d (c * 64 + p) s).pageIx = p := A.pageIx
  rw [hpx] at hpoll
  have hcount : BitVec.ofNat 32 (min 1 0xFFFFFFFF) = 1 := by decide
  have hwire : framed (pollTx 1) (pageSent d (c * 64 + p) s) =
      withWire (framed (pollTx 1) (pageSent d (c * 64 + p) s)) (assignSourced 0 s) :=
    framed_wired (framed_wired (framed_wired rfl))
  refine ((execN_add 4 hpage).trans hpoll).trans (congrArg _ ?_)
  rw [Nat.zero_add, pageWritten, sampled, hcount]
  generalize framed (pollTx 1) (pageSent d (c * 64 + p) s) = x at hwire
  conv_lhs => rw [hwire]
  rfl

theorem pageWritten_flash {c p : Nat} {d bs : List Byte} {s : State} (hf : s.flash = .oracle bs)
    (h : (c * 64 + p + 1) * 256 ≤ d.length) : (pageWritten d c p s).flash = .oracle (bs.drop 263) := by
  have hpoll : (framed (pollTx 1) (pageSent d (c * 64 + p) s)).flash = .oracle ((bs.drop 261).drop 2) :=
    framed_oracle (pollTx 1) (pageSent_flash hf h)
  rw [List.drop_drop] at hpoll
  exact hpoll

/-- The three frames of a page on MOSI (R263, R264). -/
theorem pageWritten_sent (d : List Byte) (c p : Nat) (s : State) :
    sent (pageWritten d c p s).events = sent s.events ++ sentFrames (pageFrames d (c * 64 + p)) := by
  rw [pageWritten, sent_framed, pageSent, sent_framed, sent_framed, List.append_assoc, List.append_assoc,
    ← sentFrames_append, ← sentFrames_append]
  rfl

theorem pageWritten_ports (d : List Byte) (c p : Nat) (s : State) :
    offWire (pageWritten d c p s).events = offWire s.events := calc
  _ = offWire (pageSent d (c * 64 + p) s).events := offWire_framed ..
  _ = offWire (framed [0x06] (assignSourced 0 s)).events := offWire_framed ..
  _ = offWire s.events := offWire_framed ..

/-- A page leaves in WBUF what stood there once a chunk's waiting bytes were assigned. -/
theorem pageWritten_wbuf (d : List Byte) (c p : Nat) (s : State) (j : Nat) :
    wbufAt (assignSourced 0 (pageWritten d c p s)) j = wbufAt (assignSourced 0 s) j := by
  have hnone : (pageWritten d c p s).sourced = none := by rw [pageWritten, assignSourced_sourced]
  rw [assignSourced_none 0 hnone]
  apply wbufAt_congr <;> rw [pageWritten]

/-! ### The pages of a chunk (R260, R263) -/

/-- `s` with what the writing of pages changes taken from `x`. -/
def withPage (x s : State) : State :=
  { s with
    pos := x.pos
    pageIx := x.pageIx
    sr1 := x.sr1
    pollN := x.pollN
    pollCnt := x.pollCnt
    sample := x.sample
    sourced := x.sourced
    wbuf := x.wbuf
    events := x.events
    flash := x.flash
    draws := x.draws }

/-- `p` pages of chunk `c` lead from `s` to `t`, the source's bytes being `d` and the chip's `bs`. A chunk's source
bytes that wait count as in WBUF (R21). -/
structure Paged (c p : Nat) (d bs : List Byte) (s t : State) : Prop where
  sent : sent t.events = sent s.events ++ sentFrames ((List.range p).flatMap fun j => pageFrames d (c * 64 + j))
  ports : offWire t.events = offWire s.events
  wbuf : ∀ j, wbufAt (assignSourced 0 t) j = wbufAt (assignSourced 0 s) j
  flash : t.flash = .oracle (bs.drop (p * 263))
  next : p < 64 → AtPage c p t
  done : p = 64 → t.pos = .progress
  polled : p ≠ 0 → t.sourced = none ∧ t.sample = none ∧ t.pollCnt = 1
  frame : t = withPage t s

section Pages

variable {c p : Nat} {d bs : List Byte} {s t : State}

theorem Paged.refl (A : AtPage c 0 s) (hf : s.flash = .oracle bs) : Paged c 0 d bs s s where
  sent := by simp [sentFrames]
  ports := rfl
  wbuf := fun _ => rfl
  flash := by simpa using hf
  next := fun _ => A
  done := nofun
  polled := fun h => absurd rfl h
  frame := rfl

theorem Paged.kept (P : Paged c p d bs s t) :
    t.busy = s.busy ∧ t.cs = s.cs ∧ t.chunkIx = s.chunkIx ∧ t.byteIx = s.byteIx ∧ t.source = s.source := by
  rw [P.frame]
  exact ⟨rfl, rfl, rfl, rfl, rfl⟩

/-- One more page. -/
theorem Paged.page (P : Paged c p d bs s t) (hc : c < 512) (hp : p < 64) (hd : d.length = 0x800000) (hq : Quiet bs)
    (hl : (p + 1) * 263 ≤ bs.length)
    (hw : ∀ j, j < 0x4000 → wbufAt (assignSourced 0 s) j = (piece d 0x4000 c).getD j 0) :
    execN .upload 269 t = .next (pageWritten d c p t) ∧ Paged c (p + 1) d bs s (pageWritten d c p t) := by
  have A := P.next hp
  refine ⟨upload_writes_page A hc hp hd P.flash (hq.drop _) (by rw [List.length_drop]; omega)
    fun j hj => (P.wbuf j).trans (hw j hj), ?_⟩
  constructor
  case sent =>
    rw [pageWritten_sent, P.sent, List.append_assoc, ← sentFrames_append, List.range_succ, List.flatMap_append,
      List.flatMap_singleton]
  case ports => rw [pageWritten_ports, P.ports]
  case wbuf => exact fun j => (pageWritten_wbuf d c p t j).trans (P.wbuf j)
  case flash => rw [pageWritten_flash (d := d) P.flash (by lia), List.drop_drop, Nat.succ_mul]
  case next =>
    intro hlt
    constructor <;> rw [pageWritten]
    · exact A.busy
    · exact if_pos hlt
    · exact A.cs
    · exact A.chunkIx
    · exact if_pos hlt
  case done => exact fun he => by rw [pageWritten]; exact if_neg (by omega)
  case polled => exact fun _ => by rw [pageWritten]; exact ⟨rfl, rfl, rfl⟩
  case frame =>
    calc pageWritten d c p t = withPage (pageWritten d c p t) t := rfl
      _ = withPage (pageWritten d c p t) s := by rw [P.frame]; rfl

/-- The pages of a chunk one after another (R263). -/
theorem upload_pages (A : AtPage c 0 s) (hf : s.flash = .oracle bs) (hc : c < 512) (hd : d.length = 0x800000)
    (hq : Quiet bs) (hw : ∀ j, j < 0x4000 → wbufAt (assignSourced 0 s) j = (piece d 0x4000 c).getD j 0) (p : Nat)
    (hp : p ≤ 64) (hl : p * 263 ≤ bs.length) :
    ∃ t, execN .upload (p * 269) s = .next t ∧ Paged c p d bs s t := by
  induction p with
  | zero => exact ⟨s, by rw [Nat.zero_mul]; rfl, Paged.refl A hf⟩
  | succ p ih =>
    obtain ⟨t, hx, P⟩ := ih (by omega) (by lia)
    obtain ⟨hx', P'⟩ := P.page hc (by omega) hd hq hl hw
    exact ⟨_, by rw [Nat.succ_mul, execN_add _ hx, hx'], P'⟩

end Pages

/-! ### The chunks (R260, R262, R265) -/

/-- UPLOAD about to ask the source for chunk `c` (R260). -/
structure AtSource (c : Nat) (s : State) : Prop where
  busy : s.busy = true
  pos : s.pos = .sourceRead
  cs : s.cs = false
  chunkIx : s.chunkIx = c
  pageIx : s.pageIx = 0

/-- The source's answer `x` to a chunk's request, before its first page (R262). -/
def chunkSourced (x : List Byte) (s : State) : State :=
  setPos (.select .pageWren) (keepSourced x (sourceRead 0x4000 true x (setPhase .transfer s)))

theorem chunkSourced_atPage {c : Nat} {s : State} (A : AtSource c s) (x : List Byte) : AtPage c 0 (chunkSourced x s) :=
  ⟨A.busy, rfl, A.cs, A.chunkIx, A.pageIx⟩

/-- With the chunk that waits assigned, WBUF is that chunk (R21, R262). -/
theorem chunkSourced_wbuf {x : List Byte} (hx : x.length = 0x4000) (s : State) (j : Nat) :
    wbufAt (assignSourced 0 (chunkSourced x s)) j = if j < 0x4000 then x.getD j 0 else wbufAt s j := by
  rw [wbufAt_assignSourced (d := x) 0 j rfl, hx]
  exact if_congr (by omega) rfl (wbufAt_congr rfl rfl j)

theorem chunkSourced_flash (x : List Byte) (s : State) : (chunkSourced x s).flash = s.flash := rfl

theorem chunkSourced_events (x : List Byte) (s : State) :
    (chunkSourced x s).events = s.events ++ [.sourceRead 0x4000 true x] := rfl

theorem chunkSourced_source (x : List Byte) (s : State) : (chunkSourced x s).source = sourceRest s.source 0x4000 := rfl

theorem chunkSourced_byteIx (x : List Byte) (s : State) : (chunkSourced x s).byteIx = s.byteIx := rfl

theorem upload_asks_source {c : Nat} {s : State} (A : AtSource c s) {e : List Byte} {r : List SourceAnswer}
    (hs : s.source = .bytes e :: r) (hl : 0x4000 ≤ e.length) :
    exec .upload s = .next (chunkSourced (e.take 0x4000) s) := by
  have hreply : sourceReply s Config.chunkSize = .data (e.take Config.chunkSize) := sourceReply_of_bytes hs hl
  rw [exec_busy A.busy, chunkSourced, ← chunkSize_eq]
  simp only [seqOf, seqUpload, A.pos, uploadSourceStep, hreply]

/-- The next chunk, or the end, in numbers (R260). -/
theorem uploadNextChunk_eq (s : State) :
    uploadNextChunk s =
      { s with
        pos := if s.chunkIx + 1 < 512 then .sourceRead else .finish
        chunkIx := if s.chunkIx + 1 < 512 then s.chunkIx + 1 else s.chunkIx
        pageIx := if s.chunkIx + 1 < 512 then 0 else s.pageIx
        byteIx := if s.chunkIx + 1 < 512 then 0 else s.byteIx } := by
  rw [uploadNextChunk, numChunks_eq]
  split <;> apply State.ext <;> simp

/-- The end of a chunk, in numbers (R260, R265). -/
theorem uploadProgressStep_eq {s : State} (h : s.chunkIx < 512) :
    uploadProgressStep s =
      { s with
        cursor := BitVec.ofNat 24 ((s.chunkIx + 1) * 0x4000)
        pct := BitVec.ofNat 8 ((s.chunkIx + 1) * 100 / 512)
        events := s.events ++ [.progress ((s.chunkIx + 1) * 0x4000) 0x800000]
        pos := if s.chunkIx + 1 < 512 then .sourceRead else .finish
        chunkIx := if s.chunkIx + 1 < 512 then s.chunkIx + 1 else s.chunkIx
        pageIx := if s.chunkIx + 1 < 512 then 0 else s.pageIx
        byteIx := if s.chunkIx + 1 < 512 then 0 else s.byteIx } := by
  have hmul : s.chunkIx * Config.chunkSize + Config.chunkSize = (s.chunkIx + 1) * 0x4000 := by
    rw [chunkSize_eq, Nat.succ_mul]
  have hc : (BitVec.ofNat 24 ((s.chunkIx + 1) * 0x4000)).toNat = (s.chunkIx + 1) * 0x4000 :=
    toNat_cursor (by rw [totalSize_eq]; omega)
  have hpct : percent ((s.chunkIx + 1) * 0x4000) = BitVec.ofNat 8 ((s.chunkIx + 1) * 100 / 512) := by
    rw [percent, totalSize_eq]
    exact congrArg (BitVec.ofNat 8) (by omega)
  rw [uploadProgressStep, hmul, uploadNextChunk_eq]
  generalize (s.chunkIx + 1) * 0x4000 = k at hc hpct ⊢
  apply State.ext <;> simp [hc, hpct, totalSize_eq] <;> rfl

/-- `s` with what UPLOAD's loop writes taken from `x`. -/
def withUpload (x s : State) : State :=
  { withPage x s with
    phase := x.phase
    chunkIx := x.chunkIx
    byteIx := x.byteIx
    cursor := x.cursor
    pct := x.pct
    source := x.source }

/-- What UPLOAD's chunk `k` of the bytes `d` shows on the stream and progress ports (R262, R265). -/
def uploadPorts (d : List Byte) (k : Nat) : List BusEvent :=
  [.sourceRead 0x4000 true (piece d 0x4000 k), .progress ((k + 1) * 0x4000) 0x800000]

/-- A source with the whole device and a quiet chip that has settled on enough bytes (logs 4, 5). -/
structure Uploads (d bs : List Byte) (r : List SourceAnswer) (s : State) : Prop where
  length : d.length = 0x800000
  source : s.source = .bytes d :: r
  flash : s.flash = .oracle bs
  settled : 512 * 16832 ≤ bs.length
  quiet : Quiet bs

/-- `c` chunks of UPLOAD lead from `s` to `t`, the source's bytes being `d` and the chip's `bs`. -/
structure Uploaded (c : Nat) (d bs : List Byte) (r : List SourceAnswer) (s t : State) : Prop where
  sent : sent t.events = sent s.events ++ sentFrames ((List.range (c * 64)).flatMap (pageFrames d))
  ports : offWire t.events = offWire s.events ++ (List.range c).flatMap (uploadPorts d)
  last : ∀ k, c = k + 1 → ∀ j, wbufAt t j = if j < 0x4000 then (piece d 0x4000 k).getD j 0 else wbufAt s j
  above : ∀ j, 0x4000 ≤ j → wbufAt t j = wbufAt s j
  cursor : c ≠ 0 → t.cursor = BitVec.ofNat 24 (c * 0x4000)
  pct : c ≠ 0 → t.pct = BitVec.ofNat 8 (c * 100 / 512)
  source : t.source = if c < 512 then .bytes (d.drop (c * 0x4000)) :: r else r
  flash : t.flash = .oracle (bs.drop (c * 16832))
  byteIx : t.byteIx = 0
  polled : c ≠ 0 → t.sourced = none ∧ t.sample = none ∧ t.pollCnt = 1
  next : c < 512 → AtSource c t
  done : c = 512 → t.pos = .finish
  frame : t = withUpload t s

section Chunks

variable {c : Nat} {d bs : List Byte} {r : List SourceAnswer} {s t : State}

theorem Uploaded.refl (U : Uploads d bs r s) (A : AtSource 0 s) (hbx : s.byteIx = 0) : Uploaded 0 d bs r s s where
  sent := by simp [sentFrames]
  ports := by simp
  last := nofun
  above := fun _ _ => rfl
  cursor := fun h => absurd rfl h
  pct := fun h => absurd rfl h
  source := by simpa using U.source
  flash := by simpa using U.flash
  byteIx := hbx
  polled := fun h => absurd rfl h
  next := fun _ => A
  done := nofun
  frame := rfl

/-- A chunk's source request, its 64 pages and the step of its progress. -/
theorem Uploaded.chunk_runs (D : Uploaded c d bs r s t) (U : Uploads d bs r s) (hc : c < 512) :
    ∃ v, execN .upload 17218 t = .next (uploadProgressStep v) ∧
      Paged c 64 d (bs.drop (c * 16832)) (chunkSourced (piece d 0x4000 c) t) v := by
  have hlen := U.length
  have hsettled := U.settled
  have hsrc := D.source
  rw [if_pos hc] at hsrc
  have hask : exec .upload t = .next (chunkSourced (piece d 0x4000 c) t) :=
    upload_asks_source (D.next hc) hsrc (by rw [List.length_drop]; omega)
  have hw := chunkSourced_wbuf (x := piece d 0x4000 c) (piece_length (by lia)) t
  have B := chunkSourced_atPage (D.next hc) (piece d 0x4000 c)
  obtain ⟨v, hpages, P⟩ := upload_pages B ((chunkSourced_flash ..).trans D.flash) hc hlen (U.quiet.drop _)
    (fun j hj => by rw [hw, if_pos hj]) 64 (Nat.le_refl _) (by rw [List.length_drop]; lia)
  obtain ⟨hbusy, -⟩ := P.kept
  have hend : exec .upload v = .next (uploadProgressStep v) := by
    rw [exec_busy (hbusy.trans B.busy)]
    simp only [seqOf, seqUpload, P.done rfl]
  refine ⟨v, ?_, P⟩
  rw [show 17218 = 64 * 269 + 1 + 1 from rfl, execN_succ _ hask, execN_add 1 hpages, execN_succ 0 hend, execN]

/-- One more chunk. -/
theorem Uploaded.chunk (D : Uploaded c d bs r s t) (U : Uploads d bs r s) (hc : c < 512) :
    ∃ u, execN .upload 17218 t = .next u ∧ Uploaded (c + 1) d bs r s u := by
  have hlen := U.length
  obtain ⟨v, hx, P⟩ := D.chunk_runs U hc
  have B := chunkSourced_atPage (D.next hc) (piece d 0x4000 c)
  obtain ⟨hbusy, hcs, hcx, hbx, hsource⟩ := P.kept
  rw [B.busy] at hbusy
  rw [B.cs] at hcs
  rw [B.chunkIx] at hcx
  rw [chunkSourced_byteIx, D.byteIx] at hbx
  rw [chunkSourced_source, D.source, if_pos hc] at hsource
  have hu := uploadProgressStep_eq (hcx.symm ▸ hc)
  rw [hcx] at hu
  generalize uploadProgressStep v = u at hx hu
  obtain ⟨hsourced, hsample, hcount⟩ := P.polled (by omega)
  have hwu (j : Nat) : wbufAt u j = if j < 0x4000 then (piece d 0x4000 c).getD j 0 else wbufAt t j := by
    have hsame : wbufAt u j = wbufAt (assignSourced 0 v) j := by
      rw [assignSourced_none 0 hsourced, hu]
      rfl
    rw [hsame, P.wbuf, chunkSourced_wbuf (piece_length (by lia))]
  have hev : u.events = v.events ++ [.progress ((c + 1) * 0x4000) 0x800000] := by rw [hu]
  refine ⟨u, hx, ?_⟩
  constructor
  case sent =>
    rw [hev, sent_append, sent_offWire rfl, List.append_nil, P.sent, chunkSourced_events, sent_append, sent_offWire rfl,
      List.append_nil, D.sent, List.append_assoc, ← sentFrames_append, Nat.succ_mul, List.range_add,
      List.flatMap_append, List.flatMap_map]
  case ports =>
    rw [hev, offWire_append, P.ports, chunkSourced_events, offWire_append, D.ports, List.range_succ,
      List.flatMap_append, List.append_assoc, List.append_assoc]
    rfl
  case last =>
    rintro k hk j
    obtain rfl : k = c := by omega
    rw [hwu]
    split
    · rfl
    · exact D.above j (by omega)
  case above => exact fun j hj => by rw [hwu, if_neg (by omega), D.above j hj]
  case cursor => exact fun _ => by rw [hu]
  case pct => exact fun _ => by rw [hu]
  case source =>
    have hrest : u.source = v.source := by rw [hu]
    rw [hrest, hsource, sourceRest, List.length_drop, List.drop_drop, hlen, Nat.succ_mul]
    exact if_congr (by omega) rfl rfl
  case flash =>
    have hleft : u.flash = v.flash := by rw [hu]
    rw [hleft, P.flash, List.drop_drop, Nat.succ_mul c]
  case byteIx =>
    rw [hu, hbx]
    exact ite_self 0
  case polled => exact fun _ => by rw [hu]; exact ⟨hsourced, hsample, hcount⟩
  case next =>
    intro hlt
    constructor <;> rw [hu]
    · exact hbusy
    · exact if_pos hlt
    · exact hcs
    · exact if_pos hlt
    · exact if_pos hlt
  case done => exact fun he => by rw [hu]; exact if_neg (by omega)
  case frame =>
    calc u = withUpload u v := by rw [hu]; rfl
      _ = withUpload u t := by rw [P.frame]; rfl
      _ = withUpload u s := by rw [D.frame]; rfl

/-- The chunks one after another (R260). -/
theorem upload_chunks (U : Uploads d bs r s) (A : AtSource 0 s) (hbx : s.byteIx = 0) (c : Nat) (hc : c ≤ 512) :
    ∃ t, execN .upload (c * 17218) s = .next t ∧ Uploaded c d bs r s t := by
  induction c with
  | zero => exact ⟨s, by rw [Nat.zero_mul]; rfl, Uploaded.refl U A hbx⟩
  | succ c ih =>
    obtain ⟨t, hx, D⟩ := ih (by omega)
    obtain ⟨u, hx', D'⟩ := D.chunk U (by omega)
    exact ⟨u, by rw [Nat.succ_mul, execN_add _ hx, hx'], D'⟩

end Chunks

/-! ### UPLOAD as a whole -/

theorem sourceReads_uploadPorts (d : List Byte) (c : Nat) :
    sourceReads ((List.range c).flatMap (uploadPorts d)) = List.replicate c (0x4000, true) := by
  induction c with
  | zero => rfl
  | succ c ih =>
    rw [List.range_succ, List.flatMap_append, List.flatMap_singleton, sourceReads_append, ih, List.replicate_succ']
    rfl

theorem progressEvents_uploadPorts (d : List Byte) (c : Nat) :
    progressEvents ((List.range c).flatMap (uploadPorts d)) = sweepProgress c := by
  induction c with
  | zero => rfl
  | succ c ih =>
    rw [List.range_succ, List.flatMap_append, List.flatMap_singleton, progressEvents_append, ih, sweepProgress_succ]
    rfl

/-- Acceptance neither reads nor writes what a frame changes (R302). -/
theorem accepted_wired {i : Instr} {x s : State} (h : x = withWire x s) :
    accepted i x = withWire x (accepted i s) := by
  conv_lhs => rw [h]
  simp only [accepted, bulkCleared, withWire]
  split <;> rfl

/-- UPLOAD after its erase, whose poll's first sample was clear: about to ask for chunk 0 (R261). -/
def uploadErased (s : State) : State :=
  { accepted .upload s with
    pos := .sourceRead
    sr1 := response (pollTx 1) (erased s) 1
    pollN := 1
    pollCnt := 1
    sample := none
    events := (framed (pollTx 1) (erased s)).events
    flash := (framed (pollTx 1) (erased s)).flash
    draws := (framed (pollTx 1) (erased s)).draws }

theorem uploadErased_atSource {s : State} (hc : s.cs = false) : AtSource 0 (uploadErased s) := by
  refine ⟨rfl, rfl, ?_, rfl, rfl⟩
  rw [uploadErased]
  exact hc

theorem uploadErased_sent (s : State) :
    sent (uploadErased s).events = sent s.events ++ sentFrames [[0x06], [0xC7], pollTx 1] := by
  have hev : (uploadErased s).events = (framed (pollTx 1) (erased s)).events := rfl
  rw [hev, sent_framed, erased, sent_framed, sent_framed, List.append_assoc, List.append_assoc, ← sentFrames_append,
    ← sentFrames_append]
  rfl

theorem uploadErased_ports (s : State) : offWire (uploadErased s).events = offWire s.events := calc
  _ = offWire (erased s).events := offWire_framed ..
  _ = offWire (framed [0x06] s).events := offWire_framed ..
  _ = offWire s.events := offWire_framed ..

theorem erased_flash {s : State} {bs : List Byte} (hf : s.flash = .oracle bs) :
    (erased s).flash = .oracle (bs.drop 2) := by
  rw [erased, framed_oracle _ (framed_oracle _ hf), List.drop_drop]
  rfl

theorem uploadErased_flash {s : State} {bs : List Byte} (hf : s.flash = .oracle bs) :
    (uploadErased s).flash = .oracle (bs.drop 4) := by
  have hpoll := framed_oracle (pollTx 1) (erased_flash hf)
  rw [List.drop_drop] at hpoll
  exact hpoll

/-- UPLOAD's erase on a quiet chip (R261). -/
theorem upload_erase_quiet {s : State} {bs : List Byte} (hb : s.busy = false) (hc : s.cs = false)
    (hf : s.flash = .oracle bs) (hq : Quiet bs) (hl : 4 ≤ bs.length) :
    execN .upload 11 s = .next (uploadErased s) := by
  have hlimit : s.pollLimit = 0 ∨ 0 < s.pollLimit.toNat :=
    (Nat.eq_zero_or_pos s.pollLimit.toNat).imp_left BitVec.eq_of_toNat_eq
  have hclear := poll_quiet (erased_flash hf) (hq.drop 2) (by rw [List.length_drop]; omega)
  have hcount : BitVec.ofNat 32 (min 1 0xFFFFFFFF) = 1 := by decide
  have hwire : framed (pollTx 1) (erased s) = withWire (framed (pollTx 1) (erased s)) s :=
    framed_wired (framed_wired (framed_wired rfl))
  refine (upload_erase_ready hb hc (n := 0) hlimit (fun k h1 h0 => absurd h1 (by omega)) hclear).trans ?_
  rw [Nat.zero_add, sampled, hcount, accepted_wired hwire]
  rfl

/-- Settles O42: acceptance and the erase, 512 chunks of 64 pages, and `Finish()` (R260 to R266). -/
theorem uploadProgramsTheDevice : Obligations.UploadProgramsTheDevice := by
  intro s bs d r hb hc hf hl hquiet hs hd
  have hq : Quiet bs := hquiet
  have hbegin := upload_erase_quiet hb hc hf hq (by omega)
  obtain ⟨v, hx, D⟩ := upload_chunks (s := uploadErased s) (d := d) (bs := bs.drop 4) (r := r)
    ⟨hd, hs, uploadErased_flash hf, by rw [List.length_drop]; omega, hq.drop 4⟩ (uploadErased_atSource hc) rfl 512
    (Nat.le_refl _)
  have hbusy : v.busy = true := by rw [D.frame]; rfl
  have hend : execN .upload 8815628 s = .next (finish v) := by
    rw [show 8815628 = 11 + (512 * 17218 + 1) from rfl, execN_add _ hbegin, execN_add 1 hx,
      execN_succ 0 (exec_finish hbusy (D.done rfl)), execN]
  obtain ⟨-, hprogress, hreads⟩ := ports_grown (uploadErased_ports s ▸ D.ports)
  rw [progressEvents_uploadPorts] at hprogress
  rw [sourceReads_uploadPorts] at hreads
  have hsent := D.sent
  rw [uploadErased_sent, List.append_assoc, ← sentFrames_append] at hsent
  obtain ⟨hsourced, hsample, hcount⟩ := D.polled (by omega)
  have hframe : finish v = finish (withUpload v (uploadErased s)) := congrArg finish D.frame
  refine ⟨finish v, hend, hsent, hreads, hprogress, fun j => D.last 511 rfl j, hframe.trans ?_⟩
  apply State.ext
  case cursor => exact D.cursor (by omega)
  case pct => exact D.pct (by omega)
  case pollCnt => exact hcount
  case sample => exact hsample
  case sourced => exact hsourced
  case byteIx => exact D.byteIx
  case flash => exact D.flash.trans (by rw [List.drop_drop])
  case source => exact D.source
  all_goals rfl

end Sys2Proof.Machine
end

section
/-! PROOFS. The statements of the exceptions (60_exceptions.md): a CMD write is the issue sequence with its
priorities, a refusal and its frame, `Finish()`, `Fail(cause)`, and the interrupt line. -/

namespace Sys2Proof.Machine

open Sys2Proof.Claims

/-! ### The issue sequence (R302) -/

section Issue
variable {w : Word} {s : State}

theorem issueOutcome_of_busy (hb : s.busy = true) : issueOutcome w s = { s with cmdRej := true } := if_pos hb

theorem issueOutcome_of_illegal {e : Illegal} (hb : s.busy = false) (hd : decode w = .error e) :
    issueOutcome w s = rejected w .illegal s := by
  simp [issueOutcome, hb, hd]

theorem issueOutcome_of_cause {i : Instr} {c : Cause} (hb : s.busy = false) (hd : decode w = .ok i)
    (h : issueCause i s = some c) : issueOutcome w s = rejected w c s := by
  simp [issueOutcome, hb, hd, h]

theorem issueOutcome_of_no_cause {i : Instr} (hb : s.busy = false) (hd : decode w = .ok i)
    (h : issueCause i s = none) : issueOutcome w s = accepted i s := by
  simp [issueOutcome, hb, hd, h]

end Issue

/-- Settles O9: the checks a command fails, if any, decide between its refusal and its acceptance. -/
theorem everyCommandIssues : Obligations.EveryCommandIssues := by
  intro i s hb
  cases h : issueCause i s with
  | none => rw [issueOutcome_of_no_cause hb (decode_encode i) h, exec_accepted hb h]
  | some c => rw [issueOutcome_of_cause hb (decode_encode i) h, exec_rejected hb h]

/-- Settles O7: the write is dropped while BUSY = 1 (R43), an illegal word refused, and a legal one issued. -/
theorem issueSequence : Obligations.IssueSequence := by
  intro s ms w hm
  cases hb : s.busy with
  | true => rw [cmdRejRule.1 s ms w hm hb, issueOutcome_of_busy (s := setMoves ms s) hb]
  | false =>
    cases hd : decode w with
    | error e => rw [step_of_illegal_word hd hm hb, issueOutcome_of_illegal (s := setMoves ms s) hb hd]
    | ok i =>
      rw [stepRunsIssuedCommand s ms w i hm hb hd, everyCommandIssues i (setMoves ms s) hb, ← eq_encode_of_decode hd]

/-! ### The priorities of the checks (R303) -/

/-- Chip select is not as the command needs it: the condition STATE (R161, R162). -/
def WrongSelect (i : Instr) (s : State) : Prop :=
  isTransport i = false ∧ s.cs = true ∨ (∃ b, i = .exchange b) ∧ s.cs = false

/-- LEN is out of the command's range: the condition LEN (R190, R194). -/
def WrongLength (i : Instr) (s : State) : Prop :=
  i = .read ∧ 256 < s.len.toNat ∨ i = .pp ∧ (256 < s.len.toNat ∨ 256 < s.addr.toNat % 256 + s.len.toNat)

section Priority
variable {i : Instr} {s : State}

theorem issueCause_of_wrongSelect (h : WrongSelect i s) : issueCause i s = some .state := by
  unfold issueCause
  rcases h with h | h
  · rw [if_pos h]
  · rw [if_pos h, ite_self]

theorem issueCause_of_not_wrongSelect (h : ¬WrongSelect i s) :
    issueCause i s =
      if i = .read ∧ 256 < s.len.toNat then some .len
      else if i = .pp ∧ (256 < s.len.toNat ∨ 256 < s.addr.toNat % 256 + s.len.toNat) then some .len
      else none := by
  obtain ⟨hcomposite, hexchange⟩ := not_or.1 h
  rw [issueCause, if_neg hcomposite, if_neg hexchange]

theorem issueCause_of_wrongLength (hs : ¬WrongSelect i s) (h : WrongLength i s) : issueCause i s = some .len := by
  rw [issueCause_of_not_wrongSelect hs]
  rcases h with h | h
  · rw [if_pos h]
  · rw [if_pos h, ite_self]

theorem issueCause_of_right (hs : ¬WrongSelect i s) (h : ¬WrongLength i s) : issueCause i s = none := by
  obtain ⟨hread, hprogram⟩ := not_or.1 h
  rw [issueCause_of_not_wrongSelect hs, if_neg hread, if_neg hprogram]

end Priority

/-- CMD_REJ is not the issue sequence's to change while BUSY = 0 (R43). -/
theorem issueOutcome_cmdRej {w : Word} {s : State} (hb : s.busy = false) : (issueOutcome w s).cmdRej = s.cmdRej := by
  cases hd : decode w with
  | error e => rw [issueOutcome_of_illegal hb hd, rejected]
  | ok i =>
    cases h : issueCause i s with
    | some c => rw [issueOutcome_of_cause hb hd h, rejected]
    | none =>
      rw [issueOutcome_of_no_cause hb hd h, ← accept_eq_accepted]
      cases i <;> rfl

/-- Settles O8: each clause names the highest condition that applies, and with it the branch of the issue sequence. -/
theorem issuePriority : Obligations.IssuePriority := by
  intro s ms w hm
  refine ⟨_, issueSequence s ms w hm, issueOutcome_of_busy (s := setMoves ms s), fun hb => ⟨issueOutcome_cmdRej hb,
    fun ⟨e, hd⟩ => ?illegal, fun i hd => ⟨fun hs => ?state, fun hs hl => ?len, fun hs hl => ?accepted⟩⟩⟩
  case illegal =>
    rw [issueOutcome_of_illegal (s := setMoves ms s) hb hd]
    exact ⟨hb, rfl, rfl⟩
  case state =>
    rw [issueOutcome_of_cause (s := setMoves ms s) hb hd (issueCause_of_wrongSelect hs)]
    exact ⟨hb, rfl, rfl⟩
  case len =>
    rw [issueOutcome_of_cause (s := setMoves ms s) hb hd (issueCause_of_wrongLength hs hl)]
    exact ⟨hb, rfl, rfl⟩
  case accepted =>
    rw [issueOutcome_of_no_cause (s := setMoves ms s) hb hd (issueCause_of_right hs hl)]
    exact ⟨rfl, rfl, rfl⟩

/-! ### Refusal (R304) -/

/-- Settles O10: whatever the cause, the issue sequence ends in `rejected`, which writes CMD and the outcome flags. -/
theorem rejectLeavesTheRest : Obligations.RejectLeavesTheRest := by
  intro s ms w c hm hb hp hc
  have hout : issueOutcome w (setMoves ms s) = rejected w c (setMoves ms s) := by
    rcases hc with ⟨⟨e, hd⟩, rfl⟩ | ⟨i, hd, hi⟩
    · exact issueOutcome_of_illegal hb hd
    · exact issueOutcome_of_cause hb hd hi
  have hx : step s = .next (rejected w c (setMoves ms s)) := hout ▸ issueSequence s ms w hm
  exact ⟨_, hx, rfl, rfl, hb, hp, rfl, rfl⟩

/-! ### Completion and failure (R305, R306) -/

/-- Chip select at a command's `Finish()`: active after SELECT and EXCHANGE alone (R305). -/
theorem csAt_finish_iff (i : Instr) : csAt i .finish = some true ↔ i = .select ∨ ∃ b, i = .exchange b := by
  cases i <;> simp [csAt]

theorem csAt_finish_isSome (i : Instr) : ∃ b, csAt i .finish = some b := by
  cases i <;> exact ⟨_, rfl⟩

/-- Settles O20: `Finish()` leaves chip select alone, and a running command has it as its position says. -/
theorem finishStep : Obligations.FinishStep := by
  intro i s hb hp
  refine ⟨finish s, exec_finish hb hp, rfl, fun R => ?_⟩
  obtain ⟨b, hcs⟩ := csAt_finish_isSome i
  have hs : s.cs = b := R.cs b (hp ▸ hcs)
  rw [finish_cs, hs, ← csAt_finish_iff, hcs, Option.some.injEq]

theorem exec_verifyFail {s : State} {c : Cause} (hb : s.busy = true) (hp : s.pos = .fail c) :
    exec .verify s = .next (fail c s) := by
  rw [exec_busy hb]
  simp only [seqOf, seqVerify, hp]

/-- Settles O21: the failing position of each command is `Fail(c)`, after a poll with the sample assigned; the
mismatch's step writes its registers, which `Fail` keeps. -/
theorem failStep : Obligations.FailStep := by
  intro s hb
  refine ⟨fun i c hi hp => ?_, fun i c hi hp => ?_, fun hp => ?_⟩
  · rcases hi with rfl | rfl
    · exact exec_dumpFail hb hp
    · exact exec_verifyFail hb hp
  · rw [counted_eq]
    rcases hi with rfl | rfl
    · exact exec_waitReadyFail hb hp
    · exact exec_uploadFail hb hp
  · exact exec_mismatch hb hp

/-! ### The interrupt line (R310) -/

/-- The two words share the bits of the three flags alone. -/
theorem statusWord_and_irqEnWord (s : State) :
    statusWord s &&& irqEnWord s =
      (0 : BitVec 27) ++ BitVec.ofBool (s.cmdRej && s.rejIe) ++ (0 : BitVec 1) ++ BitVec.ofBool (s.err && s.errIe) ++
        BitVec.ofBool (s.done && s.doneIe) ++ (0 : BitVec 1) := by
  unfold statusWord irqEnWord
  iterate 5 rw [BitVec.and_append]
  simp

/-- Settles O58: the bits the two words share are the enabled flags. -/
theorem irqIsEnabledFlag : Obligations.IrqIsEnabledFlag := by
  intro s
  rw [statusWord_and_irqEnWord, irq]
  generalize (s.done && s.doneIe) = d, (s.err && s.errIe) = e, (s.cmdRej && s.rejIe) = r
  revert d e r
  decide

end Sys2Proof.Machine
end

section
/-! PROOFS. The statements of reset and hazards (70_reset_and_hazards.md): the reset step, and that every command ends
where its polls are bounded and its streams answer. -/

namespace Sys2Proof.Machine

open Sys2Proof.Claims

/-! ### The reset step (R340 to R342) -/

/-- Settles O14: the next state is `resetStep`, whose buffers list nothing and read from the draw it makes. -/
theorem resetStepResets : Obligations.ResetStepResets := by
  intro s ms hm
  have hx : step s = .next (resetStep (setMoves ms s)) := step_of_move hm
  exact ⟨_, hx, rfl, fun _ => rfl, fun _ => rfl, Nat.lt_succ_self s.draws⟩

/-! ### How much of a command is left

The order in which a command's primitives come (R180, R220, R240, R252, R260, R270) as a rank that each of them but
the last lowers: the rounds of its loop, in a round the pages, on a page the stage of the position, at a stage the
bytes or samples. -/

/-- Where the frames of a command stand among its stages: UPLOAD's erase frames and a sweep's own frame before the
streams, the frames of a page and of READ_ID after them. -/
def frameStage : FrameTag → Nat
  | .eraseWren => 7
  | .eraseCe => 6
  | .erasePoll | .own => 5
  | .pageWren | .ident => 3
  | .pageProg | .status1 => 2
  | .pagePoll | .status2 => 1

/-- The stage of a position: in one round of a command it falls from primitive to primitive, but in the loops over
bytes and samples. -/
def stage : Pos → Nat
  | .select f => 4 * frameStage f + 3
  | .byte f _ => 4 * frameStage f + 2
  | .sample f => 4 * frameStage f + 1
  | .data => 18
  | .sourceRead | .sinkWrite => 17
  | .compare => 16
  | .progress => 3
  | .deselect .own => 2
  | .deselect f => 4 * frameStage f
  | .finish | .mismatch | .fail _ => 1
  | .idle => 0

theorem stage_deselect_lt_byte (f : FrameTag) (k : Nat) : stage (.deselect f) < stage (.byte f k) := by
  cases f <;> simp [stage, frameStage]

theorem stage_deselect_lt_sample (f : FrameTag) : stage (.deselect f) < stage (.sample f) := by
  cases f <;> decide

theorem stage_fail_lt_sample (c : Cause) (f : FrameTag) : stage (.fail c) < stage (.sample f) := by
  cases f <;> simp [stage, frameStage]

/-- The stage at which a round asks a stream. -/
def requestStage : Nat := stage .sourceRead

/-- No frame has more bytes: a header of four and a payload or response of LEN. -/
def frameBound : Nat := 4 + 2 ^ 16

/-- The rounds of its loop a bulk command has not ended: strides of VERIFY, chunks of DUMP and UPLOAD (R10). -/
def rounds : Instr → State → Nat
  | .verify, s => Config.numStrides - s.strideIx
  | _, s => Config.numChunks - s.chunkIx

/-- What is left of a loop over bytes or samples. -/
def inner (s : State) : Nat :=
  match s.pos with
  | .byte _ k => frameBound - k
  | .sample _ => s.lLimit.toNat - sampleCount s
  | .data => Config.chunkSize - s.byteIx
  | _ => 0

/-- What is left of a running command. -/
def rank (i : Instr) (s : State) : ℕ ×ₗ ℕ ×ₗ ℕ ×ₗ ℕ :=
  toLex (rounds i s, toLex (Config.pagesPerChunk - s.pageIx, toLex (stage s.pos, inner s)))

/-- The stream requests a bulk command has still to make: one each round (R252, R260, R270). -/
def requests (i : Instr) (s : State) : Nat :=
  if requestStage ≤ stage s.pos then rounds i s else rounds i s - 1

/-- What makes a running command end: a bound on its poll, and an answer settled for each request to come. -/
structure Provided (i : Instr) (s : State) : Prop where
  limit : i = .waitReady ∨ i = .upload → s.lLimit ≠ 0
  sink : i = .dump → requests i s ≤ s.sink.length
  source : i = .upload ∨ i = .verify → requests i s ≤ s.source.length

/-- The command has ended, with DONE or ERR (R37, R38). -/
def Ended (s : State) : Prop := s.busy = false ∧ (s.done = true ∨ s.err = true)

/-- A primitive that is not a command's last: it leaves the command running with less of it left. -/
structure Advances (i : Instr) (s t : State) : Prop where
  command : commandPart t = commandPart s
  provided : Provided i t
  rank : rank i t < rank i s

theorem ended_finish (s : State) : Ended (finish s) := ⟨rfl, .inl rfl⟩

theorem ended_fail (c : Cause) (s : State) : Ended (fail c s) := ⟨rfl, .inr rfl⟩

/-! ### What a primitive lowers -/

/-- What a primitive that asks no stream leaves alone: CMD, flags, latches and the settled answers. -/
def supplyPart (s : State) : (Word × Bool × Bool × Bool × Cause × BitVec 4 × Byte × Addr × BitVec 16) × Word ×
    List Bool × List SourceAnswer := (commandPart s, s.lLimit, s.sink, s.source)

/-- The loop indices, which a primitive inside a round and a page leaves alone. -/
def loopPart (s : State) : Nat × Nat × Nat := (s.chunkIx, s.strideIx, s.pageIx)

section Advance

variable {i : Instr} {s t : State}

theorem rounds_congr (h : loopPart t = loopPart s) : rounds i t = rounds i s := by
  simp only [loopPart, Prod.mk.injEq] at h
  obtain ⟨hc, hs, -⟩ := h
  unfold rounds
  split <;> simp only [hc, hs]

theorem requests_le (hr : rounds i t = rounds i s) (hs : stage t.pos ≤ stage s.pos) : requests i t ≤ requests i s := by
  unfold requests
  rw [hr]
  split_ifs <;> omega

/-- Each round left asks once at most. -/
theorem requests_le_rounds (i : Instr) (s : State) : requests i s ≤ rounds i s := by
  unfold requests
  split_ifs <;> omega

/-- Where the limit and the answers stay, no more requests to come are provided for too. -/
theorem Provided.keep (P : Provided i s) (h : supplyPart t = supplyPart s) (hr : requests i t ≤ requests i s) :
    Provided i t := by
  simp only [supplyPart, Prod.mk.injEq] at h
  obtain ⟨-, hl, hk, hs⟩ := h
  exact ⟨fun hi => hl ▸ P.limit hi, fun hi => hk ▸ hr.trans (P.sink hi), fun hi => hs ▸ hr.trans (P.source hi)⟩

theorem commandPart_of_supplyPart (h : supplyPart t = supplyPart s) : commandPart t = commandPart s :=
  congrArg Prod.fst h

/-- After its request a round has one request fewer to come than rounds are left. -/
theorem requests_of_asked (hs : stage s.pos < requestStage) : requests i s = rounds i s - 1 :=
  if_neg (Nat.not_le.2 hs)

/-- At the request of a round all rounds left have theirs to come. -/
theorem requests_of_asking (hs : stage s.pos = requestStage) : requests i s = rounds i s := if_pos hs.ge

theorem rank_lt_of_stage (h : loopPart t = loopPart s) (hs : stage t.pos < stage s.pos) : rank i t < rank i s := by
  have hr : rounds i t = rounds i s := rounds_congr h
  have hp : t.pageIx = s.pageIx := congrArg (fun l => l.2.2) h
  simp [rank, Prod.Lex.toLex_lt_toLex, hr, hp, hs]

theorem rank_lt_of_inner (h : loopPart t = loopPart s) (hs : stage t.pos = stage s.pos) (hi : inner t < inner s) :
    rank i t < rank i s := by
  have hr : rounds i t = rounds i s := rounds_congr h
  have hp : t.pageIx = s.pageIx := congrArg (fun l => l.2.2) h
  simp [rank, Prod.Lex.toLex_lt_toLex, hr, hp, hs, hi]

/-- A poll with a bound samples again only below it (R222). -/
theorem lt_of_afterSample {f : FrameTag} {limit : Word} {n : Nat} {b : Byte} (hl : limit ≠ 0)
    (h : afterSample f limit n b = .sample f) : n < limit.toNat := by
  unfold afterSample at h
  split_ifs at h with _ hn
  exact Nat.lt_of_not_le fun hle => hn ⟨hl, hle⟩

/-- A request takes at most one of the source's answers. -/
theorem length_le_sourceRest (l : List SourceAnswer) (n : Nat) : l.length ≤ (sourceRest l n).length + 1 := by
  unfold sourceRest
  split
  · simp
  · simp
  · split <;> simp

/-- A source with an answer settled does not leave a request pending. -/
theorem sourceReply_ne_pending {n : Nat} (h : s.source ≠ []) : sourceReply s n ≠ .pending := by
  unfold sourceReply
  split
  · split <;> nofun
  · nofun
  · exact absurd ‹_› h

/-- UPLOAD and VERIFY, asking the source, have an answer to come. -/
theorem Provided.source_ne_nil (P : Provided i s) (hi : i = .upload ∨ i = .verify) (hr : 0 < rounds i s)
    (hp : s.pos = .sourceRead) : s.source ≠ [] := by
  have hlen := P.source hi
  rw [requests_of_asking (by rw [hp]; rfl)] at hlen
  exact List.ne_nil_of_length_pos (hr.trans_le hlen)

variable (P : Provided i s)

include P

/-- A primitive that goes on to a lower stage of its round. -/
theorem advances_of_stage (h : supplyPart t = supplyPart s) (hl : loopPart t = loopPart s)
    (hs : stage t.pos < stage s.pos) : Advances i s t where
  command := commandPart_of_supplyPart h
  provided := P.keep h (requests_le (rounds_congr hl) hs.le)
  rank := rank_lt_of_stage hl hs

/-- A primitive inside a loop over bytes or samples. -/
theorem advances_of_inner (h : supplyPart t = supplyPart s) (hl : loopPart t = loopPart s)
    (hs : stage t.pos = stage s.pos) (hi : inner t < inner s) : Advances i s t where
  command := commandPart_of_supplyPart h
  provided := P.keep h (requests_le (rounds_congr hl) hs.le)
  rank := rank_lt_of_inner hl hs hi

/-- A primitive that begins the next page of its chunk, whose bytes the source has given. -/
theorem advances_of_page (h : supplyPart t = supplyPart s) (hr : rounds i t = rounds i s)
    (hs : stage s.pos < requestStage) (ht : stage t.pos < requestStage)
    (hp : Config.pagesPerChunk - t.pageIx < Config.pagesPerChunk - s.pageIx) : Advances i s t where
  command := commandPart_of_supplyPart h
  provided := P.keep h (by rw [requests_of_asked ht, requests_of_asked hs, hr])
  rank := by simp [rank, Prod.Lex.toLex_lt_toLex, hr, hp]

/-- A primitive that begins the next round, the request of this one made. -/
theorem advances_of_round (h : supplyPart t = supplyPart s) (hs : stage s.pos < requestStage)
    (hr : rounds i t + 1 = rounds i s) : Advances i s t where
  command := commandPart_of_supplyPart h
  provided := P.keep h (by rw [requests_of_asked hs, ← hr]; exact requests_le_rounds i t)
  rank := by simp [rank, Prod.Lex.toLex_lt_toLex, ← hr]

/-! ### The shared primitives -/

theorem select_advances {f : FrameTag} (hp : s.pos = .select f) : Advances i s (selectStep f s) := by
  refine advances_of_stage P (by simp [supplyPart, commandPart, selectStep]) (by simp [loopPart, selectStep]) ?_
  simp [selectStep, hp, stage]

theorem byte_advances {f : Frame} {keep : Nat → Byte → State → State} {tag : FrameTag} {marks : Bool} {k : Nat}
    (hk : RegisterKeep keep) (hf : f.size ≤ frameBound) (hp : s.pos = .byte tag k) :
    Advances i s (byteStep tag marks f keep k s) := by
  obtain ⟨hpart, hloop⟩ : supplyPart (byteStep tag marks f keep k s) = supplyPart s ∧
      loopPart (byteStep tag marks f keep k s) = loopPart s := by
    obtain ⟨x, e⟩ := byteStep_eq hk tag marks f k s
    rw [e]
    simp [supplyPart, loopPart, commandPart, withResponse]
  have hpos := byteStep_pos keep tag marks f k s
  rcases nextByte_cases f tag k with ⟨hlt, e⟩ | ⟨-, e⟩ <;> rw [e] at hpos
  · refine advances_of_inner P hpart hloop (by rw [hpos, hp]; rfl) ?_
    simp only [inner, hpos, hp]
    omega
  · refine advances_of_stage P hpart hloop ?_
    rw [hpos, hp]
    exact stage_deselect_lt_byte tag k

theorem deselect_advances {f : FrameTag} {marks : Bool} {after : Pos} (hp : s.pos = .deselect f)
    (hs : stage after < stage (.deselect f)) : Advances i s (deselectStep marks after s) := by
  refine advances_of_stage P (by simp [supplyPart, commandPart, deselectStep]) (by simp [loopPart, deselectStep]) ?_
  simpa [deselectStep, hp] using hs

theorem pollOpcode_advances {f : FrameTag} {marks : Bool} {k : Nat} (hp : s.pos = .byte f k) :
    Advances i s (pollOpcodeStep f marks s) := by
  refine advances_of_stage P (by simp [supplyPart, commandPart, pollOpcodeStep]) (by simp [loopPart, pollOpcodeStep]) ?_
  simp [pollOpcodeStep, hp, stage]

theorem sample_advances {f : FrameTag} (hl : s.lLimit ≠ 0) (hp : s.pos = .sample f) :
    Advances i s (sampleStep f s) := by
  have hpart : supplyPart (sampleStep f s) = supplyPart s := by simp [supplyPart, commandPart, sampleStep]
  have hloop : loopPart (sampleStep f s) = loopPart s := by simp [loopPart, sampleStep]
  have hpos : (sampleStep f s).pos = afterSample f s.lLimit (sampleCount s + 1) (rx Config.dummy s) := rfl
  rcases afterSample_cases f s.lLimit (sampleCount s + 1) (rx Config.dummy s) with e | e | e
  · refine advances_of_stage P hpart hloop ?_
    rw [hpos, e, hp]
    exact stage_deselect_lt_sample f
  · refine advances_of_stage P hpart hloop ?_
    rw [hpos, e, hp]
    exact stage_fail_lt_sample _ f
  · have hlt := lt_of_afterSample hl e
    have hcount : sampleCount (sampleStep f s) = sampleCount s + 1 := by simp [sampleCount, sampleStep]
    have hlim : (sampleStep f s).lLimit = s.lLimit := by simp [sampleStep]
    refine advances_of_inner P hpart hloop (by rw [hpos, e, hp]) ?_
    simp only [inner, hpos, e, hp, hcount, hlim]
    omega

theorem pollEnd_advances {f : FrameTag} {marks : Bool} {after : Pos} (hp : s.pos = .deselect f)
    (hs : stage after < stage (.deselect f)) : Advances i s (pollEndStep marks after s) := by
  refine advances_of_stage P (by simp [supplyPart, commandPart, pollEndStep, deselectStep])
    (by simp [loopPart, pollEndStep, deselectStep]) ?_
  simpa [pollEndStep, deselectStep, hp] using hs

theorem header_advances {k : Nat} (hp : s.pos = .byte .own k) : Advances i s (headerStep k s) := by
  have hpart : supplyPart (headerStep k s) = supplyPart s := by simp [supplyPart, commandPart, headerStep]
  have hloop : loopPart (headerStep k s) = loopPart s := by simp [loopPart, headerStep]
  have hpos : (headerStep k s).pos = afterHeader k := rfl
  rcases afterHeader_cases k with ⟨hk, e⟩ | ⟨-, e⟩ <;> rw [e] at hpos
  · refine advances_of_inner P hpart hloop (by rw [hpos, hp]; rfl) ?_
    simp only [inner, hpos, hp, frameBound]
    omega
  · refine advances_of_stage P hpart hloop ?_
    rw [hpos, hp]
    simp [stage, frameStage]

theorem data_advances {n : Nat} {after : Pos} (hn : n ≤ Config.chunkSize) (ha : stage after < stage .data)
    (hp : s.pos = .data) : Advances i s (dataStep n after s) := by
  have hpart : supplyPart (dataStep n after s) = supplyPart s := by simp [supplyPart, commandPart, dataStep]
  have hloop : loopPart (dataStep n after s) = loopPart s := by simp [loopPart, dataStep]
  have hpos : (dataStep n after s).pos = if s.byteIx + 1 < n then .data else after := rfl
  have hix : (dataStep n after s).byteIx = s.byteIx + 1 := by simp [dataStep]
  split_ifs at hpos with hk
  · refine advances_of_inner P hpart hloop (by rw [hpos, hp]) ?_
    simp only [inner, hpos, hp, hix]
    omega
  · refine advances_of_stage P hpart hloop ?_
    rw [hpos, hp]
    exact ha

theorem sweepEnd_advances (hp : s.pos = .deselect .own) : Advances i s (sweepEndStep s) := by
  refine advances_of_stage P (by simp [supplyPart, commandPart, sweepEndStep]) (by simp [loopPart, sweepEndStep]) ?_
  simp [sweepEndStep, hp, stage]

/-- The source's answer to UPLOAD or VERIFY. -/
theorem sourceRead_advances {n : Nat} (hi : i = .upload ∨ i = .verify) (hp : s.pos = .sourceRead)
    (h : commandPart t = commandPart s) (hl : t.lLimit = s.lLimit) (hloop : loopPart t = loopPart s)
    (hsrc : t.source = sourceRest s.source n) (hs : stage t.pos < requestStage) : Advances i s t := by
  have hstage : stage s.pos = requestStage := by rw [hp]; rfl
  refine ⟨h, ⟨fun hi => hl ▸ P.limit hi, ?_, fun hi => ?_⟩, rank_lt_of_stage hloop (hstage ▸ hs)⟩
  · rintro rfl
    simp at hi
  · have hlen := P.source hi
    have hle := length_le_sourceRest s.source n
    rw [requests_of_asking hstage] at hlen
    rw [requests_of_asked hs, rounds_congr hloop, hsrc]
    omega

end Advance

/-! ### Every primitive of a command ends it or advances it -/

section Commands

variable {s t : State}

theorem frameOf_size {i : Instr} {f : Frame} {keep : Nat → Byte → State → State} (h : frameOf i s = some (f, keep)) :
    f.size ≤ frameBound := by
  have hlen := s.lLen.isLt
  cases i <;> simp only [frameOf, Option.some.injEq, Prod.mk.injEq, reduceCtorEq] at h <;> obtain ⟨rfl, -⟩ := h
  case read => exact Nat.add_le_add_left hlen.le 4
  case pp => exact Nat.add_le_add_left hlen.le 4
  all_goals decide

theorem seqFrame_advances {i : Instr} {f : Frame} {keep : Nat → Byte → State → State}
    (hf : frameOf i s = some (f, keep)) (P : Provided i s) (hx : seqFrame f keep s = .next t) :
    Ended t ∨ Advances i s t := by
  unfold seqFrame at hx
  split at hx <;> cases hx <;> rename_i hp
  case h_1 => exact .inr (select_advances P hp)
  case h_2 => exact .inr (byte_advances P (frameOf_register hf) (frameOf_size hf) hp)
  case h_3 => exact .inr (deselect_advances P hp (by decide))
  case h_4 => exact .inl (ended_finish s)

theorem seqSelect_advances (P : Provided .select s) (hx : seqSelect s = .next t) : Ended t ∨ Advances .select s t := by
  unfold seqSelect at hx
  split at hx <;> cases hx <;> rename_i hp
  · exact .inr (advances_of_stage P (by simp [supplyPart, commandPart]) (by simp [loopPart]) (by simp [hp, stage]))
  · exact .inl (ended_finish s)

theorem seqExchange_advances {b : Byte} (P : Provided (.exchange b) s) (hx : seqExchange b s = .next t) :
    Ended t ∨ Advances (.exchange b) s t := by
  unfold seqExchange at hx
  split at hx <;> cases hx <;> rename_i hp
  · exact .inr (advances_of_stage P (by simp [supplyPart, commandPart]) (by simp [loopPart]) (by simp [hp, stage]))
  · exact .inl (ended_finish s)

theorem seqDeselect_advances (P : Provided .deselect s) (hx : seqDeselect s = .next t) :
    Ended t ∨ Advances .deselect s t := by
  unfold seqDeselect at hx
  split at hx <;> cases hx <;> rename_i hp
  · exact .inr (advances_of_stage P (by simp [supplyPart, commandPart]) (by simp [loopPart]) (by simp [hp, stage]))
  · exact .inl (ended_finish s)

theorem seqWaitReady_advances (P : Provided .waitReady s) (hx : seqWaitReady s = .next t) :
    Ended t ∨ Advances .waitReady s t := by
  unfold seqWaitReady at hx
  split at hx <;> cases hx <;> rename_i hp
  case h_1 => exact .inr (select_advances P hp)
  case h_2 => exact .inr (pollOpcode_advances P hp)
  case h_3 => exact .inr (sample_advances P (P.limit (.inl rfl)) hp)
  case h_4 => exact .inr (pollEnd_advances P hp (by decide))
  case h_5 => exact .inl (ended_finish s)
  case h_6 c => exact .inl (ended_fail c _)

theorem seqReadId_advances (P : Provided .readId s) (hx : seqReadId s = .next t) :
    Ended t ∨ Advances .readId s t := by
  unfold seqReadId at hx
  split at hx <;> cases hx <;> rename_i hp
  case h_1 | h_4 | h_7 => exact .inr (select_advances P hp)
  case h_2 => exact .inr (byte_advances P keepId_register (by decide) hp)
  case h_5 => exact .inr (byte_advances P keepSr1_register (by decide) hp)
  case h_8 => exact .inr (byte_advances P keepSr2_register (by decide) hp)
  case h_3 | h_6 | h_9 => exact .inr (deselect_advances P hp (by decide))
  case h_10 => exact .inl (ended_finish s)

/-- A running bulk command has a round left (R251). -/
theorem rounds_pos {i : Instr} (hi : isBulk i = true) (h : loopOk i s) : 0 < rounds i s := by
  cases i <;> simp only [isBulk, Bool.false_eq_true] at hi
  case dump | upload | verify =>
    obtain ⟨hlt, -⟩ := h
    exact Nat.sub_pos_of_lt hlt

/-- The sink's answer: a settled one is there, and DUMP goes on to its progress or its failure (R253). -/
theorem dumpSink_advances (P : Provided .dump s) (hr : 0 < rounds .dump s) (hp : s.pos = .sinkWrite) :
    Advances .dump s (dumpSinkStep s) := by
  have hstage : stage s.pos = requestStage := by rw [hp]; rfl
  have hlen := P.sink rfl
  rw [requests_of_asking hstage] at hlen
  obtain ⟨ok, r, hk⟩ := List.exists_cons_of_length_pos (hr.trans_le hlen)
  rw [hk, List.length_cons] at hlen
  have e : dumpSinkStep s =
      setPos (if ok then .progress else .fail .snkRej) (sinkWrite (wbufSlice s 0 Config.chunkSize) ok s) := by
    rw [dumpSinkStep, sinkReply_of_settled _ hk]
  rw [e]
  generalize wbufSlice s 0 Config.chunkSize = d
  have hs : stage (if ok then .progress else .fail .snkRej) < requestStage := by cases ok <;> decide
  have hloop : loopPart (setPos (if ok then .progress else .fail .snkRej) (sinkWrite d ok s)) = loopPart s := rfl
  refine ⟨rfl, ⟨nofun, fun _ => ?_, nofun⟩, rank_lt_of_stage hloop (hstage ▸ hs)⟩
  rw [requests_of_asked hs, rounds_congr hloop, setPos_sink, sinkWrite_sink, hk, List.tail_cons]
  omega

/-- The next chunk of DUMP or UPLOAD is the next round (R252, R260). -/
theorem nextChunk_advances {i : Instr} {u : State} {p : Pos} (P : Provided i s) (hi : i ≠ .verify)
    (h : supplyPart u = supplyPart s) (hloop : loopPart u = loopPart s) (hn : u.chunkIx + 1 < Config.numChunks)
    (hs : stage s.pos < requestStage) : Advances i s (setPos p (nextChunk u)) := by
  have hchunks (v : State) : rounds i v = Config.numChunks - v.chunkIx := by
    unfold rounds
    split
    · exact absurd rfl hi
    · rfl
  refine advances_of_round P h hs ?_
  rw [← rounds_congr hloop, hchunks, hchunks, setPos_chunkIx, nextChunk_chunkIx]
  omega

/-- The progress of a chunk begins the next round or ends the sweep (R252). -/
theorem dumpProgress_advances (P : Provided .dump s) (hp : s.pos = .progress) :
    Advances .dump s (dumpProgressStep s) := by
  unfold dumpProgressStep
  generalize s.cursor.toNat + Config.chunkSize = c
  rcases dumpNextChunk_cases (emitProgress (setCursor c s)) with ⟨hn, e⟩ | ⟨-, e⟩ <;> rw [e]
  · exact nextChunk_advances P nofun (by simp [supplyPart, commandPart]) (by simp [loopPart]) hn
      (by rw [hp]; decide)
  · exact advances_of_stage P (by simp [supplyPart, commandPart]) (by simp [loopPart]) (by simp [hp, stage])

theorem seqDump_advances (P : Provided .dump s) (hr : 0 < rounds .dump s) (hx : seqDump s = .next t) :
    Ended t ∨ Advances .dump s t := by
  unfold seqDump at hx
  split at hx <;> cases hx <;> rename_i hp
  case h_1 => exact .inr (select_advances P hp)
  case h_2 => exact .inr (header_advances P hp)
  case h_3 => exact .inr (data_advances P (Nat.le_refl _) (by decide) hp)
  case h_4 => exact .inr (dumpSink_advances P hr hp)
  case h_5 => exact .inr (dumpProgress_advances P hp)
  case h_6 => exact .inr (sweepEnd_advances P hp)
  case h_7 => exact .inl (ended_finish s)
  case h_8 c => exact .inl (ended_fail c s)

/-- The source's answer: a settled one is there, and UPLOAD goes on to its first page or its failure (R262). -/
theorem uploadSource_advances (P : Provided .upload s) (hr : 0 < rounds .upload s) (hp : s.pos = .sourceRead) :
    Advances .upload s (uploadSourceStep s) := by
  have hne := sourceReply_ne_pending (n := Config.chunkSize) (P.source_ne_nil (.inl rfl) hr hp)
  unfold uploadSourceStep
  split
  · exact absurd ‹_› hne
  all_goals
    refine sourceRead_advances P (n := Config.chunkSize) (.inl rfl) hp rfl rfl rfl rfl ?_
    simp [stage, frameStage, requestStage]

/-- The end of a page leads to the next page or to the chunk's progress (R264). -/
theorem pageEnd_advances (P : Provided .upload s) (hp : s.pos = .deselect .pagePoll) :
    Advances .upload s (pageEndStep s) := by
  rcases pageEndStep_cases s with ⟨hn, e⟩ | e <;> rw [e]
  · refine advances_of_page P ?_ rfl (by rw [hp]; decide) ?_ ?_
    · simp [supplyPart, commandPart, pollEndStep, deselectStep]
    · simp [pollEndStep, deselectStep, stage, frameStage, requestStage]
    · simp only [nextPage_pageIx, pollEndStep, deselectStep, setPos_pageIx, setPhase_pageIx, deselect_pageIx,
        assignSample_pageIx]
      omega
  · exact pollEnd_advances P hp (by decide)

/-- The progress of a chunk begins the next round or leads to `Finish()` (R260). -/
theorem uploadProgress_advances (P : Provided .upload s) (hp : s.pos = .progress) :
    Advances .upload s (uploadProgressStep s) := by
  unfold uploadProgressStep
  generalize s.chunkIx * Config.chunkSize + Config.chunkSize = c
  rcases uploadNextChunk_cases (emitProgress (setCursor c s)) with ⟨hn, e⟩ | ⟨-, e⟩ <;> rw [e]
  · exact nextChunk_advances P nofun (by simp [supplyPart, commandPart]) (by simp [loopPart]) hn
      (by rw [hp]; decide)
  · exact advances_of_stage P (by simp [supplyPart, commandPart]) (by simp [loopPart]) (by simp [hp, stage])

theorem seqUpload_advances (P : Provided .upload s) (hr : 0 < rounds .upload s) (hx : seqUpload s = .next t) :
    Ended t ∨ Advances .upload s t := by
  unfold seqUpload at hx
  split at hx <;> cases hx <;> rename_i hp
  case h_1 | h_4 | h_7 | h_15 | h_18 => exact .inr (select_advances P hp)
  case h_2 | h_5 | h_13 | h_16 => exact .inr (byte_advances P keepNone_register (of_decide_eq_true rfl) hp)
  case h_3 | h_6 | h_14 | h_17 => exact .inr (deselect_advances P hp (by decide))
  case h_8 | h_19 => exact .inr (pollOpcode_advances P hp)
  case h_9 | h_20 => exact .inr (sample_advances P (P.limit (.inr rfl)) hp)
  case h_10 => exact .inr (pollEnd_advances P hp (by decide))
  case h_11 => exact .inr (uploadSource_advances P hr hp)
  case h_12 =>
    refine .inr (advances_of_stage P ?_ ?_ ?_)
    · simp [supplyPart, commandPart, pageSelectStep, selectStep]
    · simp [loopPart, pageSelectStep, selectStep]
    · simp [pageSelectStep, selectStep, hp, stage]
  case h_21 => exact .inr (pageEnd_advances P hp)
  case h_22 => exact .inr (uploadProgress_advances P hp)
  case h_23 => exact .inl (ended_finish s)
  case h_24 c => exact .inl (ended_fail c _)

/-- The source's answer: a settled one is there, and VERIFY goes on to its comparison or its failure (R272). -/
theorem verifySource_advances (P : Provided .verify s) (hr : 0 < rounds .verify s) (hp : s.pos = .sourceRead) :
    Advances .verify s (verifySourceStep s) := by
  have hne := sourceReply_ne_pending (n := Config.halfSize) (P.source_ne_nil (.inr rfl) hr hp)
  unfold verifySourceStep
  split
  · exact absurd ‹_› hne
  all_goals
    refine sourceRead_advances P (n := Config.halfSize) (.inr rfl) hp rfl rfl rfl rfl ?_
    simp [stage, requestStage]

/-- The end of a stride begins the next one or ends the sweep (R270). -/
theorem verifyNextStride_advances {u : State} (P : Provided .verify s) (h : supplyPart u = supplyPart s)
    (hloop : loopPart u = loopPart s) (hlo : stage (.deselect .own) < stage s.pos)
    (hhi : stage s.pos < requestStage) : Advances .verify s (verifyNextStride u) := by
  have hstride : u.strideIx = s.strideIx := congrArg (fun l => l.2.1) hloop
  rcases verifyNextStride_cases u with ⟨hn, e⟩ | ⟨-, e⟩ <;> rw [e]
  · refine advances_of_round P h hhi ?_
    simp only [rounds, setPos_strideIx, nextStride_strideIx, hstride]
    omega
  · exact advances_of_stage P h hloop hlo

/-- A comparison finds a mismatch, or leads to progress or to the end of the stride (R273). -/
theorem verifyCompare_advances (P : Provided .verify s) (hp : s.pos = .compare) :
    Advances .verify s (verifyCompareStep s) := by
  unfold verifyCompareStep
  rcases verifyCompare_cases (assignSourced Config.halfSize s) with ⟨i, -, e⟩ | e | e <;> rw [e]
  · exact advances_of_stage P (by simp [supplyPart, commandPart]) (by simp [loopPart]) (by simp [hp, stage])
  · exact advances_of_stage P (by simp [supplyPart, commandPart]) (by simp [loopPart]) (by simp [hp, stage])
  · exact verifyNextStride_advances P (by simp [supplyPart, commandPart]) (by simp [loopPart]) (by rw [hp]; decide)
      (by rw [hp]; decide)

theorem seqVerify_advances (P : Provided .verify s) (hr : 0 < rounds .verify s) (hx : seqVerify s = .next t) :
    Ended t ∨ Advances .verify s t := by
  unfold seqVerify at hx
  split at hx
  case h_11 => cases hx
  all_goals injection hx with hx; subst hx; rename_i hp
  case h_1 => exact .inr (select_advances P hp)
  case h_2 => exact .inr (header_advances P hp)
  case h_3 => exact .inr (data_advances P (by decide) (by decide) hp)
  case h_4 => exact .inr (verifySource_advances P hr hp)
  case h_5 => exact .inr (verifyCompare_advances P hp)
  case h_6 => exact .inl (ended_fail _ _)
  case h_7 => exact .inr (verifyNextStride_advances P rfl rfl (by rw [hp]; decide) (by rw [hp]; decide))
  case h_8 => exact .inr (sweepEnd_advances P hp)
  case h_9 => exact .inl (ended_finish s)
  case h_10 c => exact .inl (ended_fail c s)

/-- A primitive of a running command that is provided for ends it or advances it. -/
theorem exec_busy_advances {i : Instr} (hb : s.busy = true) (R : Running i s) (P : Provided i s)
    (hx : exec i s = .next t) : Ended t ∨ Advances i s t := by
  rw [exec_busy hb] at hx
  cases i with
  | select => exact seqSelect_advances P hx
  | exchange b => exact seqExchange_advances P hx
  | deselect => exact seqDeselect_advances P hx
  | waitReady => exact seqWaitReady_advances P hx
  | readId => exact seqReadId_advances P hx
  | dump => exact seqDump_advances P (rounds_pos rfl R.loop) hx
  | upload => exact seqUpload_advances P (rounds_pos rfl R.loop) hx
  | verify => exact seqVerify_advances P (rounds_pos rfl R.loop) hx
  | rdid | rdsr1 | rdsr2 | read | wren | wrdi | ce | pp => exact seqFrame_advances rfl P hx

end Commands

/-! ### Every command ends (R354) -/

/-- A running command stays the one that runs while its latches stay. -/
theorem Inv.still_running {i : Instr} {s t : State} (h : Inv t) (hb : s.busy = true) (R : Running i s)
    (hc : commandPart t = commandPart s) : t.busy = true ∧ Running i t := by
  have hbt : t.busy = true := (congrArg (fun c => c.2.1) hc).trans hb
  obtain ⟨j, Rt⟩ := h.command hbt
  obtain rfl : j = i := Except.ok.inj (Rt.latch.symm.trans ((latched_of_commandPart hc).trans R.latch))
  exact ⟨hbt, Rt⟩

/-- A running command that is provided for comes to its end: its rank cannot fall for ever. -/
theorem running_ends {i : Instr} {s : State} (h : Inv s) (hb : s.busy = true) (R : Running i s) (P : Provided i s) :
    ∃ n t, execN i n s = .next t ∧ Ended t := by
  induction hr : rank i s using WellFoundedLT.induction generalizing s with
  | ind r ih =>
    obtain ⟨u, hu⟩ := seqOf_progress R.pos
    have hx : exec i s = .next u := (exec_busy hb).trans hu
    rcases exec_busy_advances hb R P hx with E | A
    · exact ⟨1, u, execN_succ 0 hx, E⟩
    · have hInv := exec_busy_keeps_inv h hb R hx
      obtain ⟨hbu, Ru⟩ := hInv.still_running hb R A.command
      obtain ⟨n, t, hn, E⟩ := ih _ (hr ▸ A.rank) hInv hbu Ru A.provided rfl
      exact ⟨n + 1, t, (execN_succ n hx).trans hn, E⟩

/-- A command just accepted is provided for by POLL_LIMIT and the settled answers of the streams. -/
theorem provided_of_accepted {i : Instr} {s : State} (hl : i = .waitReady ∨ i = .upload → s.pollLimit ≠ 0)
    (hk : i = .dump → 512 ≤ s.sink.length) (hs : i = .upload ∨ i = .verify → 1024 ≤ s.source.length) :
    Provided i (accept i (firstPos i) (initOf i s)) where
  limit := by
    rintro (rfl | rfl)
    · exact hl (.inl rfl)
    · exact hl (.inr rfl)
  sink := by
    rintro rfl
    exact (requests_le_rounds _ _).trans ((Nat.sub_le _ _).trans (numChunks_eq ▸ hk rfl))
  source := by
    rintro (rfl | rfl)
    · refine (requests_le_rounds _ _).trans ((Nat.sub_le _ _).trans ?_)
      exact numChunks_eq ▸ (hs (.inl rfl)).trans' (by decide)
    · exact (requests_le_rounds _ _).trans ((Nat.sub_le _ _).trans (numStrides_eq ▸ hs (.inr rfl)))

/-- Settles O49: a refusal ends the command at once; an accepted command runs until its rank can fall no more. -/
theorem everyCommandEnds : Obligations.EveryCommandEnds := by
  intro i s h hb hl hk hs
  have hx := exec_idle (i := i) hb
  cases hr : refuseOf i (recordCommand (encode i) s) with
  | some c =>
    rw [issue_refused hr] at hx
    exact ⟨1, _, execN_succ 0 hx, Nat.one_pos, hb, .inr rfl⟩
  | none =>
    rw [issue_accepted hr] at hx
    have R : Running i (accept i (firstPos i) (initOf i (recordCommand (encode i) s))) := by
      obtain ⟨j, R⟩ := (h.accepted hb hr).command rfl
      obtain rfl : j = i := Except.ok.inj (R.latch.symm.trans (latched_accept i _ _))
      exact R
    obtain ⟨n, t, hn, hbt, hd⟩ := running_ends (h.accepted hb hr) rfl R (provided_of_accepted hl hk hs)
    exact ⟨n + 1, t, (execN_succ n hx).trans hn, n.succ_pos, hbt, hd⟩

end Sys2Proof.Machine
end

section
/-! Memories by what they read: a canonical memory lists exactly the cells its reads show, in rising order. -/

namespace Sys2Proof.Machine

/-- The addresses a canonical memory lists rise strictly. -/
theorem Memory.pairwise_lt_of_wf {u : Option Byte} {n : Nat} {m : Memory} (h : Memory.wf u n m = true) :
    m.Pairwise (fun c d => c.1 < d.1) := by
  induction m with
  | nil => exact .nil
  | cons c m ih =>
    obtain ⟨-, -, hlt, hm⟩ := Memory.wf_cons.1 h
    exact .cons hlt (ih hm)

/-- A listed cell is below the size, and its byte is none that goes unlisted. -/
theorem Memory.bounds_of_mem {u : Option Byte} {n : Nat} {m : Memory} (h : Memory.wf u n m = true)
    {x : Nat} {b : Byte} (hc : (x, b) ∈ m) : x < n ∧ u ≠ some b := by
  induction m with
  | nil => cases hc
  | cons c m ih =>
    obtain ⟨hx, hb, -, hm⟩ := Memory.wf_cons.1 h
    rcases List.mem_cons.1 hc with rfl | hc
    · exact ⟨hx, hb⟩
    · exact ih hm hc

/-- In a canonical memory no cell hides another: each is the one found at its address. -/
theorem Memory.mem_iff_find {u : Option Byte} {n : Nat} {m : Memory} (h : Memory.wf u n m = true)
    {x : Nat} {b : Byte} : (x, b) ∈ m ↔ Memory.find m x = some b := by
  induction m with
  | nil => simp [Memory.find]
  | cons c m ih =>
    obtain ⟨a, d⟩ := c
    obtain ⟨-, -, hlt, hm⟩ := Memory.wf_cons.1 h
    by_cases hx : x = a
    · subst hx
      have hnot : (x, b) ∉ m := fun hc => Nat.lt_irrefl x (hlt _ hc)
      simp [Memory.find, hnot, eq_comm]
    · simp [Memory.find, hx, ih hm]

/-- The cells listed are those that read as no unlisted address does. -/
theorem Memory.mem_iff_read {u : Option Byte} {n : Nat} {m : Memory} (h : Memory.wf u n m = true)
    {x : Nat} {b : Byte} : (x, b) ∈ m ↔ x < n ∧ u ≠ some b ∧ Memory.read u m x = some b := by
  constructor
  · intro hc
    obtain ⟨hx, hb⟩ := Memory.bounds_of_mem h hc
    exact ⟨hx, hb, by simp [Memory.read, (Memory.mem_iff_find h).1 hc]⟩
  · rintro ⟨-, hb, hr⟩
    rw [Memory.mem_iff_find h]
    unfold Memory.read at hr
    split at hr
    next hf => exact hf.trans hr
    next => exact absurd hr hb

/-- Settles O19: the reads fix which cells are listed, and the rising addresses fix their order. -/
theorem canonicalMemoriesAgree : Obligations.CanonicalMemoriesAgree := by
  intro u n m m' h h' hread
  have hasymm : Std.Asymm (fun c d : Host.Cell => c.1 < d.1) := ⟨fun _ _ => Nat.lt_asymm⟩
  refine (Memory.pairwise_lt_of_wf h).eq_of_mem_iff (Memory.pairwise_lt_of_wf h') fun ⟨x, b⟩ => ?_
  rw [Memory.mem_iff_read h, Memory.mem_iff_read h']
  exact and_congr_right fun hx => by rw [hread x hx]

end Sys2Proof.Machine
end
